-- ==== Sys2Proof/Word.lean ====
section
/-!
DEFINITION. The widths of the values the machine handles (spec R7, R9): XLEN is 32, a halfword is 16 bits,
a byte 8 bits, a general register number 5 bits, a short register field 3 bits, a CSR address 12 bits.
Every value is a bit vector of stated width, and word arithmetic is modulo 2^32 (R9).
-/

namespace Sys2Proof

/-- A word: 32 bits (R7, R9). -/
abbrev Word := BitVec 32

/-- A halfword: 16 bits (R9). -/
abbrev Half := BitVec 16

/-- A byte: 8 bits (R9). -/
abbrev Byte := BitVec 8

/-- The number of a general register, 0..31 (R21). -/
abbrev Reg := BitVec 5

/-- A 3-bit register field of a 16-bit instruction (R140). -/
abbrev ShortReg := BitVec 3

/-- A CSR address: 12 bits (R7, R40). -/
abbrev CsrAddr := BitVec 12

end Sys2Proof
end

