-- ==== Sys2Proof/Syntax.lean ====
section
/-!
DEFINITION. The instructions: one constructor for each of the 138 rows of spec/opcode_table.json, with the operands its
encoding holds. An immediate operand holds exactly the bits its encoding has, already put in order (R123 to
R129, R142) and not yet extended or scaled: `imm : BitVec 12` is `imm[11:0]`, a branch offset is `imm[12:1]`,
and so on. How each is extended is in Machine/Operands.lean.
-/

namespace Sys2Proof

/-- The instruction set (R3): the rows of the opcode table in the table's order. -/
inductive Instr where
  -- Base integer, OP (R162 to R171)
  | add (rd rs1 rs2 : Reg)
  | sub (rd rs1 rs2 : Reg)
  | sll (rd rs1 rs2 : Reg)
  | slt (rd rs1 rs2 : Reg)
  | sltu (rd rs1 rs2 : Reg)
  | xor (rd rs1 rs2 : Reg)
  | srl (rd rs1 rs2 : Reg)
  | sra (rd rs1 rs2 : Reg)
  | or (rd rs1 rs2 : Reg)
  | and (rd rs1 rs2 : Reg)
  -- Base integer, OP-IMM (R172 to R180)
  | addi (rd rs1 : Reg) (imm : BitVec 12)
  | slti (rd rs1 : Reg) (imm : BitVec 12)
  | sltiu (rd rs1 : Reg) (imm : BitVec 12)
  | xori (rd rs1 : Reg) (imm : BitVec 12)
  | ori (rd rs1 : Reg) (imm : BitVec 12)
  | andi (rd rs1 : Reg) (imm : BitVec 12)
  | slli (rd rs1 : Reg) (shamt : BitVec 5)
  | srli (rd rs1 : Reg) (shamt : BitVec 5)
  | srai (rd rs1 : Reg) (shamt : BitVec 5)
  -- LUI, AUIPC (R181, R182); imm is imm[31:12]
  | lui (rd : Reg) (imm : BitVec 20)
  | auipc (rd : Reg) (imm : BitVec 20)
  -- Multiply and divide (R202 to R209)
  | mul (rd rs1 rs2 : Reg)
  | mulh (rd rs1 rs2 : Reg)
  | mulhsu (rd rs1 rs2 : Reg)
  | mulhu (rd rs1 rs2 : Reg)
  | div (rd rs1 rs2 : Reg)
  | divu (rd rs1 rs2 : Reg)
  | rem (rd rs1 rs2 : Reg)
  | remu (rd rs1 rs2 : Reg)
  -- Bit manipulation (R222 to R257)
  | andn (rd rs1 rs2 : Reg)
  | orn (rd rs1 rs2 : Reg)
  | xnor (rd rs1 rs2 : Reg)
  | sh1add (rd rs1 rs2 : Reg)
  | sh2add (rd rs1 rs2 : Reg)
  | sh3add (rd rs1 rs2 : Reg)
  | max (rd rs1 rs2 : Reg)
  | maxu (rd rs1 rs2 : Reg)
  | min (rd rs1 rs2 : Reg)
  | minu (rd rs1 rs2 : Reg)
  | rol (rd rs1 rs2 : Reg)
  | ror (rd rs1 rs2 : Reg)
  | rori (rd rs1 : Reg) (shamt : BitVec 5)
  | bclr (rd rs1 rs2 : Reg)
  | bclri (rd rs1 : Reg) (shamt : BitVec 5)
  | bext (rd rs1 rs2 : Reg)
  | bexti (rd rs1 : Reg) (shamt : BitVec 5)
  | binv (rd rs1 rs2 : Reg)
  | binvi (rd rs1 : Reg) (shamt : BitVec 5)
  | bset (rd rs1 rs2 : Reg)
  | bseti (rd rs1 : Reg) (shamt : BitVec 5)
  | clmul (rd rs1 rs2 : Reg)
  | clmulh (rd rs1 rs2 : Reg)
  | clmulr (rd rs1 rs2 : Reg)
  | pack (rd rs1 rs2 : Reg)
  | packh (rd rs1 rs2 : Reg)
  | clz (rd rs1 : Reg)
  | ctz (rd rs1 : Reg)
  | cpop (rd rs1 : Reg)
  | sextB (rd rs1 : Reg)
  | sextH (rd rs1 : Reg)
  | zip (rd rs1 : Reg)
  | unzip (rd rs1 : Reg)
  | brev8 (rd rs1 : Reg)
  | orcB (rd rs1 : Reg)
  | rev8 (rd rs1 : Reg)
  -- Control transfer (R283 to R290); off is imm_b[12:1] or imm_j[20:1]
  | beq (rs1 rs2 : Reg) (off : BitVec 12)
  | bne (rs1 rs2 : Reg) (off : BitVec 12)
  | blt (rs1 rs2 : Reg) (off : BitVec 12)
  | bge (rs1 rs2 : Reg) (off : BitVec 12)
  | bltu (rs1 rs2 : Reg) (off : BitVec 12)
  | bgeu (rs1 rs2 : Reg) (off : BitVec 12)
  | jal (rd : Reg) (off : BitVec 20)
  | jalr (rd rs1 : Reg) (imm : BitVec 12)
  -- Loads (R304 to R308)
  | lb (rd rs1 : Reg) (imm : BitVec 12)
  | lh (rd rs1 : Reg) (imm : BitVec 12)
  | lw (rd rs1 : Reg) (imm : BitVec 12)
  | lbu (rd rs1 : Reg) (imm : BitVec 12)
  | lhu (rd rs1 : Reg) (imm : BitVec 12)
  -- Stores (R309 to R311): x[rs2] goes to address x[rs1] + imm_s
  | sb (rs1 rs2 : Reg) (imm : BitVec 12)
  | sh (rs1 rs2 : Reg) (imm : BitVec 12)
  | sw (rs1 rs2 : Reg) (imm : BitVec 12)
  -- Atomics (R324, R325, R328 to R336); aq and rl are accepted and ignored (R320)
  | lrW (rd rs1 : Reg) (aq rl : BitVec 1)
  | scW (rd rs1 rs2 : Reg) (aq rl : BitVec 1)
  | amoswapW (rd rs1 rs2 : Reg) (aq rl : BitVec 1)
  | amoaddW (rd rs1 rs2 : Reg) (aq rl : BitVec 1)
  | amoxorW (rd rs1 rs2 : Reg) (aq rl : BitVec 1)
  | amoandW (rd rs1 rs2 : Reg) (aq rl : BitVec 1)
  | amoorW (rd rs1 rs2 : Reg) (aq rl : BitVec 1)
  | amominW (rd rs1 rs2 : Reg) (aq rl : BitVec 1)
  | amomaxW (rd rs1 rs2 : Reg) (aq rl : BitVec 1)
  | amominuW (rd rs1 rs2 : Reg) (aq rl : BitVec 1)
  | amomaxuW (rd rs1 rs2 : Reg) (aq rl : BitVec 1)
  -- CSR access (R352 to R357)
  | csrrw (rd rs1 : Reg) (csr : CsrAddr)
  | csrrs (rd rs1 : Reg) (csr : CsrAddr)
  | csrrc (rd rs1 : Reg) (csr : CsrAddr)
  | csrrwi (rd : Reg) (uimm : BitVec 5) (csr : CsrAddr)
  | csrrsi (rd : Reg) (uimm : BitVec 5) (csr : CsrAddr)
  | csrrci (rd : Reg) (uimm : BitVec 5) (csr : CsrAddr)
  -- System (R365 to R367)
  | ecall
  | ebreak
  | mret
  -- MISC-MEM (R375, R376); every operand field is accepted and ignored
  | fence (fm pred succ : BitVec 4) (rs1 rd : Reg)
  | fenceI (imm : BitVec 12) (rs1 rd : Reg)
  -- CUSTOM-0 (R391, R392); the field is size + 1 bits wide (R390)
  | h3Bextm (rd rs1 rs2 : Reg) (size : BitVec 3)
  | h3Bextmi (rd rs1 : Reg) (shamt : BitVec 5) (size : BitVec 3)
  -- Compressed, quadrant 0 (R403 to R406)
  | illegal16
  | cAddi4spn (rd : ShortReg) (uimm : BitVec 8)
  | cLw (rd rs1 : ShortReg) (uimm : BitVec 5)
  | cSw (rs1 rs2 : ShortReg) (uimm : BitVec 5)
  -- Compressed, quadrant 1 (R407 to R421)
  | cAddi (rd : Reg) (imm : BitVec 6)
  | cJal (off : BitVec 11)
  | cLi (rd : Reg) (imm : BitVec 6)
  | cLui (rd : Reg) (imm : BitVec 6)
  | cAddi16sp (imm : BitVec 6)
  | cSrli (rd : ShortReg) (shamt : BitVec 5)
  | cSrai (rd : ShortReg) (shamt : BitVec 5)
  | cAndi (rd : ShortReg) (imm : BitVec 6)
  | cSub (rd rs2 : ShortReg)
  | cXor (rd rs2 : ShortReg)
  | cOr (rd rs2 : ShortReg)
  | cAnd (rd rs2 : ShortReg)
  | cJ (off : BitVec 11)
  | cBeqz (rs1 : ShortReg) (off : BitVec 8)
  | cBnez (rs1 : ShortReg) (off : BitVec 8)
  -- Compressed, quadrant 2 (R422 to R429)
  | cSlli (rd : Reg) (shamt : BitVec 5)
  | cLwsp (rd : Reg) (uimm : BitVec 6)
  | cJr (rs1 : Reg)
  | cMv (rd rs2 : Reg)
  | cEbreak
  | cJalr (rs1 : Reg)
  | cAdd (rd rs2 : Reg)
  | cSwsp (rs2 : Reg) (uimm : BitVec 6)
  -- Zcmp (R455 to R462)
  | cmPush (rlist : BitVec 4) (spimm : BitVec 2)
  | cmPop (rlist : BitVec 4) (spimm : BitVec 2)
  | cmPopretz (rlist : BitVec 4) (spimm : BitVec 2)
  | cmPopret (rlist : BitVec 4) (spimm : BitVec 2)
  | cmMvsa01 (r1s r2s : ShortReg)
  | cmMva01s (r1s r2s : ShortReg)
deriving DecidableEq, Repr

end Sys2Proof
end

