-- ==== Sys2Proof/WellFormed.lean ====
section
/-!
DEFINITION. Which terms of `Instr` are instructions. The operand types already fix every field's width, so what is left to
check are the operand values the spec reserves inside a format (R138, R451, R461) or gives to another
instruction (R145): the "constraints" column of spec/opcode_table.json.
-/

namespace Sys2Proof

/-- The operand conditions of the opcode table's "constraints" column. -/
def Instr.wf : Instr → Bool
  -- C.ADDI4SPN: uimm != 0 (R404)
  | .cAddi4spn _ uimm => uimm != 0
  -- C.LUI: rd != 2 (that is C.ADDI16SP) and imm != 0 (R410)
  | .cLui rd imm => rd != 2 && imm != 0
  -- C.ADDI16SP: imm != 0 (R411)
  | .cAddi16sp imm => imm != 0
  -- C.LWSP: rd != 0 (R423)
  | .cLwsp rd _ => rd != 0
  -- C.JR, C.JALR: rs1 != 0 (R424, R427)
  | .cJr rs1 => rs1 != 0
  | .cJalr rs1 => rs1 != 0
  -- C.MV, C.ADD: rs2 != 0 (R425, R428)
  | .cMv _ rs2 => rs2 != 0
  | .cAdd _ rs2 => rs2 != 0
  -- PUSH, POP, POPRET, POPRETZ: rlist >= 4 (R451)
  | .cmPush rlist _ => decide (4 ≤ rlist.toNat)
  | .cmPop rlist _ => decide (4 ≤ rlist.toNat)
  | .cmPopretz rlist _ => decide (4 ≤ rlist.toNat)
  | .cmPopret rlist _ => decide (4 ≤ rlist.toNat)
  -- MVSA01: r1s' != r2s' (R461)
  | .cmMvsa01 r1s r2s => r1s != r2s
  -- every other instruction: no condition beyond its fields' widths
  | .add .. | .sub .. | .sll .. | .slt .. | .sltu .. | .xor .. | .srl .. | .sra .. | .or .. | .and ..
  | .addi .. | .slti .. | .sltiu .. | .xori .. | .ori .. | .andi .. | .slli .. | .srli .. | .srai .. | .lui ..
  | .auipc .. | .mul .. | .mulh .. | .mulhsu .. | .mulhu .. | .div .. | .divu .. | .rem .. | .remu ..
  | .andn .. | .orn .. | .xnor .. | .sh1add .. | .sh2add .. | .sh3add .. | .max .. | .maxu .. | .min ..
  | .minu .. | .rol .. | .ror .. | .rori .. | .bclr .. | .bclri .. | .bext .. | .bexti .. | .binv ..
  | .binvi .. | .bset .. | .bseti .. | .clmul .. | .clmulh .. | .clmulr .. | .pack .. | .packh .. | .clz ..
  | .ctz .. | .cpop .. | .sextB .. | .sextH .. | .zip .. | .unzip .. | .brev8 .. | .orcB .. | .rev8 ..
  | .beq .. | .bne .. | .blt .. | .bge .. | .bltu .. | .bgeu .. | .jal .. | .jalr .. | .lb .. | .lh .. | .lw ..
  | .lbu .. | .lhu .. | .sb .. | .sh .. | .sw .. | .lrW .. | .scW .. | .amoswapW .. | .amoaddW .. | .amoxorW ..
  | .amoandW .. | .amoorW .. | .amominW .. | .amomaxW .. | .amominuW .. | .amomaxuW .. | .csrrw .. | .csrrs ..
  | .csrrc .. | .csrrwi .. | .csrrsi .. | .csrrci .. | .ecall .. | .ebreak .. | .mret .. | .fence ..
  | .fenceI .. | .h3Bextm .. | .h3Bextmi .. | .illegal16 .. | .cLw .. | .cSw .. | .cAddi .. | .cJal ..
  | .cLi .. | .cSrli .. | .cSrai .. | .cAndi .. | .cSub .. | .cXor .. | .cOr .. | .cAnd .. | .cJ .. | .cBeqz ..
  | .cBnez .. | .cSlli .. | .cEbreak .. | .cSwsp .. | .cmMva01s .. => true

end Sys2Proof
end

