-- ==== Sys2Proof/Decode.lean ====
section
/-!
DEFINITION. The decoder and the encoder (spec 30_encoding.md). `decode32` and `decode16` are total: a word that matches no
row of the opcode table gives `none`, which the step turns into `INSTR_ILLEGAL` (R135). The encoder is written
from the same tables. All bit values are those of R122 to R144.
-/

namespace Sys2Proof

/-! ## The code of one instruction -/

/-- The bits of one instruction as fetch delivers them (R93, R120): a halfword whose bits 1:0 are not `11`,
or a 32-bit word whose bits 1:0 are `11`. -/
inductive Code where
  | half (c : BitVec 16)
  | word (w : BitVec 32)
deriving DecidableEq, Repr

/-- Why bytes are not an instruction. -/
inductive DecodeError where
  /-- The bytes end before the instruction does. -/
  | truncated
  /-- A 16-bit code that matches no row of the opcode table (R135, R138). -/
  | unmatched16 (c : BitVec 16)
  /-- A 32-bit code that matches no row of the opcode table (R135). -/
  | unmatched32 (w : BitVec 32)
deriving DecidableEq, Repr

/-- Whether a halfword is the low half of a 32-bit instruction: bits 1:0 are `11` (R93, R120). -/
def isLowHalf (lo : BitVec 16) : Bool := lo.extractLsb' 0 2 == 0b11#2

/-- The code that two fetched halfwords hold, the lower address first (R82, R93): `{hi, lo}` when `lo[1:0]` is
`11`, else `lo` alone. -/
def Code.ofHalves (lo hi : BitVec 16) : Code :=
  if isLowHalf lo then .word (hi ++ lo) else .half lo

/-- The bytes of a code in memory order: little-endian (R81, R82). -/
def Code.bytes : Code → List Byte
  | .half c => [c.extractLsb' 0 8, c.extractLsb' 8 8]
  | .word w => [w.extractLsb' 0 8, w.extractLsb' 8 8, w.extractLsb' 16 8, w.extractLsb' 24 8]

/-! ## 32-bit instructions -/

/-- OP, by funct7 and funct3 (R131). -/
def decodeOp (f7 : BitVec 7) (f3 : BitVec 3) (rd rs1 rs2 : Reg) : Option Instr :=
  match f7, f3 with
  | 0b0000000#7, 0b000#3 => some (.add rd rs1 rs2)
  | 0b0000000#7, 0b001#3 => some (.sll rd rs1 rs2)
  | 0b0000000#7, 0b010#3 => some (.slt rd rs1 rs2)
  | 0b0000000#7, 0b011#3 => some (.sltu rd rs1 rs2)
  | 0b0000000#7, 0b100#3 => some (.xor rd rs1 rs2)
  | 0b0000000#7, 0b101#3 => some (.srl rd rs1 rs2)
  | 0b0000000#7, 0b110#3 => some (.or rd rs1 rs2)
  | 0b0000000#7, 0b111#3 => some (.and rd rs1 rs2)
  | 0b0100000#7, 0b000#3 => some (.sub rd rs1 rs2)
  | 0b0100000#7, 0b100#3 => some (.xnor rd rs1 rs2)
  | 0b0100000#7, 0b101#3 => some (.sra rd rs1 rs2)
  | 0b0100000#7, 0b110#3 => some (.orn rd rs1 rs2)
  | 0b0100000#7, 0b111#3 => some (.andn rd rs1 rs2)
  | 0b0000001#7, 0b000#3 => some (.mul rd rs1 rs2)
  | 0b0000001#7, 0b001#3 => some (.mulh rd rs1 rs2)
  | 0b0000001#7, 0b010#3 => some (.mulhsu rd rs1 rs2)
  | 0b0000001#7, 0b011#3 => some (.mulhu rd rs1 rs2)
  | 0b0000001#7, 0b100#3 => some (.div rd rs1 rs2)
  | 0b0000001#7, 0b101#3 => some (.divu rd rs1 rs2)
  | 0b0000001#7, 0b110#3 => some (.rem rd rs1 rs2)
  | 0b0000001#7, 0b111#3 => some (.remu rd rs1 rs2)
  | 0b0010000#7, 0b010#3 => some (.sh1add rd rs1 rs2)
  | 0b0010000#7, 0b100#3 => some (.sh2add rd rs1 rs2)
  | 0b0010000#7, 0b110#3 => some (.sh3add rd rs1 rs2)
  | 0b0000101#7, 0b001#3 => some (.clmul rd rs1 rs2)
  | 0b0000101#7, 0b010#3 => some (.clmulr rd rs1 rs2)
  | 0b0000101#7, 0b011#3 => some (.clmulh rd rs1 rs2)
  | 0b0000101#7, 0b100#3 => some (.min rd rs1 rs2)
  | 0b0000101#7, 0b101#3 => some (.minu rd rs1 rs2)
  | 0b0000101#7, 0b110#3 => some (.max rd rs1 rs2)
  | 0b0000101#7, 0b111#3 => some (.maxu rd rs1 rs2)
  | 0b0110000#7, 0b001#3 => some (.rol rd rs1 rs2)
  | 0b0110000#7, 0b101#3 => some (.ror rd rs1 rs2)
  | 0b0000100#7, 0b100#3 => some (.pack rd rs1 rs2)
  | 0b0000100#7, 0b111#3 => some (.packh rd rs1 rs2)
  | 0b0100100#7, 0b001#3 => some (.bclr rd rs1 rs2)
  | 0b0100100#7, 0b101#3 => some (.bext rd rs1 rs2)
  | 0b0110100#7, 0b001#3 => some (.binv rd rs1 rs2)
  | 0b0010100#7, 0b001#3 => some (.bset rd rs1 rs2)
  | _, _ => none

/-- OP-IMM with funct3 `001`, by funct7 and, for the unary group, by `instr[24:20]` (R132). -/
def decodeOpImm1 (f7 : BitVec 7) (sel : BitVec 5) (rd rs1 : Reg) : Option Instr :=
  match f7, sel with
  | 0b0000000#7, shamt => some (.slli rd rs1 shamt)
  | 0b0010100#7, shamt => some (.bseti rd rs1 shamt)
  | 0b0100100#7, shamt => some (.bclri rd rs1 shamt)
  | 0b0110100#7, shamt => some (.binvi rd rs1 shamt)
  | 0b0110000#7, 0b00000#5 => some (.clz rd rs1)
  | 0b0110000#7, 0b00001#5 => some (.ctz rd rs1)
  | 0b0110000#7, 0b00010#5 => some (.cpop rd rs1)
  | 0b0110000#7, 0b00100#5 => some (.sextB rd rs1)
  | 0b0110000#7, 0b00101#5 => some (.sextH rd rs1)
  | 0b0000100#7, 0b01111#5 => some (.zip rd rs1)
  | _, _ => none

/-- OP-IMM with funct3 `101`, by funct7 and, for the unary group, by `instr[24:20]` (R132). -/
def decodeOpImm5 (f7 : BitVec 7) (sel : BitVec 5) (rd rs1 : Reg) : Option Instr :=
  match f7, sel with
  | 0b0000000#7, shamt => some (.srli rd rs1 shamt)
  | 0b0100000#7, shamt => some (.srai rd rs1 shamt)
  | 0b0110000#7, shamt => some (.rori rd rs1 shamt)
  | 0b0100100#7, shamt => some (.bexti rd rs1 shamt)
  | 0b0010100#7, 0b00111#5 => some (.orcB rd rs1)
  | 0b0110100#7, 0b11000#5 => some (.rev8 rd rs1)
  | 0b0110100#7, 0b00111#5 => some (.brev8 rd rs1)
  | 0b0000100#7, 0b01111#5 => some (.unzip rd rs1)
  | _, _ => none

/-- OP-IMM (R132). -/
def decodeOpImm (w : BitVec 32) (f3 : BitVec 3) (rd rs1 : Reg) : Option Instr :=
  let imm := w.extractLsb' 20 12
  match f3 with
  | 0b000#3 => some (.addi rd rs1 imm)
  | 0b001#3 => decodeOpImm1 (w.extractLsb' 25 7) (w.extractLsb' 20 5) rd rs1
  | 0b010#3 => some (.slti rd rs1 imm)
  | 0b011#3 => some (.sltiu rd rs1 imm)
  | 0b100#3 => some (.xori rd rs1 imm)
  | 0b101#3 => decodeOpImm5 (w.extractLsb' 25 7) (w.extractLsb' 20 5) rd rs1
  | 0b110#3 => some (.ori rd rs1 imm)
  | 0b111#3 => some (.andi rd rs1 imm)
  | _ => none

/-- LOAD, by funct3 (R133). -/
def decodeLoad (f3 : BitVec 3) (rd rs1 : Reg) (imm : BitVec 12) : Option Instr :=
  match f3 with
  | 0b000#3 => some (.lb rd rs1 imm)
  | 0b001#3 => some (.lh rd rs1 imm)
  | 0b010#3 => some (.lw rd rs1 imm)
  | 0b100#3 => some (.lbu rd rs1 imm)
  | 0b101#3 => some (.lhu rd rs1 imm)
  | _ => none

/-- STORE, by funct3 (R133). -/
def decodeStore (f3 : BitVec 3) (rs1 rs2 : Reg) (imm : BitVec 12) : Option Instr :=
  match f3 with
  | 0b000#3 => some (.sb rs1 rs2 imm)
  | 0b001#3 => some (.sh rs1 rs2 imm)
  | 0b010#3 => some (.sw rs1 rs2 imm)
  | _ => none

/-- BRANCH, by funct3 (R133). -/
def decodeBranch (f3 : BitVec 3) (rs1 rs2 : Reg) (off : BitVec 12) : Option Instr :=
  match f3 with
  | 0b000#3 => some (.beq rs1 rs2 off)
  | 0b001#3 => some (.bne rs1 rs2 off)
  | 0b100#3 => some (.blt rs1 rs2 off)
  | 0b101#3 => some (.bge rs1 rs2 off)
  | 0b110#3 => some (.bltu rs1 rs2 off)
  | 0b111#3 => some (.bgeu rs1 rs2 off)
  | _ => none

/-- AMO with funct3 `010`, by funct5 (R133); LR.W needs the rs2 field zero (R324). -/
def decodeAmo (f5 : BitVec 5) (rd rs1 rs2 : Reg) (aq rl : BitVec 1) : Option Instr :=
  match f5 with
  | 0b00010#5 => if rs2 = 0 then some (.lrW rd rs1 aq rl) else none
  | 0b00011#5 => some (.scW rd rs1 rs2 aq rl)
  | 0b00001#5 => some (.amoswapW rd rs1 rs2 aq rl)
  | 0b00000#5 => some (.amoaddW rd rs1 rs2 aq rl)
  | 0b00100#5 => some (.amoxorW rd rs1 rs2 aq rl)
  | 0b01100#5 => some (.amoandW rd rs1 rs2 aq rl)
  | 0b01000#5 => some (.amoorW rd rs1 rs2 aq rl)
  | 0b10000#5 => some (.amominW rd rs1 rs2 aq rl)
  | 0b10100#5 => some (.amomaxW rd rs1 rs2 aq rl)
  | 0b11000#5 => some (.amominuW rd rs1 rs2 aq rl)
  | 0b11100#5 => some (.amomaxuW rd rs1 rs2 aq rl)
  | _ => none

/-- SYSTEM with funct3 `000`: three fixed words, everything else illegal (R133, R368). -/
def decodeSystem0 (w : BitVec 32) : Option Instr :=
  match w with
  | 0x00000073#32 => some .ecall
  | 0x00100073#32 => some .ebreak
  | 0x30200073#32 => some .mret
  | _ => none

/-- SYSTEM, by funct3 (R133, R350). -/
def decodeSystem (w : BitVec 32) (f3 : BitVec 3) (rd rs1 : Reg) (csr : CsrAddr) : Option Instr :=
  match f3 with
  | 0b000#3 => decodeSystem0 w
  | 0b001#3 => some (.csrrw rd rs1 csr)
  | 0b010#3 => some (.csrrs rd rs1 csr)
  | 0b011#3 => some (.csrrc rd rs1 csr)
  | 0b101#3 => some (.csrrwi rd rs1 csr)
  | 0b110#3 => some (.csrrsi rd rs1 csr)
  | 0b111#3 => some (.csrrci rd rs1 csr)
  | _ => none

/-- MISC-MEM, by funct3 (R133, R375 to R377). -/
def decodeMiscMem (w : BitVec 32) (f3 : BitVec 3) (rd rs1 : Reg) : Option Instr :=
  match f3 with
  | 0b000#3 =>
    some (.fence (w.extractLsb' 28 4) (w.extractLsb' 24 4) (w.extractLsb' 20 4) rs1 rd)
  | 0b001#3 => some (.fenceI (w.extractLsb' 20 12) rs1 rd)
  | _ => none

/-- CUSTOM-0: bits 31:29 and bit 25 must be zero (R133, R390). -/
def decodeCustom0 (w : BitVec 32) (f3 : BitVec 3) (rd rs1 rs2 : Reg) : Option Instr :=
  if w.extractLsb' 29 3 = 0 ∧ w.extractLsb' 25 1 = 0 then
    match f3 with
    | 0b000#3 => some (.h3Bextm rd rs1 rs2 (w.extractLsb' 26 3))
    | 0b100#3 => some (.h3Bextmi rd rs1 rs2 (w.extractLsb' 26 3))
    | _ => none
  else none

/-- The decoder of 32-bit codes, by major opcode `instr[6:0]` (R130). The fields are those of R121 and the
immediates those of R123 to R127. -/
def decode32 (w : BitVec 32) : Option Instr :=
  let rd := w.extractLsb' 7 5
  let f3 := w.extractLsb' 12 3
  let rs1 := w.extractLsb' 15 5
  let rs2 := w.extractLsb' 20 5
  let f7 := w.extractLsb' 25 7
  match w.extractLsb' 0 7 with
  | 0b0000011#7 => decodeLoad f3 rd rs1 (w.extractLsb' 20 12)
  | 0b0001011#7 => decodeCustom0 w f3 rd rs1 rs2
  | 0b0001111#7 => decodeMiscMem w f3 rd rs1
  | 0b0010011#7 => decodeOpImm w f3 rd rs1
  | 0b0010111#7 => some (.auipc rd (w.extractLsb' 12 20))
  | 0b0100011#7 => decodeStore f3 rs1 rs2 (w.extractLsb' 25 7 ++ w.extractLsb' 7 5)
  | 0b0101111#7 =>
    if f3 = 0b010#3 then
      decodeAmo (w.extractLsb' 27 5) rd rs1 rs2 (w.extractLsb' 26 1) (w.extractLsb' 25 1)
    else none
  | 0b0110011#7 => decodeOp f7 f3 rd rs1 rs2
  | 0b0110111#7 => some (.lui rd (w.extractLsb' 12 20))
  | 0b1100011#7 =>
    decodeBranch f3 rs1 rs2
      (w.extractLsb' 31 1 ++ w.extractLsb' 7 1 ++ w.extractLsb' 25 6 ++ w.extractLsb' 8 4)
  | 0b1100111#7 => if f3 = 0b000#3 then some (.jalr rd rs1 (w.extractLsb' 20 12)) else none
  | 0b1101111#7 =>
    some (.jal rd
      (w.extractLsb' 31 1 ++ w.extractLsb' 12 8 ++ w.extractLsb' 20 1 ++ w.extractLsb' 21 10))
  | 0b1110011#7 => decodeSystem w f3 rd rs1 (w.extractLsb' 20 12)
  | _ => none

/-! ## 16-bit instructions -/

/-- `some i` when the condition on the operands holds, else the code is reserved (R138). -/
def guardWf (i : Instr) : Option Instr := if i.wf then some i else none

/-- Quadrant 0, by funct3 (R143). -/
def decodeQ0 (c : BitVec 16) : Option Instr :=
  let uimm := c.extractLsb' 5 1 ++ c.extractLsb' 10 3 ++ c.extractLsb' 6 1
  match c.extractLsb' 13 3 with
  | 0b000#3 =>
    if c = 0 then some .illegal16
    else guardWf (.cAddi4spn (c.extractLsb' 2 3)
      (c.extractLsb' 7 4 ++ c.extractLsb' 11 2 ++ c.extractLsb' 5 1 ++ c.extractLsb' 6 1))
  | 0b010#3 => some (.cLw (c.extractLsb' 2 3) (c.extractLsb' 7 3) uimm)
  | 0b110#3 => some (.cSw (c.extractLsb' 7 3) (c.extractLsb' 2 3) uimm)
  | _ => none

/-- Quadrant 1, funct3 `100` (R143). -/
def decodeQ1Alu (c : BitVec 16) : Option Instr :=
  let rd := c.extractLsb' 7 3
  let rs2 := c.extractLsb' 2 3
  match c.extractLsb' 10 2 with
  | 0b00#2 => if c.extractLsb' 12 1 = 0 then some (.cSrli rd (c.extractLsb' 2 5)) else none
  | 0b01#2 => if c.extractLsb' 12 1 = 0 then some (.cSrai rd (c.extractLsb' 2 5)) else none
  | 0b10#2 => some (.cAndi rd (c.extractLsb' 12 1 ++ c.extractLsb' 2 5))
  | _ =>
    if c.extractLsb' 12 1 = 0 then
      match c.extractLsb' 5 2 with
      | 0b00#2 => some (.cSub rd rs2)
      | 0b01#2 => some (.cXor rd rs2)
      | 0b10#2 => some (.cOr rd rs2)
      | _ => some (.cAnd rd rs2)
    else none

/-- Quadrant 1, by funct3 (R143). -/
def decodeQ1 (c : BitVec 16) : Option Instr :=
  let rd := c.extractLsb' 7 5
  let imm := c.extractLsb' 12 1 ++ c.extractLsb' 2 5
  let offJ := c.extractLsb' 12 1 ++ c.extractLsb' 8 1 ++ c.extractLsb' 9 2 ++ c.extractLsb' 6 1
    ++ c.extractLsb' 7 1 ++ c.extractLsb' 2 1 ++ c.extractLsb' 11 1 ++ c.extractLsb' 3 3
  let offB := c.extractLsb' 12 1 ++ c.extractLsb' 5 2 ++ c.extractLsb' 2 1 ++ c.extractLsb' 10 2
    ++ c.extractLsb' 3 2
  match c.extractLsb' 13 3 with
  | 0b000#3 => some (.cAddi rd imm)
  | 0b001#3 => some (.cJal offJ)
  | 0b010#3 => some (.cLi rd imm)
  | 0b011#3 =>
    if rd = 2 then
      guardWf (.cAddi16sp (c.extractLsb' 12 1 ++ c.extractLsb' 3 2 ++ c.extractLsb' 5 1
        ++ c.extractLsb' 2 1 ++ c.extractLsb' 6 1))
    else guardWf (.cLui rd imm)
  | 0b100#3 => decodeQ1Alu c
  | 0b101#3 => some (.cJ offJ)
  | 0b110#3 => some (.cBeqz (c.extractLsb' 7 3) offB)
  | _ => some (.cBnez (c.extractLsb' 7 3) offB)

/-- Quadrant 2, funct3 `100` (R143). -/
def decodeQ2Move (c : BitVec 16) : Option Instr :=
  let r := c.extractLsb' 7 5
  let rs2 := c.extractLsb' 2 5
  if c.extractLsb' 12 1 = 0 then
    if rs2 = 0 then guardWf (.cJr r) else some (.cMv r rs2)
  else if rs2 = 0 then
    if r = 0 then some .cEbreak else some (.cJalr r)
  else some (.cAdd r rs2)

/-- Zcmp: quadrant 2, funct3 `101` (R144, R451, R461). -/
def decodeZcmp (c : BitVec 16) : Option Instr :=
  let rlist := c.extractLsb' 4 4
  let spimm := c.extractLsb' 2 2
  match c.extractLsb' 8 5 with
  | 0b11000#5 => guardWf (.cmPush rlist spimm)
  | 0b11010#5 => guardWf (.cmPop rlist spimm)
  | 0b11100#5 => guardWf (.cmPopretz rlist spimm)
  | 0b11110#5 => guardWf (.cmPopret rlist spimm)
  | _ =>
    if c.extractLsb' 10 3 = 0b011#3 then
      match c.extractLsb' 5 2 with
      | 0b01#2 => guardWf (.cmMvsa01 (c.extractLsb' 7 3) (c.extractLsb' 2 3))
      | 0b11#2 => some (.cmMva01s (c.extractLsb' 7 3) (c.extractLsb' 2 3))
      | _ => none
    else none

/-- Quadrant 2, by funct3 (R143). -/
def decodeQ2 (c : BitVec 16) : Option Instr :=
  let r := c.extractLsb' 7 5
  match c.extractLsb' 13 3 with
  | 0b000#3 => if c.extractLsb' 12 1 = 0 then some (.cSlli r (c.extractLsb' 2 5)) else none
  | 0b010#3 =>
    guardWf (.cLwsp r (c.extractLsb' 2 2 ++ c.extractLsb' 12 1 ++ c.extractLsb' 4 3))
  | 0b100#3 => decodeQ2Move c
  | 0b101#3 => decodeZcmp c
  | 0b110#3 => some (.cSwsp (c.extractLsb' 2 5) (c.extractLsb' 7 2 ++ c.extractLsb' 9 4))
  | _ => none

/-- The decoder of 16-bit codes, by quadrant (R140, R143). -/
def decode16 (c : BitVec 16) : Option Instr :=
  match c.extractLsb' 0 2 with
  | 0b00#2 => decodeQ0 c
  | 0b01#2 => decodeQ1 c
  | 0b10#2 => decodeQ2 c
  | _ => none

/-! ## The decoder -/

/-- The instruction a code holds, or the reason it is none (R135). -/
def decodeCode : Code → Except DecodeError Instr
  | .half c =>
    match decode16 c with
    | some i => .ok i
    | none => .error (.unmatched16 c)
  | .word w =>
    match decode32 w with
    | some i => .ok i
    | none => .error (.unmatched32 w)

/-- The decoder on bytes in memory order: the instruction at the front and the bytes after it. Total on every
list of bytes. -/
def decode : List Byte → Except DecodeError (Instr × List Byte)
  | b0 :: b1 :: rest =>
    let lo : BitVec 16 := b1 ++ b0
    if isLowHalf lo then
      match rest with
      | b2 :: b3 :: rest' =>
        match decodeCode (.word ((b3 ++ b2 : BitVec 16) ++ lo)) with
        | .ok i => .ok (i, rest')
        | .error e => .error e
      | _ => .error .truncated
    else
      match decodeCode (.half lo) with
      | .ok i => .ok (i, rest)
      | .error e => .error e
  | _ => .error .truncated

/-- The two halfwords of an instruction given as one number whose bit 0 is the least significant bit of the
halfword at the lower address, `nbits` bits long; every bit above is 0. -/
def tableHalves (nbits w : Nat) : BitVec 16 × BitVec 16 :=
  let v : BitVec 32 := BitVec.ofNat 32 (w % 2 ^ nbits)
  (v.extractLsb' 0 16, v.extractLsb' 16 16)

/-- The instruction the decoder reads from an instruction whose bits are `w`, numbered as
spec/opcode_table.json numbers them. -/
def decodeTableWord (nbits w : Nat) : Option Instr :=
  let h := tableHalves nbits w
  match decodeCode (Code.ofHalves h.1 h.2) with
  | .ok i => some i
  | .error _ => none

/-! ## The encoder: the formats of R122 -/

/-- R format. -/
def encR (f7 : BitVec 7) (rs2 rs1 : Reg) (f3 : BitVec 3) (rd : Reg) (op : BitVec 7) : BitVec 32 :=
  f7 ++ rs2 ++ rs1 ++ f3 ++ rd ++ op

/-- I format. -/
def encI (imm : BitVec 12) (rs1 : Reg) (f3 : BitVec 3) (rd : Reg) (op : BitVec 7) : BitVec 32 :=
  imm ++ rs1 ++ f3 ++ rd ++ op

/-- S format (R124). -/
def encS (imm : BitVec 12) (rs2 rs1 : Reg) (f3 : BitVec 3) (op : BitVec 7) : BitVec 32 :=
  imm.extractLsb' 5 7 ++ rs2 ++ rs1 ++ f3 ++ imm.extractLsb' 0 5 ++ op

/-- B format; `off` is `imm_b[12:1]` (R126). -/
def encB (off : BitVec 12) (rs2 rs1 : Reg) (f3 : BitVec 3) (op : BitVec 7) : BitVec 32 :=
  off.extractLsb' 11 1 ++ off.extractLsb' 4 6 ++ rs2 ++ rs1 ++ f3 ++ off.extractLsb' 0 4
    ++ off.extractLsb' 10 1 ++ op

/-- U format; `imm` is `imm_u[31:12]` (R125). -/
def encU (imm : BitVec 20) (rd : Reg) (op : BitVec 7) : BitVec 32 :=
  imm ++ rd ++ op

/-- J format; `off` is `imm_j[20:1]` (R127). -/
def encJ (off : BitVec 20) (rd : Reg) (op : BitVec 7) : BitVec 32 :=
  off.extractLsb' 19 1 ++ off.extractLsb' 0 10 ++ off.extractLsb' 10 1 ++ off.extractLsb' 11 8
    ++ rd ++ op

/-- AMO format (R320). -/
def encAmo (f5 : BitVec 5) (aq rl : BitVec 1) (rs2 rs1 rd : Reg) : BitVec 32 :=
  f5 ++ aq ++ rl ++ rs2 ++ rs1 ++ 0b010#3 ++ rd ++ 0b0101111#7

/-- BEXTM format (R390). -/
def encBextm (size : BitVec 3) (rs2 rs1 : Reg) (f3 : BitVec 3) (rd : Reg) : BitVec 32 :=
  0b000#3 ++ size ++ 0b0#1 ++ rs2 ++ rs1 ++ f3 ++ rd ++ 0b0001011#7

/-- FENCE (R375). -/
def encFence (fm pred succ : BitVec 4) (rs1 rd : Reg) : BitVec 32 :=
  fm ++ pred ++ succ ++ rs1 ++ 0b000#3 ++ rd ++ 0b0001111#7

/-- C.ADDI4SPN; `uimm` is `uimm[9:2]` (R142). -/
def encAddi4spn (uimm : BitVec 8) (rd : ShortReg) : BitVec 16 :=
  0b000#3 ++ uimm.extractLsb' 2 2 ++ uimm.extractLsb' 4 4 ++ uimm.extractLsb' 0 1
    ++ uimm.extractLsb' 1 1 ++ rd ++ 0b00#2

/-- C.LW and C.SW; `uimm` is `uimm[6:2]`, `r` the register in bits 4:2 (R142). -/
def encCls (f3 : BitVec 3) (uimm : BitVec 5) (rs1 r : ShortReg) : BitVec 16 :=
  f3 ++ uimm.extractLsb' 1 3 ++ rs1 ++ uimm.extractLsb' 0 1 ++ uimm.extractLsb' 4 1 ++ r ++ 0b00#2

/-- CI format: a 6-bit immediate split as bit 12 and bits 6:2 (R142). -/
def encCi (f3 : BitVec 3) (imm : BitVec 6) (rd : Reg) (q : BitVec 2) : BitVec 16 :=
  f3 ++ imm.extractLsb' 5 1 ++ rd ++ imm.extractLsb' 0 5 ++ q

/-- C.ADDI16SP; `imm` is `imm[9:4]` (R142). -/
def encAddi16sp (imm : BitVec 6) : BitVec 16 :=
  0b011#3 ++ imm.extractLsb' 5 1 ++ 0b00010#5 ++ imm.extractLsb' 0 1 ++ imm.extractLsb' 2 1
    ++ imm.extractLsb' 3 2 ++ imm.extractLsb' 1 1 ++ 0b01#2

/-- CJ format; `off` is `off[11:1]` (R142). -/
def encCj (f3 : BitVec 3) (off : BitVec 11) : BitVec 16 :=
  f3 ++ off.extractLsb' 10 1 ++ off.extractLsb' 3 1 ++ off.extractLsb' 7 2 ++ off.extractLsb' 9 1
    ++ off.extractLsb' 5 1 ++ off.extractLsb' 6 1 ++ off.extractLsb' 0 3 ++ off.extractLsb' 4 1
    ++ 0b01#2

/-- C.BEQZ and C.BNEZ; `off` is `off[8:1]` (R142). -/
def encCb (f3 : BitVec 3) (rs1 : ShortReg) (off : BitVec 8) : BitVec 16 :=
  f3 ++ off.extractLsb' 7 1 ++ off.extractLsb' 2 2 ++ rs1 ++ off.extractLsb' 5 2
    ++ off.extractLsb' 0 2 ++ off.extractLsb' 4 1 ++ 0b01#2

/-- C.SRLI, C.SRAI, C.ANDI: bit 12, the 2-bit selector, rd', bits 6:2 (R143). -/
def encCbAlu (b12 : BitVec 1) (sel : BitVec 2) (rd : ShortReg) (low : BitVec 5) : BitVec 16 :=
  0b100#3 ++ b12 ++ sel ++ rd ++ low ++ 0b01#2

/-- CA format (R143). -/
def encCa (rd : ShortReg) (sel : BitVec 2) (rs2 : ShortReg) : BitVec 16 :=
  0b100#3 ++ 0b0#1 ++ 0b11#2 ++ rd ++ sel ++ rs2 ++ 0b01#2

/-- CR format, quadrant 2 (R143). -/
def encCr (b12 : BitVec 1) (r rs2 : Reg) : BitVec 16 :=
  0b100#3 ++ b12 ++ r ++ rs2 ++ 0b10#2

/-- C.LWSP; `uimm` is `uimm[7:2]` (R142). -/
def encLwsp (rd : Reg) (uimm : BitVec 6) : BitVec 16 :=
  0b010#3 ++ uimm.extractLsb' 3 1 ++ rd ++ uimm.extractLsb' 0 3 ++ uimm.extractLsb' 4 2 ++ 0b10#2

/-- C.SWSP; `uimm` is `uimm[7:2]` (R142). -/
def encSwsp (rs2 : Reg) (uimm : BitVec 6) : BitVec 16 :=
  0b110#3 ++ uimm.extractLsb' 0 4 ++ uimm.extractLsb' 4 2 ++ rs2 ++ 0b10#2

/-- PUSH, POP, POPRETZ, POPRET (R144). -/
def encCmpp (sel : BitVec 5) (rlist : BitVec 4) (spimm : BitVec 2) : BitVec 16 :=
  0b101#3 ++ sel ++ rlist ++ spimm ++ 0b10#2

/-- MVSA01, MVA01S (R144). -/
def encCmmv (sel : BitVec 2) (r1s r2s : ShortReg) : BitVec 16 :=
  0b101#3 ++ 0b011#3 ++ r1s ++ sel ++ r2s ++ 0b10#2

/-- The code of an instruction (the encoding line of its rule). -/
def encode : Instr → Code
  | .add rd rs1 rs2 => .word (encR 0b0000000#7 rs2 rs1 0b000#3 rd 0b0110011#7)
  | .sub rd rs1 rs2 => .word (encR 0b0100000#7 rs2 rs1 0b000#3 rd 0b0110011#7)
  | .sll rd rs1 rs2 => .word (encR 0b0000000#7 rs2 rs1 0b001#3 rd 0b0110011#7)
  | .slt rd rs1 rs2 => .word (encR 0b0000000#7 rs2 rs1 0b010#3 rd 0b0110011#7)
  | .sltu rd rs1 rs2 => .word (encR 0b0000000#7 rs2 rs1 0b011#3 rd 0b0110011#7)
  | .xor rd rs1 rs2 => .word (encR 0b0000000#7 rs2 rs1 0b100#3 rd 0b0110011#7)
  | .srl rd rs1 rs2 => .word (encR 0b0000000#7 rs2 rs1 0b101#3 rd 0b0110011#7)
  | .sra rd rs1 rs2 => .word (encR 0b0100000#7 rs2 rs1 0b101#3 rd 0b0110011#7)
  | .or rd rs1 rs2 => .word (encR 0b0000000#7 rs2 rs1 0b110#3 rd 0b0110011#7)
  | .and rd rs1 rs2 => .word (encR 0b0000000#7 rs2 rs1 0b111#3 rd 0b0110011#7)
  | .addi rd rs1 imm => .word (encI imm rs1 0b000#3 rd 0b0010011#7)
  | .slti rd rs1 imm => .word (encI imm rs1 0b010#3 rd 0b0010011#7)
  | .sltiu rd rs1 imm => .word (encI imm rs1 0b011#3 rd 0b0010011#7)
  | .xori rd rs1 imm => .word (encI imm rs1 0b100#3 rd 0b0010011#7)
  | .ori rd rs1 imm => .word (encI imm rs1 0b110#3 rd 0b0010011#7)
  | .andi rd rs1 imm => .word (encI imm rs1 0b111#3 rd 0b0010011#7)
  | .slli rd rs1 shamt => .word (encR 0b0000000#7 shamt rs1 0b001#3 rd 0b0010011#7)
  | .srli rd rs1 shamt => .word (encR 0b0000000#7 shamt rs1 0b101#3 rd 0b0010011#7)
  | .srai rd rs1 shamt => .word (encR 0b0100000#7 shamt rs1 0b101#3 rd 0b0010011#7)
  | .lui rd imm => .word (encU imm rd 0b0110111#7)
  | .auipc rd imm => .word (encU imm rd 0b0010111#7)
  | .mul rd rs1 rs2 => .word (encR 0b0000001#7 rs2 rs1 0b000#3 rd 0b0110011#7)
  | .mulh rd rs1 rs2 => .word (encR 0b0000001#7 rs2 rs1 0b001#3 rd 0b0110011#7)
  | .mulhsu rd rs1 rs2 => .word (encR 0b0000001#7 rs2 rs1 0b010#3 rd 0b0110011#7)
  | .mulhu rd rs1 rs2 => .word (encR 0b0000001#7 rs2 rs1 0b011#3 rd 0b0110011#7)
  | .div rd rs1 rs2 => .word (encR 0b0000001#7 rs2 rs1 0b100#3 rd 0b0110011#7)
  | .divu rd rs1 rs2 => .word (encR 0b0000001#7 rs2 rs1 0b101#3 rd 0b0110011#7)
  | .rem rd rs1 rs2 => .word (encR 0b0000001#7 rs2 rs1 0b110#3 rd 0b0110011#7)
  | .remu rd rs1 rs2 => .word (encR 0b0000001#7 rs2 rs1 0b111#3 rd 0b0110011#7)
  | .andn rd rs1 rs2 => .word (encR 0b0100000#7 rs2 rs1 0b111#3 rd 0b0110011#7)
  | .orn rd rs1 rs2 => .word (encR 0b0100000#7 rs2 rs1 0b110#3 rd 0b0110011#7)
  | .xnor rd rs1 rs2 => .word (encR 0b0100000#7 rs2 rs1 0b100#3 rd 0b0110011#7)
  | .sh1add rd rs1 rs2 => .word (encR 0b0010000#7 rs2 rs1 0b010#3 rd 0b0110011#7)
  | .sh2add rd rs1 rs2 => .word (encR 0b0010000#7 rs2 rs1 0b100#3 rd 0b0110011#7)
  | .sh3add rd rs1 rs2 => .word (encR 0b0010000#7 rs2 rs1 0b110#3 rd 0b0110011#7)
  | .max rd rs1 rs2 => .word (encR 0b0000101#7 rs2 rs1 0b110#3 rd 0b0110011#7)
  | .maxu rd rs1 rs2 => .word (encR 0b0000101#7 rs2 rs1 0b111#3 rd 0b0110011#7)
  | .min rd rs1 rs2 => .word (encR 0b0000101#7 rs2 rs1 0b100#3 rd 0b0110011#7)
  | .minu rd rs1 rs2 => .word (encR 0b0000101#7 rs2 rs1 0b101#3 rd 0b0110011#7)
  | .rol rd rs1 rs2 => .word (encR 0b0110000#7 rs2 rs1 0b001#3 rd 0b0110011#7)
  | .ror rd rs1 rs2 => .word (encR 0b0110000#7 rs2 rs1 0b101#3 rd 0b0110011#7)
  | .rori rd rs1 shamt => .word (encR 0b0110000#7 shamt rs1 0b101#3 rd 0b0010011#7)
  | .bclr rd rs1 rs2 => .word (encR 0b0100100#7 rs2 rs1 0b001#3 rd 0b0110011#7)
  | .bclri rd rs1 shamt => .word (encR 0b0100100#7 shamt rs1 0b001#3 rd 0b0010011#7)
  | .bext rd rs1 rs2 => .word (encR 0b0100100#7 rs2 rs1 0b101#3 rd 0b0110011#7)
  | .bexti rd rs1 shamt => .word (encR 0b0100100#7 shamt rs1 0b101#3 rd 0b0010011#7)
  | .binv rd rs1 rs2 => .word (encR 0b0110100#7 rs2 rs1 0b001#3 rd 0b0110011#7)
  | .binvi rd rs1 shamt => .word (encR 0b0110100#7 shamt rs1 0b001#3 rd 0b0010011#7)
  | .bset rd rs1 rs2 => .word (encR 0b0010100#7 rs2 rs1 0b001#3 rd 0b0110011#7)
  | .bseti rd rs1 shamt => .word (encR 0b0010100#7 shamt rs1 0b001#3 rd 0b0010011#7)
  | .clmul rd rs1 rs2 => .word (encR 0b0000101#7 rs2 rs1 0b001#3 rd 0b0110011#7)
  | .clmulh rd rs1 rs2 => .word (encR 0b0000101#7 rs2 rs1 0b011#3 rd 0b0110011#7)
  | .clmulr rd rs1 rs2 => .word (encR 0b0000101#7 rs2 rs1 0b010#3 rd 0b0110011#7)
  | .pack rd rs1 rs2 => .word (encR 0b0000100#7 rs2 rs1 0b100#3 rd 0b0110011#7)
  | .packh rd rs1 rs2 => .word (encR 0b0000100#7 rs2 rs1 0b111#3 rd 0b0110011#7)
  | .clz rd rs1 => .word (encR 0b0110000#7 0b00000#5 rs1 0b001#3 rd 0b0010011#7)
  | .ctz rd rs1 => .word (encR 0b0110000#7 0b00001#5 rs1 0b001#3 rd 0b0010011#7)
  | .cpop rd rs1 => .word (encR 0b0110000#7 0b00010#5 rs1 0b001#3 rd 0b0010011#7)
  | .sextB rd rs1 => .word (encR 0b0110000#7 0b00100#5 rs1 0b001#3 rd 0b0010011#7)
  | .sextH rd rs1 => .word (encR 0b0110000#7 0b00101#5 rs1 0b001#3 rd 0b0010011#7)
  | .zip rd rs1 => .word (encR 0b0000100#7 0b01111#5 rs1 0b001#3 rd 0b0010011#7)
  | .unzip rd rs1 => .word (encR 0b0000100#7 0b01111#5 rs1 0b101#3 rd 0b0010011#7)
  | .brev8 rd rs1 => .word (encR 0b0110100#7 0b00111#5 rs1 0b101#3 rd 0b0010011#7)
  | .orcB rd rs1 => .word (encR 0b0010100#7 0b00111#5 rs1 0b101#3 rd 0b0010011#7)
  | .rev8 rd rs1 => .word (encR 0b0110100#7 0b11000#5 rs1 0b101#3 rd 0b0010011#7)
  | .beq rs1 rs2 off => .word (encB off rs2 rs1 0b000#3 0b1100011#7)
  | .bne rs1 rs2 off => .word (encB off rs2 rs1 0b001#3 0b1100011#7)
  | .blt rs1 rs2 off => .word (encB off rs2 rs1 0b100#3 0b1100011#7)
  | .bge rs1 rs2 off => .word (encB off rs2 rs1 0b101#3 0b1100011#7)
  | .bltu rs1 rs2 off => .word (encB off rs2 rs1 0b110#3 0b1100011#7)
  | .bgeu rs1 rs2 off => .word (encB off rs2 rs1 0b111#3 0b1100011#7)
  | .jal rd off => .word (encJ off rd 0b1101111#7)
  | .jalr rd rs1 imm => .word (encI imm rs1 0b000#3 rd 0b1100111#7)
  | .lb rd rs1 imm => .word (encI imm rs1 0b000#3 rd 0b0000011#7)
  | .lh rd rs1 imm => .word (encI imm rs1 0b001#3 rd 0b0000011#7)
  | .lw rd rs1 imm => .word (encI imm rs1 0b010#3 rd 0b0000011#7)
  | .lbu rd rs1 imm => .word (encI imm rs1 0b100#3 rd 0b0000011#7)
  | .lhu rd rs1 imm => .word (encI imm rs1 0b101#3 rd 0b0000011#7)
  | .sb rs1 rs2 imm => .word (encS imm rs2 rs1 0b000#3 0b0100011#7)
  | .sh rs1 rs2 imm => .word (encS imm rs2 rs1 0b001#3 0b0100011#7)
  | .sw rs1 rs2 imm => .word (encS imm rs2 rs1 0b010#3 0b0100011#7)
  | .lrW rd rs1 aq rl => .word (encAmo 0b00010#5 aq rl 0b00000#5 rs1 rd)
  | .scW rd rs1 rs2 aq rl => .word (encAmo 0b00011#5 aq rl rs2 rs1 rd)
  | .amoswapW rd rs1 rs2 aq rl => .word (encAmo 0b00001#5 aq rl rs2 rs1 rd)
  | .amoaddW rd rs1 rs2 aq rl => .word (encAmo 0b00000#5 aq rl rs2 rs1 rd)
  | .amoxorW rd rs1 rs2 aq rl => .word (encAmo 0b00100#5 aq rl rs2 rs1 rd)
  | .amoandW rd rs1 rs2 aq rl => .word (encAmo 0b01100#5 aq rl rs2 rs1 rd)
  | .amoorW rd rs1 rs2 aq rl => .word (encAmo 0b01000#5 aq rl rs2 rs1 rd)
  | .amominW rd rs1 rs2 aq rl => .word (encAmo 0b10000#5 aq rl rs2 rs1 rd)
  | .amomaxW rd rs1 rs2 aq rl => .word (encAmo 0b10100#5 aq rl rs2 rs1 rd)
  | .amominuW rd rs1 rs2 aq rl => .word (encAmo 0b11000#5 aq rl rs2 rs1 rd)
  | .amomaxuW rd rs1 rs2 aq rl => .word (encAmo 0b11100#5 aq rl rs2 rs1 rd)
  | .csrrw rd rs1 csr => .word (encI csr rs1 0b001#3 rd 0b1110011#7)
  | .csrrs rd rs1 csr => .word (encI csr rs1 0b010#3 rd 0b1110011#7)
  | .csrrc rd rs1 csr => .word (encI csr rs1 0b011#3 rd 0b1110011#7)
  | .csrrwi rd uimm csr => .word (encI csr uimm 0b101#3 rd 0b1110011#7)
  | .csrrsi rd uimm csr => .word (encI csr uimm 0b110#3 rd 0b1110011#7)
  | .csrrci rd uimm csr => .word (encI csr uimm 0b111#3 rd 0b1110011#7)
  | .ecall => .word 0x00000073#32
  | .ebreak => .word 0x00100073#32
  | .mret => .word 0x30200073#32
  | .fence fm pred succ rs1 rd => .word (encFence fm pred succ rs1 rd)
  | .fenceI imm rs1 rd => .word (encI imm rs1 0b001#3 rd 0b0001111#7)
  | .h3Bextm rd rs1 rs2 size => .word (encBextm size rs2 rs1 0b000#3 rd)
  | .h3Bextmi rd rs1 shamt size => .word (encBextm size shamt rs1 0b100#3 rd)
  | .illegal16 => .half 0x0000#16
  | .cAddi4spn rd uimm => .half (encAddi4spn uimm rd)
  | .cLw rd rs1 uimm => .half (encCls 0b010#3 uimm rs1 rd)
  | .cSw rs1 rs2 uimm => .half (encCls 0b110#3 uimm rs1 rs2)
  | .cAddi rd imm => .half (encCi 0b000#3 imm rd 0b01#2)
  | .cJal off => .half (encCj 0b001#3 off)
  | .cLi rd imm => .half (encCi 0b010#3 imm rd 0b01#2)
  | .cLui rd imm => .half (encCi 0b011#3 imm rd 0b01#2)
  | .cAddi16sp imm => .half (encAddi16sp imm)
  | .cSrli rd shamt => .half (encCbAlu 0b0#1 0b00#2 rd shamt)
  | .cSrai rd shamt => .half (encCbAlu 0b0#1 0b01#2 rd shamt)
  | .cAndi rd imm => .half (encCbAlu (imm.extractLsb' 5 1) 0b10#2 rd (imm.extractLsb' 0 5))
  | .cSub rd rs2 => .half (encCa rd 0b00#2 rs2)
  | .cXor rd rs2 => .half (encCa rd 0b01#2 rs2)
  | .cOr rd rs2 => .half (encCa rd 0b10#2 rs2)
  | .cAnd rd rs2 => .half (encCa rd 0b11#2 rs2)
  | .cJ off => .half (encCj 0b101#3 off)
  | .cBeqz rs1 off => .half (encCb 0b110#3 rs1 off)
  | .cBnez rs1 off => .half (encCb 0b111#3 rs1 off)
  | .cSlli rd shamt => .half (encCi 0b000#3 (0b0#1 ++ shamt) rd 0b10#2)
  | .cLwsp rd uimm => .half (encLwsp rd uimm)
  | .cJr rs1 => .half (encCr 0b0#1 rs1 0b00000#5)
  | .cMv rd rs2 => .half (encCr 0b0#1 rd rs2)
  | .cEbreak => .half 0x9002#16
  | .cJalr rs1 => .half (encCr 0b1#1 rs1 0b00000#5)
  | .cAdd rd rs2 => .half (encCr 0b1#1 rd rs2)
  | .cSwsp rs2 uimm => .half (encSwsp rs2 uimm)
  | .cmPush rlist spimm => .half (encCmpp 0b11000#5 rlist spimm)
  | .cmPop rlist spimm => .half (encCmpp 0b11010#5 rlist spimm)
  | .cmPopretz rlist spimm => .half (encCmpp 0b11100#5 rlist spimm)
  | .cmPopret rlist spimm => .half (encCmpp 0b11110#5 rlist spimm)
  | .cmMvsa01 r1s r2s => .half (encCmmv 0b01#2 r1s r2s)
  | .cmMva01s r1s r2s => .half (encCmmv 0b11#2 r1s r2s)

end Sys2Proof
end

