-- ==== Sys2Proof/Config.lean ====
section
/-!
DEFINITION. The parameters of the block that a model takes as arguments (spec R8): the constants of one machine as a record of
plain data, the calls and answers of the external memory MEM (R84) with the free functions that give its answers,
and the value the spec leaves free in a faulting pop (R460).
-/

namespace Sys2Proof

/-- `MISC_MEM_POLICY` of R8: what FENCE and FENCE.I do (R375, R376). -/
inductive MiscMemPolicy where
  /-- They execute as no-operations (the spec's default). -/
  | nop
  /-- They raise `INSTR_ILLEGAL`. -/
  | illegal
deriving DecidableEq, Repr

/-- `CSR_IMM_READ_FAIL` of R8: what a failing CSR read does in CSRRWI, CSRRSI and CSRRCI (R358). -/
inductive CsrImmReadFail where
  /-- It raises `INSTR_ILLEGAL`, as in the register forms (the spec's default). -/
  | illegal
  /-- It raises nothing by itself; the write step, if any, still follows. -/
  | silent
deriving DecidableEq, Repr

/-- The implementation parameters of R8 that are fixed for one machine. -/
structure Config where
  /-- `RESET_VECTOR`: the value of `pc` after reset. -/
  resetVector : Word
  /-- `RAM_BASE`: the first byte address of the RAM window. -/
  ramBase : Word
  /-- `RAM_SIZE`: the size of the RAM window in bytes (a Nat, since 2^32 is allowed). -/
  ramSize : Nat
  /-- `MVENDORID`: what CSR `mvendorid` reads (R43). -/
  mvendorid : Word
  /-- `MIMPID`: what CSR `mimpid` reads (R43). -/
  mimpid : Word
  /-- `MCONFIGPTR`: what CSR `mconfigptr` reads (R43). -/
  mconfigptr : Word
  /-- `MISC_MEM_POLICY`. -/
  miscMem : MiscMemPolicy
  /-- `CSR_IMM_READ_FAIL`. -/
  csrImmReadFail : CsrImmReadFail
deriving DecidableEq, Repr

/-- The constraints of R8 on the reset inputs: an even reset vector, a RAM window made of whole words that
does not pass 2^32. -/
def Config.wf (c : Config) : Bool :=
  !c.resetVector.getLsbD 0 && c.ramBase.toNat % 4 == 0 && c.ramSize % 4 == 0
    && decide (c.ramBase.toNat + c.ramSize ≤ 2 ^ 32)

/-- The parameters that `State.reset` takes. The two policies and the three identity constants are the spec's
defaults (R8); the RAM window is that of 95_test_vectors.md section 0 and the reset vector that of its
programs. DESIGN CHOICE (log entries 1 and 4): the spec leaves the window and the vector to the platform. -/
def Config.default : Config :=
  { resetVector := 0x100#32, ramBase := 0#32, ramSize := 0x10000
    mvendorid := 0#32, mimpid := 0#32, mconfigptr := 0#32
    miscMem := .nop, csrImmReadFail := .illegal }

namespace Machine

/-! ## The external memory MEM (R84) -/

/-- The width of a memory access (R92). -/
inductive Width where
  | byte
  | half
  | word
deriving DecidableEq, Repr

/-- One call of the external memory interface MEM, as the block issues it (R84). -/
inductive MemCall where
  /-- `r8`, `r16` or `r32` at an address. -/
  | read (n : Width) (addr : Word)
  /-- `w8`, `w16` or `w32` of a value at an address; the value is zero above its width. -/
  | write (n : Width) (addr value : Word)
deriving DecidableEq, Repr

/-- MEM's answer to a write (R84). -/
inductive WriteReply where
  | ok
  | fail
  /-- A host halt with its exit code. -/
  | halt (code : Int)
deriving DecidableEq, Repr, Inhabited

end Machine

/-- The functions `r8`, `r16`, `r32` of MEM (R84): the answer to a read of a width at an address, given all earlier
calls, the latest first; `none` is a bus error. MEM is any set of total functions of address and history (R8, U13),
so these have no body and no proof can rely on an answer; the first argument tells one MEM from another (log entry
5). -/
opaque Config.memRead : Nat → Machine.Width → Word → List Machine.MemCall → Option Word

/-- The functions `w8`, `w16`, `w32` of MEM (R84): the answer to a write of a width, at an address, of a value,
given all earlier calls, the latest first. Free, as `Config.memRead` is (log entry 5). -/
opaque Config.memWrite : Nat → Machine.Width → Word → Word → List Machine.MemCall → Machine.WriteReply

/-- A free value (R460, U8): whether, after a POP, POPRET or POPRETZ whose later element could not be read,
an earlier loaded register holds its loaded value (true) or its old value (false). The first argument is the
count of such faulting instructions so far (`State.freeCount`), the second the register's number. It has no
body: no proof can rely on either answer (log entry 3). -/
opaque Config.popFaultLoaded : Nat → Nat → Bool

end Sys2Proof
end

