-- ==== Sys2Proof/Machine/Memory.lean ====
section
/-!
DEFINITION. Memory as data: a list of (address, byte) pairs in one canonical form. It holds the bytes of the RAM window
(spec R35, R80, R81); what lies outside the window belongs to MEM (R85). An address with no entry reads as
`Memory.unlisted`, so equal memories are equal lists.
-/

namespace Sys2Proof.Machine

/-- Bytes by address: strictly rising addresses, no entry equal to `Memory.unlisted` (see `Memory.wf`). -/
abbrev Memory := List Host.Cell

/-- What an address with no entry reads as. DESIGN CHOICE (log entry 2): the RAM contents at reset are the
parameter `RAM_INIT` (R8, R35); a memory with nothing listed is the all-zero `RAM_INIT` of 95_test_vectors.md,
and every other `RAM_INIT` is another list. -/
def Memory.unlisted : Byte := 0#8

/-- Every address of the list is above `lo`. -/
def Memory.above (lo : Nat) : Memory → Bool
  | [] => true
  | (k, _) :: m => decide (lo < k) && Memory.above lo m

/-- The canonical form: strictly rising addresses, no entry that reads as an unlisted address does. -/
def Memory.wf : Memory → Bool
  | [] => true
  | (k, v) :: m => v != Memory.unlisted && Memory.above k m && Memory.wf m

/-- Every byte a memory lists lies in the RAM window (R85): a list for the window holds nothing else. -/
def Memory.within (lo size : Nat) (m : Memory) : Bool := m.all fun p => decide (lo ≤ p.1 ∧ p.1 < lo + size)

/-- The byte at an address. -/
def Memory.read : Memory → Nat → Byte
  | [], _ => Memory.unlisted
  | (k, v) :: m, a => if k = a then v else Memory.read m a

/-- The entry for byte `v` at address `a` put before `m`, or nothing where `v` is what an unlisted address
reads as. -/
def Memory.put (a : Nat) (v : Byte) (m : Memory) : Memory :=
  if v = Memory.unlisted then m else (a, v) :: m

/-- The memory with the byte at address `a` replaced by `v`, in canonical form again. -/
def Memory.write : Memory → Nat → Byte → Memory
  | [], a, v => Memory.put a v []
  | (k, u) :: m, a, v =>
    if a < k then Memory.put a v ((k, u) :: m)
    else if a = k then Memory.put a v m
    else (k, u) :: Memory.write m a v

end Sys2Proof.Machine
end

