-- ==== Sys2Proof/Machine/State.lean ====
section
/-!
DEFINITION. The state of the block (spec R20), as plain data, the reasons a step can end without a next state, and the
state after reset (R61, R540).
-/

namespace Sys2Proof.Machine

/-- The two privilege levels (R31, R505): M, encoded 3, and U, encoded 0. -/
inductive Priv where
  | U
  | M
deriving DecidableEq, Repr

/-- Who gives the answers of MEM that a `MemPort` does not list. -/
inductive MemRest where
  /-- Every such read is answered `none` and every such write `fail`: the MEM of 95_test_vectors.md section 0. -/
  | refuses
  /-- The free functions `Config.memRead k` and `Config.memWrite k`: any MEM (R8, R84). -/
  | free (k : Nat)
deriving DecidableEq, Repr

/-- MEM, a parameter of the block (R8): six total functions whose answers may depend on the history of earlier
calls (R84), and that history. Some answers may be listed, each under the whole history it ends: the call and all
calls before it, the latest first; every other answer is that of `rest` (log entry 5). `MemPort.readAnswer` and
`MemPort.writeAnswer` are the functions; no step changes any field but `calls`. -/
structure MemPort where
  /-- The listed answers to reads; `none` is a bus error. A value is cut to the width of the read. -/
  reads : List (List MemCall × Option Word)
  /-- The listed answers to writes. -/
  writes : List (List MemCall × WriteReply)
  /-- The answers to all other calls. -/
  rest : MemRest
  /-- The calls made so far, the latest first. -/
  calls : List MemCall
deriving DecidableEq, Repr

/-- The complete state of the block (R20), with the parameters (R8) and the model's own counter. -/
structure State where
  /-- General registers `x[0..31]` (R21). Read and written through `readReg` and `writeReg` (R22). -/
  x : Vector Word 32
  /-- The program counter (R25). -/
  pc : Word
  /-- The privilege level (R31). -/
  priv : Priv
  /-- The load-reservation flag (R32). -/
  reserved : Bool
  /-- The pending CSR write: address and effective value before the mask (R33). -/
  pending : Option (CsrAddr × Word)
  /-- CSR `mstatus` (R44). -/
  mstatus : Word
  /-- CSR `mie` (R45). -/
  mie : Word
  /-- CSR `mip` (R46). -/
  mip : Word
  /-- CSR `mtvec` (R47). -/
  mtvec : Word
  /-- CSR `mscratch` (R48). -/
  mscratch : Word
  /-- CSR `mepc` (R49). -/
  mepc : Word
  /-- CSR `mcause` (R52). -/
  mcause : Word
  /-- CSR `mcycle`, the low half (R54). -/
  mcycle : Word
  /-- CSR `mcycleh`, the high half (R54). -/
  mcycleh : Word
  /-- CSR `minstret`, the low half (R55). -/
  minstret : Word
  /-- CSR `minstreth`, the high half (R55). -/
  minstreth : Word
  /-- CSR `mcountinhibit`, 3 bits (R58). -/
  mcountinhibit : BitVec 3
  /-- The RAM fast-path buffer, as bytes by address (R35, R81). -/
  ram : Memory
  /-- The external memory interface (R84). -/
  mem : MemPort
  /-- The model's own counter that indexes the free values of R460 (log entry 3). -/
  freeCount : Nat
  /-- The parameters of the machine (R8); no step changes them. -/
  cfg : Config
deriving DecidableEq, Repr

/-- Why a step leaves abnormally. -/
inductive Fault where
  /-- A write to MEM raised the host halt with this exit code (R558): the run ends. `final` is the state the
  spec gives at that point: that before the halted step, with the memory effects already made (R559). Raised by
  the stores, SC.W with a reservation, the AMOs and PUSH. Safe: the spec gives no successor state. -/
  | hostHalt (code : Int) (final : State)
deriving DecidableEq, Repr

/-- Why an instruction has no meaning. -/
inductive Refusal where
  /-- The instruction has no meaning in this model yet. Raised by `exec` alone. Safe. -/
  | notModelled (mnemonic : String)
  /-- MRET in M-mode with `mstatus.MPP` 1 or 2: outside the specified behaviour, and the spec says that a model
  refuses to step (R496, U7). Raised by MRET. Safe: nothing can be proved of a next state. -/
  | mretReservedMpp
deriving DecidableEq, Repr

/-- The state right after reset, for any parameters that meet their constraints, any contents `RAM_INIT` of the RAM
window, in canonical form, and any MEM (R8, U12, U13); MEM has been asked nothing (R61, R540). -/
def State.resetWith (cfg : Config) (_ : cfg.wf = true) (ramInit : Memory) (_ : ramInit.wf = true)
    (_ : ramInit.within cfg.ramBase.toNat cfg.ramSize = true) (reads : List (List MemCall × Option Word))
    (writes : List (List MemCall × WriteReply)) (rest : MemRest) : State :=
  { x := Vector.replicate 32 0#32
    pc := cfg.resetVector
    priv := .M
    reserved := false
    pending := none
    mstatus := 0#32, mie := 0#32, mip := 0#32, mtvec := 0#32
    mscratch := 0#32, mepc := 0#32, mcause := 0#32
    mcycle := 0#32, mcycleh := 0#32, minstret := 0#32, minstreth := 0#32
    mcountinhibit := 0#3
    ram := ramInit
    mem := { reads := reads, writes := writes, rest := rest, calls := [] }
    freeCount := 0
    cfg := cfg }

/-- The machine right after reset, with the parameters `Config.default`, nothing listed in RAM, and a MEM that
answers `none` and `fail` (log entries 1, 2, 4, 5). -/
def State.reset : State := State.resetWith Config.default rfl [] rfl rfl [] [] .refuses

end Sys2Proof.Machine
end

