-- ==== Sys2Proof/Machine/Operands.lean ====
section
/-!
DEFINITION. Operands: register access, register names, the immediates of every format extended as the spec says, and
access widths. All operands are read from the state before the step (spec R11).
-/

namespace Sys2Proof.Machine

/-! ## General registers -/

/-- Read a general register; register 0 always reads 0 (R22). -/
def State.readReg (s : State) (r : Reg) : Word :=
  if r = 0#5 then 0#32 else s.x[r.toNat]'r.isLt

/-- Write a general register; a write to register 0 is discarded (R22). -/
def State.writeReg (s : State) (r : Reg) (v : Word) : State :=
  if r = 0#5 then s else { s with x := s.x.set r.toNat v r.isLt }

/-- `x1`, the return address (R23). -/
def ra : Reg := 1#5
/-- `x2`, the stack pointer (R23). -/
def sp : Reg := 2#5
/-- `x10` (R23). -/
def a0 : Reg := 10#5
/-- `x11` (R23). -/
def a1 : Reg := 11#5

/-- The register a 3-bit field of a 16-bit instruction names: `x[8 + r']` (R141). -/
def shortReg (r : ShortReg) : Reg := 8#5 + r.setWidth 5

/-- The s-register a 3-bit field of MVSA01 or MVA01S names: `raw + 8 + 8 * ((raw & 6) != 0)` (R453). -/
def sReg (raw : ShortReg) : Reg :=
  raw.setWidth 5 + 8#5 + (if raw &&& 6#3 = 0#3 then 0#5 else 8#5)

/-! ## Immediates -/

/-- `imm_i` and `imm_s`: a 12-bit immediate, sign-extended (R123, R124). -/
def imm12 (imm : BitVec 12) : Word := imm.signExtend 32

/-- `imm_u`: 20 upper bits, 12 zeros below (R125). -/
def immU (imm : BitVec 20) : Word := imm ++ 0#12

/-- `imm_b`, from its bits 12:1: sign-extended, bit 0 zero (R126). -/
def immB (off : BitVec 12) : Word := (off ++ 0#1 : BitVec 13).signExtend 32

/-- `imm_j`, from its bits 20:1: sign-extended, bit 0 zero (R127). -/
def immJ (off : BitVec 20) : Word := (off ++ 0#1 : BitVec 21).signExtend 32

/-- `uimm` of the immediate CSR forms: zero-extended (R129). -/
def uimm5 (u : BitVec 5) : Word := u.setWidth 32

/-- A shift amount or bit index taken from a register: its bits 4:0 (R161, R221). -/
def shiftAmount (v : Word) : BitVec 5 := v.extractLsb' 0 5

/-- The 6-bit immediate of C.ADDI, C.LI, C.ANDI, sign-extended (R142). -/
def imm6 (imm : BitVec 6) : Word := imm.signExtend 32

/-- The immediate of C.LUI, from its bits 17:12: sign-extended from bit 17, 12 zeros below (R142). -/
def immClui (imm : BitVec 6) : Word := (imm ++ 0#12 : BitVec 18).signExtend 32

/-- The immediate of C.ADDI16SP, from its bits 9:4: sign-extended, a multiple of 16 (R142). -/
def immAddi16sp (imm : BitVec 6) : Word := (imm ++ 0#4 : BitVec 10).signExtend 32

/-- The immediate of C.ADDI4SPN, from its bits 9:2: zero-extended, a multiple of 4 (R142). -/
def uimmAddi4spn (u : BitVec 8) : Word := (u ++ 0#2 : BitVec 10).setWidth 32

/-- The offset of C.LW and C.SW, from its bits 6:2: zero-extended, a multiple of 4 (R142). -/
def uimmCls (u : BitVec 5) : Word := (u ++ 0#2 : BitVec 7).setWidth 32

/-- The offset of C.LWSP and C.SWSP, from its bits 7:2: zero-extended, a multiple of 4 (R142). -/
def uimmSp (u : BitVec 6) : Word := (u ++ 0#2 : BitVec 8).setWidth 32

/-- The offset of C.J and C.JAL, from its bits 11:1: sign-extended, even (R142). -/
def offCj (off : BitVec 11) : Word := (off ++ 0#1 : BitVec 12).signExtend 32

/-- The offset of C.BEQZ and C.BNEZ, from its bits 8:1: sign-extended, even (R142). -/
def offCb (off : BitVec 8) : Word := (off ++ 0#1 : BitVec 9).signExtend 32

/-! ## Instruction lengths -/

/-- `ilen` of a 32-bit instruction, in bytes (R10). -/
def ilen32 : Word := 4#32
/-- `ilen` of a 16-bit instruction, in bytes (R10). -/
def ilen16 : Word := 2#32

/-- A word with bit 0 cleared: a jump-register target (R28). -/
def clearBit0 (v : Word) : Word := v &&& 0xFFFFFFFE#32

/-! ## Access widths -/

/-- The size of an access in bytes (R92). -/
def Width.bytes : Width → Nat
  | .byte => 1
  | .half => 2
  | .word => 4

/-- The low `8n` bits of a word, zero above (R86, R87). -/
def Width.cut : Width → Word → Word
  | .byte, v => (v.extractLsb' 0 8).setWidth 32
  | .half, v => (v.extractLsb' 0 16).setWidth 32
  | .word, v => v

/-- Whether an address meets the alignment the width needs (R90). -/
def Width.aligned : Width → Word → Bool
  | .byte, _ => true
  | .half, addr => addr.extractLsb' 0 1 == 0#1
  | .word, addr => addr.extractLsb' 0 2 == 0#2

/-- `sext_8` of the low byte (R10). -/
def sext8 (v : Word) : Word := (v.extractLsb' 0 8).signExtend 32
/-- `sext_16` of the low halfword (R10). -/
def sext16 (v : Word) : Word := (v.extractLsb' 0 16).signExtend 32
/-- `zext_8` of the low byte (R10). -/
def zext8 (v : Word) : Word := (v.extractLsb' 0 8).setWidth 32
/-- `zext_16` of the low halfword (R10). -/
def zext16 (v : Word) : Word := (v.extractLsb' 0 16).setWidth 32

/-! ## Privilege -/

/-- The encoding of a privilege level (R31). -/
def Priv.code : Priv → BitVec 2
  | .U => 0#2
  | .M => 3#2

/-- The privilege level an encoding names; 1 and 2 name none (R31, R496). -/
def privOfCode (c : BitVec 2) : Option Priv :=
  if c = 0#2 then some .U else if c = 3#2 then some .M else none

end Sys2Proof.Machine
end

