-- ==== Sys2Proof/Machine/Flags.lean ====
section
/-!
DEFINITION. Comparisons. The block has no condition codes and no arithmetic flags (spec R30): a comparison gives a boolean
result 0 or 1 in a register, or steers a branch, a minimum or a maximum. The only one-bit flag of the
architecture is the load reservation (R32), which `State.reserved` holds and LR.W and SC.W alone write.
-/

namespace Sys2Proof.Machine

/-- `signed(a) < signed(b)` (R10). -/
def ltSigned (a b : Word) : Bool := decide (a.toInt < b.toInt)

/-- `unsigned(a) < unsigned(b)` (R10). -/
def ltUnsigned (a b : Word) : Bool := decide (a.toNat < b.toNat)

/-- A boolean result as a word: 1 or 0 (R30). -/
def boolWord (b : Bool) : Word := if b then 1#32 else 0#32

end Sys2Proof.Machine
end

