-- ==== Sys2Proof/Machine/Ops.lean ====
section
/-!
DEFINITION. The shared operations over registers, memory, the program counter and the trap sequencer, from which every
meaning is made (spec 20_memory.md, 60_exceptions.md, 70_reset_and_hazards.md R551).
-/

namespace Sys2Proof.Machine

/-- The outcome of an instruction or a step. -/
abbrev Result := Host.Outcome State Fault Refusal

/-! ## Taking an exception and returning from one -/

/-- The exception causes (R481). `instrAlign` exists by name and no rule raises it (R482). -/
inductive Cause where
  | instrAlign
  | instrFault
  | instrIllegal
  | ebreak
  | loadAlign
  | loadFault
  | storeAlign
  | storeFault
  | ecallU
  | ecallM
deriving DecidableEq, Repr

/-- The exception code of a cause (R481). -/
def Cause.code : Cause → Word
  | .instrAlign => 0#32
  | .instrFault => 1#32
  | .instrIllegal => 2#32
  | .ebreak => 3#32
  | .loadAlign => 4#32
  | .loadFault => 5#32
  | .storeAlign => 6#32
  | .storeFault => 7#32
  | .ecallU => 8#32
  | .ecallM => 11#32

/-- Where a trap goes: `mtvec & ~1`, or the vectored entry when `mtvec[0] = 1` and the cause is an interrupt,
which no cause of this block is (R491, R500). -/
def trapTarget (mtvec cause : Word) : Word :=
  let base := clearBit0 mtvec
  if mtvec.getLsbD 0 && cause.getLsbD 31 then base + 4#32 * (cause &&& 0x7FFFFFFF#32) else base

/-- `mstatus` after trap entry from privilege `p`: MPP takes `p`; MPIE is set when MIE was 1 and otherwise left
alone; MIE is cleared; every other bit is kept (R490, R497). -/
def trapStatus (mstatus : Word) (p : Priv) : Word :=
  let mpp := (mstatus &&& ~~~0x1800#32) ||| (p.code.setWidth 32 <<< 11)
  let mpie := if mpp.getLsbD 3 then mpp ||| 0x80#32 else mpp
  mpie &&& ~~~0x8#32

/-- `trap_enter(cause, epc)` with `epc` the `pc` of the trapping instruction (R490). -/
def trapEnter (cause : Word) (s : State) : State :=
  { s with
    mstatus := trapStatus s.mstatus s.priv
    priv := .M
    mcause := cause
    mepc := s.pc
    pc := trapTarget s.mtvec cause }

/-- `raise E`: the instruction has no effect but trap entry (R10, R492). -/
def raise (c : Cause) (s : State) : Result := .next (trapEnter c.code s)

/-- `mstatus` after MRET: MIE is set when MPIE is 1 and otherwise left alone; then MPIE is cleared (R495). -/
def mretStatus (mstatus : Word) : Word :=
  let mie := if mstatus.getLsbD 7 then mstatus ||| 0x8#32 else mstatus
  mie &&& ~~~0x80#32

/-- The MPP field of `mstatus`: bits 12:11 (R44). -/
def mppOf (mstatus : Word) : BitVec 2 := mstatus.extractLsb' 11 2

/-- `trap_mret()` (R495); with MPP 1 or 2 it is outside the specified behaviour and has no successor (R496). -/
def trapMret (s : State) : Result :=
  match privOfCode (mppOf s.mstatus) with
  | some p => .next { s with priv := p, mstatus := mretStatus s.mstatus, pc := s.mepc }
  | none => .refused .mretReservedMpp

/-! ## Committing a result -/

/-- `pc` moved past an instruction of `ilen` bytes, modulo 2^32 (R27, R29). -/
def State.advance (s : State) (ilen : Word) : State := { s with pc := s.pc + ilen }

/-- The instruction writes `v` to `x[rd]` and goes on to the next one (R27, R551). -/
def commitRd (ilen : Word) (rd : Reg) (v : Word) (s : State) : Result :=
  .next ((s.writeReg rd v).advance ilen)

/-- A branch: `pc + off` when taken, else past the instruction (43_control_transfer.md section 2). -/
def branchOp (ilen : Word) (taken : Bool) (off : Word) (s : State) : Result :=
  .next { s with pc := if taken then s.pc + off else s.pc + ilen }

/-- A jump to `target` that writes the address of the following instruction to `x[rd]` (R282). -/
def jumpLink (ilen : Word) (rd : Reg) (target : Word) (s : State) : Result :=
  .next { s.writeReg rd (s.pc + ilen) with pc := target }

/-! ## Memory -/

/-- Whether an address lies in the RAM window (R85). -/
def State.inRam (s : State) (addr : Word) : Bool :=
  decide (s.cfg.ramBase.toNat ≤ addr.toNat)
    && decide (addr.toNat < s.cfg.ramBase.toNat + s.cfg.ramSize)

/-- `n` bytes of a memory from address `a` up, least significant first (R81, R86). The caller guarantees
alignment (R86). -/
def ramRead (m : Memory) (n : Width) (a : Nat) : Word :=
  match n with
  | .byte => (m.read a).setWidth 32
  | .half => (m.read (a + 1) ++ m.read a : BitVec 16).setWidth 32
  | .word => m.read (a + 3) ++ m.read (a + 2) ++ m.read (a + 1) ++ m.read a

/-- A memory with the low `n` bytes of `v` stored from address `a` up, least significant first (R81, R87). -/
def ramWrite (m : Memory) (n : Width) (a : Nat) (v : Word) : Memory :=
  match n with
  | .byte => m.write a (v.extractLsb' 0 8)
  | .half => (m.write a (v.extractLsb' 0 8)).write (a + 1) (v.extractLsb' 8 8)
  | .word =>
    (((m.write a (v.extractLsb' 0 8)).write (a + 1) (v.extractLsb' 8 8)).write (a + 2)
      (v.extractLsb' 16 8)).write (a + 3) (v.extractLsb' 24 8)

/-- The functions `r8`, `r16`, `r32` of MEM: what a read of `n` bytes at `addr` is answered after the calls `before`,
the latest first (R84). -/
def MemPort.readAnswer (p : MemPort) (before : List MemCall) (n : Width) (addr : Word) : Option Word :=
  match p.reads.lookup (.read n addr :: before) with
  | some answer => answer
  | none =>
    match p.rest with
    | .refuses => none
    | .free k => Config.memRead k n addr before

/-- The functions `w8`, `w16`, `w32` of MEM: what a write of `v`, a value of `n` bytes, at `addr` is answered after
the calls `before`, the latest first (R84). -/
def MemPort.writeAnswer (p : MemPort) (before : List MemCall) (n : Width) (addr v : Word) : WriteReply :=
  match p.writes.lookup (.write n addr v :: before) with
  | some answer => answer
  | none =>
    match p.rest with
    | .refuses => .fail
    | .free k => Config.memWrite k n addr v before

/-- MEM with one more call in its history. -/
def MemPort.record (p : MemPort) (c : MemCall) : MemPort := { p with calls := c :: p.calls }

/-- One read call of MEM: its answer, cut to the width, and the call recorded (R84). -/
def MemPort.read (p : MemPort) (n : Width) (addr : Word) : Option Word × MemPort :=
  ((p.readAnswer p.calls n addr).map n.cut, p.record (.read n addr))

/-- One write call of MEM with a value cut to the width: its answer, and the call recorded (R84). -/
def MemPort.write (p : MemPort) (n : Width) (addr v : Word) : WriteReply × MemPort :=
  (p.writeAnswer p.calls n addr (n.cut v), p.record (.write n addr (n.cut v)))

/-- `MemRead(addr, n)`: the value, zero-extended to a word, or `none`; and the state after the access (R86). -/
def State.memRead (s : State) (n : Width) (addr : Word) : Option Word × State :=
  if s.inRam addr then (some (ramRead s.ram n addr.toNat), s)
  else ((s.mem.read n addr).1, { s with mem := (s.mem.read n addr).2 })

/-- The outcome of `MemWrite`, with the state after the access (R87). -/
inductive WriteResult where
  | ok (s : State)
  | fail (s : State)
  | halt (code : Int) (s : State)
deriving DecidableEq, Repr

/-- `MemWrite(addr, n, v)` (R87). -/
def State.memWrite (s : State) (n : Width) (addr v : Word) : WriteResult :=
  if s.inRam addr then .ok { s with ram := ramWrite s.ram n addr.toNat v }
  else
    match (s.mem.write n addr v).1 with
    | .ok => .ok { s with mem := (s.mem.write n addr v).2 }
    | .fail => .fail { s with mem := (s.mem.write n addr v).2 }
    | .halt code => .halt code { s with mem := (s.mem.write n addr v).2 }

/-- A load: alignment, read, extend, write `x[rd]`, in that order (R301). -/
def loadOp (ilen : Word) (n : Width) (ext : Word → Word) (rd : Reg) (addr : Word) (s : State) : Result :=
  if n.aligned addr then
    match (s.memRead n addr).1 with
    | some v => commitRd ilen rd (ext v) (s.memRead n addr).2
    | none => raise .loadFault (s.memRead n addr).2
  else raise .loadAlign s

/-- What a write's outcome means for the instruction: it goes on by `next`, traps with `STORE_FAULT`, or the run
ends (R302, R558). -/
def afterWrite (r : WriteResult) (next : State → Result) : Result :=
  match r with
  | .ok s => next s
  | .fail s => raise .storeFault s
  | .halt code s => .fault (.hostHalt code s)

/-- A store: alignment, then write, in that order (R302). -/
def storeOp (ilen : Word) (n : Width) (addr v : Word) (s : State) : Result :=
  if n.aligned addr then
    afterWrite (s.memWrite n addr v) fun s' => .next (s'.advance ilen)
  else raise .storeAlign s

/-! ## Fetch -/

/-- Instruction fetch: the halfword at `pc`, then the one at `pc + 2`, both always read; the code they hold, or
`none` when a halfword that matters could not be read (`INSTR_FAULT`); and the state after the reads (R93). -/
def fetch (s : State) : Option Code × State :=
  let lo := s.memRead .half s.pc
  let hi := lo.2.memRead .half (s.pc + 2#32)
  match lo.1 with
  | none => (none, hi.2)
  | some l =>
    if isLowHalf (l.extractLsb' 0 16) then
      match hi.1 with
      | none => (none, hi.2)
      | some h => (some (.word (h.extractLsb' 0 16 ++ l.extractLsb' 0 16)), hi.2)
    else (some (.half (l.extractLsb' 0 16)), hi.2)

end Sys2Proof.Machine
end

