-- ==== Sys2Proof/Machine/CsrFile.lean ====
section
/-!
DEFINITION. The CSR file: the nineteen CSRs with their addresses, read values and write masks (spec R41), the read and write
contracts (R50, R51), the end-of-step commit (R59) and the host's view (R557).
-/

namespace Sys2Proof.Machine

/-- The CSRs that exist (R40, R41). -/
inductive Csr where
  | mstatus
  | misa
  | mie
  | mtvec
  | mcountinhibit
  | mscratch
  | mepc
  | mcause
  | mtval
  | mip
  | mcycle
  | minstret
  | mcycleh
  | minstreth
  | mvendorid
  | marchid
  | mimpid
  | mhartid
  | mconfigptr
deriving DecidableEq, Repr

/-- The address of a CSR (R41). -/
def Csr.addr : Csr → CsrAddr
  | .mstatus => 0x300#12
  | .misa => 0x301#12
  | .mie => 0x304#12
  | .mtvec => 0x305#12
  | .mcountinhibit => 0x320#12
  | .mscratch => 0x340#12
  | .mepc => 0x341#12
  | .mcause => 0x342#12
  | .mtval => 0x343#12
  | .mip => 0x344#12
  | .mcycle => 0xB00#12
  | .minstret => 0xB02#12
  | .mcycleh => 0xB80#12
  | .minstreth => 0xB82#12
  | .mvendorid => 0xF11#12
  | .marchid => 0xF12#12
  | .mimpid => 0xF13#12
  | .mhartid => 0xF14#12
  | .mconfigptr => 0xF15#12

/-- All nineteen CSRs. -/
def Csr.all : List Csr :=
  [.mstatus, .misa, .mie, .mtvec, .mcountinhibit, .mscratch, .mepc, .mcause, .mtval, .mip,
    .mcycle, .minstret, .mcycleh, .minstreth, .mvendorid, .marchid, .mimpid, .mhartid, .mconfigptr]

/-- The CSR at an address; every address not in the table is invalid (R40). -/
def csrAt (a : CsrAddr) : Option Csr := Csr.all.find? fun c => c.addr == a

/-- The bits a write can change; `none` for the read-only constants, whose write fails (R41, R360). -/
def Csr.writeMask : Csr → Option Word
  | .mstatus => some 0xFFFFFFFF#32
  | .mie => some 0xFFFFFFFF#32
  | .mtvec => some 0xFFFFFFFD#32
  | .mcountinhibit => some 0x00000007#32
  | .mscratch => some 0xFFFFFFFF#32
  | .mepc => some 0xFFFFFFFE#32
  | .mcause => some 0x8000000F#32
  | .mip => some 0xFFFFFFFF#32
  | .mcycle => some 0xFFFFFFFF#32
  | .minstret => some 0xFFFFFFFF#32
  | .mcycleh => some 0xFFFFFFFF#32
  | .minstreth => some 0xFFFFFFFF#32
  | .misa => none
  | .mtval => none
  | .mvendorid => none
  | .marchid => none
  | .mimpid => none
  | .mhartid => none
  | .mconfigptr => none

/-- What a CSR reads (R41 to R58). -/
def State.csrValue (s : State) : Csr → Word
  | .mstatus => s.mstatus
  | .misa => 0x40901105#32
  | .mie => s.mie
  | .mtvec => s.mtvec
  | .mcountinhibit => s.mcountinhibit.setWidth 32
  | .mscratch => s.mscratch
  | .mepc => s.mepc
  | .mcause => s.mcause
  | .mtval => 0#32
  | .mip => s.mip
  | .mcycle => s.mcycle
  | .minstret => s.minstret
  | .mcycleh => s.mcycleh
  | .minstreth => s.minstreth
  | .mvendorid => s.cfg.mvendorid
  | .marchid => 0x0000001B#32
  | .mimpid => s.cfg.mimpid
  | .mhartid => 0#32
  | .mconfigptr => s.cfg.mconfigptr

/-- A CSR's storage replaced by a word; a read-only constant has none. -/
def State.csrStore (s : State) (c : Csr) (v : Word) : State :=
  match c with
  | .mstatus => { s with mstatus := v }
  | .mie => { s with mie := v }
  | .mtvec => { s with mtvec := v }
  | .mcountinhibit => { s with mcountinhibit := v.extractLsb' 0 3 }
  | .mscratch => { s with mscratch := v }
  | .mepc => { s with mepc := v }
  | .mcause => { s with mcause := v }
  | .mip => { s with mip := v }
  | .mcycle => { s with mcycle := v }
  | .minstret => { s with minstret := v }
  | .mcycleh => { s with mcycleh := v }
  | .minstreth => { s with minstreth := v }
  | .misa => s
  | .mtval => s
  | .mvendorid => s
  | .marchid => s
  | .mimpid => s
  | .mhartid => s
  | .mconfigptr => s

/-- The permission gate: it passes unless `addr[9:8] > priv` as numbers (R50). -/
def csrGate (a : CsrAddr) (p : Priv) : Bool :=
  decide ((a.extractLsb' 8 2).toNat ≤ p.code.toNat)

/-- `csr_read(addr)` (R50). -/
def State.csrRead (s : State) (a : CsrAddr) : Option Word :=
  if csrGate a s.priv then (csrAt a).map s.csrValue else none

/-- The three ways a CSR instruction forms the new value (R51, R350). -/
inductive CsrOp where
  | write
  | set
  | clear
deriving DecidableEq, Repr

/-- The new value from the old one and the operand (R51). -/
def CsrOp.apply : CsrOp → Word → Word → Word
  | .write, _, data => data
  | .set, old, data => old ||| data
  | .clear, old, data => old &&& ~~~data

/-- Whether an address is one of the twelve writable CSRs (R51). -/
def csrWritable (a : CsrAddr) : Bool := ((csrAt a).bind Csr.writeMask).isSome

/-- `csr_write(addr, data, op)`: the state with the write staged, or `none` when it fails (R51). -/
def State.csrWrite (s : State) (a : CsrAddr) (data : Word) (op : CsrOp) : Option State :=
  if csrGate a s.priv && csrWritable a then
    match op, s.csrRead a with
    | .write, _ => some { s with pending := some (a, data) }
    | _, some old => some { s with pending := some (a, op.apply old data) }
    | _, none => none
  else none

/-- The common semantics of the six CSR instructions (R351, R358). `field` is `instr[19:15]`, the register number
or the immediate; `imm` says that the form is an immediate one. -/
def csrInstr (op : CsrOp) (imm : Bool) (rd : Reg) (a : CsrAddr) (src : Word) (field : BitVec 5)
    (s : State) : Result :=
  let doRead := !(op == .write && rd == 0)
  let doWrite := !(op != .write && field == 0)
  let v := if doRead then s.csrRead a else none
  let silent := imm && s.cfg.csrImmReadFail == .silent
  if doRead && v.isNone && !silent then raise .instrIllegal s
  else
    match (if doWrite then s.csrWrite a src op else some s) with
    | none => raise .instrIllegal s
    | some s' =>
      match v with
      | some old => commitRd ilen32 rd old s'
      | none => .next (s'.advance ilen32)

/-! ## The end of a step -/

/-- Whether the pending write targets a CSR address. -/
def State.pendingAt (s : State) (a : CsrAddr) : Bool :=
  match s.pending with
  | some (b, _) => b == a
  | none => false

/-- A 64-bit counter after a step, from its halves (R59). -/
def nextCount (inhibit : Bool) (hi lo : Word) : BitVec 64 :=
  if inhibit then hi ++ lo else (hi ++ lo : BitVec 64) + 1#64

/-- Steps 1 and 2 of `csr_step`: the four counter halves take their share of the next counts, but for a half the
pending write targets (R59). -/
def countersStep (s : State) : State :=
  let c := nextCount (s.mcountinhibit.getLsbD 0) s.mcycleh s.mcycle
  let i := nextCount (s.mcountinhibit.getLsbD 2) s.minstreth s.minstret
  { s with
    mcycle := if s.pendingAt 0xB00#12 then s.mcycle else c.extractLsb' 0 32
    mcycleh := if s.pendingAt 0xB80#12 then s.mcycleh else c.extractLsb' 32 32
    minstret := if s.pendingAt 0xB02#12 then s.minstret else i.extractLsb' 0 32
    minstreth := if s.pendingAt 0xB82#12 then s.minstreth else i.extractLsb' 32 32 }

/-- Step 3 of `csr_step`: the pending write goes to its CSR through that CSR's mask (R59). -/
def applyPending (s : State) : State :=
  match s.pending with
  | none => s
  | some (a, v) =>
    match csrAt a with
    | none => s
    | some c =>
      match c.writeMask with
      | none => s
      | some mask => s.csrStore c (v &&& mask)

/-- `csr_step()`, the last action of every step (R59). -/
def csrStep (s : State) : State := { applyPending (countersStep s) with pending := none }

/-- The host's view of a CSR between steps: no privilege gate, no effect (R557). The host reads registers by
`State.readReg` and `pc` by `State.pc`. -/
def State.hostCsr (s : State) (a : CsrAddr) : Option Word := (csrAt a).map s.csrValue

end Sys2Proof.Machine
end

