-- ==== Sys2Proof/Machine/Boot.lean ====
section
/-!
DEFINITION. What stands around the instruction's effect in a step (spec R551, action 7), and placing a code where the next
fetch reads it. A program comes to run from reset only by being in memory beforehand: "the block has no boot ROM and no
loader" (R545); `placeCode` stands for that load of one instruction.
-/

namespace Sys2Proof.Machine

/-- The end of a step: `csr_step`, whether or not the instruction trapped (R551, R59); a host halt abandons the
step before it (R558). -/
def endStep (r : Result) : Result :=
  match r with
  | .next s => .next (csrStep s)
  | .fault f => .fault f
  | .refused q => .refused q

/-- A halfword placed where the fetch of address `addr` finds it: in RAM inside the window (R85, R93), else as MEM's
answer to that read after the calls `before`. -/
def placeHalf (s : State) (before : List MemCall) (addr : Word) (h : Half) : State :=
  if s.inRam addr then { s with ram := ramWrite s.ram .half addr.toNat (h.setWidth 32) }
  else { s with mem.reads := (.read .half addr :: before, some (h.setWidth 32)) :: s.mem.reads }

/-- Two halfwords placed at `pc` and `pc + 2`, which the fetch reads in this order (R93): where `pc` lies outside the
window, MEM has been asked for its halfword before the other is read. -/
def placeCode (s : State) (h : Half × Half) : State :=
  let asked := if s.inRam s.pc then s.mem.calls else .read .half s.pc :: s.mem.calls
  placeHalf (placeHalf s asked (s.pc + 2#32) h.2) s.mem.calls s.pc h.1

end Sys2Proof.Machine
end

