-- ==== Sys2Proof/Machine/Atomics.lean ====
section
/-!
DEFINITION. Atomic instructions, word width (spec 45_atomics.md). Alignment is checked first (R321); aq and rl are accepted
and have no effect (R320); an exception leaves the registers and the reservation unchanged (R322).
-/

namespace Sys2Proof.Machine

/-- LR.W: loads and sets the reservation; an exception leaves the flag as it was (R324, R322). -/
def execLrW (rd rs1 : Reg) (_aq _rl : BitVec 1) (s : State) : Result :=
  let addr := s.readReg rs1
  if Width.word.aligned addr then
    match (s.memRead .word addr).1 with
    | some v => commitRd ilen32 rd v { (s.memRead .word addr).2 with reserved := true }
    | none => raise .loadFault (s.memRead .word addr).2
  else raise .loadAlign s

/-- SC.W: with the reservation it stores `x[rs2]`, clears the flag and writes 0; without it, it writes 1 and makes
no access. A store that faults leaves the flag set (R325, R322). -/
def execScW (rd rs1 rs2 : Reg) (_aq _rl : BitVec 1) (s : State) : Result :=
  let addr := s.readReg rs1
  if Width.word.aligned addr then
    if s.reserved then
      afterWrite (s.memWrite .word addr (s.readReg rs2)) fun s' =>
        commitRd ilen32 rd 0#32 { s' with reserved := false }
    else commitRd ilen32 rd 1#32 { s with reserved := false }
  else raise .storeAlign s

/-- The common semantics of the read-modify-write AMOs: every failure is a store exception, and `x[rd]` receives
the old memory word (R327). -/
def amoOp (f : Word → Word → Word) (rd rs1 rs2 : Reg) (s : State) : Result :=
  let addr := s.readReg rs1
  if Width.word.aligned addr then
    match (s.memRead .word addr).1 with
    | none => raise .storeFault (s.memRead .word addr).2
    | some old =>
      afterWrite ((s.memRead .word addr).2.memWrite .word addr (f old (s.readReg rs2))) fun s' =>
        commitRd ilen32 rd old s'
  else raise .storeAlign s

/-- AMOSWAP.W (R328). -/
def execAmoswapW (rd rs1 rs2 : Reg) (_aq _rl : BitVec 1) (s : State) : Result :=
  amoOp (fun _ v => v) rd rs1 rs2 s

/-- AMOADD.W (R329). -/
def execAmoaddW (rd rs1 rs2 : Reg) (_aq _rl : BitVec 1) (s : State) : Result :=
  amoOp (fun old v => old + v) rd rs1 rs2 s

/-- AMOXOR.W (R330). -/
def execAmoxorW (rd rs1 rs2 : Reg) (_aq _rl : BitVec 1) (s : State) : Result :=
  amoOp (fun old v => old ^^^ v) rd rs1 rs2 s

/-- AMOAND.W (R331). -/
def execAmoandW (rd rs1 rs2 : Reg) (_aq _rl : BitVec 1) (s : State) : Result :=
  amoOp (fun old v => old &&& v) rd rs1 rs2 s

/-- AMOOR.W (R332). -/
def execAmoorW (rd rs1 rs2 : Reg) (_aq _rl : BitVec 1) (s : State) : Result :=
  amoOp (fun old v => old ||| v) rd rs1 rs2 s

/-- AMOMIN.W (R333). -/
def execAmominW (rd rs1 rs2 : Reg) (_aq _rl : BitVec 1) (s : State) : Result :=
  amoOp (fun old v => if ltSigned old v then old else v) rd rs1 rs2 s

/-- AMOMAX.W (R334). -/
def execAmomaxW (rd rs1 rs2 : Reg) (_aq _rl : BitVec 1) (s : State) : Result :=
  amoOp (fun old v => if ltSigned old v then v else old) rd rs1 rs2 s

/-- AMOMINU.W (R335). -/
def execAmominuW (rd rs1 rs2 : Reg) (_aq _rl : BitVec 1) (s : State) : Result :=
  amoOp (fun old v => if ltUnsigned old v then old else v) rd rs1 rs2 s

/-- AMOMAXU.W (R336). -/
def execAmomaxuW (rd rs1 rs2 : Reg) (_aq _rl : BitVec 1) (s : State) : Result :=
  amoOp (fun old v => if ltUnsigned old v then v else old) rd rs1 rs2 s


end Sys2Proof.Machine
end

