-- ==== Sys2Proof/Machine/BitManip.lean ====
section
/-!
DEFINITION. The bit-manipulation instructions (spec 42_bitmanip.md). Each writes `x[rd]` and advances `pc` by 4, and does
nothing else (R220).
-/

namespace Sys2Proof.Machine

/-- The word whose bit `i` is `f i`, from bit `n - 1` down. -/
def ofBits : (n : Nat) → (Nat → Bool) → BitVec n
  | 0, _ => 0#0
  | n + 1, f => BitVec.cons (f n) (ofBits n f)

/-- Rotate left by `n`; 0 is the identity (R232). -/
def rotl (a : Word) (n : BitVec 5) : Word :=
  if n = 0 then a else (a <<< n.toNat) ||| (a >>> (32 - n.toNat))

/-- Rotate right by `n`; 0 is the identity (R233). -/
def rotr (a : Word) (n : BitVec 5) : Word :=
  if n = 0 then a else (a >>> n.toNat) ||| (a <<< (32 - n.toNat))

/-- The one-hot word `1 << n` (R235 to R242). -/
def oneHot (n : BitVec 5) : Word := 1#32 <<< n.toNat

/-- The carry-less product of the low `n` bits of `b` with `a`: the XOR over those bits that are 1 of
`zext_64(a) << i` (42_bitmanip.md section 7). -/
def clmulBits (a b : Word) : Nat → BitVec 64
  | 0 => 0#64
  | n + 1 => clmulBits a b n ^^^ (if b.getLsbD n then a.setWidth 64 <<< n else 0#64)

/-- The 64-bit carry-less product P(a, b) (42_bitmanip.md section 7). -/
def clmulFull (a b : Word) : BitVec 64 := clmulBits a b 32

/-- The number of consecutive 0 bits of `a` from bit `n - 1` down to bit 0 (R248). -/
def leadingZeros (a : Word) : Nat → Nat
  | 0 => 0
  | n + 1 => if a.getLsbD n then 0 else leadingZeros a n + 1

/-- The number of consecutive 0 bits of `a` from bit `32 - n` up to bit 31 (R249). -/
def trailingZeros (a : Word) : Nat → Nat
  | 0 => 0
  | n + 1 => if a.getLsbD (31 - n) then 0 else trailingZeros a n + 1

/-- The number of 1 bits among the low `n` bits of `a` (R250). -/
def popCount (a : Word) : Nat → Nat
  | 0 => 0
  | n + 1 => popCount a n + (a.getLsbD n).toNat

/-- ZIP: the low half to the even positions, the high half to the odd ones (R253). -/
def zipWord (a : Word) : Word :=
  ofBits 32 fun i => if i % 2 = 0 then a.getLsbD (i / 2) else a.getLsbD (i / 2 + 16)

/-- UNZIP: the inverse of ZIP (R254). -/
def unzipWord (a : Word) : Word :=
  ofBits 32 fun i => if i < 16 then a.getLsbD (2 * i) else a.getLsbD (2 * (i - 16) + 1)

/-- BREV8: the bits of each byte reversed (R255). -/
def brev8Word (a : Word) : Word :=
  ofBits 32 fun i => a.getLsbD (8 * (i / 8) + 7 - i % 8)

/-- ORC.B: each byte all ones if it is nonzero, else zero (R256). -/
def orcBWord (a : Word) : Word :=
  ofBits 32 fun i => a.extractLsb' (8 * (i / 8)) 8 != 0#8

/-- REV8: the bytes in reverse order (R257). -/
def rev8Word (a : Word) : Word :=
  a.extractLsb' 0 8 ++ a.extractLsb' 8 8 ++ a.extractLsb' 16 8 ++ a.extractLsb' 24 8

/-- ANDN (R222). -/
def execAndn (rd rs1 rs2 : Reg) (s : State) : Result :=
  commitRd ilen32 rd (s.readReg rs1 &&& ~~~s.readReg rs2) s

/-- ORN (R223). -/
def execOrn (rd rs1 rs2 : Reg) (s : State) : Result :=
  commitRd ilen32 rd (s.readReg rs1 ||| ~~~s.readReg rs2) s

/-- XNOR (R224). -/
def execXnor (rd rs1 rs2 : Reg) (s : State) : Result :=
  commitRd ilen32 rd (~~~(s.readReg rs1 ^^^ s.readReg rs2)) s

/-- SH1ADD (R225). -/
def execSh1add (rd rs1 rs2 : Reg) (s : State) : Result :=
  commitRd ilen32 rd (s.readReg rs2 + s.readReg rs1 <<< 1) s

/-- SH2ADD (R226). -/
def execSh2add (rd rs1 rs2 : Reg) (s : State) : Result :=
  commitRd ilen32 rd (s.readReg rs2 + s.readReg rs1 <<< 2) s

/-- SH3ADD (R227). -/
def execSh3add (rd rs1 rs2 : Reg) (s : State) : Result :=
  commitRd ilen32 rd (s.readReg rs2 + s.readReg rs1 <<< 3) s

/-- MAX (R228). -/
def execMax (rd rs1 rs2 : Reg) (s : State) : Result :=
  commitRd ilen32 rd (if ltSigned (s.readReg rs1) (s.readReg rs2) then s.readReg rs2 else s.readReg rs1) s

/-- MAXU (R229). -/
def execMaxu (rd rs1 rs2 : Reg) (s : State) : Result :=
  commitRd ilen32 rd (if ltUnsigned (s.readReg rs1) (s.readReg rs2) then s.readReg rs2 else s.readReg rs1) s

/-- MIN (R230). -/
def execMin (rd rs1 rs2 : Reg) (s : State) : Result :=
  commitRd ilen32 rd (if ltSigned (s.readReg rs1) (s.readReg rs2) then s.readReg rs1 else s.readReg rs2) s

/-- MINU (R231). -/
def execMinu (rd rs1 rs2 : Reg) (s : State) : Result :=
  commitRd ilen32 rd (if ltUnsigned (s.readReg rs1) (s.readReg rs2) then s.readReg rs1 else s.readReg rs2) s

/-- ROL (R232). -/
def execRol (rd rs1 rs2 : Reg) (s : State) : Result :=
  commitRd ilen32 rd (rotl (s.readReg rs1) (shiftAmount (s.readReg rs2))) s

/-- ROR (R233). -/
def execRor (rd rs1 rs2 : Reg) (s : State) : Result :=
  commitRd ilen32 rd (rotr (s.readReg rs1) (shiftAmount (s.readReg rs2))) s

/-- RORI (R234). -/
def execRori (rd rs1 : Reg) (shamt : BitVec 5) (s : State) : Result :=
  commitRd ilen32 rd (rotr (s.readReg rs1) shamt) s

/-- BCLR (R235). -/
def execBclr (rd rs1 rs2 : Reg) (s : State) : Result :=
  commitRd ilen32 rd (s.readReg rs1 &&& ~~~oneHot (shiftAmount (s.readReg rs2))) s

/-- BCLRI (R236). -/
def execBclri (rd rs1 : Reg) (shamt : BitVec 5) (s : State) : Result :=
  commitRd ilen32 rd (s.readReg rs1 &&& ~~~oneHot shamt) s

/-- BEXT (R237). -/
def execBext (rd rs1 rs2 : Reg) (s : State) : Result :=
  commitRd ilen32 rd ((s.readReg rs1 >>> (shiftAmount (s.readReg rs2)).toNat) &&& 1#32) s

/-- BEXTI (R238). -/
def execBexti (rd rs1 : Reg) (shamt : BitVec 5) (s : State) : Result :=
  commitRd ilen32 rd ((s.readReg rs1 >>> shamt.toNat) &&& 1#32) s

/-- BINV (R239). -/
def execBinv (rd rs1 rs2 : Reg) (s : State) : Result :=
  commitRd ilen32 rd (s.readReg rs1 ^^^ oneHot (shiftAmount (s.readReg rs2))) s

/-- BINVI (R240). -/
def execBinvi (rd rs1 : Reg) (shamt : BitVec 5) (s : State) : Result :=
  commitRd ilen32 rd (s.readReg rs1 ^^^ oneHot shamt) s

/-- BSET (R241). -/
def execBset (rd rs1 rs2 : Reg) (s : State) : Result :=
  commitRd ilen32 rd (s.readReg rs1 ||| oneHot (shiftAmount (s.readReg rs2))) s

/-- BSETI (R242). -/
def execBseti (rd rs1 : Reg) (shamt : BitVec 5) (s : State) : Result :=
  commitRd ilen32 rd (s.readReg rs1 ||| oneHot shamt) s

/-- CLMUL (R243). -/
def execClmul (rd rs1 rs2 : Reg) (s : State) : Result :=
  commitRd ilen32 rd ((clmulFull (s.readReg rs1) (s.readReg rs2)).extractLsb' 0 32) s

/-- CLMULH (R244). -/
def execClmulh (rd rs1 rs2 : Reg) (s : State) : Result :=
  commitRd ilen32 rd ((clmulFull (s.readReg rs1) (s.readReg rs2)).extractLsb' 32 32) s

/-- CLMULR (R245). -/
def execClmulr (rd rs1 rs2 : Reg) (s : State) : Result :=
  commitRd ilen32 rd ((clmulFull (s.readReg rs1) (s.readReg rs2)).extractLsb' 31 32) s

/-- PACK (R246). -/
def execPack (rd rs1 rs2 : Reg) (s : State) : Result :=
  commitRd ilen32 rd ((s.readReg rs2).extractLsb' 0 16 ++ (s.readReg rs1).extractLsb' 0 16) s

/-- PACKH (R247). -/
def execPackh (rd rs1 rs2 : Reg) (s : State) : Result :=
  commitRd ilen32 rd (((s.readReg rs2).extractLsb' 0 8 ++ (s.readReg rs1).extractLsb' 0 8 : BitVec 16).setWidth 32) s

/-- CLZ (R248). -/
def execClz (rd rs1 : Reg) (s : State) : Result :=
  commitRd ilen32 rd (BitVec.ofNat 32 (leadingZeros (s.readReg rs1) 32)) s

/-- CTZ (R249). -/
def execCtz (rd rs1 : Reg) (s : State) : Result :=
  commitRd ilen32 rd (BitVec.ofNat 32 (trailingZeros (s.readReg rs1) 32)) s

/-- CPOP (R250). -/
def execCpop (rd rs1 : Reg) (s : State) : Result :=
  commitRd ilen32 rd (BitVec.ofNat 32 (popCount (s.readReg rs1) 32)) s

/-- SEXT.B (R251). -/
def execSextB (rd rs1 : Reg) (s : State) : Result :=
  commitRd ilen32 rd (sext8 (s.readReg rs1)) s

/-- SEXT.H (R252). -/
def execSextH (rd rs1 : Reg) (s : State) : Result :=
  commitRd ilen32 rd (sext16 (s.readReg rs1)) s

/-- ZIP (R253). -/
def execZip (rd rs1 : Reg) (s : State) : Result :=
  commitRd ilen32 rd (zipWord (s.readReg rs1)) s

/-- UNZIP (R254). -/
def execUnzip (rd rs1 : Reg) (s : State) : Result :=
  commitRd ilen32 rd (unzipWord (s.readReg rs1)) s

/-- BREV8 (R255). -/
def execBrev8 (rd rs1 : Reg) (s : State) : Result :=
  commitRd ilen32 rd (brev8Word (s.readReg rs1)) s

/-- ORC.B (R256). -/
def execOrcB (rd rs1 : Reg) (s : State) : Result :=
  commitRd ilen32 rd (orcBWord (s.readReg rs1)) s

/-- REV8 (R257). -/
def execRev8 (rd rs1 : Reg) (s : State) : Result :=
  commitRd ilen32 rd (rev8Word (s.readReg rs1)) s


end Sys2Proof.Machine
end

