-- ==== Sys2Proof/Machine/Compressed.lean ====
section
/-!
DEFINITION. Compressed (16-bit) instructions (spec 48_compressed.md). `pc` advances by 2 and a link is `pc + 2` (R400);
each is the 32-bit form its rule names, over the same operations (R401).
-/

namespace Sys2Proof.Machine

/-- ILLEGAL16 (R403). -/
def execIllegal16 (s : State) : Result := raise .instrIllegal s

/-- C.ADDI4SPN; a zero immediate is reserved (R404). -/
def execCAddi4spn (rd : ShortReg) (uimm : BitVec 8) (s : State) : Result :=
  if uimm = 0 then raise .instrIllegal s
  else commitRd ilen16 (shortReg rd) (s.readReg sp + uimmAddi4spn uimm) s

/-- C.LW (R405). -/
def execCLw (rd rs1 : ShortReg) (uimm : BitVec 5) (s : State) : Result :=
  loadOp ilen16 .word id (shortReg rd) (s.readReg (shortReg rs1) + uimmCls uimm) s

/-- C.SW (R406). -/
def execCSw (rs1 rs2 : ShortReg) (uimm : BitVec 5) (s : State) : Result :=
  storeOp ilen16 .word (s.readReg (shortReg rs1) + uimmCls uimm) (s.readReg (shortReg rs2)) s

/-- C.ADDI, C.NOP (R407). -/
def execCAddi (rd : Reg) (imm : BitVec 6) (s : State) : Result :=
  commitRd ilen16 rd (s.readReg rd + imm6 imm) s

/-- C.JAL: links `pc + 2` in x1 (R408). -/
def execCJal (off : BitVec 11) (s : State) : Result :=
  jumpLink ilen16 ra (s.pc + offCj off) s

/-- C.LI (R409). -/
def execCLi (rd : Reg) (imm : BitVec 6) (s : State) : Result :=
  commitRd ilen16 rd (imm6 imm) s

/-- C.LUI; a zero immediate is reserved, and rd = 2 is C.ADDI16SP (R410). -/
def execCLui (rd : Reg) (imm : BitVec 6) (s : State) : Result :=
  if imm = 0 then raise .instrIllegal s
  else commitRd ilen16 rd (immClui imm) s

/-- C.ADDI16SP; a zero immediate is reserved (R411). -/
def execCAddi16sp (imm : BitVec 6) (s : State) : Result :=
  if imm = 0 then raise .instrIllegal s
  else commitRd ilen16 sp (s.readReg sp + immAddi16sp imm) s

/-- C.SRLI (R412). -/
def execCSrli (rd : ShortReg) (shamt : BitVec 5) (s : State) : Result :=
  commitRd ilen16 (shortReg rd) (s.readReg (shortReg rd) >>> shamt.toNat) s

/-- C.SRAI (R413). -/
def execCSrai (rd : ShortReg) (shamt : BitVec 5) (s : State) : Result :=
  commitRd ilen16 (shortReg rd) ((s.readReg (shortReg rd)).sshiftRight shamt.toNat) s

/-- C.ANDI (R414). -/
def execCAndi (rd : ShortReg) (imm : BitVec 6) (s : State) : Result :=
  commitRd ilen16 (shortReg rd) (s.readReg (shortReg rd) &&& imm6 imm) s

/-- C.SUB (R415). -/
def execCSub (rd rs2 : ShortReg) (s : State) : Result :=
  commitRd ilen16 (shortReg rd) (s.readReg (shortReg rd) - s.readReg (shortReg rs2)) s

/-- C.XOR (R416). -/
def execCXor (rd rs2 : ShortReg) (s : State) : Result :=
  commitRd ilen16 (shortReg rd) (s.readReg (shortReg rd) ^^^ s.readReg (shortReg rs2)) s

/-- C.OR (R417). -/
def execCOr (rd rs2 : ShortReg) (s : State) : Result :=
  commitRd ilen16 (shortReg rd) (s.readReg (shortReg rd) ||| s.readReg (shortReg rs2)) s

/-- C.AND (R418). -/
def execCAnd (rd rs2 : ShortReg) (s : State) : Result :=
  commitRd ilen16 (shortReg rd) (s.readReg (shortReg rd) &&& s.readReg (shortReg rs2)) s

/-- C.J (R419). -/
def execCJ (off : BitVec 11) (s : State) : Result :=
  branchOp ilen16 true (offCj off) s

/-- C.BEQZ (R420). -/
def execCBeqz (rs1 : ShortReg) (off : BitVec 8) (s : State) : Result :=
  branchOp ilen16 (s.readReg (shortReg rs1) == 0#32) (offCb off) s

/-- C.BNEZ (R421). -/
def execCBnez (rs1 : ShortReg) (off : BitVec 8) (s : State) : Result :=
  branchOp ilen16 (s.readReg (shortReg rs1) != 0#32) (offCb off) s

/-- C.SLLI (R422). -/
def execCSlli (rd : Reg) (shamt : BitVec 5) (s : State) : Result :=
  commitRd ilen16 rd (s.readReg rd <<< shamt.toNat) s

/-- C.LWSP; rd = 0 is reserved, decided before any access (R423). -/
def execCLwsp (rd : Reg) (uimm : BitVec 6) (s : State) : Result :=
  if rd = 0 then raise .instrIllegal s
  else loadOp ilen16 .word id rd (s.readReg sp + uimmSp uimm) s

/-- C.JR; rs1 = 0 is reserved (R424). -/
def execCJr (rs1 : Reg) (s : State) : Result :=
  if rs1 = 0 then raise .instrIllegal s
  else .next { s with pc := clearBit0 (s.readReg rs1) }

/-- C.MV (R425). -/
def execCMv (rd rs2 : Reg) (s : State) : Result :=
  commitRd ilen16 rd (s.readReg rs2) s

/-- C.EBREAK (R426). -/
def execCEbreak (s : State) : Result := raise .ebreak s

/-- C.JALR: the target is read before x1 is written (R427). -/
def execCJalr (rs1 : Reg) (s : State) : Result :=
  jumpLink ilen16 ra (clearBit0 (s.readReg rs1)) s

/-- C.ADD (R428). -/
def execCAdd (rd rs2 : Reg) (s : State) : Result :=
  commitRd ilen16 rd (s.readReg rd + s.readReg rs2) s

/-- C.SWSP (R429). -/
def execCSwsp (rs2 : Reg) (uimm : BitVec 6) (s : State) : Result :=
  storeOp ilen16 .word (s.readReg sp + uimmSp uimm) (s.readReg rs2) s


end Sys2Proof.Machine
end

