-- ==== Sys2Proof/Machine/Control.lean ====
section
/-!
DEFINITION. Control transfer, 32-bit forms (spec 43_control_transfer.md). No delay slots, no annulment; targets are
modulo 2^32 (R280).
-/

namespace Sys2Proof.Machine

/-- BEQ (R283). -/
def execBeq (rs1 rs2 : Reg) (off : BitVec 12) (s : State) : Result :=
  branchOp ilen32 (s.readReg rs1 == s.readReg rs2) (immB off) s

/-- BNE (R284). -/
def execBne (rs1 rs2 : Reg) (off : BitVec 12) (s : State) : Result :=
  branchOp ilen32 (s.readReg rs1 != s.readReg rs2) (immB off) s

/-- BLT (R285). -/
def execBlt (rs1 rs2 : Reg) (off : BitVec 12) (s : State) : Result :=
  branchOp ilen32 (ltSigned (s.readReg rs1) (s.readReg rs2)) (immB off) s

/-- BGE (R286). -/
def execBge (rs1 rs2 : Reg) (off : BitVec 12) (s : State) : Result :=
  branchOp ilen32 (!ltSigned (s.readReg rs1) (s.readReg rs2)) (immB off) s

/-- BLTU (R287). -/
def execBltu (rs1 rs2 : Reg) (off : BitVec 12) (s : State) : Result :=
  branchOp ilen32 (ltUnsigned (s.readReg rs1) (s.readReg rs2)) (immB off) s

/-- BGEU (R288). -/
def execBgeu (rs1 rs2 : Reg) (off : BitVec 12) (s : State) : Result :=
  branchOp ilen32 (!ltUnsigned (s.readReg rs1) (s.readReg rs2)) (immB off) s

/-- JAL (R289). -/
def execJal (rd : Reg) (off : BitVec 20) (s : State) : Result :=
  jumpLink ilen32 rd (s.pc + immJ off) s

/-- JALR: the target is read before `x[rd]` is written, and its bit 0 is cleared (R290). -/
def execJalr (rd rs1 : Reg) (imm : BitVec 12) (s : State) : Result :=
  jumpLink ilen32 rd (clearBit0 (s.readReg rs1 + imm12 imm)) s


end Sys2Proof.Machine
end

