-- ==== Sys2Proof/Machine/Custom0.lean ====
section
/-!
DEFINITION. The custom bit-field extracts (spec 47_custom0_bextm.md).
-/

namespace Sys2Proof.Machine

/-- The mask of a field of `size + 1` bits: `(1 << (size + 1)) - 1` (R390). -/
def bextmMask (size : BitVec 3) : Word := (1#32 <<< (size.toNat + 1)) - 1#32

/-- H3.BEXTM (R391). -/
def execH3Bextm (rd rs1 rs2 : Reg) (size : BitVec 3) (s : State) : Result :=
  commitRd ilen32 rd ((s.readReg rs1 >>> (shiftAmount (s.readReg rs2)).toNat) &&& bextmMask size) s

/-- H3.BEXTMI (R392). -/
def execH3Bextmi (rd rs1 : Reg) (shamt : BitVec 5) (size : BitVec 3) (s : State) : Result :=
  commitRd ilen32 rd ((s.readReg rs1 >>> shamt.toNat) &&& bextmMask size) s


end Sys2Proof.Machine
end

