-- ==== Sys2Proof/Machine/Integer.lean ====
section
/-!
DEFINITION. The base integer computational instructions (spec 40_integer_computational.md). Each writes `x[rd]` and
advances `pc` by 4, and does nothing else (R160).
-/

namespace Sys2Proof.Machine

/-- `a >>s n`: arithmetic right shift (R10). -/
def shiftRightArith (a : Word) (n : Nat) : Word := a.sshiftRight n

/-- ADD (R162). -/
def execAdd (rd rs1 rs2 : Reg) (s : State) : Result :=
  commitRd ilen32 rd (s.readReg rs1 + s.readReg rs2) s

/-- SUB (R163). -/
def execSub (rd rs1 rs2 : Reg) (s : State) : Result :=
  commitRd ilen32 rd (s.readReg rs1 - s.readReg rs2) s

/-- SLL (R164). -/
def execSll (rd rs1 rs2 : Reg) (s : State) : Result :=
  commitRd ilen32 rd (s.readReg rs1 <<< (shiftAmount (s.readReg rs2)).toNat) s

/-- SLT (R165). -/
def execSlt (rd rs1 rs2 : Reg) (s : State) : Result :=
  commitRd ilen32 rd (boolWord (ltSigned (s.readReg rs1) (s.readReg rs2))) s

/-- SLTU (R166). -/
def execSltu (rd rs1 rs2 : Reg) (s : State) : Result :=
  commitRd ilen32 rd (boolWord (ltUnsigned (s.readReg rs1) (s.readReg rs2))) s

/-- XOR (R167). -/
def execXor (rd rs1 rs2 : Reg) (s : State) : Result :=
  commitRd ilen32 rd (s.readReg rs1 ^^^ s.readReg rs2) s

/-- SRL (R168). -/
def execSrl (rd rs1 rs2 : Reg) (s : State) : Result :=
  commitRd ilen32 rd (s.readReg rs1 >>> (shiftAmount (s.readReg rs2)).toNat) s

/-- SRA (R169). -/
def execSra (rd rs1 rs2 : Reg) (s : State) : Result :=
  commitRd ilen32 rd (shiftRightArith (s.readReg rs1) (shiftAmount (s.readReg rs2)).toNat) s

/-- OR (R170). -/
def execOr (rd rs1 rs2 : Reg) (s : State) : Result :=
  commitRd ilen32 rd (s.readReg rs1 ||| s.readReg rs2) s

/-- AND (R171). -/
def execAnd (rd rs1 rs2 : Reg) (s : State) : Result :=
  commitRd ilen32 rd (s.readReg rs1 &&& s.readReg rs2) s

/-- ADDI (R172). -/
def execAddi (rd rs1 : Reg) (imm : BitVec 12) (s : State) : Result :=
  commitRd ilen32 rd (s.readReg rs1 + imm12 imm) s

/-- SLTI (R173). -/
def execSlti (rd rs1 : Reg) (imm : BitVec 12) (s : State) : Result :=
  commitRd ilen32 rd (boolWord (ltSigned (s.readReg rs1) (imm12 imm))) s

/-- SLTIU (R174). -/
def execSltiu (rd rs1 : Reg) (imm : BitVec 12) (s : State) : Result :=
  commitRd ilen32 rd (boolWord (ltUnsigned (s.readReg rs1) (imm12 imm))) s

/-- XORI (R175). -/
def execXori (rd rs1 : Reg) (imm : BitVec 12) (s : State) : Result :=
  commitRd ilen32 rd (s.readReg rs1 ^^^ imm12 imm) s

/-- ORI (R176). -/
def execOri (rd rs1 : Reg) (imm : BitVec 12) (s : State) : Result :=
  commitRd ilen32 rd (s.readReg rs1 ||| imm12 imm) s

/-- ANDI (R177). -/
def execAndi (rd rs1 : Reg) (imm : BitVec 12) (s : State) : Result :=
  commitRd ilen32 rd (s.readReg rs1 &&& imm12 imm) s

/-- SLLI (R178). -/
def execSlli (rd rs1 : Reg) (shamt : BitVec 5) (s : State) : Result :=
  commitRd ilen32 rd (s.readReg rs1 <<< shamt.toNat) s

/-- SRLI (R179). -/
def execSrli (rd rs1 : Reg) (shamt : BitVec 5) (s : State) : Result :=
  commitRd ilen32 rd (s.readReg rs1 >>> shamt.toNat) s

/-- SRAI (R180). -/
def execSrai (rd rs1 : Reg) (shamt : BitVec 5) (s : State) : Result :=
  commitRd ilen32 rd (shiftRightArith (s.readReg rs1) shamt.toNat) s

/-- LUI (R181). -/
def execLui (rd : Reg) (imm : BitVec 20) (s : State) : Result :=
  commitRd ilen32 rd (immU imm) s

/-- AUIPC: `pc` is the address of the AUIPC itself (R182). -/
def execAuipc (rd : Reg) (imm : BitVec 20) (s : State) : Result :=
  commitRd ilen32 rd (s.pc + immU imm) s


end Sys2Proof.Machine
end

