-- ==== Sys2Proof/Machine/LoadStore.lean ====
section
/-!
DEFINITION. Loads and stores, 32-bit forms (spec 44_load_store.md): base register plus sign-extended 12-bit immediate,
modulo 2^32; the base is never modified (R300).
-/

namespace Sys2Proof.Machine

/-- LB (R304). -/
def execLb (rd rs1 : Reg) (imm : BitVec 12) (s : State) : Result :=
  loadOp ilen32 .byte sext8 rd (s.readReg rs1 + imm12 imm) s

/-- LH (R305). -/
def execLh (rd rs1 : Reg) (imm : BitVec 12) (s : State) : Result :=
  loadOp ilen32 .half sext16 rd (s.readReg rs1 + imm12 imm) s

/-- LW (R306). -/
def execLw (rd rs1 : Reg) (imm : BitVec 12) (s : State) : Result :=
  loadOp ilen32 .word id rd (s.readReg rs1 + imm12 imm) s

/-- LBU (R307). -/
def execLbu (rd rs1 : Reg) (imm : BitVec 12) (s : State) : Result :=
  loadOp ilen32 .byte zext8 rd (s.readReg rs1 + imm12 imm) s

/-- LHU (R308). -/
def execLhu (rd rs1 : Reg) (imm : BitVec 12) (s : State) : Result :=
  loadOp ilen32 .half zext16 rd (s.readReg rs1 + imm12 imm) s

/-- SB (R309). -/
def execSb (rs1 rs2 : Reg) (imm : BitVec 12) (s : State) : Result :=
  storeOp ilen32 .byte (s.readReg rs1 + imm12 imm) (s.readReg rs2) s

/-- SH (R310). -/
def execSh (rs1 rs2 : Reg) (imm : BitVec 12) (s : State) : Result :=
  storeOp ilen32 .half (s.readReg rs1 + imm12 imm) (s.readReg rs2) s

/-- SW (R311). -/
def execSw (rs1 rs2 : Reg) (imm : BitVec 12) (s : State) : Result :=
  storeOp ilen32 .word (s.readReg rs1 + imm12 imm) (s.readReg rs2) s


end Sys2Proof.Machine
end

