-- ==== Sys2Proof/Machine/MulDiv.lean ====
section
/-!
DEFINITION. Multiply and divide (spec 41_muldiv.md). Products are exact integers narrowed at the end (R201); division
by zero and signed overflow are not traps (R200).
-/

namespace Sys2Proof.Machine

/-- The low word of an exact product, from its 64-bit two's-complement representation (R201). -/
def productLow (p : Int) : Word := (BitVec.ofInt 64 p).extractLsb' 0 32

/-- Bits 63:32 of the 64-bit two's-complement representation of an exact product (R201). -/
def productHigh (p : Int) : Word := (BitVec.ofInt 64 p).extractLsb' 32 32

/-- `unsigned(v)` as an integer (R201). -/
def unsignedInt (v : Word) : Int := (v.toNat : Int)

/-- DIV: by zero all ones, the overflow pair gives the dividend, else the quotient rounded toward zero (R206). -/
def divSigned (a b : Word) : Word :=
  if b.toInt = 0 then 0xFFFFFFFF#32
  else if a.toInt = -(2 ^ 31) ∧ b.toInt = -1 then 0x80000000#32
  else BitVec.ofInt 32 (Int.tdiv a.toInt b.toInt)

/-- DIVU: by zero all ones, else the floor of the quotient (R207). -/
def divUnsigned (a b : Word) : Word :=
  if b.toNat = 0 then 0xFFFFFFFF#32 else BitVec.ofNat 32 (a.toNat / b.toNat)

/-- REM: by zero the dividend, the overflow pair gives 0, else `a - b * trunc(a / b)` (R208). -/
def remSigned (a b : Word) : Word :=
  if b.toInt = 0 then a
  else if a.toInt = -(2 ^ 31) ∧ b.toInt = -1 then 0#32
  else BitVec.ofInt 32 (a.toInt - b.toInt * Int.tdiv a.toInt b.toInt)

/-- REMU: by zero the dividend, else `a mod b` (R209). -/
def remUnsigned (a b : Word) : Word :=
  if b.toNat = 0 then a else BitVec.ofNat 32 (a.toNat % b.toNat)

/-- MUL (R202). -/
def execMul (rd rs1 rs2 : Reg) (s : State) : Result :=
  commitRd ilen32 rd (productLow (unsignedInt (s.readReg rs1) * unsignedInt (s.readReg rs2))) s

/-- MULH (R203). -/
def execMulh (rd rs1 rs2 : Reg) (s : State) : Result :=
  commitRd ilen32 rd (productHigh ((s.readReg rs1).toInt * (s.readReg rs2).toInt)) s

/-- MULHSU (R204). -/
def execMulhsu (rd rs1 rs2 : Reg) (s : State) : Result :=
  commitRd ilen32 rd (productHigh ((s.readReg rs1).toInt * unsignedInt (s.readReg rs2))) s

/-- MULHU (R205). -/
def execMulhu (rd rs1 rs2 : Reg) (s : State) : Result :=
  commitRd ilen32 rd (productHigh (unsignedInt (s.readReg rs1) * unsignedInt (s.readReg rs2))) s

/-- DIV (R206). -/
def execDiv (rd rs1 rs2 : Reg) (s : State) : Result :=
  commitRd ilen32 rd (divSigned (s.readReg rs1) (s.readReg rs2)) s

/-- DIVU (R207). -/
def execDivu (rd rs1 rs2 : Reg) (s : State) : Result :=
  commitRd ilen32 rd (divUnsigned (s.readReg rs1) (s.readReg rs2)) s

/-- REM (R208). -/
def execRem (rd rs1 rs2 : Reg) (s : State) : Result :=
  commitRd ilen32 rd (remSigned (s.readReg rs1) (s.readReg rs2)) s

/-- REMU (R209). -/
def execRemu (rd rs1 rs2 : Reg) (s : State) : Result :=
  commitRd ilen32 rd (remUnsigned (s.readReg rs1) (s.readReg rs2)) s


end Sys2Proof.Machine
end

