-- ==== Sys2Proof/Machine/System.lean ====
section
/-!
DEFINITION. System, CSR and fence instructions (spec 46_system_csr_fence.md).
-/

namespace Sys2Proof.Machine

/-- CSRRW (R352). -/
def execCsrrw (rd rs1 : Reg) (csr : CsrAddr) (s : State) : Result :=
  csrInstr .write false rd csr (s.readReg rs1) rs1 s

/-- CSRRS (R353). -/
def execCsrrs (rd rs1 : Reg) (csr : CsrAddr) (s : State) : Result :=
  csrInstr .set false rd csr (s.readReg rs1) rs1 s

/-- CSRRC (R354). -/
def execCsrrc (rd rs1 : Reg) (csr : CsrAddr) (s : State) : Result :=
  csrInstr .clear false rd csr (s.readReg rs1) rs1 s

/-- CSRRWI (R355). -/
def execCsrrwi (rd : Reg) (uimm : BitVec 5) (csr : CsrAddr) (s : State) : Result :=
  csrInstr .write true rd csr (uimm5 uimm) uimm s

/-- CSRRSI (R356). -/
def execCsrrsi (rd : Reg) (uimm : BitVec 5) (csr : CsrAddr) (s : State) : Result :=
  csrInstr .set true rd csr (uimm5 uimm) uimm s

/-- CSRRCI (R357). -/
def execCsrrci (rd : Reg) (uimm : BitVec 5) (csr : CsrAddr) (s : State) : Result :=
  csrInstr .clear true rd csr (uimm5 uimm) uimm s

/-- The cause of an ECALL: `8 + priv` (R365). -/
def ecallCause : Priv → Cause
  | .U => .ecallU
  | .M => .ecallM

/-- ECALL (R365). -/
def execEcall (s : State) : Result := raise (ecallCause s.priv) s

/-- EBREAK (R366). -/
def execEbreak (s : State) : Result := raise .ebreak s

/-- MRET: legal in M-mode only (R367). -/
def execMret (s : State) : Result :=
  match s.priv with
  | .M => trapMret s
  | .U => raise .instrIllegal s

/-- What a MISC-MEM instruction does under the policy `MISC_MEM_POLICY` (R375, R376): nothing, since every access
is already in program order (R100, R103), or `INSTR_ILLEGAL`. -/
def miscMemOp (s : State) : Result :=
  match s.cfg.miscMem with
  | .nop => .next (s.advance ilen32)
  | .illegal => raise .instrIllegal s

/-- FENCE: every field is ignored (R375). -/
def execFence (_fm _pred _succ : BitVec 4) (_rs1 _rd : Reg) (s : State) : Result := miscMemOp s

/-- FENCE.I: every field is ignored (R376). -/
def execFenceI (_imm : BitVec 12) (_rs1 _rd : Reg) (s : State) : Result := miscMemOp s


end Sys2Proof.Machine
end

