-- ==== Sys2Proof/Machine/Zcmp.lean ====
section
/-!
DEFINITION. Stack push and pop, paired moves (spec 49_zcmp.md). One instruction is one step (R450).
-/

namespace Sys2Proof.Machine

/-- The sequence from which a register list takes its first members: ra, s0 .. s11 (R451). -/
def zcmpSequence : List Reg :=
  [1#5, 8#5, 9#5, 18#5, 19#5, 20#5, 21#5, 22#5, 23#5, 24#5, 25#5, 26#5, 27#5]

/-- The number of listed registers: 13 for 15, else `rlist - 3` (R451). -/
def zcmpCount (rlist : BitVec 4) : Nat :=
  if rlist = 15#4 then 13 else rlist.toNat - 3

/-- The listed registers in the order of the accesses: from high-numbered registers down (R455, R457). -/
def zcmpRegs (rlist : BitVec 4) : List Reg := (zcmpSequence.take (zcmpCount rlist)).reverse

/-- The base of the stack adjustment (R451): the smallest multiple of 16 that holds the listed registers (R452). -/
def zcmpBase (rlist : BitVec 4) : Word :=
  if rlist.toNat < 8 then 16#32
  else if rlist.toNat < 12 then 32#32
  else if rlist.toNat < 15 then 48#32
  else 64#32

/-- `stack_adj = base + 16 * spimm` (R452). -/
def stackAdj (rlist : BitVec 4) (spimm : BitVec 2) : Word :=
  zcmpBase rlist + 16#32 * spimm.setWidth 32

/-- The stores of a PUSH: one word per register, each at the next lower address, up to the first that does not
succeed (R455, R456). -/
def pushLoop : List Reg → Word → State → WriteResult
  | [], _, s => .ok s
  | r :: rs, addr, s =>
    match s.memWrite .word addr (s.readReg r) with
    | .ok s' => pushLoop rs (addr - 4#32) s'
    | .fail s' => .fail s'
    | .halt code s' => .halt code s'

/-- CM.PUSH (R455). -/
def execCmPush (rlist : BitVec 4) (spimm : BitVec 2) (s : State) : Result :=
  if rlist.toNat < 4 then raise .instrIllegal s
  else if Width.word.aligned (s.readReg sp) then
    afterWrite (pushLoop (zcmpRegs rlist) (s.readReg sp - 4#32) s) fun s' =>
      commitRd ilen16 sp (s.readReg sp - stackAdj rlist spimm) s'
  else raise .storeAlign s

/-- The loads of a POP: the values read, with their registers, up to the first word that cannot be read; whether
all were read; and the state after the reads (R457). -/
def popLoop : List Reg → Word → State → List (Reg × Word) × Bool × State
  | [], _, s => ([], true, s)
  | r :: rs, addr, s =>
    match (s.memRead .word addr).1 with
    | none => ([], false, (s.memRead .word addr).2)
    | some v =>
      let rest := popLoop rs (addr - 4#32) (s.memRead .word addr).2
      ((r, v) :: rest.1, rest.2)

/-- Register values committed together (R551). -/
def writeRegs : List (Reg × Word) → State → State
  | [], s => s
  | (r, v) :: l, s => writeRegs l (s.writeReg r v)

/-- The registers loaded before a POP's failing word: each holds its old or its loaded value, and nothing says
which (R460). The choice is the free value `Config.popFaultLoaded`. -/
def popFaultRegs : List (Reg × Word) → Nat → State → State
  | [], _, s => s
  | (r, v) :: l, k, s =>
    popFaultRegs l k (if Config.popFaultLoaded k r.toNat then s.writeReg r v else s)

/-- The part POP, POPRET and POPRETZ share: the checks, the loads and the register and sp writes, then `next`
from the state with all of them made; or the fault (R457, R460). -/
def popOp (rlist : BitVec 4) (spimm : BitVec 2) (next : State → Result) (s : State) : Result :=
  if rlist.toNat < 4 then raise .instrIllegal s
  else if Width.word.aligned (s.readReg sp) then
    let top := s.readReg sp + stackAdj rlist spimm
    let p := popLoop (zcmpRegs rlist) (top - 4#32) s
    if p.2.1 then next ((writeRegs p.1 p.2.2).writeReg sp top)
    else raise .loadFault { popFaultRegs p.1 s.freeCount p.2.2 with freeCount := s.freeCount + 1 }
  else raise .loadAlign s

/-- CM.POP (R457). -/
def execCmPop (rlist : BitVec 4) (spimm : BitVec 2) (s : State) : Result :=
  popOp rlist spimm (fun s' => .next (s'.advance ilen16)) s

/-- CM.POPRET: then `pc` takes the loaded ra with bit 0 cleared (R458). -/
def execCmPopret (rlist : BitVec 4) (spimm : BitVec 2) (s : State) : Result :=
  popOp rlist spimm (fun s' => .next { s' with pc := clearBit0 (s'.readReg ra) }) s

/-- CM.POPRETZ: as POPRET, and a0 is cleared (R459). -/
def execCmPopretz (rlist : BitVec 4) (spimm : BitVec 2) (s : State) : Result :=
  popOp rlist spimm (fun s' => .next { s'.writeReg a0 0#32 with pc := clearBit0 (s'.readReg ra) }) s

/-- CM.MVSA01; equal selectors are reserved (R461). -/
def execCmMvsa01 (r1s r2s : ShortReg) (s : State) : Result :=
  if r1s = r2s then raise .instrIllegal s
  else .next (((s.writeReg (sReg r1s) (s.readReg a0)).writeReg (sReg r2s) (s.readReg a1)).advance ilen16)

/-- CM.MVA01S (R462). -/
def execCmMva01s (r1s r2s : ShortReg) (s : State) : Result :=
  .next (((s.writeReg a0 (s.readReg (sReg r1s))).writeReg a1 (s.readReg (sReg r2s))).advance ilen16)


end Sys2Proof.Machine
end

