-- ==== Sys2Proof/Machine/Dispatch.lean ====
section
/-!
DEFINITION. One arm per instruction: the action of R551 between decode and the end of the step.
-/

namespace Sys2Proof.Machine

/-- The effect of one instruction on the state, before `csr_step` (R551, actions 3 to 6). -/
def exec (i : Instr) (s : State) : Host.Outcome State Fault Refusal :=
  match i with
  | .add rd rs1 rs2 => Sys2Proof.Machine.execAdd rd rs1 rs2 s
  | .sub rd rs1 rs2 => Sys2Proof.Machine.execSub rd rs1 rs2 s
  | .sll rd rs1 rs2 => Sys2Proof.Machine.execSll rd rs1 rs2 s
  | .slt rd rs1 rs2 => Sys2Proof.Machine.execSlt rd rs1 rs2 s
  | .sltu rd rs1 rs2 => Sys2Proof.Machine.execSltu rd rs1 rs2 s
  | .xor rd rs1 rs2 => Sys2Proof.Machine.execXor rd rs1 rs2 s
  | .srl rd rs1 rs2 => Sys2Proof.Machine.execSrl rd rs1 rs2 s
  | .sra rd rs1 rs2 => Sys2Proof.Machine.execSra rd rs1 rs2 s
  | .or rd rs1 rs2 => Sys2Proof.Machine.execOr rd rs1 rs2 s
  | .and rd rs1 rs2 => Sys2Proof.Machine.execAnd rd rs1 rs2 s
  | .addi rd rs1 imm => Sys2Proof.Machine.execAddi rd rs1 imm s
  | .slti rd rs1 imm => Sys2Proof.Machine.execSlti rd rs1 imm s
  | .sltiu rd rs1 imm => Sys2Proof.Machine.execSltiu rd rs1 imm s
  | .xori rd rs1 imm => Sys2Proof.Machine.execXori rd rs1 imm s
  | .ori rd rs1 imm => Sys2Proof.Machine.execOri rd rs1 imm s
  | .andi rd rs1 imm => Sys2Proof.Machine.execAndi rd rs1 imm s
  | .slli rd rs1 shamt => Sys2Proof.Machine.execSlli rd rs1 shamt s
  | .srli rd rs1 shamt => Sys2Proof.Machine.execSrli rd rs1 shamt s
  | .srai rd rs1 shamt => Sys2Proof.Machine.execSrai rd rs1 shamt s
  | .lui rd imm => Sys2Proof.Machine.execLui rd imm s
  | .auipc rd imm => Sys2Proof.Machine.execAuipc rd imm s
  | .mul rd rs1 rs2 => Sys2Proof.Machine.execMul rd rs1 rs2 s
  | .mulh rd rs1 rs2 => Sys2Proof.Machine.execMulh rd rs1 rs2 s
  | .mulhsu rd rs1 rs2 => Sys2Proof.Machine.execMulhsu rd rs1 rs2 s
  | .mulhu rd rs1 rs2 => Sys2Proof.Machine.execMulhu rd rs1 rs2 s
  | .div rd rs1 rs2 => Sys2Proof.Machine.execDiv rd rs1 rs2 s
  | .divu rd rs1 rs2 => Sys2Proof.Machine.execDivu rd rs1 rs2 s
  | .rem rd rs1 rs2 => Sys2Proof.Machine.execRem rd rs1 rs2 s
  | .remu rd rs1 rs2 => Sys2Proof.Machine.execRemu rd rs1 rs2 s
  | .andn rd rs1 rs2 => Sys2Proof.Machine.execAndn rd rs1 rs2 s
  | .orn rd rs1 rs2 => Sys2Proof.Machine.execOrn rd rs1 rs2 s
  | .xnor rd rs1 rs2 => Sys2Proof.Machine.execXnor rd rs1 rs2 s
  | .sh1add rd rs1 rs2 => Sys2Proof.Machine.execSh1add rd rs1 rs2 s
  | .sh2add rd rs1 rs2 => Sys2Proof.Machine.execSh2add rd rs1 rs2 s
  | .sh3add rd rs1 rs2 => Sys2Proof.Machine.execSh3add rd rs1 rs2 s
  | .max rd rs1 rs2 => Sys2Proof.Machine.execMax rd rs1 rs2 s
  | .maxu rd rs1 rs2 => Sys2Proof.Machine.execMaxu rd rs1 rs2 s
  | .min rd rs1 rs2 => Sys2Proof.Machine.execMin rd rs1 rs2 s
  | .minu rd rs1 rs2 => Sys2Proof.Machine.execMinu rd rs1 rs2 s
  | .rol rd rs1 rs2 => Sys2Proof.Machine.execRol rd rs1 rs2 s
  | .ror rd rs1 rs2 => Sys2Proof.Machine.execRor rd rs1 rs2 s
  | .rori rd rs1 shamt => Sys2Proof.Machine.execRori rd rs1 shamt s
  | .bclr rd rs1 rs2 => Sys2Proof.Machine.execBclr rd rs1 rs2 s
  | .bclri rd rs1 shamt => Sys2Proof.Machine.execBclri rd rs1 shamt s
  | .bext rd rs1 rs2 => Sys2Proof.Machine.execBext rd rs1 rs2 s
  | .bexti rd rs1 shamt => Sys2Proof.Machine.execBexti rd rs1 shamt s
  | .binv rd rs1 rs2 => Sys2Proof.Machine.execBinv rd rs1 rs2 s
  | .binvi rd rs1 shamt => Sys2Proof.Machine.execBinvi rd rs1 shamt s
  | .bset rd rs1 rs2 => Sys2Proof.Machine.execBset rd rs1 rs2 s
  | .bseti rd rs1 shamt => Sys2Proof.Machine.execBseti rd rs1 shamt s
  | .clmul rd rs1 rs2 => Sys2Proof.Machine.execClmul rd rs1 rs2 s
  | .clmulh rd rs1 rs2 => Sys2Proof.Machine.execClmulh rd rs1 rs2 s
  | .clmulr rd rs1 rs2 => Sys2Proof.Machine.execClmulr rd rs1 rs2 s
  | .pack rd rs1 rs2 => Sys2Proof.Machine.execPack rd rs1 rs2 s
  | .packh rd rs1 rs2 => Sys2Proof.Machine.execPackh rd rs1 rs2 s
  | .clz rd rs1 => Sys2Proof.Machine.execClz rd rs1 s
  | .ctz rd rs1 => Sys2Proof.Machine.execCtz rd rs1 s
  | .cpop rd rs1 => Sys2Proof.Machine.execCpop rd rs1 s
  | .sextB rd rs1 => Sys2Proof.Machine.execSextB rd rs1 s
  | .sextH rd rs1 => Sys2Proof.Machine.execSextH rd rs1 s
  | .zip rd rs1 => Sys2Proof.Machine.execZip rd rs1 s
  | .unzip rd rs1 => Sys2Proof.Machine.execUnzip rd rs1 s
  | .brev8 rd rs1 => Sys2Proof.Machine.execBrev8 rd rs1 s
  | .orcB rd rs1 => Sys2Proof.Machine.execOrcB rd rs1 s
  | .rev8 rd rs1 => Sys2Proof.Machine.execRev8 rd rs1 s
  | .beq rs1 rs2 off => Sys2Proof.Machine.execBeq rs1 rs2 off s
  | .bne rs1 rs2 off => Sys2Proof.Machine.execBne rs1 rs2 off s
  | .blt rs1 rs2 off => Sys2Proof.Machine.execBlt rs1 rs2 off s
  | .bge rs1 rs2 off => Sys2Proof.Machine.execBge rs1 rs2 off s
  | .bltu rs1 rs2 off => Sys2Proof.Machine.execBltu rs1 rs2 off s
  | .bgeu rs1 rs2 off => Sys2Proof.Machine.execBgeu rs1 rs2 off s
  | .jal rd off => Sys2Proof.Machine.execJal rd off s
  | .jalr rd rs1 imm => Sys2Proof.Machine.execJalr rd rs1 imm s
  | .lb rd rs1 imm => Sys2Proof.Machine.execLb rd rs1 imm s
  | .lh rd rs1 imm => Sys2Proof.Machine.execLh rd rs1 imm s
  | .lw rd rs1 imm => Sys2Proof.Machine.execLw rd rs1 imm s
  | .lbu rd rs1 imm => Sys2Proof.Machine.execLbu rd rs1 imm s
  | .lhu rd rs1 imm => Sys2Proof.Machine.execLhu rd rs1 imm s
  | .sb rs1 rs2 imm => Sys2Proof.Machine.execSb rs1 rs2 imm s
  | .sh rs1 rs2 imm => Sys2Proof.Machine.execSh rs1 rs2 imm s
  | .sw rs1 rs2 imm => Sys2Proof.Machine.execSw rs1 rs2 imm s
  | .lrW rd rs1 aq rl => Sys2Proof.Machine.execLrW rd rs1 aq rl s
  | .scW rd rs1 rs2 aq rl => Sys2Proof.Machine.execScW rd rs1 rs2 aq rl s
  | .amoswapW rd rs1 rs2 aq rl => Sys2Proof.Machine.execAmoswapW rd rs1 rs2 aq rl s
  | .amoaddW rd rs1 rs2 aq rl => Sys2Proof.Machine.execAmoaddW rd rs1 rs2 aq rl s
  | .amoxorW rd rs1 rs2 aq rl => Sys2Proof.Machine.execAmoxorW rd rs1 rs2 aq rl s
  | .amoandW rd rs1 rs2 aq rl => Sys2Proof.Machine.execAmoandW rd rs1 rs2 aq rl s
  | .amoorW rd rs1 rs2 aq rl => Sys2Proof.Machine.execAmoorW rd rs1 rs2 aq rl s
  | .amominW rd rs1 rs2 aq rl => Sys2Proof.Machine.execAmominW rd rs1 rs2 aq rl s
  | .amomaxW rd rs1 rs2 aq rl => Sys2Proof.Machine.execAmomaxW rd rs1 rs2 aq rl s
  | .amominuW rd rs1 rs2 aq rl => Sys2Proof.Machine.execAmominuW rd rs1 rs2 aq rl s
  | .amomaxuW rd rs1 rs2 aq rl => Sys2Proof.Machine.execAmomaxuW rd rs1 rs2 aq rl s
  | .csrrw rd rs1 csr => Sys2Proof.Machine.execCsrrw rd rs1 csr s
  | .csrrs rd rs1 csr => Sys2Proof.Machine.execCsrrs rd rs1 csr s
  | .csrrc rd rs1 csr => Sys2Proof.Machine.execCsrrc rd rs1 csr s
  | .csrrwi rd uimm csr => Sys2Proof.Machine.execCsrrwi rd uimm csr s
  | .csrrsi rd uimm csr => Sys2Proof.Machine.execCsrrsi rd uimm csr s
  | .csrrci rd uimm csr => Sys2Proof.Machine.execCsrrci rd uimm csr s
  | .ecall => Sys2Proof.Machine.execEcall s
  | .ebreak => Sys2Proof.Machine.execEbreak s
  | .mret => Sys2Proof.Machine.execMret s
  | .fence fm pred succ rs1 rd => Sys2Proof.Machine.execFence fm pred succ rs1 rd s
  | .fenceI imm rs1 rd => Sys2Proof.Machine.execFenceI imm rs1 rd s
  | .h3Bextm rd rs1 rs2 size => Sys2Proof.Machine.execH3Bextm rd rs1 rs2 size s
  | .h3Bextmi rd rs1 shamt size => Sys2Proof.Machine.execH3Bextmi rd rs1 shamt size s
  | .illegal16 => Sys2Proof.Machine.execIllegal16 s
  | .cAddi4spn rd uimm => Sys2Proof.Machine.execCAddi4spn rd uimm s
  | .cLw rd rs1 uimm => Sys2Proof.Machine.execCLw rd rs1 uimm s
  | .cSw rs1 rs2 uimm => Sys2Proof.Machine.execCSw rs1 rs2 uimm s
  | .cAddi rd imm => Sys2Proof.Machine.execCAddi rd imm s
  | .cJal off => Sys2Proof.Machine.execCJal off s
  | .cLi rd imm => Sys2Proof.Machine.execCLi rd imm s
  | .cLui rd imm => Sys2Proof.Machine.execCLui rd imm s
  | .cAddi16sp imm => Sys2Proof.Machine.execCAddi16sp imm s
  | .cSrli rd shamt => Sys2Proof.Machine.execCSrli rd shamt s
  | .cSrai rd shamt => Sys2Proof.Machine.execCSrai rd shamt s
  | .cAndi rd imm => Sys2Proof.Machine.execCAndi rd imm s
  | .cSub rd rs2 => Sys2Proof.Machine.execCSub rd rs2 s
  | .cXor rd rs2 => Sys2Proof.Machine.execCXor rd rs2 s
  | .cOr rd rs2 => Sys2Proof.Machine.execCOr rd rs2 s
  | .cAnd rd rs2 => Sys2Proof.Machine.execCAnd rd rs2 s
  | .cJ off => Sys2Proof.Machine.execCJ off s
  | .cBeqz rs1 off => Sys2Proof.Machine.execCBeqz rs1 off s
  | .cBnez rs1 off => Sys2Proof.Machine.execCBnez rs1 off s
  | .cSlli rd shamt => Sys2Proof.Machine.execCSlli rd shamt s
  | .cLwsp rd uimm => Sys2Proof.Machine.execCLwsp rd uimm s
  | .cJr rs1 => Sys2Proof.Machine.execCJr rs1 s
  | .cMv rd rs2 => Sys2Proof.Machine.execCMv rd rs2 s
  | .cEbreak => Sys2Proof.Machine.execCEbreak s
  | .cJalr rs1 => Sys2Proof.Machine.execCJalr rs1 s
  | .cAdd rd rs2 => Sys2Proof.Machine.execCAdd rd rs2 s
  | .cSwsp rs2 uimm => Sys2Proof.Machine.execCSwsp rs2 uimm s
  | .cmPush rlist spimm => Sys2Proof.Machine.execCmPush rlist spimm s
  | .cmPop rlist spimm => Sys2Proof.Machine.execCmPop rlist spimm s
  | .cmPopretz rlist spimm => Sys2Proof.Machine.execCmPopretz rlist spimm s
  | .cmPopret rlist spimm => Sys2Proof.Machine.execCmPopret rlist spimm s
  | .cmMvsa01 r1s r2s => Sys2Proof.Machine.execCmMvsa01 r1s r2s s
  | .cmMva01s r1s r2s => Sys2Proof.Machine.execCmMva01s r1s r2s s

end Sys2Proof.Machine
end

