-- ==== Sys2Proof/Machine/Step.lean ====
section
/-!
DEFINITION. One step (spec R551): fetch, decode, the instruction's effect or the exception, then `csr_step`.
-/

namespace Sys2Proof.Machine

/-- One step of the machine (R551, R556). -/
def step (s : State) : Host.Outcome State Fault Refusal :=
  match (fetch s).1 with
  | none => endStep (raise .instrFault (fetch s).2)
  | some c =>
    match decodeCode c with
    | .error _ => endStep (raise .instrIllegal (fetch s).2)
    | .ok i => endStep (exec i (fetch s).2)

/-- The state with the instruction `w` of `nbits` bits placed where the next step fetches: at `pc`, in RAM where the
window holds it and else as MEM's answers to the next two reads (log entry 6). -/
def State.withFetchWord (s : State) (nbits w : Nat) : State := placeCode s (tableHalves nbits w)

end Sys2Proof.Machine
end

