-- ==== Sys2Proof/Safety.lean ====
section
/-!
DEFINITION. The terms in which statements about the machine are made: the invariant that every step keeps, what a state keeps
of another (frames), what a trap leaves, and what a completed store leaves.
-/

namespace Sys2Proof.Machine

/-! ## The invariant -/

/-- What the spec guarantees between steps. -/
structure State.Inv (s : State) : Prop where
  /-- The parameters meet their constraints (R8). -/
  cfg : s.cfg.wf = true
  /-- RAM is in canonical form, so that equal contents are equal data. -/
  ramForm : s.ram.wf = true
  /-- RAM lists bytes of the window only (R85). -/
  ramWindow : s.ram.within s.cfg.ramBase.toNat s.cfg.ramSize = true
  /-- The stored value of register 0 is 0 (R22). -/
  zero : s.x[0] = 0#32
  /-- `pc` is even (R28). -/
  pc : s.pc.getLsbD 0 = false
  /-- `mepc` is even (R49). -/
  mepc : s.mepc.getLsbD 0 = false
  /-- Bit 1 of `mtvec` is 0 (R47). -/
  mtvec : s.mtvec.getLsbD 1 = false
  /-- Bits 30:4 of `mcause` are 0 (R52). -/
  mcause : s.mcause &&& 0x7FFFFFF0#32 = 0#32
  /-- No CSR write is pending (R33). -/
  pending : s.pending = none

/-! ## Frames: what a state keeps of the one before -/

/-- Every byte of the RAM window reads as before. -/
def KeepsRam (s t : State) : Prop := ∀ a, t.ram.read a = s.ram.read a

/-- All of memory is as before: the RAM bytes, and MEM has been asked nothing. -/
structure KeepsMemory (s t : State) : Prop where
  ram : KeepsRam s t
  mem : t.mem = s.mem

/-- Every general register is as before. -/
def KeepsRegs (s t : State) : Prop := ∀ r, t.readReg r = s.readReg r

/-- Every general register but `rd` is as before, and `rd` holds `v`; register 0 reads 0 whatever is written to it
(R22). -/
def WritesReg (rd : Reg) (v : Word) (s t : State) : Prop :=
  ∀ r, t.readReg r = if r = rd ∧ r ≠ 0#5 then v else s.readReg r

/-- The privilege level, all nineteen CSRs, the pending slot, the parameters and the model's own counter are as
before. -/
structure KeepsControl (s t : State) : Prop where
  priv : t.priv = s.priv
  csrs : ∀ c, t.csrValue c = s.csrValue c
  pending : t.pending = s.pending
  cfg : t.cfg = s.cfg
  freeCount : t.freeCount = s.freeCount

/-- The control state and the reservation flag are as before. -/
structure KeepsSystem (s t : State) : Prop extends KeepsControl s t where
  reserved : t.reserved = s.reserved

/-- The whole effect of a computational instruction: `x[rd]` takes `v`, `pc` passes the instruction, and nothing else
changes (R160, R220). -/
structure Computes (ilen : Word) (rd : Reg) (v : Word) (s t : State) : Prop extends KeepsSystem s t where
  regs : WritesReg rd v s t
  pc : t.pc = s.pc + ilen
  memory : KeepsMemory s t

/-- The whole effect of a jump: `x[rd]` takes `link`, `pc` takes `target`, and nothing else changes. -/
structure Jumps (rd : Reg) (link target : Word) (s t : State) : Prop extends KeepsSystem s t where
  regs : WritesReg rd link s t
  pc : t.pc = target
  memory : KeepsMemory s t

/-- `pc` takes `target`, and nothing else changes: a branch, a jump without link, a fence. -/
structure Moves (target : Word) (s t : State) : Prop extends KeepsSystem s t where
  regs : KeepsRegs s t
  pc : t.pc = target
  memory : KeepsMemory s t

/-- What a CSR instruction that completes does before the end of the step (R351): `x[rd]` takes the value read, if one
was read; the write, if there is one, is staged; `pc` advances by 4; and nothing else changes. -/
structure CsrDone (rd : Reg) (read : Option Word) (staged : Option (CsrAddr × Word)) (s t : State) : Prop where
  regs : match read with
    | some v => WritesReg rd v s t
    | none => KeepsRegs s t
  pending : t.pending = if staged.isSome then staged else s.pending
  pc : t.pc = s.pc + 4#32
  priv : t.priv = s.priv
  csrs : ∀ c, t.csrValue c = s.csrValue c
  cfg : t.cfg = s.cfg
  freeCount : t.freeCount = s.freeCount
  reserved : t.reserved = s.reserved
  memory : KeepsMemory s t

/-! ## Memory effects -/

/-- What a `MemWrite` of `n` bytes of `v` at `addr` that returns `ok` leaves (R85, R87): inside the window the bytes,
least significant first, and MEM is not asked; outside, one call of MEM, which answers it `ok`, and no byte of the
window changes. -/
structure Stored (n : Width) (addr v : Word) (s t : State) : Prop where
  inside : s.inRam addr = true →
    t.mem = s.mem ∧ ∀ k < n.bytes, t.ram.read (addr.toNat + k) = v.extractLsb' (8 * k) 8
  outside : s.inRam addr = false →
    KeepsRam s t ∧ s.mem.writeAnswer s.mem.calls n addr (n.cut v) = .ok
      ∧ t.mem = { s.mem with calls := .write n addr (n.cut v) :: s.mem.calls }
  frame : ∀ a, a < addr.toNat ∨ addr.toNat + n.bytes ≤ a → t.ram.read a = s.ram.read a

/-- `t` has made further calls of MEM after those of `s`, and MEM's functions are the same (R84). -/
def AsksMem (s t : State) : Prop :=
  ∃ calls, t.mem = { s.mem with calls := calls } ∧ s.mem.calls <:+ calls

/-- The last call of MEM in `t` is a write that MEM, as `s` holds it, answers by a halt with exit code `code`
(R84, R558). -/
def HaltedBy (code : Int) (s t : State) : Prop :=
  ∃ n addr v before, t.mem = { s.mem with calls := .write n addr v :: before } ∧ s.mem.calls <:+ before
    ∧ s.mem.writeAnswer before n addr v = .halt code

/-! ## Traps -/

/-- The state after a trap with cause `c` taken in state `s`, but for memory: no general register, no reservation and
no other CSR changes, `mepc` is the `pc` of the trapping instruction, `pc` is the trap vector's base, the mode is M,
and `mstatus` changes in MPP, MPIE and MIE alone (R490, R491). -/
structure Trapped (c : Cause) (s t : State) : Prop where
  regs : KeepsRegs s t
  reserved : t.reserved = s.reserved
  priv : t.priv = .M
  mcause : t.mcause = c.code
  mepc : t.mepc = s.pc
  pc : t.pc = s.mtvec &&& 0xFFFFFFFE#32
  mstatus : ∀ i < 32, t.mstatus.getLsbD i =
    if i = 3 then false
    else if i = 7 then s.mstatus.getLsbD 7 || s.mstatus.getLsbD 3
    else if i = 11 ∨ i = 12 then s.priv == .M
    else s.mstatus.getLsbD i
  csrs : ∀ r, r ≠ Csr.mstatus → r ≠ Csr.mepc → r ≠ Csr.mcause → t.csrValue r = s.csrValue r
  pending : t.pending = s.pending
  cfg : t.cfg = s.cfg

/-- The instruction traps with cause `c`, and does nothing else. -/
def Traps (i : Instr) (s : State) (c : Cause) : Prop :=
  ∃ t, exec i s = .next t ∧ Trapped c s t ∧ KeepsMemory s t ∧ t.freeCount = s.freeCount

/-- The instruction traps with cause `c` after the memory accesses that lead to state `u`. -/
def TrapsAfter (i : Instr) (s u : State) (c : Cause) : Prop :=
  ∃ t, exec i s = .next t ∧ Trapped c s t ∧ KeepsRam u t ∧ t.mem = u.mem ∧ t.freeCount = s.freeCount

/-! ## The rules of loads, stores and pops -/

/-- The effect of a load that completes with `v`, `u` being the state after its read (R301): `x[rd]` takes `v`, `pc`
passes the instruction, no byte of RAM changes, MEM is left as the read left it. -/
structure Loads (ilen : Word) (rd : Reg) (v : Word) (s u t : State) : Prop extends KeepsSystem s t where
  regs : WritesReg rd v s t
  pc : t.pc = s.pc + ilen
  ram : KeepsRam s t
  mem : t.mem = u.mem

/-- R301 for one load instruction: `addr` misaligned gives `LOAD_ALIGN` without an access; else the read's value,
extended, or `LOAD_FAULT`. -/
structure LoadRule (i : Instr) (ilen : Word) (n : Width) (ext : Word → Word) (rd : Reg) (addr : Word)
    (s : State) : Prop where
  completes : addr.toNat % n.bytes = 0 → ∀ v u, s.memRead n addr = (some v, u) →
    ∃ t, exec i s = .next t ∧ Loads ilen rd (ext v) s u t
  misaligned : addr.toNat % n.bytes ≠ 0 → Traps i s .loadAlign
  fails : addr.toNat % n.bytes = 0 → ∀ u, s.memRead n addr = (none, u) → TrapsAfter i s u .loadFault

/-- The effect of a store that completes (R302): the bytes stored, `pc` past the instruction, no register changed. -/
structure Stores (ilen : Word) (n : Width) (addr v : Word) (s t : State) : Prop extends KeepsSystem s t where
  regs : KeepsRegs s t
  pc : t.pc = s.pc + ilen
  stored : Stored n addr v s t

/-- R302 for one store instruction: `addr` misaligned gives `STORE_ALIGN` without an access; else the write, whose
failure gives `STORE_FAULT` and whose halt ends the run. -/
structure StoreRule (i : Instr) (ilen : Word) (n : Width) (addr v : Word) (s : State) : Prop where
  completes : addr.toNat % n.bytes = 0 → ∀ u, s.memWrite n addr v = .ok u →
    ∃ t, exec i s = .next t ∧ Stores ilen n addr v s t
  misaligned : addr.toNat % n.bytes ≠ 0 → Traps i s .storeAlign
  fails : addr.toNat % n.bytes = 0 → ∀ u, s.memWrite n addr v = .fail u →
    TrapsAfter i s u .storeFault ∧ KeepsRam s u
  halts : addr.toNat % n.bytes = 0 → ∀ code u, s.memWrite n addr v = .halt code u →
    exec i s = .fault (.hostHalt code u) ∧ KeepsRam s u

/-- R327 for one AMO: `addr` misaligned gives `STORE_ALIGN`; the read's failure and the write's failure give
`STORE_FAULT`; else the word `f old x[rs2]` is written and `x[rd]` takes the old word. -/
structure AmoRule (i : Instr) (f : Word → Word → Word) (rd : Reg) (addr b : Word) (s : State) : Prop where
  completes : addr.toNat % 4 = 0 → ∀ old u w, s.memRead .word addr = (some old, u) →
    u.memWrite .word addr (f old b) = .ok w →
    ∃ t, exec i s = .next t ∧ KeepsSystem s t ∧ WritesReg rd old s t ∧ t.pc = s.pc + 4#32
      ∧ KeepsRam s u ∧ Stored .word addr (f old b) u t
  misaligned : addr.toNat % 4 ≠ 0 → Traps i s .storeAlign
  readFails : addr.toNat % 4 = 0 → ∀ u, s.memRead .word addr = (none, u) →
    TrapsAfter i s u .storeFault ∧ KeepsRam s u
  writeFails : addr.toNat % 4 = 0 → ∀ old u w, s.memRead .word addr = (some old, u) →
    u.memWrite .word addr (f old b) = .fail w → TrapsAfter i s w .storeFault ∧ KeepsRam s w
  halts : addr.toNat % 4 = 0 → ∀ old u code w, s.memRead .word addr = (some old, u) →
    u.memWrite .word addr (f old b) = .halt code w → exec i s = .fault (.hostHalt code w) ∧ KeepsRam s w

/-- The registers of a list in the order of R455: highest number first. The table of R451 gives 13 registers to 15 and
`rlist - 3` to the others. -/
def listedRegs (rlist : BitVec 4) : List Reg :=
  [27#5, 26#5, 25#5, 24#5, 23#5, 22#5, 21#5, 20#5, 19#5, 18#5, 9#5, 8#5, 1#5].drop
    (13 - if rlist.toNat = 15 then 13 else rlist.toNat - 3)

/-- `stack_adj`: the base of R451's table, by its rows, plus `16 * spimm` (R452). -/
def stackAdjustment (rlist : BitVec 4) (spimm : BitVec 2) : Nat :=
  [0, 0, 0, 0, 16, 16, 16, 16, 32, 32, 32, 32, 48, 48, 48, 64].getD rlist.toNat 0 + 16 * spimm.toNat

/-- The first `m` stores of a PUSH succeed, `u k` being the state before store number `k`: one word each, at the next
lower address, with routing by address (R455, R85). -/
def PushesOk (rlist : BitVec 4) (u : Nat → State) (m : Nat) : Prop :=
  ∀ k < m, (u k).memWrite .word ((u 0).readReg sp - BitVec.ofNat 32 (4 * (k + 1)))
    ((u 0).readReg ((listedRegs rlist).getD k 0#5)) = .ok (u (k + 1))

/-- The first `m` loads of a POP succeed, `u k` being the state before load number `k` and `v k` the word it reads
(R457). -/
def PopsOk (top : Word) (u : Nat → State) (v : Nat → Word) (m : Nat) : Prop :=
  ∀ k < m, (u k).memRead .word (top - BitVec.ofNat 32 (4 * (k + 1))) = (some (v k), u (k + 1))

/-- The general registers after all loads of a POP: each listed register holds its word, `sp` the adjusted value, every
other register what it held (R457). -/
def Popped (rlist : BitVec 4) (top : Word) (v : Nat → Word) (s t : State) : Prop :=
  t.readReg sp = top
  ∧ (∀ k < (listedRegs rlist).length, t.readReg ((listedRegs rlist).getD k 0#5) = v k)
  ∧ ∀ r, r ≠ sp → r ∉ listedRegs rlist → t.readReg r = s.readReg r

/-! ## CSR addresses -/

/-- The nineteen CSR addresses with what each reads (R41). -/
def csrTable (s : State) : List (CsrAddr × Word) :=
  [(0x300#12, s.mstatus), (0x301#12, 0x40901105#32), (0x304#12, s.mie), (0x305#12, s.mtvec),
    (0x320#12, s.mcountinhibit.setWidth 32), (0x340#12, s.mscratch), (0x341#12, s.mepc),
    (0x342#12, s.mcause), (0x343#12, 0#32), (0x344#12, s.mip),
    (0xB00#12, s.mcycle), (0xB02#12, s.minstret), (0xB80#12, s.mcycleh), (0xB82#12, s.minstreth),
    (0xF11#12, s.cfg.mvendorid), (0xF12#12, 0x1B#32), (0xF13#12, s.cfg.mimpid), (0xF14#12, 0#32),
    (0xF15#12, s.cfg.mconfigptr)]

/-- The twelve writable CSR addresses with their write masks (R41). -/
def writableTable : List (CsrAddr × Word) :=
  [(0x300#12, 0xFFFFFFFF#32), (0x304#12, 0xFFFFFFFF#32), (0x305#12, 0xFFFFFFFD#32),
    (0x320#12, 0x00000007#32), (0x340#12, 0xFFFFFFFF#32), (0x341#12, 0xFFFFFFFE#32),
    (0x342#12, 0x8000000F#32), (0x344#12, 0xFFFFFFFF#32), (0xB00#12, 0xFFFFFFFF#32),
    (0xB02#12, 0xFFFFFFFF#32), (0xB80#12, 0xFFFFFFFF#32), (0xB82#12, 0xFFFFFFFF#32)]

/-! ## An instruction and its encoding -/

/-- The code `c` is decoded as `i`, and `i`, run in state `s`, completes in a state of which `P` holds. -/
def Runs (c : Code) (i : Instr) (s : State) (P : State → Prop) : Prop :=
  decodeCode c = .ok i ∧ ∃ t, exec i s = .next t ∧ P t

/-- The table of R131: the funct7 values of OP, each with the funct3 values under which it has an instruction. -/
def opTable : List (BitVec 7 × List (BitVec 3)) :=
  [(0b0000000#7, [0#3, 1#3, 2#3, 3#3, 4#3, 5#3, 6#3, 7#3]), (0b0100000#7, [0#3, 4#3, 5#3, 6#3, 7#3]),
    (0b0000001#7, [0#3, 1#3, 2#3, 3#3, 4#3, 5#3, 6#3, 7#3]), (0b0010000#7, [2#3, 4#3, 6#3]),
    (0b0000101#7, [1#3, 2#3, 3#3, 4#3, 5#3, 6#3, 7#3]), (0b0110000#7, [1#3, 5#3]), (0b0000100#7, [4#3, 7#3]),
    (0b0100100#7, [1#3, 5#3]), (0b0110100#7, [1#3]), (0b0010100#7, [1#3])]

/-- The table of R132 for funct3 001 and 101 of OP-IMM: funct3, funct7 and `instr[24:20]`, `none` where that field is a
shift amount and so any value. -/
def opImmTable : List (BitVec 3 × BitVec 7 × Option (BitVec 5)) :=
  [(1#3, 0b0000000#7, none), (1#3, 0b0010100#7, none), (1#3, 0b0100100#7, none), (1#3, 0b0110100#7, none),
    (1#3, 0b0110000#7, some 0b00000#5), (1#3, 0b0110000#7, some 0b00001#5), (1#3, 0b0110000#7, some 0b00010#5),
    (1#3, 0b0110000#7, some 0b00100#5), (1#3, 0b0110000#7, some 0b00101#5), (1#3, 0b0000100#7, some 0b01111#5)]
  ++ [(5#3, 0b0000000#7, none), (5#3, 0b0100000#7, none), (5#3, 0b0110000#7, none), (5#3, 0b0100100#7, none),
    (5#3, 0b0010100#7, some 0b00111#5), (5#3, 0b0110100#7, some 0b11000#5), (5#3, 0b0110100#7, some 0b00111#5),
    (5#3, 0b0000100#7, some 0b01111#5)]

/-- The CSR that a CSR instruction writes if it does not trap: CSRRW and CSRRWI always write, the other four only when
their `rs1` field is not 0 (R352 to R357). -/
def csrTarget : Instr → Option CsrAddr
  | .csrrw _ _ csr => some csr
  | .csrrs _ rs1 csr => if rs1 = 0#5 then none else some csr
  | .csrrc _ rs1 csr => if rs1 = 0#5 then none else some csr
  | .csrrwi _ _ csr => some csr
  | .csrrsi _ uimm csr => if uimm = 0#5 then none else some csr
  | .csrrci _ uimm csr => if uimm = 0#5 then none else some csr
  | _ => none

/-- An instruction that may write memory: the stores, SC.W, the AMOs and PUSH (R92). -/
def isStoreInstr : Instr → Bool
  | .sb .. => true
  | .sh .. => true
  | .sw .. => true
  | .scW .. => true
  | .amoswapW .. => true
  | .amoaddW .. => true
  | .amoxorW .. => true
  | .amoandW .. => true
  | .amoorW .. => true
  | .amominW .. => true
  | .amomaxW .. => true
  | .amominuW .. => true
  | .amomaxuW .. => true
  | .cSw .. => true
  | .cSwsp .. => true
  | .cmPush .. => true
  | _ => false

/-- The instructions that load several registers in one step (R24). -/
def isPopInstr : Instr → Bool
  | .cmPop .. => true
  | .cmPopret .. => true
  | .cmPopretz .. => true
  | _ => false

end Sys2Proof.Machine
end

