-- ==== Sys2Proof/Certificates/Slice0/Obligations.lean ====
section
/-!
DEFINITION. The statements for the provers. Each docstring names the rules of the spec it formalises. An encoding is written
as in its rule: the fields from bit 31 (or 15) down, joined by `++`, with the fixed bits as they stand there.
-/

open Sys2Proof Sys2Proof.Machine

/-! ## Encoding -/

/-- Words of the spec's test vectors (95_test_vectors.md) and of the examples of 48_compressed.md and 49_zcmp.md decode to
the instructions they stand for. A check of fixed words, no more. -/
def Obligations.SpecWordsDecode : Prop :=
  decodeTableWord 32 0x00500093 = some (.addi 1 0 5)
  ∧ decodeTableWord 32 0x002081B3 = some (.add 3 1 2)
  ∧ decodeTableWord 32 0x123450B7 = some (.lui 1 0x12345)
  ∧ decodeTableWord 32 0x01F09093 = some (.slli 1 1 31)
  ∧ decodeTableWord 32 0x0220C1B3 = some (.div 3 1 2)
  ∧ decodeTableWord 32 0x00102083 = some (.lw 1 0 1)
  ∧ decodeTableWord 32 0xB00020F3 = some (.csrrs 1 0 0xB00)
  ∧ decodeTableWord 32 0x30200073 = some .mret
  ∧ decodeTableWord 32 0x0FF0000F = some (.fence 0 15 15 0 0)
  ∧ decodeTableWord 16 0x4588 = some (.cLw 2 3 2)
  ∧ decodeTableWord 16 0xBFF5 = some (.cJ 0x7FE)
  ∧ decodeTableWord 16 0xB862 = some (.cmPush 6 0)

/-- Every bit of a well-formed instruction's operands survives encoding: decoding gives the instruction back, for all 138
instructions and every operand value. -/
def Obligations.DecodeInvertsEncode : Prop :=
  ∀ i : Instr, i.wf = true → decodeCode (encode i) = .ok i

/-- Each code that decodes has one meaning, and that meaning is a well-formed instruction whose encoding is the code: no
bit is ignored by the decoder, and no code outside the encodings of R130 to R144 is accepted. -/
def Obligations.EncodeInvertsDecode : Prop :=
  ∀ (c : Code) (i : Instr), decodeCode c = .ok i → i.wf = true ∧ encode i = c

/-- Little-endian order (R81, R82) and the length rule (R120): the bytes of a well-formed instruction's code, followed by
any bytes, decode to the instruction and leave those bytes. -/
def Obligations.BytesOfCodeDecode : Prop :=
  ∀ (i : Instr) (rest : List Byte), i.wf = true → decode ((encode i).bytes ++ rest) = .ok (i, rest)

/-- Codes that match no instruction: the 16-bit codes that R138 reserves and those of R143 and R144 that no row has; the 32-bit
codes that R130, R133, R139, R324, R368, R377 and R390 name as illegal, the dashes of R131's table (OP) and the other
combinations of R132's (OP-IMM, funct3 001 and 101). That the reserved operand values and the unlisted words are illegal is
the spec's own decision (D2, D4, D9, D12, D22, D23, D24). -/
def Obligations.IllegalCodesRejected : Prop :=
  (∀ c : BitVec 16,
    (-- C.ADDI4SPN with immediate 0 and rd' nonzero
      (c.extractLsb' 0 2 = 0 ∧ c.extractLsb' 13 3 = 0 ∧ c.extractLsb' 5 8 = 0 ∧ c ≠ 0)
      -- Q0: funct3 001, 011, 100, 101, 111
      ∨ (c.extractLsb' 0 2 = 0 ∧ c.extractLsb' 13 3 ∈ [1#3, 3#3, 4#3, 5#3, 7#3])
      -- C.LUI (any rd but 2) and C.ADDI16SP with immediate 0
      ∨ (c.extractLsb' 0 2 = 1 ∧ c.extractLsb' 13 3 = 3 ∧ c.extractLsb' 12 1 = 0 ∧ c.extractLsb' 2 5 = 0)
      -- C.SRLI, C.SRAI with c[12] = 1; c[11:10] = 11 with c[12] = 1
      ∨ (c.extractLsb' 0 2 = 1 ∧ c.extractLsb' 13 3 = 4 ∧ c.extractLsb' 12 1 = 1
          ∧ c.extractLsb' 10 2 ≠ 2)
      -- C.SLLI with c[12] = 1
      ∨ (c.extractLsb' 0 2 = 2 ∧ c.extractLsb' 13 3 = 0 ∧ c.extractLsb' 12 1 = 1)
      -- C.LWSP with rd = 0
      ∨ (c.extractLsb' 0 2 = 2 ∧ c.extractLsb' 13 3 = 2 ∧ c.extractLsb' 7 5 = 0)
      -- C.JR with rs1 = 0
      ∨ c = 0x8002#16
      -- Q2: funct3 001, 011, 111
      ∨ (c.extractLsb' 0 2 = 2 ∧ c.extractLsb' 13 3 ∈ [1#3, 3#3, 7#3])
      -- Zcmp: PUSH, POP, POPRETZ, POPRET with rlist below 4
      ∨ (c.extractLsb' 0 2 = 2 ∧ c.extractLsb' 8 8 ∈ [0xB8#8, 0xBA#8, 0xBC#8, 0xBE#8]
          ∧ (c.extractLsb' 4 4).toNat < 4)
      -- MVSA01 with equal selectors
      ∨ (c.extractLsb' 0 2 = 2 ∧ c.extractLsb' 10 6 = 0b101011#6 ∧ c.extractLsb' 5 2 = 1
          ∧ c.extractLsb' 7 3 = c.extractLsb' 2 3)
      -- every other code of quadrant 2, funct3 101
      ∨ (c.extractLsb' 0 2 = 2 ∧ c.extractLsb' 13 3 = 5
          ∧ c.extractLsb' 8 8 ∉ [0xB8#8, 0xBA#8, 0xBC#8, 0xBE#8]
          ∧ ¬(c.extractLsb' 10 6 = 0b101011#6 ∧ c.extractLsb' 5 2 ∈ [1#2, 3#2]))) →
    decodeCode (.half c) = .error (.unmatched16 c))
  ∧ (∀ w : BitVec 32,
    (-- a major opcode that R130 does not list
      (w.extractLsb' 0 7 ∉ [0b0000011#7, 0b0001011#7, 0b0001111#7, 0b0010011#7, 0b0010111#7, 0b0100011#7,
        0b0101111#7, 0b0110011#7, 0b0110111#7, 0b1100011#7, 0b1100111#7, 0b1101111#7, 0b1110011#7])
      -- LOAD: funct3 011, 110, 111; STORE: funct3 above 010; BRANCH: funct3 010, 011; JALR: funct3 not 000
      ∨ (w.extractLsb' 0 7 = 0b0000011#7 ∧ w.extractLsb' 12 3 ∈ [3#3, 6#3, 7#3])
      ∨ (w.extractLsb' 0 7 = 0b0100011#7 ∧ 2 < (w.extractLsb' 12 3).toNat)
      ∨ (w.extractLsb' 0 7 = 0b1100011#7 ∧ w.extractLsb' 12 3 ∈ [2#3, 3#3])
      ∨ (w.extractLsb' 0 7 = 0b1100111#7 ∧ w.extractLsb' 12 3 ≠ 0)
      -- AMO: funct3 not 010; a funct5 not listed; LR.W with a nonzero rs2 field
      ∨ (w.extractLsb' 0 7 = 0b0101111#7 ∧ w.extractLsb' 12 3 ≠ 2)
      ∨ (w.extractLsb' 0 7 = 0b0101111#7 ∧ w.extractLsb' 27 5 ∉ [0b00010#5, 0b00011#5, 0b00001#5, 0b00000#5,
          0b00100#5, 0b01100#5, 0b01000#5, 0b10000#5, 0b10100#5, 0b11000#5, 0b11100#5])
      ∨ (w.extractLsb' 0 7 = 0b0101111#7 ∧ w.extractLsb' 27 5 = 0b00010#5 ∧ w.extractLsb' 20 5 ≠ 0)
      -- SYSTEM: funct3 100; funct3 000 but for the three fixed words (WFI and SRET among the rest)
      ∨ (w.extractLsb' 0 7 = 0b1110011#7 ∧ w.extractLsb' 12 3 = 4)
      ∨ (w.extractLsb' 0 7 = 0b1110011#7 ∧ w.extractLsb' 12 3 = 0
          ∧ w ∉ [0x00000073#32, 0x00100073#32, 0x30200073#32])
      -- MISC-MEM: funct3 above 001
      ∨ (w.extractLsb' 0 7 = 0b0001111#7 ∧ 1 < (w.extractLsb' 12 3).toNat)
      -- CUSTOM-0: bits 31:29 or bit 25 not zero, or funct3 other than 000 and 100
      ∨ (w.extractLsb' 0 7 = 0b0001011#7 ∧ (w.extractLsb' 29 3 ≠ 0 ∨ w.extractLsb' 25 1 ≠ 0
          ∨ w.extractLsb' 12 3 ∉ [0#3, 4#3]))
      -- OP: a pair of funct7 and funct3 that is a dash in the table
      ∨ (w.extractLsb' 0 7 = 0b0110011#7
          ∧ w.extractLsb' 12 3 ∉ (opTable.lookup (w.extractLsb' 25 7)).getD [])
      -- OP-IMM: funct3 001 or 101 with any other combination
      ∨ (w.extractLsb' 0 7 = 0b0010011#7 ∧ w.extractLsb' 12 3 ∈ [1#3, 5#3]
          ∧ (w.extractLsb' 12 3, w.extractLsb' 25 7, none) ∉ opImmTable
          ∧ (w.extractLsb' 12 3, w.extractLsb' 25 7, some (w.extractLsb' 20 5)) ∉ opImmTable)) →
    decodeCode (.word w) = .error (.unmatched32 w))

/-! ## The step -/

/-- When the fetch delivers a code, from RAM or from MEM, and the code decodes, the step is that instruction's `exec` from the
state the fetch leaves, followed by `csr_step`; a fault or a refusal of `exec` is the step's (R551, R556, R558). In the
bytes of RAM: when the four bytes at `pc` decode to an instruction, the step starts from the same state; when `pc` is the
last halfword of the window and its two bytes decode to a 16-bit instruction, the step starts from the state after MEM's
`r16(pc + 2)`, whatever that answers (R93). -/
def Obligations.StepRunsDecodedInstruction : Prop :=
  let finish (r : Host.Outcome State Fault Refusal) : Host.Outcome State Fault Refusal := match r with
    | .next t => .next (csrStep t)
    | .fault f => .fault f
    | .refused q => .refused q
  (∀ (s u : State) (c : Code) (i : Instr), fetch s = (some c, u) → decodeCode c = .ok i →
    step s = finish (exec i u))
  ∧ (∀ (s : State) (i : Instr) (rest : List Byte),
    s.inRam s.pc = true → s.inRam (s.pc + 2#32) = true →
    decode [s.ram.read s.pc.toNat, s.ram.read (s.pc.toNat + 1),
      s.ram.read (s.pc + 2#32).toNat, s.ram.read ((s.pc + 2#32).toNat + 1)] = .ok (i, rest) →
    step s = finish (exec i s))
  ∧ ∀ (s : State) (i : Instr), s.inRam s.pc = true → s.inRam (s.pc + 2#32) = false →
    decode [s.ram.read s.pc.toNat, s.ram.read (s.pc.toNat + 1)] = .ok (i, []) →
    step s = finish (exec i (s.memRead .half (s.pc + 2#32)).2)

/-- Fetch (R93), at any address and with any MEM: both halfwords are read, the one at `pc` first; the step takes
`INSTR_FAULT`, after both reads, when the low one is missing, or when its bits 1:0 are 11 and the high one is missing; a
32-bit code is `{hi, lo}`; a 16-bit code is `lo`, whatever the high read gave. Register and CSR effects of the trap are
followed by `csr_step`. The order of the two reads is the spec's own decision (D13). -/
def Obligations.FetchReadsTwoHalfwords : Prop :=
  ∀ (s u w : State) (lo hi : Option Word),
    s.memRead .half s.pc = (lo, u) → u.memRead .half (s.pc + 2#32) = (hi, w) →
    (lo = none → ∃ t, step s = .next (csrStep t) ∧ Trapped .instrFault s t ∧ KeepsRam s t ∧ t.mem = w.mem)
    ∧ (∀ l, lo = some l → l.extractLsb' 0 2 = 3#2 → hi = none →
        ∃ t, step s = .next (csrStep t) ∧ Trapped .instrFault s t ∧ KeepsRam s t ∧ t.mem = w.mem)
    ∧ (∀ l h, lo = some l → l.extractLsb' 0 2 = 3#2 → hi = some h →
        fetch s = (some (.word (h.extractLsb' 0 16 ++ l.extractLsb' 0 16)), w))
    ∧ (∀ l, lo = some l → l.extractLsb' 0 2 ≠ 3#2 → fetch s = (some (.half (l.extractLsb' 0 16)), w))

/-- A fetched code that matches no instruction raises `INSTR_ILLEGAL` and has no other effect (R135, by the spec's own decision
D2). -/
def Obligations.UnmatchedCodeTraps : Prop :=
  ∀ (s u : State) (c : Code) (e : DecodeError), fetch s = (some c, u) → decodeCode c = .error e →
    ∃ t, step s = .next (csrStep t) ∧ Trapped .instrIllegal s t ∧ KeepsRam s t ∧ t.mem = u.mem
      ∧ t.freeCount = s.freeCount

/-- An instruction placed at `pc`, in RAM or as MEM's answers to the next two reads, is what the next fetch delivers; nothing but memory is
changed to place it. The model's choice (log entry 6): what is placed stands for the load of a program from outside. -/
def Obligations.PlacedInstructionIsFetched : Prop :=
  ∀ (s : State) (i : Instr), s.Inv → i.wf = true →
    let p := match encode i with
      | .half c => s.withFetchWord 16 c.toNat
      | .word w => s.withFetchWord 32 w.toNat
    (fetch p).1 = some (encode i) ∧ KeepsRegs s p ∧ KeepsSystem s p ∧ p.pc = s.pc

/-- Every step ends in a next state, in the halt that MEM answers to the last write asked of it, or in the refusal of an MRET in M-mode with MPP 1 or 2: no
fourth case, whatever the memory holds (R553, R558, R496). The refusal and the halt are the spec's own decisions (D7, D15). -/
def Obligations.StepIsTotal : Prop :=
  ∀ s : State,
    (∃ t, step s = .next t)
    ∨ (∃ code f, step s = .fault (.hostHalt code f) ∧ HaltedBy code s f)
    ∨ (step s = .refused .mretReservedMpp ∧ s.priv = .M
        ∧ (fetch s).1 = some (.word 0x30200073#32)
        ∧ (s.mstatus.extractLsb' 11 2 = 1 ∨ s.mstatus.extractLsb' 11 2 = 2))

/-- A host halt abandons the step: the state it leaves is the state before the step but for memory, no register, `pc`,
reservation, privilege, CSR or counter having changed (R558, R559; the spec's own decision D15). -/
def Obligations.HostHaltCommitsNothing : Prop :=
  ∀ (s f : State) (code : Int), step s = .fault (.hostHalt code f) →
    KeepsRegs s f ∧ f.pc = s.pc ∧ KeepsSystem s f

/-- Each of the two 64-bit counters advances by exactly 1 per step, modulo 2^64, when its inhibit bit is 0, and stays when
it is 1: on every step, trapping or not, but for one that runs, in M-mode, a CSR instruction that writes a half of
that counter (R54, R55, R59; that a trapping step counts is the spec's own decision D21). -/
def Obligations.CountersAdvanceEveryStep : Prop :=
  ∀ (s t : State), s.pending = none → step s = .next t →
    let writes (lo hi : CsrAddr) : Prop := s.priv = .M ∧ ∃ c i, (fetch s).1 = some c ∧ decodeCode c = .ok i
      ∧ (csrTarget i = some lo ∨ csrTarget i = some hi)
    (¬ writes 0xB00#12 0xB80#12 → (t.mcycleh ++ t.mcycle : BitVec 64) =
        (s.mcycleh ++ s.mcycle : BitVec 64) + (if s.mcountinhibit.getLsbD 0 then 0 else 1))
    ∧ (¬ writes 0xB02#12 0xB82#12 → (t.minstreth ++ t.minstret : BitVec 64) =
        (s.minstreth ++ s.minstret : BitVec 64) + (if s.mcountinhibit.getLsbD 2 then 0 else 1))

/-! ## Reset and the invariant -/

/-- Reset, for all parameters that meet their constraints, any contents of the RAM window and any MEM: the values of R61, with the
parameters where R61 names one (R540); and if the reset vector cannot be fetched, the first step is already an
`INSTR_FAULT` trap to address 0 (R541). That RAM holds `RAM_INIT` is the spec's own decision D16 (log entry 2: the
model's choice of form); that `mcause` is then 1 is its decision D18 (log entry 11: presumed); `mstatus` is then what R490
gives. -/
def Obligations.ResetValues : Prop :=
  ∀ (cfg : Config) (hc : cfg.wf = true) (ram : Memory) (hr : ram.wf = true)
    (hw : ram.within cfg.ramBase.toNat cfg.ramSize = true) (reads : List (List MemCall × Option Word))
    (writes : List (List MemCall × WriteReply)) (rest : MemRest),
    let s := State.resetWith cfg hc ram hr hw reads writes rest
    (∀ r, s.readReg r = 0#32) ∧ s.pc = cfg.resetVector ∧ s.priv = .M ∧ s.reserved = false
      ∧ s.pending = none
      ∧ (∀ c ∈ [Csr.mstatus, .mie, .mip, .mtvec, .mscratch, .mepc, .mcause, .mcycle, .mcycleh, .minstret,
          .minstreth, .mcountinhibit], s.csrValue c = 0#32)
      ∧ s.ram = ram
      ∧ ((fetch s).1 = none →
        ∃ t, step s = .next t ∧ t.pc = 0#32 ∧ t.priv = .M ∧ t.mcause = 1#32 ∧ t.mepc = cfg.resetVector
          ∧ t.mstatus = 0x1800#32)

/-- The invariant holds right after reset, for the parameters the model names (log entries 1, 2, 4: the model's choice). -/
def Obligations.ResetMeetsInvariant : Prop := State.reset.Inv

/-- Every step keeps the invariant: register 0 is 0, `pc` and `mepc` are even, `mtvec` bit 1 and `mcause` bits 30:4 are 0, no
CSR write is pending, RAM keeps its canonical form inside the window, and the parameters stay well formed. -/
def Obligations.StepKeepsInvariant : Prop :=
  ∀ s t : State, s.Inv → step s = .next t → t.Inv

/-! ## Memory -/

/-- `MemRead` at an aligned address (R85, R86): inside the window, from the little-endian word `w` that holds the address, by
the shifts of R86, with no effect; outside, one call of MEM, whose answer is its function's value at the address and the
history of calls (R84), RAM untouched. How MEM is held, the cut of its answer to the width and the record of the call
are the model's choice (log entry 5). -/
def Obligations.MemReadServesWindowOrMem : Prop :=
  ∀ (s : State) (n : Width) (addr : Word), addr.toNat % n.bytes = 0 →
    let a := addr.toNat - addr.toNat % 4
    let w : Word := s.ram.read (a + 3) ++ s.ram.read (a + 2) ++ s.ram.read (a + 1) ++ s.ram.read a
    (s.inRam addr = true → s.memRead n addr = (some (match n with
        | .byte => (w >>> (8 * (addr.toNat % 4))) &&& 0xFF#32
        | .half => (w >>> (8 * (addr.toNat % 4))) &&& 0xFFFF#32
        | .word => w), s))
    ∧ (s.inRam addr = false → ∀ u v, s.memRead n addr = (v, u) →
        v = (s.mem.readAnswer s.mem.calls n addr).map (fun x => BitVec.ofNat 32 (x.toNat % 2 ^ (8 * n.bytes)))
        ∧ u.mem = { s.mem with calls := .read n addr :: s.mem.calls }
        ∧ KeepsRam s u ∧ KeepsRegs s u ∧ KeepsSystem s u ∧ u.pc = s.pc)

/-- `MemWrite` at an aligned address (R85, R87): inside the window it always succeeds, and the containing word becomes the old
one with the value's bytes spliced in, every other byte unchanged, MEM not asked; outside, one call of MEM, with the
value cut to the width, decides between `ok`, `fail` and `halt` by its function's value at the address, the value and
the history of calls (R84), and no byte of RAM changes. How MEM is held and the record of the call are the model's
choice (log entry 5). -/
def Obligations.MemWriteSplicesOrAsksMem : Prop :=
  ∀ (s : State) (n : Width) (addr v : Word), s.ram.wf = true → addr.toNat % n.bytes = 0 →
    let a := addr.toNat - addr.toNat % 4
    let word (m : Memory) : Word := m.read (a + 3) ++ m.read (a + 2) ++ m.read (a + 1) ++ m.read a
    let mask : Word := match n with
      | .byte => 0xFF#32
      | .half => 0xFFFF#32
      | .word => 0xFFFFFFFF#32
    let sh := 8 * (addr.toNat % 4)
    (s.inRam addr = true → ∃ u, s.memWrite n addr v = .ok u
      ∧ word u.ram = (word s.ram &&& ~~~(mask <<< sh)) ||| ((v &&& mask) <<< sh)
      ∧ (∀ b, b < a ∨ a + 4 ≤ b → u.ram.read b = s.ram.read b)
      ∧ u.mem = s.mem ∧ KeepsRegs s u ∧ KeepsSystem s u ∧ u.pc = s.pc)
    ∧ (s.inRam addr = false → ∃ u, KeepsRam s u ∧ KeepsRegs s u ∧ KeepsSystem s u ∧ u.pc = s.pc
      ∧ u.mem = { s.mem with calls := .write n addr (v &&& mask) :: s.mem.calls }
      ∧ s.memWrite n addr v = match s.mem.writeAnswer s.mem.calls n addr (v &&& mask) with
        | .ok => .ok u
        | .halt code => .halt code u
        | .fail => .fail u)

/-- Only the stores, SC.W, the AMOs and PUSH write memory: after any other instruction, trapping or not, every byte of RAM
reads as before (R92, R95). -/
def Obligations.OnlyStoresWriteRam : Prop :=
  ∀ (i : Instr) (s t : State), isStoreInstr i = false → exec i s = .next t → KeepsRam s t

/-! ## Privilege, reservation, traps: rules over all instructions -/

/-- M-mode is entered from U-mode only by a trap, with `mepc` and `mcause` saying where and why; U-mode is entered only by an
MRET in M-mode with MPP = 0, which goes to `mepc` (R31, R505). -/
def Obligations.PrivilegeChangesByTrapOrMret : Prop :=
  ∀ s t : State, s.pending = none → step s = .next t →
    (s.priv = .U → t.priv = .M → t.mepc = s.pc ∧ t.pc = s.mtvec &&& 0xFFFFFFFE#32
      ∧ t.mstatus.extractLsb' 11 2 = 0 ∧ ∃ c : Cause, t.mcause = c.code)
    ∧ (s.priv = .M → t.priv = .U → (fetch s).1 = some (.word 0x30200073#32)
      ∧ s.mstatus.extractLsb' 11 2 = 0 ∧ t.pc = s.mepc)

/-- An instruction that starts and ends in U-mode changes no CSR and stages no CSR write: in U-mode a CSR changes by a trap
only (R506; R359 is marked as the spec's inference). -/
def Obligations.UserModeCannotChangeCsrs : Prop :=
  ∀ (i : Instr) (s t : State), s.priv = .U → exec i s = .next t → t.priv = .U →
    (∀ c, t.csrValue c = s.csrValue c) ∧ t.pending = s.pending

/-- LR.W is the one instruction that sets the reservation and SC.W the one that clears it; every other instruction, every
store, AMO, PUSH, trap and MRET among them, leaves it as it was (R32, R326; the spec's own decision D26). -/
def Obligations.OnlyLrAndScChangeReservation : Prop :=
  ∀ (i : Instr) (s t : State), exec i s = .next t →
    t.reserved = s.reserved
    ∨ (t.reserved = true ∧ ∃ rd rs1 aq rl, i = .lrW rd rs1 aq rl)
    ∨ (t.reserved = false ∧ ∃ rd rs1 rs2 aq rl, i = .scW rd rs1 rs2 aq rl)

/-- Traps are precise (R492, R498): an instruction that answers a next state either leaves `mepc` and `mcause` alone, and
`mstatus` and the privilege too unless it is MRET; or it takes one trap, with a cause of R481 that is not `INSTR_ALIGN` and
not `INSTR_FAULT`, and then keeps every general register (but those a POP had loaded), the reservation, the pending slot, the
other CSRs, and every byte of RAM (but those a PUSH had stored). -/
def Obligations.TrapsArePrecise : Prop :=
  ∀ (i : Instr) (s t : State), exec i s = .next t →
    (t.mepc = s.mepc ∧ t.mcause = s.mcause ∧ (i ≠ .mret → t.mstatus = s.mstatus ∧ t.priv = s.priv))
    ∨ (∃ c : Cause, c ≠ .instrAlign ∧ c ≠ .instrFault ∧ t.mcause = c.code ∧ t.mepc = s.pc ∧ t.priv = .M
      ∧ t.pc = s.mtvec &&& 0xFFFFFFFE#32 ∧ t.mstatus.extractLsb' 11 2 = s.priv.code
      ∧ t.reserved = s.reserved ∧ t.pending = s.pending ∧ t.cfg = s.cfg
      ∧ (∀ r, r ≠ Csr.mstatus → r ≠ Csr.mepc → r ≠ Csr.mcause → t.csrValue r = s.csrValue r)
      ∧ (isPopInstr i = false → KeepsRegs s t)
      ∧ ((∀ rlist spimm, i ≠ .cmPush rlist spimm) → KeepsRam s t))

/-- Trap entry, for every cause and state (R490): the saved status, mode, cause, address and target, and everything it
leaves alone, memory included; with the exception codes of R481, which are the spec's own decision (D18). -/
def Obligations.TrapEntryEffect : Prop :=
  (∀ (c : Cause) (s : State), ∃ t, raise c s = .next t ∧ Trapped c s t ∧ KeepsMemory s t ∧ t.freeCount = s.freeCount)
  ∧ [Cause.instrAlign, .instrFault, .instrIllegal, .ebreak, .loadAlign, .loadFault, .storeAlign, .storeFault,
      .ecallU, .ecallM].map (fun c => c.code.toNat) = [0, 1, 2, 3, 4, 5, 6, 7, 8, 11]

/-- The trap target (R491), for every `mtvec` and every cause word, an interrupt's included: the base, plus four times the
cause when `mtvec` selects vectored mode and cause bit 31 is set. -/
def Obligations.TrapTargetDirectOrVectored : Prop :=
  ∀ mtvec cause : Word,
    let base := mtvec.toNat - mtvec.toNat % 2
    (mtvec.toNat % 2 = 1 → 2 ^ 31 ≤ cause.toNat →
      (trapTarget mtvec cause).toNat = (base + 4 * (cause.toNat - 2 ^ 31)) % 2 ^ 32)
    ∧ (mtvec.toNat % 2 = 0 ∨ cause.toNat < 2 ^ 31 → (trapTarget mtvec cause).toNat = base)

/-- MRET in M-mode (R367, R495): MPP chooses the mode, MIE is set when MPIE is 1 and else left alone, MPIE is cleared, `pc` takes
`mepc`, and nothing else changes, MPP included; in U-mode it is illegal. -/
def Obligations.MretRestoresPrivilege : Prop :=
  decodeCode (.word 0x30200073#32) = .ok .mret ∧ ∀ s : State,
    (∀ p, s.priv = .M → (s.mstatus.extractLsb' 11 2 = 0 ∧ p = Priv.U ∨ s.mstatus.extractLsb' 11 2 = 3 ∧ p = .M) →
      ∃ t, exec .mret s = .next t ∧ t.priv = p ∧ t.pc = s.mepc
        ∧ (∀ i < 32, t.mstatus.getLsbD i =
            if i = 3 then s.mstatus.getLsbD 3 || s.mstatus.getLsbD 7
            else if i = 7 then false else s.mstatus.getLsbD i)
        ∧ KeepsRegs s t ∧ KeepsMemory s t ∧ t.reserved = s.reserved ∧ t.pending = s.pending
        ∧ (∀ r, r ≠ Csr.mstatus → t.csrValue r = s.csrValue r) ∧ t.cfg = s.cfg ∧ t.freeCount = s.freeCount)
    ∧ (s.priv = .U → Traps .mret s .instrIllegal)

/-- MRET in M-mode with MPP 1 or 2 has no successor, and these are the only states in which it has none (R496): the spec calls
the case outside the specified behaviour and says that a model refuses to step (its own decision D7). -/
def Obligations.MretRefusedExactlyOnReservedMpp : Prop :=
  ∀ s : State, (s.priv = .M ∧ (s.mstatus.extractLsb' 11 2 = 1 ∨ s.mstatus.extractLsb' 11 2 = 2) →
      exec .mret s = .refused .mretReservedMpp)
    ∧ (s.priv = .U ∨ s.mstatus.extractLsb' 11 2 = 0 ∨ s.mstatus.extractLsb' 11 2 = 3 → ∃ t, exec .mret s = .next t)

/-- ECALL, EBREAK, C.EBREAK and ILLEGAL16 trap in every state, with the cause of R365, R366, R426 and R403, `mepc` being the
address of the instruction itself; that entry is their whole effect. -/
def Obligations.EnvironmentCallsAndBreakpointsTrap : Prop :=
  decodeCode (.word 0x00000073#32) = .ok .ecall ∧ decodeCode (.word 0x00100073#32) = .ok .ebreak
  ∧ decodeCode (.half 0x9002#16) = .ok .cEbreak ∧ decodeCode (.half 0x0000#16) = .ok .illegal16
  ∧ ∀ s : State,
    (s.priv = .U → Traps .ecall s .ecallU) ∧ (s.priv = .M → Traps .ecall s .ecallM)
    ∧ Traps .ebreak s .ebreak ∧ Traps .cEbreak s .ebreak ∧ Traps .illegal16 s .instrIllegal
    ∧ Cause.ecallU.code = 8#32 ∧ Cause.ecallM.code = 11#32 ∧ Cause.ebreak.code = 3#32
    ∧ Cause.instrIllegal.code = 2#32

/-! ## CSRs -/

/-- `csr_read` (R40, R41, R50): it fails when address bits 9:8 exceed the privilege or the address is not in the table; else it
gives the table's value. The host's view is the same table without the gate (R557). The addresses and the ungated view are the
spec's own decisions (D19, D25). -/
def Obligations.CsrReadGateAndTable : Prop :=
  ∀ (s : State) (a : CsrAddr),
    s.csrRead a = (if s.priv.code.toNat < a.toNat / 256 % 4 then none else (csrTable s).lookup a)
    ∧ s.hostCsr a = (csrTable s).lookup a

/-- `csr_write` (R51): it fails at the gate, or when the address is not one of the twelve writable CSRs; else it stages the new
value and changes nothing else. That a write to a read-only CSR fails is the spec's own decision (D6). -/
def Obligations.CsrWriteStagesOrFails : Prop :=
  ∀ (s : State) (a : CsrAddr) (data : Word) (op : CsrOp),
    s.csrWrite a data op =
      (if s.priv.code.toNat < a.toNat / 256 % 4 ∨ (writableTable.lookup a).isNone then none
      else some { s with pending := some (a, match op with
        | .write => data
        | .set => ((csrTable s).lookup a).getD 0 ||| data
        | .clear => ((csrTable s).lookup a).getD 0 &&& ~~~data) })

/-- `csr_step` (R59): each counter half takes its half of the next 64-bit count unless the pending write targets that half; the
pending write reaches its CSR through that CSR's mask; the slot is emptied; nothing else changes. The inhibit bits used are
those before the write. -/
def Obligations.CsrStepCommits : Prop :=
  ∀ s : State,
    let c : Nat := (s.mcycleh.toNat * 2 ^ 32 + s.mcycle.toNat
      + if s.mcountinhibit.getLsbD 0 then 0 else 1) % 2 ^ 64
    let i : Nat := (s.minstreth.toNat * 2 ^ 32 + s.minstret.toNat
      + if s.mcountinhibit.getLsbD 2 then 0 else 1) % 2 ^ 64
    let t := csrStep s
    let targets (a : CsrAddr) : Prop := ∃ v, s.pending = some (a, v)
    (¬ targets 0xB00#12 → t.mcycle = BitVec.ofNat 32 c)
    ∧ (¬ targets 0xB80#12 → t.mcycleh = BitVec.ofNat 32 (c / 2 ^ 32))
    ∧ (¬ targets 0xB02#12 → t.minstret = BitVec.ofNat 32 i)
    ∧ (¬ targets 0xB82#12 → t.minstreth = BitVec.ofNat 32 (i / 2 ^ 32))
    ∧ (∀ r v m, s.pending = some (Csr.addr r, v) → writableTable.lookup r.addr = some m →
        t.csrValue r = v &&& m)
    ∧ (∀ r, r ≠ Csr.mcycle → r ≠ Csr.mcycleh → r ≠ Csr.minstret → r ≠ Csr.minstreth → ¬ targets r.addr →
        t.csrValue r = s.csrValue r)
    ∧ t.pending = none ∧ KeepsRegs s t ∧ t.pc = s.pc ∧ t.priv = s.priv ∧ t.reserved = s.reserved
    ∧ KeepsMemory s t ∧ t.cfg = s.cfg ∧ t.freeCount = s.freeCount

/-- The six CSR instructions in M-mode (R351 to R357): a pure write does not read and a pure read does not write; `x[rd]` takes the
old value, and the new value (write, set or clear) is staged. The register forms test the register NUMBER for a pure read. -/
def Obligations.CsrInstructionsReadAndStage : Prop :=
  ∀ (s : State) (rd rs1 uimm : Reg) (csr : CsrAddr) (old : Word), s.priv = .M →
    (csrTable s).lookup csr = some old →
    let a := s.readReg rs1
    let u : Word := uimm.setWidth 32
    let writable := (writableTable.lookup csr).isSome = true
    (writable → Runs (.word (csr ++ rs1 ++ 0b001#3 ++ rd ++ 0b1110011#7)) (.csrrw rd rs1 csr) s
      (CsrDone rd (if rd = 0 then none else some old) (some (csr, a)) s))
    ∧ (rs1 ≠ 0 → writable → Runs (.word (csr ++ rs1 ++ 0b010#3 ++ rd ++ 0b1110011#7)) (.csrrs rd rs1 csr) s
      (CsrDone rd (some old) (some (csr, old ||| a)) s))
    ∧ (rs1 = 0 → Runs (.word (csr ++ rs1 ++ 0b010#3 ++ rd ++ 0b1110011#7)) (.csrrs rd rs1 csr) s
      (CsrDone rd (some old) none s))
    ∧ (rs1 ≠ 0 → writable → Runs (.word (csr ++ rs1 ++ 0b011#3 ++ rd ++ 0b1110011#7)) (.csrrc rd rs1 csr) s
      (CsrDone rd (some old) (some (csr, old &&& ~~~a)) s))
    ∧ (rs1 = 0 → Runs (.word (csr ++ rs1 ++ 0b011#3 ++ rd ++ 0b1110011#7)) (.csrrc rd rs1 csr) s
      (CsrDone rd (some old) none s))
    ∧ (writable → Runs (.word (csr ++ uimm ++ 0b101#3 ++ rd ++ 0b1110011#7)) (.csrrwi rd uimm csr) s
      (CsrDone rd (if rd = 0 then none else some old) (some (csr, u)) s))
    ∧ (uimm ≠ 0 → writable → Runs (.word (csr ++ uimm ++ 0b110#3 ++ rd ++ 0b1110011#7)) (.csrrsi rd uimm csr) s
      (CsrDone rd (some old) (some (csr, old ||| u)) s))
    ∧ (uimm = 0 → Runs (.word (csr ++ uimm ++ 0b110#3 ++ rd ++ 0b1110011#7)) (.csrrsi rd uimm csr) s
      (CsrDone rd (some old) none s))
    ∧ (uimm ≠ 0 → writable → Runs (.word (csr ++ uimm ++ 0b111#3 ++ rd ++ 0b1110011#7)) (.csrrci rd uimm csr) s
      (CsrDone rd (some old) (some (csr, old &&& ~~~u)) s))
    ∧ (uimm = 0 → Runs (.word (csr ++ uimm ++ 0b111#3 ++ rd ++ 0b1110011#7)) (.csrrci rd uimm csr) s
      (CsrDone rd (some old) none s))

/-- CSR accesses that fail raise `INSTR_ILLEGAL` and have no side effect (R358 to R361): in M-mode, on an address outside the
table, or a write to a read-only CSR; in U-mode, every CSR instruction whatever the address. Under `CSR_IMM_READ_FAIL = silent` an
immediate pure read that fails does nothing but advance `pc`. The two policies and the read-only failures are the spec's own
decisions (D5, D6). -/
def Obligations.CsrAccessFailuresTrap : Prop :=
  ∀ (s : State) (rd rs1 uimm : Reg) (csr : CsrAddr),
    (s.priv = .U ∨ (writableTable.lookup csr).isNone = true →
      Traps (.csrrw rd rs1 csr) s .instrIllegal ∧ Traps (.csrrwi rd uimm csr) s .instrIllegal
      ∧ (rs1 ≠ 0 → Traps (.csrrs rd rs1 csr) s .instrIllegal ∧ Traps (.csrrc rd rs1 csr) s .instrIllegal)
      ∧ (uimm ≠ 0 → Traps (.csrrsi rd uimm csr) s .instrIllegal ∧ Traps (.csrrci rd uimm csr) s .instrIllegal))
    ∧ (s.priv = .U ∨ ((csrTable s).lookup csr).isNone = true →
      Traps (.csrrs rd rs1 csr) s .instrIllegal ∧ Traps (.csrrc rd rs1 csr) s .instrIllegal
      ∧ (s.cfg.csrImmReadFail = .illegal →
        Traps (.csrrsi rd uimm csr) s .instrIllegal ∧ Traps (.csrrci rd uimm csr) s .instrIllegal)
      ∧ (s.cfg.csrImmReadFail = .silent →
        (∃ t, exec (.csrrsi rd 0 csr) s = .next t ∧ Moves (s.pc + 4#32) s t)
        ∧ ∃ t, exec (.csrrci rd 0 csr) s = .next t ∧ Moves (s.pc + 4#32) s t))

/-- The write of any of the six CSR instructions is visible after the step that makes it, through the CSR's mask, with the old value
in `x[rd]`, and wins over that step's counter increment, while the other half of the counter still takes its share of it: the
high half the carry, the low half the increment (R362, R552, R59). -/
def Obligations.CsrWriteVisibleAfterItsStep : Prop :=
  ∀ (s u : State) (c : Code) (i : Instr) (rd rs1 : Reg) (uimm : BitVec 5) (r : Csr) (m v : Word),
    s.pending = none → s.priv = .M → fetch s = (some c, u) → decodeCode c = .ok i →
    writableTable.lookup r.addr = some m →
    ((i = .csrrw rd rs1 r.addr ∧ v = s.readReg rs1)
      ∨ (i = .csrrs rd rs1 r.addr ∧ rs1 ≠ 0 ∧ v = s.csrValue r ||| s.readReg rs1)
      ∨ (i = .csrrc rd rs1 r.addr ∧ rs1 ≠ 0 ∧ v = s.csrValue r &&& ~~~(s.readReg rs1))
      ∨ (i = .csrrwi rd uimm r.addr ∧ v = uimm.setWidth 32)
      ∨ (i = .csrrsi rd uimm r.addr ∧ uimm ≠ 0 ∧ v = s.csrValue r ||| uimm.setWidth 32)
      ∨ (i = .csrrci rd uimm r.addr ∧ uimm ≠ 0 ∧ v = s.csrValue r &&& ~~~(uimm.setWidth 32))) →
    ∃ t, step s = .next t ∧ t.csrValue r = v &&& m ∧ WritesReg rd (s.csrValue r) s t ∧ t.pc = s.pc + 4#32
      ∧ (r = .mcycle → t.mcycleh = s.mcycleh
        + if s.mcountinhibit.getLsbD 0 = false ∧ s.mcycle = 0xFFFFFFFF#32 then 1 else 0)
      ∧ (r = .mcycleh → t.mcycle = s.mcycle + if s.mcountinhibit.getLsbD 0 then 0 else 1)
      ∧ (r = .minstret → t.minstreth = s.minstreth
        + if s.mcountinhibit.getLsbD 2 = false ∧ s.minstret = 0xFFFFFFFF#32 then 1 else 0)
      ∧ (r = .minstreth → t.minstret = s.minstret + if s.mcountinhibit.getLsbD 2 then 0 else 1)

/-! ## Computational instructions -/

/-- ADD, SUB, SLL, SLT, SLTU, XOR, SRL, SRA, OR, AND (R162 to R171): each encoding, with any registers, runs and writes
`x[rd]` the value of its rule, from the operands before the step; `pc` advances by 4 and nothing else changes. -/
def Obligations.RegisterArithmeticResults : Prop :=
  ∀ (s : State) (rd rs1 rs2 : Reg),
    let a := s.readReg rs1
    let b := s.readReg rs2
    (Runs (.word (0b0000000#7 ++ rs2 ++ rs1 ++ 0b000#3 ++ rd ++ 0b0110011#7)) (.add rd rs1 rs2) s
      (Computes 4#32 rd (a + b) s))
    ∧ (Runs (.word (0b0100000#7 ++ rs2 ++ rs1 ++ 0b000#3 ++ rd ++ 0b0110011#7)) (.sub rd rs1 rs2) s
      (Computes 4#32 rd (a - b) s))
    ∧ (Runs (.word (0b0000000#7 ++ rs2 ++ rs1 ++ 0b001#3 ++ rd ++ 0b0110011#7)) (.sll rd rs1 rs2) s
      (Computes 4#32 rd (a <<< (b.toNat % 32)) s))
    ∧ (Runs (.word (0b0000000#7 ++ rs2 ++ rs1 ++ 0b010#3 ++ rd ++ 0b0110011#7)) (.slt rd rs1 rs2) s
      (Computes 4#32 rd (if a.toInt < b.toInt then 1 else 0) s))
    ∧ (Runs (.word (0b0000000#7 ++ rs2 ++ rs1 ++ 0b011#3 ++ rd ++ 0b0110011#7)) (.sltu rd rs1 rs2) s
      (Computes 4#32 rd (if a.toNat < b.toNat then 1 else 0) s))
    ∧ (Runs (.word (0b0000000#7 ++ rs2 ++ rs1 ++ 0b100#3 ++ rd ++ 0b0110011#7)) (.xor rd rs1 rs2) s
      (Computes 4#32 rd (a ^^^ b) s))
    ∧ (Runs (.word (0b0000000#7 ++ rs2 ++ rs1 ++ 0b101#3 ++ rd ++ 0b0110011#7)) (.srl rd rs1 rs2) s
      (Computes 4#32 rd (a >>> (b.toNat % 32)) s))
    ∧ (Runs (.word (0b0100000#7 ++ rs2 ++ rs1 ++ 0b101#3 ++ rd ++ 0b0110011#7)) (.sra rd rs1 rs2) s
      (Computes 4#32 rd (a.sshiftRight (b.toNat % 32)) s))
    ∧ (Runs (.word (0b0000000#7 ++ rs2 ++ rs1 ++ 0b110#3 ++ rd ++ 0b0110011#7)) (.or rd rs1 rs2) s
      (Computes 4#32 rd (a ||| b) s))
    ∧ (Runs (.word (0b0000000#7 ++ rs2 ++ rs1 ++ 0b111#3 ++ rd ++ 0b0110011#7)) (.and rd rs1 rs2) s
      (Computes 4#32 rd (a &&& b) s))

/-- ADDI, SLTI, SLTIU, XORI, ORI, ANDI, SLLI, SRLI, SRAI, LUI, AUIPC (R172 to R182), as above; a 12-bit immediate is
sign-extended, also before SLTIU's unsigned comparison. -/
def Obligations.ImmediateArithmeticResults : Prop :=
  ∀ (s : State) (rd rs1 : Reg) (imm : BitVec 12) (sh : BitVec 5) (imm20 : BitVec 20),
    let a := s.readReg rs1
    let m : Word := imm.signExtend 32
    (Runs (.word (imm ++ rs1 ++ 0b000#3 ++ rd ++ 0b0010011#7)) (.addi rd rs1 imm) s
      (Computes 4#32 rd (a + m) s))
    ∧ (Runs (.word (imm ++ rs1 ++ 0b010#3 ++ rd ++ 0b0010011#7)) (.slti rd rs1 imm) s
      (Computes 4#32 rd (if a.toInt < m.toInt then 1 else 0) s))
    ∧ (Runs (.word (imm ++ rs1 ++ 0b011#3 ++ rd ++ 0b0010011#7)) (.sltiu rd rs1 imm) s
      (Computes 4#32 rd (if a.toNat < m.toNat then 1 else 0) s))
    ∧ (Runs (.word (imm ++ rs1 ++ 0b100#3 ++ rd ++ 0b0010011#7)) (.xori rd rs1 imm) s
      (Computes 4#32 rd (a ^^^ m) s))
    ∧ (Runs (.word (imm ++ rs1 ++ 0b110#3 ++ rd ++ 0b0010011#7)) (.ori rd rs1 imm) s
      (Computes 4#32 rd (a ||| m) s))
    ∧ (Runs (.word (imm ++ rs1 ++ 0b111#3 ++ rd ++ 0b0010011#7)) (.andi rd rs1 imm) s
      (Computes 4#32 rd (a &&& m) s))
    ∧ (Runs (.word (0b0000000#7 ++ sh ++ rs1 ++ 0b001#3 ++ rd ++ 0b0010011#7)) (.slli rd rs1 sh) s
      (Computes 4#32 rd (a <<< sh.toNat) s))
    ∧ (Runs (.word (0b0000000#7 ++ sh ++ rs1 ++ 0b101#3 ++ rd ++ 0b0010011#7)) (.srli rd rs1 sh) s
      (Computes 4#32 rd (a >>> sh.toNat) s))
    ∧ (Runs (.word (0b0100000#7 ++ sh ++ rs1 ++ 0b101#3 ++ rd ++ 0b0010011#7)) (.srai rd rs1 sh) s
      (Computes 4#32 rd (a.sshiftRight sh.toNat) s))
    ∧ (Runs (.word (imm20 ++ rd ++ 0b0110111#7)) (.lui rd imm20) s (Computes 4#32 rd (imm20 ++ 0#12) s))
    ∧ (Runs (.word (imm20 ++ rd ++ 0b0010111#7)) (.auipc rd imm20) s
      (Computes 4#32 rd (s.pc + (imm20 ++ 0#12 : BitVec 32)) s))

/-- MUL, MULH, MULHSU, MULHU (R202 to R205): the low word of the exact product, or its bits 63:32, which are the floor of the
product by 2^32 narrowed to 32 bits. -/
def Obligations.MultiplyResults : Prop :=
  ∀ (s : State) (rd rs1 rs2 : Reg),
    let a := s.readReg rs1
    let b := s.readReg rs2
    (Runs (.word (0b0000001#7 ++ rs2 ++ rs1 ++ 0b000#3 ++ rd ++ 0b0110011#7)) (.mul rd rs1 rs2) s
      (Computes 4#32 rd (BitVec.ofNat 32 (a.toNat * b.toNat)) s))
    ∧ (Runs (.word (0b0000001#7 ++ rs2 ++ rs1 ++ 0b001#3 ++ rd ++ 0b0110011#7)) (.mulh rd rs1 rs2) s
      (Computes 4#32 rd (BitVec.ofInt 32 (a.toInt * b.toInt / 2 ^ 32)) s))
    ∧ (Runs (.word (0b0000001#7 ++ rs2 ++ rs1 ++ 0b010#3 ++ rd ++ 0b0110011#7)) (.mulhsu rd rs1 rs2) s
      (Computes 4#32 rd (BitVec.ofInt 32 (a.toInt * b.toNat / 2 ^ 32)) s))
    ∧ (Runs (.word (0b0000001#7 ++ rs2 ++ rs1 ++ 0b011#3 ++ rd ++ 0b0110011#7)) (.mulhu rd rs1 rs2) s
      (Computes 4#32 rd (BitVec.ofNat 32 (a.toNat * b.toNat / 2 ^ 32)) s))

/-- DIV, DIVU, REM, REMU (R206 to R209), division by zero and signed overflow included, which are not traps. The remainder is
stated as that of truncating division, whose sign is the dividend's. -/
def Obligations.DivideResults : Prop :=
  ∀ (s : State) (rd rs1 rs2 : Reg),
    let a := s.readReg rs1
    let b := s.readReg rs2
    (Runs (.word (0b0000001#7 ++ rs2 ++ rs1 ++ 0b100#3 ++ rd ++ 0b0110011#7)) (.div rd rs1 rs2) s
      (Computes 4#32 rd (if b.toInt = 0 then 0xFFFFFFFF#32 else if a.toInt = -2 ^ 31 ∧ b.toInt = -1 then 0x80000000#32
        else BitVec.ofInt 32 (a.toInt.tdiv b.toInt)) s))
    ∧ (Runs (.word (0b0000001#7 ++ rs2 ++ rs1 ++ 0b101#3 ++ rd ++ 0b0110011#7)) (.divu rd rs1 rs2) s
      (Computes 4#32 rd (if b.toNat = 0 then 0xFFFFFFFF#32 else BitVec.ofNat 32 (a.toNat / b.toNat)) s))
    ∧ (Runs (.word (0b0000001#7 ++ rs2 ++ rs1 ++ 0b110#3 ++ rd ++ 0b0110011#7)) (.rem rd rs1 rs2) s
      (Computes 4#32 rd (if b.toInt = 0 then a else if a.toInt = -2 ^ 31 ∧ b.toInt = -1 then 0
        else BitVec.ofInt 32 (a.toInt.tmod b.toInt)) s))
    ∧ (Runs (.word (0b0000001#7 ++ rs2 ++ rs1 ++ 0b111#3 ++ rd ++ 0b0110011#7)) (.remu rd rs1 rs2) s
      (Computes 4#32 rd (if b.toNat = 0 then a else BitVec.ofNat 32 (a.toNat % b.toNat)) s))

/-- The law of R210, which the spec marks as its inference from R206 to R209, with its overflow case: for a nonzero divisor, quotient times divisor plus remainder is the dividend,
modulo 2^32, for the signed and the unsigned pair, as the four instructions leave them in registers. -/
def Obligations.DivisionLaw : Prop :=
  ∀ (s q r qu ru : State) (rd rs1 rs2 : Reg), rd ≠ 0 → s.readReg rs2 ≠ 0 →
    exec (.div rd rs1 rs2) s = .next q → exec (.rem rd rs1 rs2) s = .next r →
    exec (.divu rd rs1 rs2) s = .next qu → exec (.remu rd rs1 rs2) s = .next ru →
    q.readReg rd * s.readReg rs2 + r.readReg rd = s.readReg rs1
    ∧ qu.readReg rd * s.readReg rs2 + ru.readReg rd = s.readReg rs1

/-- ANDN, ORN, XNOR, SH1ADD, SH2ADD, SH3ADD, MAX, MAXU, MIN, MINU (R222 to R231): each encoding runs and writes `x[rd]` the
value of its rule; nothing else changes. A shift left by n is stated as the product by 2^n, modulo 2^32. -/
def Obligations.LogicShiftAddMinMaxResults : Prop :=
  ∀ (s : State) (rd rs1 rs2 : Reg),
    let a := s.readReg rs1
    let b := s.readReg rs2
    (Runs (.word (0b0100000#7 ++ rs2 ++ rs1 ++ 0b111#3 ++ rd ++ 0b0110011#7)) (.andn rd rs1 rs2) s
      (Computes 4#32 rd (a &&& ~~~b) s))
    ∧ (Runs (.word (0b0100000#7 ++ rs2 ++ rs1 ++ 0b110#3 ++ rd ++ 0b0110011#7)) (.orn rd rs1 rs2) s
      (Computes 4#32 rd (a ||| ~~~b) s))
    ∧ (Runs (.word (0b0100000#7 ++ rs2 ++ rs1 ++ 0b100#3 ++ rd ++ 0b0110011#7)) (.xnor rd rs1 rs2) s
      (Computes 4#32 rd (~~~(a ^^^ b)) s))
    ∧ (Runs (.word (0b0010000#7 ++ rs2 ++ rs1 ++ 0b010#3 ++ rd ++ 0b0110011#7)) (.sh1add rd rs1 rs2) s
      (Computes 4#32 rd (b + 2 * a) s))
    ∧ (Runs (.word (0b0010000#7 ++ rs2 ++ rs1 ++ 0b100#3 ++ rd ++ 0b0110011#7)) (.sh2add rd rs1 rs2) s
      (Computes 4#32 rd (b + 4 * a) s))
    ∧ (Runs (.word (0b0010000#7 ++ rs2 ++ rs1 ++ 0b110#3 ++ rd ++ 0b0110011#7)) (.sh3add rd rs1 rs2) s
      (Computes 4#32 rd (b + 8 * a) s))
    ∧ (Runs (.word (0b0000101#7 ++ rs2 ++ rs1 ++ 0b110#3 ++ rd ++ 0b0110011#7)) (.max rd rs1 rs2) s
      (Computes 4#32 rd (if a.toInt < b.toInt then b else a) s))
    ∧ (Runs (.word (0b0000101#7 ++ rs2 ++ rs1 ++ 0b111#3 ++ rd ++ 0b0110011#7)) (.maxu rd rs1 rs2) s
      (Computes 4#32 rd (if a.toNat < b.toNat then b else a) s))
    ∧ (Runs (.word (0b0000101#7 ++ rs2 ++ rs1 ++ 0b100#3 ++ rd ++ 0b0110011#7)) (.min rd rs1 rs2) s
      (Computes 4#32 rd (if a.toInt < b.toInt then a else b) s))
    ∧ (Runs (.word (0b0000101#7 ++ rs2 ++ rs1 ++ 0b101#3 ++ rd ++ 0b0110011#7)) (.minu rd rs1 rs2) s
      (Computes 4#32 rd (if a.toNat < b.toNat then a else b) s))

/-- ROL, ROR, RORI, BCLR, BCLRI, BEXT, BEXTI, BINV, BINVI, BSET, BSETI (R232 to R242): each encoding runs and writes `x[rd]` the
value of its rule; nothing else changes. A register amount is taken modulo 32, and a rotate by 0 is the identity. -/
def Obligations.RotateAndSingleBitResults : Prop :=
  ∀ (s : State) (rd rs1 rs2 : Reg) (sh : BitVec 5),
    let a := s.readReg rs1
    let b := s.readReg rs2
    (Runs (.word (0b0110000#7 ++ rs2 ++ rs1 ++ 0b001#3 ++ rd ++ 0b0110011#7)) (.rol rd rs1 rs2) s
      (Computes 4#32 rd (a.rotateLeft (b.toNat % 32)) s))
    ∧ (Runs (.word (0b0110000#7 ++ rs2 ++ rs1 ++ 0b101#3 ++ rd ++ 0b0110011#7)) (.ror rd rs1 rs2) s
      (Computes 4#32 rd (a.rotateRight (b.toNat % 32)) s))
    ∧ (Runs (.word (0b0110000#7 ++ sh ++ rs1 ++ 0b101#3 ++ rd ++ 0b0010011#7)) (.rori rd rs1 sh) s
      (Computes 4#32 rd (a.rotateRight sh.toNat) s))
    ∧ (Runs (.word (0b0100100#7 ++ rs2 ++ rs1 ++ 0b001#3 ++ rd ++ 0b0110011#7)) (.bclr rd rs1 rs2) s
      (Computes 4#32 rd (a &&& ~~~(BitVec.ofNat 32 (2 ^ (b.toNat % 32)))) s))
    ∧ (Runs (.word (0b0100100#7 ++ sh ++ rs1 ++ 0b001#3 ++ rd ++ 0b0010011#7)) (.bclri rd rs1 sh) s
      (Computes 4#32 rd (a &&& ~~~(BitVec.ofNat 32 (2 ^ sh.toNat))) s))
    ∧ (Runs (.word (0b0100100#7 ++ rs2 ++ rs1 ++ 0b101#3 ++ rd ++ 0b0110011#7)) (.bext rd rs1 rs2) s
      (Computes 4#32 rd (if a.getLsbD (b.toNat % 32) then 1 else 0) s))
    ∧ (Runs (.word (0b0100100#7 ++ sh ++ rs1 ++ 0b101#3 ++ rd ++ 0b0010011#7)) (.bexti rd rs1 sh) s
      (Computes 4#32 rd (if a.getLsbD sh.toNat then 1 else 0) s))
    ∧ (Runs (.word (0b0110100#7 ++ rs2 ++ rs1 ++ 0b001#3 ++ rd ++ 0b0110011#7)) (.binv rd rs1 rs2) s
      (Computes 4#32 rd (a ^^^ BitVec.ofNat 32 (2 ^ (b.toNat % 32))) s))
    ∧ (Runs (.word (0b0110100#7 ++ sh ++ rs1 ++ 0b001#3 ++ rd ++ 0b0010011#7)) (.binvi rd rs1 sh) s
      (Computes 4#32 rd (a ^^^ BitVec.ofNat 32 (2 ^ sh.toNat)) s))
    ∧ (Runs (.word (0b0010100#7 ++ rs2 ++ rs1 ++ 0b001#3 ++ rd ++ 0b0110011#7)) (.bset rd rs1 rs2) s
      (Computes 4#32 rd (a ||| BitVec.ofNat 32 (2 ^ (b.toNat % 32))) s))
    ∧ (Runs (.word (0b0010100#7 ++ sh ++ rs1 ++ 0b001#3 ++ rd ++ 0b0010011#7)) (.bseti rd rs1 sh) s
      (Computes 4#32 rd (a ||| BitVec.ofNat 32 (2 ^ sh.toNat)) s))

/-- CLMUL, CLMULH, CLMULR, PACK, PACKH (R243 to R247), from the 64-bit product P: the XOR, over the bits of `x[rs2]` that are 1, of
`x[rs1]` shifted left; H3.BEXTM and H3.BEXTMI (R390 to R392): the field of `size + 1` bits that starts at bit n of `x[rs1]`,
zero-extended, the bits above bit 31 reading as 0. -/
def Obligations.CarrylessPackAndFieldResults : Prop :=
  ∀ (s : State) (rd rs1 rs2 : Reg) (sh : BitVec 5) (size : BitVec 3),
    let a := s.readReg rs1
    let b := s.readReg rs2
    let field (n : Nat) : Word := BitVec.ofNat 32 (a.toNat / 2 ^ n % 2 ^ (size.toNat + 1))
    let p : BitVec 64 := (List.range 32).foldl (fun acc i => if b.getLsbD i then acc ^^^ (a.setWidth 64 <<< i) else acc) 0
    (Runs (.word (0b0000101#7 ++ rs2 ++ rs1 ++ 0b001#3 ++ rd ++ 0b0110011#7)) (.clmul rd rs1 rs2) s
      (Computes 4#32 rd (p.extractLsb' 0 32) s))
    ∧ (Runs (.word (0b0000101#7 ++ rs2 ++ rs1 ++ 0b011#3 ++ rd ++ 0b0110011#7)) (.clmulh rd rs1 rs2) s
      (Computes 4#32 rd (p.extractLsb' 32 32) s))
    ∧ (Runs (.word (0b0000101#7 ++ rs2 ++ rs1 ++ 0b010#3 ++ rd ++ 0b0110011#7)) (.clmulr rd rs1 rs2) s
      (Computes 4#32 rd (p.extractLsb' 31 32) s))
    ∧ (Runs (.word (0b0000100#7 ++ rs2 ++ rs1 ++ 0b100#3 ++ rd ++ 0b0110011#7)) (.pack rd rs1 rs2) s
      (Computes 4#32 rd (BitVec.ofNat 32 (b.toNat % 2 ^ 16 * 2 ^ 16 + a.toNat % 2 ^ 16)) s))
    ∧ (Runs (.word (0b0000100#7 ++ rs2 ++ rs1 ++ 0b111#3 ++ rd ++ 0b0110011#7)) (.packh rd rs1 rs2) s
      (Computes 4#32 rd (BitVec.ofNat 32 (b.toNat % 2 ^ 8 * 2 ^ 8 + a.toNat % 2 ^ 8)) s))
    ∧ (Runs (.word (0b000#3 ++ size ++ 0b0#1 ++ rs2 ++ rs1 ++ 0b000#3 ++ rd ++ 0b0001011#7))
      (.h3Bextm rd rs1 rs2 size) s (Computes 4#32 rd (field (b.toNat % 32)) s))
    ∧ (Runs (.word (0b000#3 ++ size ++ 0b0#1 ++ sh ++ rs1 ++ 0b100#3 ++ rd ++ 0b0001011#7))
      (.h3Bextmi rd rs1 sh size) s (Computes 4#32 rd (field sh.toNat) s))

/-- CLZ, CTZ, CPOP, SEXT.B, SEXT.H, ZIP, UNZIP, BREV8, ORC.B, REV8 (R248 to R257), each by its bits: the counts by the position of the
first 1 from the top or the bottom (32 when there is none) and by the number of 1 bits, the permutations bit by bit. -/
def Obligations.UnaryBitResults : Prop :=
  ∀ (s : State) (rd rs1 : Reg),
    let a := s.readReg rs1
    (Runs (.word (0b0110000#7 ++ 0b00000#5 ++ rs1 ++ 0b001#3 ++ rd ++ 0b0010011#7)) (.clz rd rs1) s
      (fun t => ∃ n ≤ 32, (∀ k < n, a.getLsbD (31 - k) = false)
        ∧ (n < 32 → a.getLsbD (31 - n) = true) ∧ Computes 4#32 rd (BitVec.ofNat 32 n) s t))
    ∧ (Runs (.word (0b0110000#7 ++ 0b00001#5 ++ rs1 ++ 0b001#3 ++ rd ++ 0b0010011#7)) (.ctz rd rs1) s
      (fun t => ∃ n ≤ 32, (∀ k < n, a.getLsbD k = false)
        ∧ (n < 32 → a.getLsbD n = true) ∧ Computes 4#32 rd (BitVec.ofNat 32 n) s t))
    ∧ (Runs (.word (0b0110000#7 ++ 0b00010#5 ++ rs1 ++ 0b001#3 ++ rd ++ 0b0010011#7)) (.cpop rd rs1) s
      (fun t => Computes 4#32 rd (BitVec.ofNat 32 ((List.range 32).countP fun k => a.getLsbD k)) s t))
    ∧ (Runs (.word (0b0110000#7 ++ 0b00100#5 ++ rs1 ++ 0b001#3 ++ rd ++ 0b0010011#7)) (.sextB rd rs1) s
      (fun t => Computes 4#32 rd (BitVec.ofInt 32 (a.extractLsb' 0 8).toInt) s t))
    ∧ (Runs (.word (0b0110000#7 ++ 0b00101#5 ++ rs1 ++ 0b001#3 ++ rd ++ 0b0010011#7)) (.sextH rd rs1) s
      (fun t => Computes 4#32 rd (BitVec.ofInt 32 (a.extractLsb' 0 16).toInt) s t))
    ∧ (Runs (.word (0b0000100#7 ++ 0b01111#5 ++ rs1 ++ 0b001#3 ++ rd ++ 0b0010011#7)) (.zip rd rs1) s
      (fun t => ∃ v : Word, (∀ k < 16, v.getLsbD (2 * k) = a.getLsbD k
        ∧ v.getLsbD (2 * k + 1) = a.getLsbD (k + 16)) ∧ Computes 4#32 rd v s t))
    ∧ (Runs (.word (0b0000100#7 ++ 0b01111#5 ++ rs1 ++ 0b101#3 ++ rd ++ 0b0010011#7)) (.unzip rd rs1) s
      (fun t => ∃ v : Word, (∀ k < 16, v.getLsbD k = a.getLsbD (2 * k)
        ∧ v.getLsbD (k + 16) = a.getLsbD (2 * k + 1)) ∧ Computes 4#32 rd v s t))
    ∧ (Runs (.word (0b0110100#7 ++ 0b00111#5 ++ rs1 ++ 0b101#3 ++ rd ++ 0b0010011#7)) (.brev8 rd rs1) s
      (fun t => ∃ v : Word, (∀ k < 4, ∀ j < 8, v.getLsbD (8 * k + j) = a.getLsbD (8 * k + 7 - j))
        ∧ Computes 4#32 rd v s t))
    ∧ (Runs (.word (0b0010100#7 ++ 0b00111#5 ++ rs1 ++ 0b101#3 ++ rd ++ 0b0010011#7)) (.orcB rd rs1) s
      (fun t => ∃ v : Word, (∀ k < 4, v.extractLsb' (8 * k) 8 =
        if a.extractLsb' (8 * k) 8 = 0 then 0x00#8 else 0xFF#8) ∧ Computes 4#32 rd v s t))
    ∧ (Runs (.word (0b0110100#7 ++ 0b11000#5 ++ rs1 ++ 0b101#3 ++ rd ++ 0b0010011#7)) (.rev8 rd rs1) s
      (fun t => ∃ v : Word, (∀ k < 4, v.extractLsb' (8 * k) 8 = a.extractLsb' (24 - 8 * k) 8)
        ∧ Computes 4#32 rd v s t))

/-- The laws the source states (R258), of the instructions as they write registers: UNZIP undoes ZIP, REV8 and BREV8 undo
themselves, and a rotate right by k is a rotate left by (32 - k) mod 32. -/
def Obligations.BitManipulationLaws : Prop :=
  ∀ (s : State) (rd rs1 rs2 rs3 : Reg), rd ≠ 0 →
    (∀ t u, exec (.zip rd rs1) s = .next t → exec (.unzip rd rd) t = .next u → u.readReg rd = s.readReg rs1)
    ∧ (∀ t u, exec (.rev8 rd rs1) s = .next t → exec (.rev8 rd rd) t = .next u → u.readReg rd = s.readReg rs1)
    ∧ (∀ t u, exec (.brev8 rd rs1) s = .next t → exec (.brev8 rd rd) t = .next u → u.readReg rd = s.readReg rs1)
    ∧ (∀ t u, (s.readReg rs3).toNat % 32 = (32 - (s.readReg rs2).toNat % 32) % 32 →
      exec (.ror rd rs1 rs2) s = .next t → exec (.rol rd rs1 rs3) s = .next u → u.readReg rd = t.readReg rd)

/-! ## Control transfer, fences -/

/-- BEQ, BNE, BLT, BGE, BLTU, BGEU (R283 to R288) with the offset of R126: when the condition holds `pc` takes `pc + imm_b`, else
`pc + 4`, modulo 2^32; no register, flag or memory changes. -/
def Obligations.BranchResults : Prop :=
  ∀ (s : State) (rs1 rs2 : Reg) (b12 b11 : BitVec 1) (b10_5 : BitVec 6) (b4_1 : BitVec 4),
    let a := s.readReg rs1
    let b := s.readReg rs2
    let imm : Word := (b12 ++ b11 ++ b10_5 ++ b4_1 ++ 0#1 : BitVec 13).signExtend 32
    (Runs (.word (b12 ++ b10_5 ++ rs2 ++ rs1 ++ 0b000#3 ++ b4_1 ++ b11 ++ 0b1100011#7))
      (.beq rs1 rs2 (b12 ++ b11 ++ b10_5 ++ b4_1)) s
      (Moves (if a = b then s.pc + imm else s.pc + 4#32) s))
    ∧ (Runs (.word (b12 ++ b10_5 ++ rs2 ++ rs1 ++ 0b001#3 ++ b4_1 ++ b11 ++ 0b1100011#7))
      (.bne rs1 rs2 (b12 ++ b11 ++ b10_5 ++ b4_1)) s
      (Moves (if a ≠ b then s.pc + imm else s.pc + 4#32) s))
    ∧ (Runs (.word (b12 ++ b10_5 ++ rs2 ++ rs1 ++ 0b100#3 ++ b4_1 ++ b11 ++ 0b1100011#7))
      (.blt rs1 rs2 (b12 ++ b11 ++ b10_5 ++ b4_1)) s
      (Moves (if a.toInt < b.toInt then s.pc + imm else s.pc + 4#32) s))
    ∧ (Runs (.word (b12 ++ b10_5 ++ rs2 ++ rs1 ++ 0b101#3 ++ b4_1 ++ b11 ++ 0b1100011#7))
      (.bge rs1 rs2 (b12 ++ b11 ++ b10_5 ++ b4_1)) s
      (Moves (if a.toInt ≥ b.toInt then s.pc + imm else s.pc + 4#32) s))
    ∧ (Runs (.word (b12 ++ b10_5 ++ rs2 ++ rs1 ++ 0b110#3 ++ b4_1 ++ b11 ++ 0b1100011#7))
      (.bltu rs1 rs2 (b12 ++ b11 ++ b10_5 ++ b4_1)) s
      (Moves (if a.toNat < b.toNat then s.pc + imm else s.pc + 4#32) s))
    ∧ (Runs (.word (b12 ++ b10_5 ++ rs2 ++ rs1 ++ 0b111#3 ++ b4_1 ++ b11 ++ 0b1100011#7))
      (.bgeu rs1 rs2 (b12 ++ b11 ++ b10_5 ++ b4_1)) s
      (Moves (if a.toNat ≥ b.toNat then s.pc + imm else s.pc + 4#32) s))

/-- JAL (with the offset of R127) and JALR (R289, R290): `x[rd]` takes `pc + 4`; the target is `pc + imm_j`, or the sum of the OLD
`x[rs1]` and the immediate with bit 0 cleared, also when rd = rs1; nothing else changes. -/
def Obligations.JumpResults : Prop :=
  ∀ (s : State) (rd rs1 : Reg) (imm : BitVec 12) (b20 b11 : BitVec 1) (b19_12 : BitVec 8) (b10_1 : BitVec 10),
    let immj : Word := (b20 ++ b19_12 ++ b11 ++ b10_1 ++ 0#1 : BitVec 21).signExtend 32
    let sum : Word := s.readReg rs1 + imm.signExtend 32
    Runs (.word (b20 ++ b10_1 ++ b11 ++ b19_12 ++ rd ++ 0b1101111#7)) (.jal rd (b20 ++ b19_12 ++ b11 ++ b10_1)) s
      (Jumps rd (s.pc + 4#32) (s.pc + immj) s)
    ∧ Runs (.word (imm ++ rs1 ++ 0b000#3 ++ rd ++ 0b1100111#7)) (.jalr rd rs1 imm) s
      (Jumps rd (s.pc + 4#32) (BitVec.ofNat 32 (sum.toNat - sum.toNat % 2)) s)

/-- FENCE and FENCE.I (R375, R376): under `MISC_MEM_POLICY = nop` they advance `pc` by 4 and do nothing else, whatever their fields
hold; under `illegal` they raise `INSTR_ILLEGAL`. The spec's own decision D3. -/
def Obligations.FencesPassOrTrap : Prop :=
  ∀ (s : State) (fm pred succ : BitVec 4) (rs1 rd : Reg) (imm : BitVec 12),
    (s.cfg.miscMem = .nop →
      Runs (.word (fm ++ pred ++ succ ++ rs1 ++ 0b000#3 ++ rd ++ 0b0001111#7)) (.fence fm pred succ rs1 rd) s
        (Moves (s.pc + 4#32) s)
      ∧ Runs (.word (imm ++ rs1 ++ 0b001#3 ++ rd ++ 0b0001111#7)) (.fenceI imm rs1 rd) s
        (Moves (s.pc + 4#32) s))
    ∧ (s.cfg.miscMem = .illegal →
      Traps (.fence fm pred succ rs1 rd) s .instrIllegal ∧ Traps (.fenceI imm rs1 rd) s .instrIllegal)

/-! ## Loads, stores, atomics -/

/-- LB, LH, LW, LBU, LHU (R304 to R308), in the order of checks of R301: the value read, sign- or zero-extended, to `x[rd]`; or
`LOAD_ALIGN` before any access; or `LOAD_FAULT`; a load with rd = 0 reads and can trap all the same. `addr` is `x[rs1] + imm_i`. -/
def Obligations.LoadResults : Prop :=
  ∀ (s : State) (rd rs1 : Reg) (imm : BitVec 12),
    let addr : Word := s.readReg rs1 + imm.signExtend 32
    (decodeCode (.word (imm ++ rs1 ++ 0b000#3 ++ rd ++ 0b0000011#7)) = .ok (.lb rd rs1 imm)
      ∧ LoadRule (.lb rd rs1 imm) 4#32 .byte (fun v => (v.extractLsb' 0 8).signExtend 32) rd addr s)
    ∧ (decodeCode (.word (imm ++ rs1 ++ 0b001#3 ++ rd ++ 0b0000011#7)) = .ok (.lh rd rs1 imm)
      ∧ LoadRule (.lh rd rs1 imm) 4#32 .half (fun v => (v.extractLsb' 0 16).signExtend 32) rd addr s)
    ∧ (decodeCode (.word (imm ++ rs1 ++ 0b010#3 ++ rd ++ 0b0000011#7)) = .ok (.lw rd rs1 imm)
      ∧ LoadRule (.lw rd rs1 imm) 4#32 .word (fun v => v) rd addr s)
    ∧ (decodeCode (.word (imm ++ rs1 ++ 0b100#3 ++ rd ++ 0b0000011#7)) = .ok (.lbu rd rs1 imm)
      ∧ LoadRule (.lbu rd rs1 imm) 4#32 .byte (fun v => (v.extractLsb' 0 8).setWidth 32) rd addr s)
    ∧ (decodeCode (.word (imm ++ rs1 ++ 0b101#3 ++ rd ++ 0b0000011#7)) = .ok (.lhu rd rs1 imm)
      ∧ LoadRule (.lhu rd rs1 imm) 4#32 .half (fun v => (v.extractLsb' 0 16).setWidth 32) rd addr s)

/-- SB, SH, SW (R309 to R311), in the order of checks of R302: the low bytes of `x[rs2]` are stored at `x[rs1] + imm_s` and every
other byte keeps its value; or `STORE_ALIGN` before any access; or `STORE_FAULT`; or the halt of MEM ends the run. The premise on
RAM's form is part of the invariant. -/
def Obligations.StoreResults : Prop :=
  ∀ (s : State) (rs1 rs2 : Reg) (hi : BitVec 7) (lo : BitVec 5), s.ram.wf = true →
    let addr : Word := s.readReg rs1 + (hi ++ lo : BitVec 12).signExtend 32
    (decodeCode (.word (hi ++ rs2 ++ rs1 ++ 0b000#3 ++ lo ++ 0b0100011#7)) = .ok (.sb rs1 rs2 (hi ++ lo))
      ∧ StoreRule (.sb rs1 rs2 (hi ++ lo)) 4#32 .byte addr (s.readReg rs2) s)
    ∧ (decodeCode (.word (hi ++ rs2 ++ rs1 ++ 0b001#3 ++ lo ++ 0b0100011#7)) = .ok (.sh rs1 rs2 (hi ++ lo))
      ∧ StoreRule (.sh rs1 rs2 (hi ++ lo)) 4#32 .half addr (s.readReg rs2) s)
    ∧ (decodeCode (.word (hi ++ rs2 ++ rs1 ++ 0b010#3 ++ lo ++ 0b0100011#7)) = .ok (.sw rs1 rs2 (hi ++ lo))
      ∧ StoreRule (.sw rs1 rs2 (hi ++ lo)) 4#32 .word addr (s.readReg rs2) s)

/-- LR.W and SC.W (R324, R325), any aq and rl. LR.W loads and sets the reservation. SC.W with the reservation stores `x[rs2]`, writes
0 and clears it; without it, writes 1 and makes no access; alignment is checked first; a failing store traps with the reservation
kept, and a halt ends the run. That aq and rl are accepted with any value and have no effect, and that LR.W's `rs2` field is
zero, is the spec's own decision D12 (R320, R324). -/
def Obligations.LoadReservedStoreConditional : Prop :=
  ∀ (s : State) (rd rs1 rs2 : Reg) (aq rl : BitVec 1), s.ram.wf = true →
    let addr := s.readReg rs1
    let lr := Instr.lrW rd rs1 aq rl
    let sc := Instr.scW rd rs1 rs2 aq rl
    decodeCode (.word (0b00010#5 ++ aq ++ rl ++ 0b00000#5 ++ rs1 ++ 0b010#3 ++ rd ++ 0b0101111#7)) = .ok lr
    ∧ decodeCode (.word (0b00011#5 ++ aq ++ rl ++ rs2 ++ rs1 ++ 0b010#3 ++ rd ++ 0b0101111#7)) = .ok sc
    ∧ (addr.toNat % 4 = 0 → ∀ v u, s.memRead .word addr = (some v, u) →
      ∃ t, exec lr s = .next t ∧ WritesReg rd v s t ∧ t.reserved = true ∧ t.pc = s.pc + 4#32
        ∧ KeepsControl s t ∧ KeepsRam s t ∧ t.mem = u.mem)
    ∧ (addr.toNat % 4 ≠ 0 → Traps lr s .loadAlign ∧ Traps sc s .storeAlign)
    ∧ (addr.toNat % 4 = 0 → ∀ u, s.memRead .word addr = (none, u) → TrapsAfter lr s u .loadFault)
    ∧ (addr.toNat % 4 = 0 → s.reserved = true → ∀ u, s.memWrite .word addr (s.readReg rs2) = .ok u →
      ∃ t, exec sc s = .next t ∧ WritesReg rd 0#32 s t ∧ t.reserved = false ∧ t.pc = s.pc + 4#32
        ∧ KeepsControl s t ∧ Stored .word addr (s.readReg rs2) s t)
    ∧ (addr.toNat % 4 = 0 → s.reserved = true → ∀ u, s.memWrite .word addr (s.readReg rs2) = .fail u →
      TrapsAfter sc s u .storeFault)
    ∧ (addr.toNat % 4 = 0 → s.reserved = true → ∀ code u,
      s.memWrite .word addr (s.readReg rs2) = .halt code u → exec sc s = .fault (.hostHalt code u))
    ∧ (addr.toNat % 4 = 0 → s.reserved = false →
      ∃ t, exec sc s = .next t ∧ WritesReg rd 1#32 s t ∧ t.reserved = false ∧ t.pc = s.pc + 4#32
        ∧ KeepsControl s t ∧ KeepsMemory s t)

/-- AMOSWAP.W to AMOMAXU.W (R327 to R336), any aq and rl: `x[rd]` takes the old word, memory takes the combination with the old
`x[rs2]`; every failure is a store exception, the read's too; the reservation is untouched. That aq and rl are accepted with any
value and have no effect is the spec's own decision D12 (R320). -/
def Obligations.AtomicReadModifyWriteResults : Prop :=
  ∀ (s : State) (rd rs1 rs2 : Reg) (aq rl : BitVec 1), s.ram.wf = true →
    let addr := s.readReg rs1
    let b := s.readReg rs2
    (decodeCode (.word (0b00001#5 ++ aq ++ rl ++ rs2 ++ rs1 ++ 0b010#3 ++ rd ++ 0b0101111#7)) = .ok (.amoswapW rd rs1 rs2 aq rl)
      ∧ AmoRule (.amoswapW rd rs1 rs2 aq rl) (fun _ v => v) rd addr b s)
    ∧ (decodeCode (.word (0b00000#5 ++ aq ++ rl ++ rs2 ++ rs1 ++ 0b010#3 ++ rd ++ 0b0101111#7)) = .ok (.amoaddW rd rs1 rs2 aq rl)
      ∧ AmoRule (.amoaddW rd rs1 rs2 aq rl) (fun old v => old + v) rd addr b s)
    ∧ (decodeCode (.word (0b00100#5 ++ aq ++ rl ++ rs2 ++ rs1 ++ 0b010#3 ++ rd ++ 0b0101111#7)) = .ok (.amoxorW rd rs1 rs2 aq rl)
      ∧ AmoRule (.amoxorW rd rs1 rs2 aq rl) (fun old v => old ^^^ v) rd addr b s)
    ∧ (decodeCode (.word (0b01100#5 ++ aq ++ rl ++ rs2 ++ rs1 ++ 0b010#3 ++ rd ++ 0b0101111#7)) = .ok (.amoandW rd rs1 rs2 aq rl)
      ∧ AmoRule (.amoandW rd rs1 rs2 aq rl) (fun old v => old &&& v) rd addr b s)
    ∧ (decodeCode (.word (0b01000#5 ++ aq ++ rl ++ rs2 ++ rs1 ++ 0b010#3 ++ rd ++ 0b0101111#7)) = .ok (.amoorW rd rs1 rs2 aq rl)
      ∧ AmoRule (.amoorW rd rs1 rs2 aq rl) (fun old v => old ||| v) rd addr b s)
    ∧ (decodeCode (.word (0b10000#5 ++ aq ++ rl ++ rs2 ++ rs1 ++ 0b010#3 ++ rd ++ 0b0101111#7)) = .ok (.amominW rd rs1 rs2 aq rl)
      ∧ AmoRule (.amominW rd rs1 rs2 aq rl) (fun old v => if old.toInt < v.toInt then old else v) rd addr b s)
    ∧ (decodeCode (.word (0b10100#5 ++ aq ++ rl ++ rs2 ++ rs1 ++ 0b010#3 ++ rd ++ 0b0101111#7)) = .ok (.amomaxW rd rs1 rs2 aq rl)
      ∧ AmoRule (.amomaxW rd rs1 rs2 aq rl) (fun old v => if old.toInt < v.toInt then v else old) rd addr b s)
    ∧ (decodeCode (.word (0b11000#5 ++ aq ++ rl ++ rs2 ++ rs1 ++ 0b010#3 ++ rd ++ 0b0101111#7)) = .ok (.amominuW rd rs1 rs2 aq rl)
      ∧ AmoRule (.amominuW rd rs1 rs2 aq rl) (fun old v => if old.toNat < v.toNat then old else v) rd addr b s)
    ∧ (decodeCode (.word (0b11100#5 ++ aq ++ rl ++ rs2 ++ rs1 ++ 0b010#3 ++ rd ++ 0b0101111#7)) = .ok (.amomaxuW rd rs1 rs2 aq rl)
      ∧ AmoRule (.amomaxuW rd rs1 rs2 aq rl) (fun old v => if old.toNat < v.toNat then v else old) rd addr b s)

/-! ## Compressed instructions -/

/-- C.ADDI4SPN, C.ADDI, C.LI, C.LUI, C.ADDI16SP, C.SRLI, C.SRAI, C.ANDI (R404, R407, R409 to R414), with the immediates of R142 taken from
the bits that hold them: each encoding runs, writes its one register, advances `pc` by 2 and changes nothing else. -/
def Obligations.CompressedImmediateResults : Prop :=
  ∀ (s : State) (rd : Reg) (d : ShortReg) (i5 : BitVec 1) (i4_0 : BitVec 5) (u5_4 : BitVec 2) (u9_6 : BitVec 4)
    (u2 u3 : BitVec 1) (j9 j4 j6 j5 : BitVec 1) (j8_7 : BitVec 2),
    let x (r : ShortReg) : Reg := BitVec.ofNat 5 (8 + r.toNat)
    let a := s.readReg (x d)
    let imm : Word := (i5 ++ i4_0 : BitVec 6).signExtend 32
    let u : BitVec 8 := u9_6 ++ u5_4 ++ u3 ++ u2
    (u ≠ 0 → Runs (.half (0b000#3 ++ u5_4 ++ u9_6 ++ u2 ++ u3 ++ d ++ 0b00#2)) (.cAddi4spn d (u9_6 ++ u5_4 ++ u3 ++ u2)) s
      (Computes 2#32 (x d) (s.readReg 2#5 + 4 * u.setWidth 32) s))
    ∧ (Runs (.half (0b000#3 ++ i5 ++ rd ++ i4_0 ++ 0b01#2)) (.cAddi rd (i5 ++ i4_0)) s
      (Computes 2#32 rd (s.readReg rd + imm) s))
    ∧ (Runs (.half (0b010#3 ++ i5 ++ rd ++ i4_0 ++ 0b01#2)) (.cLi rd (i5 ++ i4_0)) s
      (Computes 2#32 rd (imm) s))
    ∧ (rd ≠ 2 → (i5 ++ i4_0 : BitVec 6) ≠ 0 → Runs (.half (0b011#3 ++ i5 ++ rd ++ i4_0 ++ 0b01#2)) (.cLui rd (i5 ++ i4_0)) s
      (Computes 2#32 rd (4096 * imm) s))
    ∧ ((j9 ++ j8_7 ++ j6 ++ j5 ++ j4 : BitVec 6) ≠ 0 → Runs (.half (0b011#3 ++ j9 ++ 0b00010#5 ++ j4 ++ j6 ++ j8_7 ++ j5 ++ 0b01#2)) (.cAddi16sp (j9 ++ j8_7 ++ j6 ++ j5 ++ j4)) s
      (Computes 2#32 2#5 (s.readReg 2#5 + 16 * (j9 ++ j8_7 ++ j6 ++ j5 ++ j4 : BitVec 6).signExtend 32) s))
    ∧ (Runs (.half (0b100#3 ++ 0b0#1 ++ 0b00#2 ++ d ++ i4_0 ++ 0b01#2)) (.cSrli d i4_0) s
      (Computes 2#32 (x d) (a >>> i4_0.toNat) s))
    ∧ (Runs (.half (0b100#3 ++ 0b0#1 ++ 0b01#2 ++ d ++ i4_0 ++ 0b01#2)) (.cSrai d i4_0) s
      (Computes 2#32 (x d) (a.sshiftRight i4_0.toNat) s))
    ∧ (Runs (.half (0b100#3 ++ i5 ++ 0b10#2 ++ d ++ i4_0 ++ 0b01#2)) (.cAndi d (i5 ++ i4_0)) s
      (Computes 2#32 (x d) (a &&& imm) s))

/-- C.SUB, C.XOR, C.OR, C.AND, C.SLLI, C.MV, C.ADD (R415 to R418, R422, R425, R428): each encoding runs, writes its one register, advances
`pc` by 2 and changes nothing else. -/
def Obligations.CompressedRegisterResults : Prop :=
  ∀ (s : State) (rd rs2 : Reg) (sh : BitVec 5) (d e : ShortReg),
    let x (r : ShortReg) : Reg := BitVec.ofNat 5 (8 + r.toNat)
    let a := s.readReg (x d)
    let b := s.readReg (x e)
    (Runs (.half (0b100#3 ++ 0b0#1 ++ 0b11#2 ++ d ++ 0b00#2 ++ e ++ 0b01#2)) (.cSub d e) s
      (Computes 2#32 (x d) (a - b) s))
    ∧ (Runs (.half (0b100#3 ++ 0b0#1 ++ 0b11#2 ++ d ++ 0b01#2 ++ e ++ 0b01#2)) (.cXor d e) s
      (Computes 2#32 (x d) (a ^^^ b) s))
    ∧ (Runs (.half (0b100#3 ++ 0b0#1 ++ 0b11#2 ++ d ++ 0b10#2 ++ e ++ 0b01#2)) (.cOr d e) s
      (Computes 2#32 (x d) (a ||| b) s))
    ∧ (Runs (.half (0b100#3 ++ 0b0#1 ++ 0b11#2 ++ d ++ 0b11#2 ++ e ++ 0b01#2)) (.cAnd d e) s
      (Computes 2#32 (x d) (a &&& b) s))
    ∧ (Runs (.half (0b000#3 ++ 0b0#1 ++ rd ++ sh ++ 0b10#2)) (.cSlli rd sh) s
      (Computes 2#32 rd (s.readReg rd <<< sh.toNat) s))
    ∧ (rs2 ≠ 0 → Runs (.half (0b100#3 ++ 0b0#1 ++ rd ++ rs2 ++ 0b10#2)) (.cMv rd rs2) s
      (Computes 2#32 rd (s.readReg rs2) s))
    ∧ (rs2 ≠ 0 → Runs (.half (0b100#3 ++ 0b1#1 ++ rd ++ rs2 ++ 0b10#2)) (.cAdd rd rs2) s
      (Computes 2#32 rd (s.readReg rd + s.readReg rs2) s))

/-- C.JAL, C.J, C.BEQZ, C.BNEZ, C.JR, C.JALR (R408, R419, R420, R421, R424, R427), with the offsets of R142: the link is `pc + 2` in x1, a
jump-register target is the OLD register with bit 0 cleared, a branch that is not taken advances `pc` by 2; nothing else
changes. -/
def Obligations.CompressedControlResults : Prop :=
  ∀ (s : State) (rs1 : Reg) (d : ShortReg) (b11 b4 b10 b6 b7 b5 b8 : BitVec 1) (b9_8 b4_3 b7_6 b2_1 : BitVec 2)
    (b3_1 : BitVec 3),
    let x (r : ShortReg) : Reg := BitVec.ofNat 5 (8 + r.toNat)
    let j : BitVec 11 := b11 ++ b10 ++ b9_8 ++ b7 ++ b6 ++ b5 ++ b4 ++ b3_1
    let b : BitVec 8 := b8 ++ b7_6 ++ b5 ++ b4_3 ++ b2_1
    let offj : Word := 2 * j.signExtend 32
    let offb : Word := 2 * b.signExtend 32
    let target := BitVec.ofNat 32 ((s.readReg rs1).toNat - (s.readReg rs1).toNat % 2)
    Runs (.half (0b001#3 ++ b11 ++ b4 ++ b9_8 ++ b10 ++ b6 ++ b7 ++ b3_1 ++ b5 ++ 0b01#2)) (.cJal j) s
      (Jumps 1#5 (s.pc + 2#32) (s.pc + offj) s)
    ∧ Runs (.half (0b101#3 ++ b11 ++ b4 ++ b9_8 ++ b10 ++ b6 ++ b7 ++ b3_1 ++ b5 ++ 0b01#2)) (.cJ j) s
      (Moves (s.pc + offj) s)
    ∧ Runs (.half (0b110#3 ++ b8 ++ b4_3 ++ d ++ b7_6 ++ b2_1 ++ b5 ++ 0b01#2)) (.cBeqz d b) s
      (Moves (if s.readReg (x d) = 0 then s.pc + offb else s.pc + 2#32) s)
    ∧ Runs (.half (0b111#3 ++ b8 ++ b4_3 ++ d ++ b7_6 ++ b2_1 ++ b5 ++ 0b01#2)) (.cBnez d b) s
      (Moves (if s.readReg (x d) ≠ 0 then s.pc + offb else s.pc + 2#32) s)
    ∧ (rs1 ≠ 0 → Runs (.half (0b100#3 ++ 0b0#1 ++ rs1 ++ 0b00000#5 ++ 0b10#2)) (.cJr rs1) s (Moves target s))
    ∧ (rs1 ≠ 0 → Runs (.half (0b100#3 ++ 0b1#1 ++ rs1 ++ 0b00000#5 ++ 0b10#2)) (.cJalr rs1) s
      (Jumps 1#5 (s.pc + 2#32) target s))

/-- C.LW, C.SW, C.LWSP, C.SWSP (R405, R406, R423, R429), with the offsets of R142: word loads and stores by the order of checks of R301
and R302, `pc` advancing by 2. -/
def Obligations.CompressedMemoryResults : Prop :=
  ∀ (s : State) (rd rs2 : Reg) (d e : ShortReg) (u5_3 : BitVec 3) (u2 u6 u5 : BitVec 1) (u4_2 : BitVec 3)
    (u7_6 : BitVec 2) (v5_2 : BitVec 4), s.ram.wf = true →
    let x (r : ShortReg) : Reg := BitVec.ofNat 5 (8 + r.toNat)
    let off : Word := 4 * (u6 ++ u5_3 ++ u2 : BitVec 5).setWidth 32
    let offl : Word := 4 * (u7_6 ++ u5 ++ u4_2 : BitVec 6).setWidth 32
    let offs : Word := 4 * (u7_6 ++ v5_2 : BitVec 6).setWidth 32
    (decodeCode (.half (0b010#3 ++ u5_3 ++ e ++ u2 ++ u6 ++ d ++ 0b00#2)) = .ok (.cLw d e (u6 ++ u5_3 ++ u2))
      ∧ LoadRule (.cLw d e (u6 ++ u5_3 ++ u2)) 2#32 .word (fun v => v) (x d) (s.readReg (x e) + off) s)
    ∧ (decodeCode (.half (0b110#3 ++ u5_3 ++ e ++ u2 ++ u6 ++ d ++ 0b00#2)) = .ok (.cSw e d (u6 ++ u5_3 ++ u2))
      ∧ StoreRule (.cSw e d (u6 ++ u5_3 ++ u2)) 2#32 .word (s.readReg (x e) + off) (s.readReg (x d)) s)
    ∧ (rd ≠ 0 →
      decodeCode (.half (0b010#3 ++ u5 ++ rd ++ u4_2 ++ u7_6 ++ 0b10#2)) = .ok (.cLwsp rd (u7_6 ++ u5 ++ u4_2))
      ∧ LoadRule (.cLwsp rd (u7_6 ++ u5 ++ u4_2)) 2#32 .word (fun v => v) rd (s.readReg 2#5 + offl) s)
    ∧ (decodeCode (.half (0b110#3 ++ v5_2 ++ u7_6 ++ rs2 ++ 0b10#2)) = .ok (.cSwsp rs2 (u7_6 ++ v5_2))
      ∧ StoreRule (.cSwsp rs2 (u7_6 ++ v5_2)) 2#32 .word (s.readReg 2#5 + offs) (s.readReg rs2) s)

/-! ## Push, pop, paired moves -/

/-- PUSH (R455, R456) with the list and the adjustment of R451 and R452: one word per listed register, highest number first, at the
next lower address from `sp - 4`, each routed on its own; then `sp` takes `sp - stack_adj` and `pc` advances by 2. The first store
that fails ends it with `STORE_FAULT`, one that halts ends the run; the earlier stores stay and no register changes. A misaligned
`sp` gives `STORE_ALIGN` before any access (R454). What a fault leaves and the check of `sp` are the spec's own decisions (D10,
D11). -/
def Obligations.PushStoresAndAdjusts : Prop :=
  ∀ (s : State) (rlist : BitVec 4) (spimm : BitVec 2), 4 ≤ rlist.toNat →
    let i := Instr.cmPush rlist spimm
    let n := (listedRegs rlist).length
    decodeCode (.half (0b10111000#8 ++ rlist ++ spimm ++ 0b10#2)) = .ok i
    ∧ ((s.readReg sp).toNat % 4 = 0 → ∀ u : Nat → State, u 0 = s → PushesOk rlist u n →
      ∃ t, exec i s = .next t
        ∧ WritesReg sp (s.readReg sp - BitVec.ofNat 32 (stackAdjustment rlist spimm)) s t
        ∧ t.pc = s.pc + 2#32 ∧ KeepsSystem s t ∧ t.ram = (u n).ram ∧ t.mem = (u n).mem)
    ∧ ((s.readReg sp).toNat % 4 = 0 → ∀ (u : Nat → State) (m : Nat) (w : State), u 0 = s → m < n →
      PushesOk rlist u m →
      (u m).memWrite .word (s.readReg sp - BitVec.ofNat 32 (4 * (m + 1))) (s.readReg ((listedRegs rlist).getD m 0#5)) =
        .fail w → TrapsAfter i s w .storeFault)
    ∧ ((s.readReg sp).toNat % 4 = 0 → ∀ (u : Nat → State) (m : Nat) (code : Int) (w : State), u 0 = s → m < n →
      PushesOk rlist u m →
      (u m).memWrite .word (s.readReg sp - BitVec.ofNat 32 (4 * (m + 1))) (s.readReg ((listedRegs rlist).getD m 0#5)) =
        .halt code w → exec i s = .fault (.hostHalt code w))
    ∧ ((s.readReg sp).toNat % 4 ≠ 0 → Traps i s .storeAlign)

/-- The frame of a PUSH in RAM (R455): when every element lies in the window it completes, word number k stands at
`sp - 4 (k + 1)`, every byte outside those words reads as before, and MEM is not asked. -/
def Obligations.PushFrameInRam : Prop :=
  ∀ (s : State) (rlist : BitVec 4) (spimm : BitVec 2), 4 ≤ rlist.toNat → s.ram.wf = true →
    (s.readReg sp).toNat % 4 = 0 →
    let n := (listedRegs rlist).length
    let addr (k : Nat) : Word := s.readReg sp - BitVec.ofNat 32 (4 * (k + 1))
    (∀ k < n, s.inRam (addr k) = true) →
    ∃ t, exec (.cmPush rlist spimm) s = .next t ∧ t.mem = s.mem
      ∧ (∀ k < n, ramRead t.ram .word (addr k).toNat = s.readReg ((listedRegs rlist).getD k 0#5))
      ∧ ∀ a, (∀ k < n, a < (addr k).toNat ∨ (addr k).toNat + 4 ≤ a) → t.ram.read a = s.ram.read a

/-- POP, POPRET, POPRETZ when every load succeeds (R457, R458, R459): each listed register takes its word, `sp` takes
`sp + stack_adj`, `pc` advances by 2 or takes the loaded ra with bit 0 cleared (the spec's own decision D8), POPRETZ also clears
a0; nothing else changes. -/
def Obligations.PopLoadsAndReturns : Prop :=
  ∀ (s : State) (rlist : BitVec 4) (spimm : BitVec 2) (u : Nat → State) (v : Nat → Word), 4 ≤ rlist.toNat →
    let top : Word := s.readReg sp + BitVec.ofNat 32 (stackAdjustment rlist spimm)
    let n := (listedRegs rlist).length
    let lastWord := (v (n - 1)).toNat
    (s.readReg sp).toNat % 4 = 0 → u 0 = s → PopsOk top u v n →
    Runs (.half (0b10111010#8 ++ rlist ++ spimm ++ 0b10#2)) (.cmPop rlist spimm) s (fun t =>
      Popped rlist top v s t ∧ t.pc = s.pc + 2#32 ∧ KeepsSystem s t ∧ KeepsRam s t ∧ t.mem = (u n).mem)
    ∧ Runs (.half (0b10111110#8 ++ rlist ++ spimm ++ 0b10#2)) (.cmPopret rlist spimm) s (fun t =>
      Popped rlist top v s t ∧ t.pc = BitVec.ofNat 32 (lastWord - lastWord % 2) ∧ KeepsSystem s t
        ∧ KeepsRam s t ∧ t.mem = (u n).mem)
    ∧ Runs (.half (0b10111100#8 ++ rlist ++ spimm ++ 0b10#2)) (.cmPopretz rlist spimm) s (fun t =>
      t.readReg 10#5 = 0#32 ∧ (∀ r, r ≠ 10#5 → r ≠ sp → r ∉ listedRegs rlist → t.readReg r = s.readReg r)
        ∧ t.readReg sp = top ∧ (∀ k < n, t.readReg ((listedRegs rlist).getD k 0#5) = v k)
        ∧ t.pc = BitVec.ofNat 32 (lastWord - lastWord % 2) ∧ KeepsSystem s t
        ∧ KeepsRam s t ∧ t.mem = (u n).mem)

/-- POP, POPRET, POPRETZ that fault (R454, R460): a misaligned `sp` gives `LOAD_ALIGN` before any access; the first word that cannot be
read gives `LOAD_FAULT`, with `sp`, the return and a0 as if not executed; each register loaded before it holds its old or its
loaded value, and every other register keeps its value. Which of the two is a free value (the spec's decision D11, log entry 3):
the statement holds for both. -/
def Obligations.PopFaults : Prop :=
  ∀ (s : State) (rlist : BitVec 4) (spimm : BitVec 2), 4 ≤ rlist.toNat →
    ∀ i ∈ [Instr.cmPop rlist spimm, .cmPopret rlist spimm, .cmPopretz rlist spimm],
    let top : Word := s.readReg sp + BitVec.ofNat 32 (stackAdjustment rlist spimm)
    ((s.readReg sp).toNat % 4 ≠ 0 → Traps i s .loadAlign)
    ∧ ((s.readReg sp).toNat % 4 = 0 →
      ∀ (u : Nat → State) (v : Nat → Word) (m : Nat) (w : State), u 0 = s → m < (listedRegs rlist).length →
      PopsOk top u v m → (u m).memRead .word (top - BitVec.ofNat 32 (4 * (m + 1))) = (none, w) →
      ∃ t, exec i s = .next t ∧ t.mcause = 5#32 ∧ t.mepc = s.pc ∧ t.priv = .M
        ∧ (∀ b < 32, t.mstatus.getLsbD b = if b = 3 then false else if b = 7 then s.mstatus.getLsbD 7 || s.mstatus.getLsbD 3
            else if b = 11 ∨ b = 12 then s.priv == .M else s.mstatus.getLsbD b)
        ∧ t.pc = s.mtvec &&& 0xFFFFFFFE#32 ∧ t.reserved = s.reserved ∧ t.pending = s.pending
        ∧ (∀ r, r ≠ Csr.mstatus → r ≠ Csr.mepc → r ≠ Csr.mcause → t.csrValue r = s.csrValue r)
        ∧ KeepsRam s t ∧ t.mem = w.mem
        ∧ (∀ r, r ∉ (listedRegs rlist).take m → t.readReg r = s.readReg r)
        ∧ ∀ k < m, t.readReg ((listedRegs rlist).getD k 0#5) = s.readReg ((listedRegs rlist).getD k 0#5)
            ∨ t.readReg ((listedRegs rlist).getD k 0#5) = v k)

/-- MVSA01 and MVA01S (R461, R462) with the selectors of R453, both sources read before either write; `pc` advances by 2 and nothing
else changes. MVSA01 needs two different selectors (the spec's own decision D24). -/
def Obligations.PairedMoveResults : Prop :=
  ∀ (s : State) (r1 r2 : ShortReg),
    let m (raw : ShortReg) : Reg := BitVec.ofNat 5 (raw.toNat + 8 + 8 * if raw.toNat < 2 then 0 else 1)
    (r1 ≠ r2 → Runs (.half (0b101011#6 ++ r1 ++ 0b01#2 ++ r2 ++ 0b10#2)) (.cmMvsa01 r1 r2) s (fun t =>
      (∀ r, t.readReg r = if r = m r1 then s.readReg 10#5 else if r = m r2 then s.readReg 11#5 else s.readReg r)
      ∧ t.pc = s.pc + 2#32 ∧ KeepsSystem s t ∧ KeepsMemory s t))
    ∧ Runs (.half (0b101011#6 ++ r1 ++ 0b11#2 ++ r2 ++ 0b10#2)) (.cmMva01s r1 r2) s (fun t =>
      (∀ r, t.readReg r = if r = 10#5 then s.readReg (m r1) else if r = 11#5 then s.readReg (m r2) else s.readReg r)
      ∧ t.pc = s.pc + 2#32 ∧ KeepsSystem s t ∧ KeepsMemory s t)

/-- The duality of R463 in RAM: after a PUSH that completes, a POP with the same list and adjustment, from any state that has the
memory, the window and the `sp` the PUSH left, completes and restores the listed registers and `sp`, whatever the other registers
held; and MVSA01 followed by MVA01S with the same operands restores a0 and a1. The spec marks the addresses as its inference. -/
def Obligations.PushPopDuality : Prop :=
  (∀ (s t t' : State) (rlist : BitVec 4) (spimm : BitVec 2), 4 ≤ rlist.toNat → s.ram.wf = true →
    (∀ k < (listedRegs rlist).length, s.inRam (s.readReg sp - BitVec.ofNat 32 (4 * (k + 1))) = true) →
    (s.readReg sp).toNat % 4 = 0 → exec (.cmPush rlist spimm) s = .next t →
    t'.ram = t.ram → t'.cfg = t.cfg → t'.readReg sp = t.readReg sp →
    ∃ u, exec (.cmPop rlist spimm) t' = .next u ∧ u.readReg sp = s.readReg sp
      ∧ (∀ r ∈ listedRegs rlist, u.readReg r = s.readReg r)
      ∧ ∀ r, r ≠ sp → r ∉ listedRegs rlist → u.readReg r = t'.readReg r)
  ∧ (∀ (s t : State) (r1 r2 : ShortReg), r1 ≠ r2 → exec (.cmMvsa01 r1 r2) s = .next t →
    ∃ u, exec (.cmMva01s r1 r2) t = .next u ∧ u.readReg 10#5 = s.readReg 10#5 ∧ u.readReg 11#5 = s.readReg 11#5)
end

