-- ==== Sys2Proof/Laws/Decode.lean ====
section
/-!
SUPPORT. The fields of every encoding format: what each bit range of an encoded word holds, so that no later proof takes an
encoding apart bit by bit.
-/

namespace Sys2Proof

/-- The fields of the R format. -/
theorem encR_fields (f7 : BitVec 7) (rs2 rs1 : Reg) (f3 : BitVec 3) (rd : Reg) (op : BitVec 7) :
    (encR f7 rs2 rs1 f3 rd op).extractLsb' 0 7 = op
      ∧ (encR f7 rs2 rs1 f3 rd op).extractLsb' 7 5 = rd
      ∧ (encR f7 rs2 rs1 f3 rd op).extractLsb' 12 3 = f3
      ∧ (encR f7 rs2 rs1 f3 rd op).extractLsb' 15 5 = rs1
      ∧ (encR f7 rs2 rs1 f3 rd op).extractLsb' 20 5 = rs2
      ∧ (encR f7 rs2 rs1 f3 rd op).extractLsb' 25 7 = f7 := by
  refine ⟨?_, ?_, ?_, ?_, ?_, ?_⟩ <;> refine BitVec.eq_of_getLsbD_eq fun i hi => ?_ <;>
    simp only [encR, BitVec.getLsbD_append, BitVec.getLsbD_extractLsb'] <;> grind

/-- The fields of the I format. -/
theorem encI_fields (imm : BitVec 12) (rs1 : Reg) (f3 : BitVec 3) (rd : Reg) (op : BitVec 7) :
    (encI imm rs1 f3 rd op).extractLsb' 0 7 = op
      ∧ (encI imm rs1 f3 rd op).extractLsb' 7 5 = rd
      ∧ (encI imm rs1 f3 rd op).extractLsb' 12 3 = f3
      ∧ (encI imm rs1 f3 rd op).extractLsb' 15 5 = rs1
      ∧ (encI imm rs1 f3 rd op).extractLsb' 20 12 = imm := by
  refine ⟨?_, ?_, ?_, ?_, ?_⟩ <;> refine BitVec.eq_of_getLsbD_eq fun i hi => ?_ <;>
    simp only [encI, BitVec.getLsbD_append, BitVec.getLsbD_extractLsb'] <;> grind

/-- The fields of the S format. -/
theorem encS_fields (imm : BitVec 12) (rs2 rs1 : Reg) (f3 : BitVec 3) (op : BitVec 7) :
    (encS imm rs2 rs1 f3 op).extractLsb' 0 7 = op
      ∧ (encS imm rs2 rs1 f3 op).extractLsb' 7 5 = imm.extractLsb' 0 5
      ∧ (encS imm rs2 rs1 f3 op).extractLsb' 12 3 = f3
      ∧ (encS imm rs2 rs1 f3 op).extractLsb' 15 5 = rs1
      ∧ (encS imm rs2 rs1 f3 op).extractLsb' 20 5 = rs2
      ∧ (encS imm rs2 rs1 f3 op).extractLsb' 25 7 = imm.extractLsb' 5 7 := by
  refine ⟨?_, ?_, ?_, ?_, ?_, ?_⟩ <;> refine BitVec.eq_of_getLsbD_eq fun i hi => ?_ <;>
    simp only [encS, BitVec.getLsbD_append, BitVec.getLsbD_extractLsb'] <;> grind

/-- The fields of the B format. -/
theorem encB_fields (off : BitVec 12) (rs2 rs1 : Reg) (f3 : BitVec 3) (op : BitVec 7) :
    (encB off rs2 rs1 f3 op).extractLsb' 0 7 = op
      ∧ (encB off rs2 rs1 f3 op).extractLsb' 12 3 = f3
      ∧ (encB off rs2 rs1 f3 op).extractLsb' 15 5 = rs1
      ∧ (encB off rs2 rs1 f3 op).extractLsb' 20 5 = rs2
      ∧ (encB off rs2 rs1 f3 op).extractLsb' 7 1 = off.extractLsb' 10 1
      ∧ (encB off rs2 rs1 f3 op).extractLsb' 8 4 = off.extractLsb' 0 4
      ∧ (encB off rs2 rs1 f3 op).extractLsb' 25 6 = off.extractLsb' 4 6
      ∧ (encB off rs2 rs1 f3 op).extractLsb' 31 1 = off.extractLsb' 11 1 := by
  refine ⟨?_, ?_, ?_, ?_, ?_, ?_, ?_, ?_⟩ <;> refine BitVec.eq_of_getLsbD_eq fun i hi => ?_ <;>
    simp only [encB, BitVec.getLsbD_append, BitVec.getLsbD_extractLsb'] <;> grind

/-- The fields of the U format. -/
theorem encU_fields (imm : BitVec 20) (rd : Reg) (op : BitVec 7) :
    (encU imm rd op).extractLsb' 0 7 = op
      ∧ (encU imm rd op).extractLsb' 7 5 = rd
      ∧ (encU imm rd op).extractLsb' 12 20 = imm := by
  refine ⟨?_, ?_, ?_⟩ <;> refine BitVec.eq_of_getLsbD_eq fun i hi => ?_ <;>
    simp only [encU, BitVec.getLsbD_append, BitVec.getLsbD_extractLsb'] <;> grind

/-- The fields of the J format. -/
theorem encJ_fields (off : BitVec 20) (rd : Reg) (op : BitVec 7) :
    (encJ off rd op).extractLsb' 0 7 = op
      ∧ (encJ off rd op).extractLsb' 7 5 = rd
      ∧ (encJ off rd op).extractLsb' 12 8 = off.extractLsb' 11 8
      ∧ (encJ off rd op).extractLsb' 20 1 = off.extractLsb' 10 1
      ∧ (encJ off rd op).extractLsb' 21 10 = off.extractLsb' 0 10
      ∧ (encJ off rd op).extractLsb' 31 1 = off.extractLsb' 19 1 := by
  refine ⟨?_, ?_, ?_, ?_, ?_, ?_⟩ <;> refine BitVec.eq_of_getLsbD_eq fun i hi => ?_ <;>
    simp only [encJ, BitVec.getLsbD_append, BitVec.getLsbD_extractLsb'] <;> grind

/-- The fields of the AMO format. -/
theorem encAmo_fields (f5 : BitVec 5) (aq rl : BitVec 1) (rs2 rs1 rd : Reg) :
    (encAmo f5 aq rl rs2 rs1 rd).extractLsb' 0 7 = 0b0101111#7
      ∧ (encAmo f5 aq rl rs2 rs1 rd).extractLsb' 7 5 = rd
      ∧ (encAmo f5 aq rl rs2 rs1 rd).extractLsb' 12 3 = 0b010#3
      ∧ (encAmo f5 aq rl rs2 rs1 rd).extractLsb' 15 5 = rs1
      ∧ (encAmo f5 aq rl rs2 rs1 rd).extractLsb' 20 5 = rs2
      ∧ (encAmo f5 aq rl rs2 rs1 rd).extractLsb' 25 1 = rl
      ∧ (encAmo f5 aq rl rs2 rs1 rd).extractLsb' 26 1 = aq
      ∧ (encAmo f5 aq rl rs2 rs1 rd).extractLsb' 27 5 = f5 := by
  refine ⟨?_, ?_, ?_, ?_, ?_, ?_, ?_, ?_⟩ <;> refine BitVec.eq_of_getLsbD_eq fun i hi => ?_ <;>
    simp only [encAmo, BitVec.getLsbD_append, BitVec.getLsbD_extractLsb'] <;> grind

/-- The fields of the BEXTM format. -/
theorem encBextm_fields (size : BitVec 3) (rs2 rs1 : Reg) (f3 : BitVec 3) (rd : Reg) :
    (encBextm size rs2 rs1 f3 rd).extractLsb' 0 7 = 0b0001011#7
      ∧ (encBextm size rs2 rs1 f3 rd).extractLsb' 7 5 = rd
      ∧ (encBextm size rs2 rs1 f3 rd).extractLsb' 12 3 = f3
      ∧ (encBextm size rs2 rs1 f3 rd).extractLsb' 15 5 = rs1
      ∧ (encBextm size rs2 rs1 f3 rd).extractLsb' 20 5 = rs2
      ∧ (encBextm size rs2 rs1 f3 rd).extractLsb' 25 1 = 0#1
      ∧ (encBextm size rs2 rs1 f3 rd).extractLsb' 26 3 = size
      ∧ (encBextm size rs2 rs1 f3 rd).extractLsb' 29 3 = 0#3 := by
  refine ⟨?_, ?_, ?_, ?_, ?_, ?_, ?_, ?_⟩ <;> refine BitVec.eq_of_getLsbD_eq fun i hi => ?_ <;>
    simp only [encBextm, BitVec.getLsbD_append, BitVec.getLsbD_extractLsb'] <;> grind

/-- The fields of the FENCE format. -/
theorem encFence_fields (fm pred succ : BitVec 4) (rs1 rd : Reg) :
    (encFence fm pred succ rs1 rd).extractLsb' 0 7 = 0b0001111#7
      ∧ (encFence fm pred succ rs1 rd).extractLsb' 7 5 = rd
      ∧ (encFence fm pred succ rs1 rd).extractLsb' 12 3 = 0#3
      ∧ (encFence fm pred succ rs1 rd).extractLsb' 15 5 = rs1
      ∧ (encFence fm pred succ rs1 rd).extractLsb' 20 4 = succ
      ∧ (encFence fm pred succ rs1 rd).extractLsb' 24 4 = pred
      ∧ (encFence fm pred succ rs1 rd).extractLsb' 28 4 = fm := by
  refine ⟨?_, ?_, ?_, ?_, ?_, ?_, ?_⟩ <;> refine BitVec.eq_of_getLsbD_eq fun i hi => ?_ <;>
    simp only [encFence, BitVec.getLsbD_append, BitVec.getLsbD_extractLsb'] <;> grind

/-- The fields of the C.ADDI4SPN format. -/
theorem encAddi4spn_fields (uimm : BitVec 8) (rd : ShortReg) :
    (encAddi4spn uimm rd).extractLsb' 0 2 = 0#2
      ∧ (encAddi4spn uimm rd).extractLsb' 2 3 = rd
      ∧ (encAddi4spn uimm rd).extractLsb' 5 1 = uimm.extractLsb' 1 1
      ∧ (encAddi4spn uimm rd).extractLsb' 6 1 = uimm.extractLsb' 0 1
      ∧ (encAddi4spn uimm rd).extractLsb' 7 4 = uimm.extractLsb' 4 4
      ∧ (encAddi4spn uimm rd).extractLsb' 11 2 = uimm.extractLsb' 2 2
      ∧ (encAddi4spn uimm rd).extractLsb' 13 3 = 0#3 := by
  refine ⟨?_, ?_, ?_, ?_, ?_, ?_, ?_⟩ <;> refine BitVec.eq_of_getLsbD_eq fun i hi => ?_ <;>
    simp only [encAddi4spn, BitVec.getLsbD_append, BitVec.getLsbD_extractLsb'] <;> grind

/-- The fields of the C.LW, C.SW format. -/
theorem encCls_fields (f3 : BitVec 3) (uimm : BitVec 5) (rs1 r : ShortReg) :
    (encCls f3 uimm rs1 r).extractLsb' 0 2 = 0#2
      ∧ (encCls f3 uimm rs1 r).extractLsb' 2 3 = r
      ∧ (encCls f3 uimm rs1 r).extractLsb' 5 1 = uimm.extractLsb' 4 1
      ∧ (encCls f3 uimm rs1 r).extractLsb' 6 1 = uimm.extractLsb' 0 1
      ∧ (encCls f3 uimm rs1 r).extractLsb' 7 3 = rs1
      ∧ (encCls f3 uimm rs1 r).extractLsb' 10 3 = uimm.extractLsb' 1 3
      ∧ (encCls f3 uimm rs1 r).extractLsb' 13 3 = f3 := by
  refine ⟨?_, ?_, ?_, ?_, ?_, ?_, ?_⟩ <;> refine BitVec.eq_of_getLsbD_eq fun i hi => ?_ <;>
    simp only [encCls, BitVec.getLsbD_append, BitVec.getLsbD_extractLsb'] <;> grind

/-- The fields of the CI format. -/
theorem encCi_fields (f3 : BitVec 3) (imm : BitVec 6) (rd : Reg) (q : BitVec 2) :
    (encCi f3 imm rd q).extractLsb' 0 2 = q
      ∧ (encCi f3 imm rd q).extractLsb' 2 5 = imm.extractLsb' 0 5
      ∧ (encCi f3 imm rd q).extractLsb' 7 5 = rd
      ∧ (encCi f3 imm rd q).extractLsb' 12 1 = imm.extractLsb' 5 1
      ∧ (encCi f3 imm rd q).extractLsb' 13 3 = f3 := by
  refine ⟨?_, ?_, ?_, ?_, ?_⟩ <;> refine BitVec.eq_of_getLsbD_eq fun i hi => ?_ <;>
    simp only [encCi, BitVec.getLsbD_append, BitVec.getLsbD_extractLsb'] <;> grind

/-- The fields of the C.ADDI16SP format. -/
theorem encAddi16sp_fields (imm : BitVec 6) :
    (encAddi16sp imm).extractLsb' 0 2 = 1#2
      ∧ (encAddi16sp imm).extractLsb' 2 1 = imm.extractLsb' 1 1
      ∧ (encAddi16sp imm).extractLsb' 3 2 = imm.extractLsb' 3 2
      ∧ (encAddi16sp imm).extractLsb' 5 1 = imm.extractLsb' 2 1
      ∧ (encAddi16sp imm).extractLsb' 6 1 = imm.extractLsb' 0 1
      ∧ (encAddi16sp imm).extractLsb' 7 5 = 2#5
      ∧ (encAddi16sp imm).extractLsb' 12 1 = imm.extractLsb' 5 1
      ∧ (encAddi16sp imm).extractLsb' 13 3 = 3#3 := by
  refine ⟨?_, ?_, ?_, ?_, ?_, ?_, ?_, ?_⟩ <;> refine BitVec.eq_of_getLsbD_eq fun i hi => ?_ <;>
    simp only [encAddi16sp, BitVec.getLsbD_append, BitVec.getLsbD_extractLsb'] <;> grind

/-- The fields of the CJ format. -/
theorem encCj_fields (f3 : BitVec 3) (off : BitVec 11) :
    (encCj f3 off).extractLsb' 0 2 = 1#2
      ∧ (encCj f3 off).extractLsb' 2 1 = off.extractLsb' 4 1
      ∧ (encCj f3 off).extractLsb' 3 3 = off.extractLsb' 0 3
      ∧ (encCj f3 off).extractLsb' 6 1 = off.extractLsb' 6 1
      ∧ (encCj f3 off).extractLsb' 7 1 = off.extractLsb' 5 1
      ∧ (encCj f3 off).extractLsb' 8 1 = off.extractLsb' 9 1
      ∧ (encCj f3 off).extractLsb' 9 2 = off.extractLsb' 7 2
      ∧ (encCj f3 off).extractLsb' 11 1 = off.extractLsb' 3 1
      ∧ (encCj f3 off).extractLsb' 12 1 = off.extractLsb' 10 1
      ∧ (encCj f3 off).extractLsb' 13 3 = f3 := by
  refine ⟨?_, ?_, ?_, ?_, ?_, ?_, ?_, ?_, ?_, ?_⟩ <;> refine BitVec.eq_of_getLsbD_eq fun i hi => ?_ <;>
    simp only [encCj, BitVec.getLsbD_append, BitVec.getLsbD_extractLsb'] <;> grind

/-- The fields of the CB format. -/
theorem encCb_fields (f3 : BitVec 3) (rs1 : ShortReg) (off : BitVec 8) :
    (encCb f3 rs1 off).extractLsb' 0 2 = 1#2
      ∧ (encCb f3 rs1 off).extractLsb' 2 1 = off.extractLsb' 4 1
      ∧ (encCb f3 rs1 off).extractLsb' 3 2 = off.extractLsb' 0 2
      ∧ (encCb f3 rs1 off).extractLsb' 5 2 = off.extractLsb' 5 2
      ∧ (encCb f3 rs1 off).extractLsb' 7 3 = rs1
      ∧ (encCb f3 rs1 off).extractLsb' 10 2 = off.extractLsb' 2 2
      ∧ (encCb f3 rs1 off).extractLsb' 12 1 = off.extractLsb' 7 1
      ∧ (encCb f3 rs1 off).extractLsb' 13 3 = f3 := by
  refine ⟨?_, ?_, ?_, ?_, ?_, ?_, ?_, ?_⟩ <;> refine BitVec.eq_of_getLsbD_eq fun i hi => ?_ <;>
    simp only [encCb, BitVec.getLsbD_append, BitVec.getLsbD_extractLsb'] <;> grind

/-- The fields of the CB, arithmetic format. -/
theorem encCbAlu_fields (b12 : BitVec 1) (sel : BitVec 2) (rd : ShortReg) (low : BitVec 5) :
    (encCbAlu b12 sel rd low).extractLsb' 0 2 = 1#2
      ∧ (encCbAlu b12 sel rd low).extractLsb' 2 5 = low
      ∧ (encCbAlu b12 sel rd low).extractLsb' 7 3 = rd
      ∧ (encCbAlu b12 sel rd low).extractLsb' 10 2 = sel
      ∧ (encCbAlu b12 sel rd low).extractLsb' 12 1 = b12
      ∧ (encCbAlu b12 sel rd low).extractLsb' 13 3 = 4#3 := by
  refine ⟨?_, ?_, ?_, ?_, ?_, ?_⟩ <;> refine BitVec.eq_of_getLsbD_eq fun i hi => ?_ <;>
    simp only [encCbAlu, BitVec.getLsbD_append, BitVec.getLsbD_extractLsb'] <;> grind

/-- The fields of the CA format. -/
theorem encCa_fields (rd : ShortReg) (sel : BitVec 2) (rs2 : ShortReg) :
    (encCa rd sel rs2).extractLsb' 0 2 = 1#2
      ∧ (encCa rd sel rs2).extractLsb' 2 3 = rs2
      ∧ (encCa rd sel rs2).extractLsb' 5 2 = sel
      ∧ (encCa rd sel rs2).extractLsb' 7 3 = rd
      ∧ (encCa rd sel rs2).extractLsb' 10 2 = 3#2
      ∧ (encCa rd sel rs2).extractLsb' 12 1 = 0#1
      ∧ (encCa rd sel rs2).extractLsb' 13 3 = 4#3 := by
  refine ⟨?_, ?_, ?_, ?_, ?_, ?_, ?_⟩ <;> refine BitVec.eq_of_getLsbD_eq fun i hi => ?_ <;>
    simp only [encCa, BitVec.getLsbD_append, BitVec.getLsbD_extractLsb'] <;> grind

/-- The fields of the CR format. -/
theorem encCr_fields (b12 : BitVec 1) (r rs2 : Reg) :
    (encCr b12 r rs2).extractLsb' 0 2 = 2#2
      ∧ (encCr b12 r rs2).extractLsb' 2 5 = rs2
      ∧ (encCr b12 r rs2).extractLsb' 7 5 = r
      ∧ (encCr b12 r rs2).extractLsb' 12 1 = b12
      ∧ (encCr b12 r rs2).extractLsb' 13 3 = 4#3 := by
  refine ⟨?_, ?_, ?_, ?_, ?_⟩ <;> refine BitVec.eq_of_getLsbD_eq fun i hi => ?_ <;>
    simp only [encCr, BitVec.getLsbD_append, BitVec.getLsbD_extractLsb'] <;> grind

/-- The fields of the C.LWSP format. -/
theorem encLwsp_fields (rd : Reg) (uimm : BitVec 6) :
    (encLwsp rd uimm).extractLsb' 0 2 = 2#2
      ∧ (encLwsp rd uimm).extractLsb' 2 2 = uimm.extractLsb' 4 2
      ∧ (encLwsp rd uimm).extractLsb' 4 3 = uimm.extractLsb' 0 3
      ∧ (encLwsp rd uimm).extractLsb' 7 5 = rd
      ∧ (encLwsp rd uimm).extractLsb' 12 1 = uimm.extractLsb' 3 1
      ∧ (encLwsp rd uimm).extractLsb' 13 3 = 2#3 := by
  refine ⟨?_, ?_, ?_, ?_, ?_, ?_⟩ <;> refine BitVec.eq_of_getLsbD_eq fun i hi => ?_ <;>
    simp only [encLwsp, BitVec.getLsbD_append, BitVec.getLsbD_extractLsb'] <;> grind

/-- The fields of the C.SWSP format. -/
theorem encSwsp_fields (rs2 : Reg) (uimm : BitVec 6) :
    (encSwsp rs2 uimm).extractLsb' 0 2 = 2#2
      ∧ (encSwsp rs2 uimm).extractLsb' 2 5 = rs2
      ∧ (encSwsp rs2 uimm).extractLsb' 7 2 = uimm.extractLsb' 4 2
      ∧ (encSwsp rs2 uimm).extractLsb' 9 4 = uimm.extractLsb' 0 4
      ∧ (encSwsp rs2 uimm).extractLsb' 13 3 = 6#3 := by
  refine ⟨?_, ?_, ?_, ?_, ?_⟩ <;> refine BitVec.eq_of_getLsbD_eq fun i hi => ?_ <;>
    simp only [encSwsp, BitVec.getLsbD_append, BitVec.getLsbD_extractLsb'] <;> grind

/-- The fields of the PUSH and POP format. -/
theorem encCmpp_fields (sel : BitVec 5) (rlist : BitVec 4) (spimm : BitVec 2) :
    (encCmpp sel rlist spimm).extractLsb' 0 2 = 2#2
      ∧ (encCmpp sel rlist spimm).extractLsb' 2 2 = spimm
      ∧ (encCmpp sel rlist spimm).extractLsb' 4 4 = rlist
      ∧ (encCmpp sel rlist spimm).extractLsb' 8 5 = sel
      ∧ (encCmpp sel rlist spimm).extractLsb' 13 3 = 5#3 := by
  refine ⟨?_, ?_, ?_, ?_, ?_⟩ <;> refine BitVec.eq_of_getLsbD_eq fun i hi => ?_ <;>
    simp only [encCmpp, BitVec.getLsbD_append, BitVec.getLsbD_extractLsb'] <;> grind

/-- The fields of the MVSA01 and MVA01S format. -/
theorem encCmmv_fields (sel : BitVec 2) (r1s r2s : ShortReg) :
    (encCmmv sel r1s r2s).extractLsb' 0 2 = 2#2
      ∧ (encCmmv sel r1s r2s).extractLsb' 2 3 = r2s
      ∧ (encCmmv sel r1s r2s).extractLsb' 5 2 = sel
      ∧ (encCmmv sel r1s r2s).extractLsb' 7 3 = r1s
      ∧ (encCmmv sel r1s r2s).extractLsb' 8 5 = 0b011#3 ++ r1s.extractLsb' 1 2
      ∧ (encCmmv sel r1s r2s).extractLsb' 10 3 = 3#3
      ∧ (encCmmv sel r1s r2s).extractLsb' 13 3 = 5#3 := by
  refine ⟨?_, ?_, ?_, ?_, ?_, ?_, ?_⟩ <;> refine BitVec.eq_of_getLsbD_eq fun i hi => ?_ <;>
    simp only [encCmmv, BitVec.getLsbD_append, BitVec.getLsbD_extractLsb'] <;> grind

/-! ## Immediates that an encoding scatters -/

/-- The immediate of the S format, put together again. -/
theorem encS_join (imm : BitVec 12) :
    imm.extractLsb' 5 7 ++ imm.extractLsb' 0 5 = imm := by
  refine BitVec.eq_of_getLsbD_eq fun i hi => ?_
  simp only [BitVec.getLsbD_append, BitVec.getLsbD_extractLsb']
  grind

/-- The immediate of the B format, put together again. -/
theorem encB_join (imm : BitVec 12) :
    imm.extractLsb' 11 1 ++ imm.extractLsb' 10 1 ++ imm.extractLsb' 4 6 ++ imm.extractLsb' 0 4 = imm := by
  refine BitVec.eq_of_getLsbD_eq fun i hi => ?_
  simp only [BitVec.getLsbD_append, BitVec.getLsbD_extractLsb']
  grind

/-- The immediate of the J format, put together again. -/
theorem encJ_join (imm : BitVec 20) :
    imm.extractLsb' 19 1 ++ imm.extractLsb' 11 8 ++ imm.extractLsb' 10 1 ++ imm.extractLsb' 0 10 = imm := by
  refine BitVec.eq_of_getLsbD_eq fun i hi => ?_
  simp only [BitVec.getLsbD_append, BitVec.getLsbD_extractLsb']
  grind

/-- The immediate of the C.ADDI4SPN format, put together again. -/
theorem encAddi4spn_join (imm : BitVec 8) :
    imm.extractLsb' 4 4 ++ imm.extractLsb' 2 2 ++ imm.extractLsb' 1 1 ++ imm.extractLsb' 0 1 = imm := by
  refine BitVec.eq_of_getLsbD_eq fun i hi => ?_
  simp only [BitVec.getLsbD_append, BitVec.getLsbD_extractLsb']
  grind

/-- The immediate of the C.LW, C.SW format, put together again. -/
theorem encCls_join (imm : BitVec 5) :
    imm.extractLsb' 4 1 ++ imm.extractLsb' 1 3 ++ imm.extractLsb' 0 1 = imm := by
  refine BitVec.eq_of_getLsbD_eq fun i hi => ?_
  simp only [BitVec.getLsbD_append, BitVec.getLsbD_extractLsb']
  grind

/-- The immediate of the CI format, put together again. -/
theorem encCi_join (imm : BitVec 6) :
    imm.extractLsb' 5 1 ++ imm.extractLsb' 0 5 = imm := by
  refine BitVec.eq_of_getLsbD_eq fun i hi => ?_
  simp only [BitVec.getLsbD_append, BitVec.getLsbD_extractLsb']
  grind

/-- The immediate of the C.ADDI16SP format, put together again. -/
theorem encAddi16sp_join (imm : BitVec 6) :
    imm.extractLsb' 5 1 ++ imm.extractLsb' 3 2 ++ imm.extractLsb' 2 1
      ++ imm.extractLsb' 1 1 ++ imm.extractLsb' 0 1 = imm := by
  refine BitVec.eq_of_getLsbD_eq fun i hi => ?_
  simp only [BitVec.getLsbD_append, BitVec.getLsbD_extractLsb']
  grind

/-- The immediate of the CJ format, put together again. -/
theorem encCj_join (imm : BitVec 11) :
    imm.extractLsb' 10 1 ++ imm.extractLsb' 9 1 ++ imm.extractLsb' 7 2
      ++ imm.extractLsb' 6 1 ++ imm.extractLsb' 5 1 ++ imm.extractLsb' 4 1 ++ imm.extractLsb' 3 1 ++ imm.extractLsb' 0 3 = imm := by
  refine BitVec.eq_of_getLsbD_eq fun i hi => ?_
  simp only [BitVec.getLsbD_append, BitVec.getLsbD_extractLsb']
  grind

/-- The immediate of the CB format, put together again. -/
theorem encCb_join (imm : BitVec 8) :
    imm.extractLsb' 7 1 ++ imm.extractLsb' 5 2 ++ imm.extractLsb' 4 1
      ++ imm.extractLsb' 2 2 ++ imm.extractLsb' 0 2 = imm := by
  refine BitVec.eq_of_getLsbD_eq fun i hi => ?_
  simp only [BitVec.getLsbD_append, BitVec.getLsbD_extractLsb']
  grind

/-- The immediate of the C.LWSP format, put together again. -/
theorem encLwsp_join (imm : BitVec 6) :
    imm.extractLsb' 4 2 ++ imm.extractLsb' 3 1 ++ imm.extractLsb' 0 3 = imm := by
  refine BitVec.eq_of_getLsbD_eq fun i hi => ?_
  simp only [BitVec.getLsbD_append, BitVec.getLsbD_extractLsb']
  grind

/-- The immediate of the C.SWSP format, put together again. -/
theorem encSwsp_join (imm : BitVec 6) :
    imm.extractLsb' 4 2 ++ imm.extractLsb' 0 4 = imm := by
  refine BitVec.eq_of_getLsbD_eq fun i hi => ?_
  simp only [BitVec.getLsbD_append, BitVec.getLsbD_extractLsb']
  grind

end Sys2Proof
end

