-- ==== Sys2Proof/Laws/State.lean ====
section
/-!
SUPPORT. The small lemmas of the state's named updates: what each leaves in each field, so that no later proof unfolds
them.
-/

namespace Sys2Proof.Machine

/-! ## `State.writeReg`: every field but `x` is kept -/

@[simp] theorem writeReg_pc (s : State) (r : Reg) (v : Word) : (s.writeReg r v).pc = s.pc := by
  unfold State.writeReg; split <;> rfl
@[simp] theorem writeReg_priv (s : State) (r : Reg) (v : Word) : (s.writeReg r v).priv = s.priv := by
  unfold State.writeReg; split <;> rfl
@[simp] theorem writeReg_reserved (s : State) (r : Reg) (v : Word) : (s.writeReg r v).reserved = s.reserved := by
  unfold State.writeReg; split <;> rfl
@[simp] theorem writeReg_pending (s : State) (r : Reg) (v : Word) : (s.writeReg r v).pending = s.pending := by
  unfold State.writeReg; split <;> rfl
@[simp] theorem writeReg_mstatus (s : State) (r : Reg) (v : Word) : (s.writeReg r v).mstatus = s.mstatus := by
  unfold State.writeReg; split <;> rfl
@[simp] theorem writeReg_mie (s : State) (r : Reg) (v : Word) : (s.writeReg r v).mie = s.mie := by
  unfold State.writeReg; split <;> rfl
@[simp] theorem writeReg_mip (s : State) (r : Reg) (v : Word) : (s.writeReg r v).mip = s.mip := by
  unfold State.writeReg; split <;> rfl
@[simp] theorem writeReg_mtvec (s : State) (r : Reg) (v : Word) : (s.writeReg r v).mtvec = s.mtvec := by
  unfold State.writeReg; split <;> rfl
@[simp] theorem writeReg_mscratch (s : State) (r : Reg) (v : Word) : (s.writeReg r v).mscratch = s.mscratch := by
  unfold State.writeReg; split <;> rfl
@[simp] theorem writeReg_mepc (s : State) (r : Reg) (v : Word) : (s.writeReg r v).mepc = s.mepc := by
  unfold State.writeReg; split <;> rfl
@[simp] theorem writeReg_mcause (s : State) (r : Reg) (v : Word) : (s.writeReg r v).mcause = s.mcause := by
  unfold State.writeReg; split <;> rfl
@[simp] theorem writeReg_mcycle (s : State) (r : Reg) (v : Word) : (s.writeReg r v).mcycle = s.mcycle := by
  unfold State.writeReg; split <;> rfl
@[simp] theorem writeReg_mcycleh (s : State) (r : Reg) (v : Word) : (s.writeReg r v).mcycleh = s.mcycleh := by
  unfold State.writeReg; split <;> rfl
@[simp] theorem writeReg_minstret (s : State) (r : Reg) (v : Word) : (s.writeReg r v).minstret = s.minstret := by
  unfold State.writeReg; split <;> rfl
@[simp] theorem writeReg_minstreth (s : State) (r : Reg) (v : Word) : (s.writeReg r v).minstreth = s.minstreth := by
  unfold State.writeReg; split <;> rfl
@[simp] theorem writeReg_mcountinhibit (s : State) (r : Reg) (v : Word) : (s.writeReg r v).mcountinhibit = s.mcountinhibit := by
  unfold State.writeReg; split <;> rfl
@[simp] theorem writeReg_ram (s : State) (r : Reg) (v : Word) : (s.writeReg r v).ram = s.ram := by
  unfold State.writeReg; split <;> rfl
@[simp] theorem writeReg_mem (s : State) (r : Reg) (v : Word) : (s.writeReg r v).mem = s.mem := by
  unfold State.writeReg; split <;> rfl
@[simp] theorem writeReg_freeCount (s : State) (r : Reg) (v : Word) : (s.writeReg r v).freeCount = s.freeCount := by
  unfold State.writeReg; split <;> rfl
@[simp] theorem writeReg_cfg (s : State) (r : Reg) (v : Word) : (s.writeReg r v).cfg = s.cfg := by
  unfold State.writeReg; split <;> rfl

/-! ## Reading registers -/

@[simp] theorem readReg_zero (s : State) : s.readReg 0#5 = 0#32 := rfl

theorem readReg_of_ne_zero (s : State) (r : Reg) (h : r ≠ 0#5) : s.readReg r = s.x[r.toNat]'r.isLt := by
  simp only [State.readReg, if_neg h]

/-- Reading depends on `x` alone. -/
theorem readReg_congr {s t : State} (h : t.x = s.x) (r : Reg) : t.readReg r = s.readReg r := by
  simp only [State.readReg, h]

@[simp] theorem writeReg_zero (s : State) (v : Word) : s.writeReg 0#5 v = s := rfl

theorem writeReg_x (s : State) (r : Reg) (v : Word) (h : r ≠ 0#5) :
    (s.writeReg r v).x = s.x.set r.toNat v r.isLt := by
  simp only [State.writeReg, if_neg h]

/-- A register reads back what was written to it, but for register 0; every other one is kept. -/
theorem readReg_writeReg (s : State) (r q : Reg) (v : Word) :
    (s.writeReg r v).readReg q = if q = r ∧ q ≠ 0#5 then v else s.readReg q := by
  by_cases hr : r = 0#5
  · subst hr
    simp +contextual
  · by_cases hq : q = 0#5
    · simp [hq]
    · rw [readReg_of_ne_zero _ _ hq, readReg_of_ne_zero _ _ hq]
      simp only [writeReg_x s r v hr, Vector.getElem_set]
      by_cases h : r.toNat = q.toNat
      · have : q = r := BitVec.eq_of_toNat_eq h.symm
        simp [h, this, hr]
      · have : q ≠ r := fun e => h (congrArg BitVec.toNat e).symm
        simp [h, this]

@[simp] theorem readReg_writeReg_self (s : State) (r : Reg) (v : Word) (h : r ≠ 0#5) :
    (s.writeReg r v).readReg r = v := by rw [readReg_writeReg, if_pos ⟨rfl, h⟩]

@[simp] theorem readReg_writeReg_ne (s : State) (r q : Reg) (v : Word) (h : q ≠ r) :
    (s.writeReg r v).readReg q = s.readReg q := by simp [readReg_writeReg, h]

/-- Writing a register never changes the stored value of register 0. -/
@[simp] theorem writeReg_x_zero (s : State) (r : Reg) (v : Word) : (s.writeReg r v).x[0] = s.x[0] := by
  by_cases hr : r = 0#5
  · subst hr; rfl
  · have h0 : r.toNat ≠ 0 := fun h => hr (BitVec.eq_of_toNat_eq (by simpa using h))
    simp only [writeReg_x s r v hr, Vector.getElem_set, h0, if_false]

/-- Writing a register changes `x` alone, and never the stored value of register 0. -/
theorem writeReg_eq (s : State) (r : Reg) (v : Word) :
    ∃ x, s.writeReg r v = { s with x := x } ∧ x[0] = s.x[0] :=
  ⟨(s.writeReg r v).x, by unfold State.writeReg; split <;> rfl, writeReg_x_zero s r v⟩

/-! ## `State.advance` and `trapEnter` -/

@[simp] theorem advance_x (s : State) (n : Word) : (s.advance n).x = s.x := rfl
@[simp] theorem advance_pc (s : State) (n : Word) : (s.advance n).pc = s.pc + n := rfl
@[simp] theorem advance_priv (s : State) (n : Word) : (s.advance n).priv = s.priv := rfl
@[simp] theorem advance_reserved (s : State) (n : Word) : (s.advance n).reserved = s.reserved := rfl
@[simp] theorem advance_pending (s : State) (n : Word) : (s.advance n).pending = s.pending := rfl
@[simp] theorem advance_mstatus (s : State) (n : Word) : (s.advance n).mstatus = s.mstatus := rfl
@[simp] theorem advance_mie (s : State) (n : Word) : (s.advance n).mie = s.mie := rfl
@[simp] theorem advance_mip (s : State) (n : Word) : (s.advance n).mip = s.mip := rfl
@[simp] theorem advance_mtvec (s : State) (n : Word) : (s.advance n).mtvec = s.mtvec := rfl
@[simp] theorem advance_mscratch (s : State) (n : Word) : (s.advance n).mscratch = s.mscratch := rfl
@[simp] theorem advance_mepc (s : State) (n : Word) : (s.advance n).mepc = s.mepc := rfl
@[simp] theorem advance_mcause (s : State) (n : Word) : (s.advance n).mcause = s.mcause := rfl
@[simp] theorem advance_mcycle (s : State) (n : Word) : (s.advance n).mcycle = s.mcycle := rfl
@[simp] theorem advance_mcycleh (s : State) (n : Word) : (s.advance n).mcycleh = s.mcycleh := rfl
@[simp] theorem advance_minstret (s : State) (n : Word) : (s.advance n).minstret = s.minstret := rfl
@[simp] theorem advance_minstreth (s : State) (n : Word) : (s.advance n).minstreth = s.minstreth := rfl
@[simp] theorem advance_mcountinhibit (s : State) (n : Word) : (s.advance n).mcountinhibit = s.mcountinhibit := rfl
@[simp] theorem advance_ram (s : State) (n : Word) : (s.advance n).ram = s.ram := rfl
@[simp] theorem advance_mem (s : State) (n : Word) : (s.advance n).mem = s.mem := rfl
@[simp] theorem advance_freeCount (s : State) (n : Word) : (s.advance n).freeCount = s.freeCount := rfl
@[simp] theorem advance_cfg (s : State) (n : Word) : (s.advance n).cfg = s.cfg := rfl
@[simp] theorem advance_readReg (s : State) (n : Word) (r : Reg) :
    (s.advance n).readReg r = s.readReg r := rfl

@[simp] theorem trapEnter_x (s : State) (c : Word) : (trapEnter c s).x = s.x := rfl
@[simp] theorem trapEnter_pc (s : State) (c : Word) : (trapEnter c s).pc = trapTarget s.mtvec c := rfl
@[simp] theorem trapEnter_priv (s : State) (c : Word) : (trapEnter c s).priv = .M := rfl
@[simp] theorem trapEnter_reserved (s : State) (c : Word) : (trapEnter c s).reserved = s.reserved := rfl
@[simp] theorem trapEnter_pending (s : State) (c : Word) : (trapEnter c s).pending = s.pending := rfl
@[simp] theorem trapEnter_mstatus (s : State) (c : Word) : (trapEnter c s).mstatus = trapStatus s.mstatus s.priv := rfl
@[simp] theorem trapEnter_mie (s : State) (c : Word) : (trapEnter c s).mie = s.mie := rfl
@[simp] theorem trapEnter_mip (s : State) (c : Word) : (trapEnter c s).mip = s.mip := rfl
@[simp] theorem trapEnter_mtvec (s : State) (c : Word) : (trapEnter c s).mtvec = s.mtvec := rfl
@[simp] theorem trapEnter_mscratch (s : State) (c : Word) : (trapEnter c s).mscratch = s.mscratch := rfl
@[simp] theorem trapEnter_mepc (s : State) (c : Word) : (trapEnter c s).mepc = s.pc := rfl
@[simp] theorem trapEnter_mcause (s : State) (c : Word) : (trapEnter c s).mcause = c := rfl
@[simp] theorem trapEnter_mcycle (s : State) (c : Word) : (trapEnter c s).mcycle = s.mcycle := rfl
@[simp] theorem trapEnter_mcycleh (s : State) (c : Word) : (trapEnter c s).mcycleh = s.mcycleh := rfl
@[simp] theorem trapEnter_minstret (s : State) (c : Word) : (trapEnter c s).minstret = s.minstret := rfl
@[simp] theorem trapEnter_minstreth (s : State) (c : Word) : (trapEnter c s).minstreth = s.minstreth := rfl
@[simp] theorem trapEnter_mcountinhibit (s : State) (c : Word) : (trapEnter c s).mcountinhibit = s.mcountinhibit := rfl
@[simp] theorem trapEnter_ram (s : State) (c : Word) : (trapEnter c s).ram = s.ram := rfl
@[simp] theorem trapEnter_mem (s : State) (c : Word) : (trapEnter c s).mem = s.mem := rfl
@[simp] theorem trapEnter_freeCount (s : State) (c : Word) : (trapEnter c s).freeCount = s.freeCount := rfl
@[simp] theorem trapEnter_cfg (s : State) (c : Word) : (trapEnter c s).cfg = s.cfg := rfl
@[simp] theorem trapEnter_readReg (s : State) (c : Word) (r : Reg) :
    (trapEnter c s).readReg r = s.readReg r := rfl

/-! ## `MemPort`: a call only extends the history -/

@[simp] theorem record_reads (p : MemPort) (c : MemCall) : (p.record c).reads = p.reads := rfl
@[simp] theorem record_writes (p : MemPort) (c : MemCall) : (p.record c).writes = p.writes := rfl
@[simp] theorem record_rest (p : MemPort) (c : MemCall) : (p.record c).rest = p.rest := rfl
@[simp] theorem record_calls (p : MemPort) (c : MemCall) : (p.record c).calls = c :: p.calls := rfl
@[simp] theorem memPort_read_snd (p : MemPort) (n : Width) (a : Word) : (p.read n a).2 = p.record (.read n a) := rfl
@[simp] theorem memPort_write_snd (p : MemPort) (n : Width) (a v : Word) :
    (p.write n a v).2 = p.record (.write n a (n.cut v)) := rfl

/-- MEM's functions do not depend on what it has been asked so far, only on the history they are given. -/
@[simp] theorem readAnswer_calls (p : MemPort) (calls before : List MemCall) (n : Width) (a : Word) :
    MemPort.readAnswer { p with calls := calls } before n a = p.readAnswer before n a := rfl
@[simp] theorem writeAnswer_calls (p : MemPort) (calls before : List MemCall) (n : Width) (a v : Word) :
    MemPort.writeAnswer { p with calls := calls } before n a v = p.writeAnswer before n a v := rfl

/-! ## `State.memRead`: only `mem` can change -/

@[simp] theorem memRead_x (s : State) (n : Width) (a : Word) : (s.memRead n a).2.x = s.x := by
  unfold State.memRead; split <;> rfl
@[simp] theorem memRead_pc (s : State) (n : Width) (a : Word) : (s.memRead n a).2.pc = s.pc := by
  unfold State.memRead; split <;> rfl
@[simp] theorem memRead_priv (s : State) (n : Width) (a : Word) : (s.memRead n a).2.priv = s.priv := by
  unfold State.memRead; split <;> rfl
@[simp] theorem memRead_reserved (s : State) (n : Width) (a : Word) : (s.memRead n a).2.reserved = s.reserved := by
  unfold State.memRead; split <;> rfl
@[simp] theorem memRead_pending (s : State) (n : Width) (a : Word) : (s.memRead n a).2.pending = s.pending := by
  unfold State.memRead; split <;> rfl
@[simp] theorem memRead_mstatus (s : State) (n : Width) (a : Word) : (s.memRead n a).2.mstatus = s.mstatus := by
  unfold State.memRead; split <;> rfl
@[simp] theorem memRead_mie (s : State) (n : Width) (a : Word) : (s.memRead n a).2.mie = s.mie := by
  unfold State.memRead; split <;> rfl
@[simp] theorem memRead_mip (s : State) (n : Width) (a : Word) : (s.memRead n a).2.mip = s.mip := by
  unfold State.memRead; split <;> rfl
@[simp] theorem memRead_mtvec (s : State) (n : Width) (a : Word) : (s.memRead n a).2.mtvec = s.mtvec := by
  unfold State.memRead; split <;> rfl
@[simp] theorem memRead_mscratch (s : State) (n : Width) (a : Word) : (s.memRead n a).2.mscratch = s.mscratch := by
  unfold State.memRead; split <;> rfl
@[simp] theorem memRead_mepc (s : State) (n : Width) (a : Word) : (s.memRead n a).2.mepc = s.mepc := by
  unfold State.memRead; split <;> rfl
@[simp] theorem memRead_mcause (s : State) (n : Width) (a : Word) : (s.memRead n a).2.mcause = s.mcause := by
  unfold State.memRead; split <;> rfl
@[simp] theorem memRead_mcycle (s : State) (n : Width) (a : Word) : (s.memRead n a).2.mcycle = s.mcycle := by
  unfold State.memRead; split <;> rfl
@[simp] theorem memRead_mcycleh (s : State) (n : Width) (a : Word) : (s.memRead n a).2.mcycleh = s.mcycleh := by
  unfold State.memRead; split <;> rfl
@[simp] theorem memRead_minstret (s : State) (n : Width) (a : Word) : (s.memRead n a).2.minstret = s.minstret := by
  unfold State.memRead; split <;> rfl
@[simp] theorem memRead_minstreth (s : State) (n : Width) (a : Word) : (s.memRead n a).2.minstreth = s.minstreth := by
  unfold State.memRead; split <;> rfl
@[simp] theorem memRead_mcountinhibit (s : State) (n : Width) (a : Word) : (s.memRead n a).2.mcountinhibit = s.mcountinhibit := by
  unfold State.memRead; split <;> rfl
@[simp] theorem memRead_ram (s : State) (n : Width) (a : Word) : (s.memRead n a).2.ram = s.ram := by
  unfold State.memRead; split <;> rfl
@[simp] theorem memRead_freeCount (s : State) (n : Width) (a : Word) : (s.memRead n a).2.freeCount = s.freeCount := by
  unfold State.memRead; split <;> rfl
@[simp] theorem memRead_cfg (s : State) (n : Width) (a : Word) : (s.memRead n a).2.cfg = s.cfg := by
  unfold State.memRead; split <;> rfl
@[simp] theorem memRead_readReg (s : State) (n : Width) (a : Word) (r : Reg) :
    (s.memRead n a).2.readReg r = s.readReg r := readReg_congr (memRead_x s n a) r

@[simp] theorem memRead_inRam (s : State) (n : Width) (a b : Word) :
    (s.memRead n a).2.inRam b = s.inRam b := by simp [State.inRam]

/-- A read changes nothing but what MEM has been asked. -/
theorem memRead_eq (s : State) (n : Width) (a : Word) : ∃ mem, (s.memRead n a).2 = { s with mem := mem } := by
  unfold State.memRead; split <;> exact ⟨_, rfl⟩

/-! ## `State.csrStore` and `csrStep`: what is no CSR is kept -/

@[simp] theorem csrStore_x (s : State) (c : Csr) (v : Word) : (s.csrStore c v).x = s.x := by
  cases c <;> rfl
@[simp] theorem csrStore_pc (s : State) (c : Csr) (v : Word) : (s.csrStore c v).pc = s.pc := by
  cases c <;> rfl
@[simp] theorem csrStore_priv (s : State) (c : Csr) (v : Word) : (s.csrStore c v).priv = s.priv := by
  cases c <;> rfl
@[simp] theorem csrStore_reserved (s : State) (c : Csr) (v : Word) : (s.csrStore c v).reserved = s.reserved := by
  cases c <;> rfl
@[simp] theorem csrStore_pending (s : State) (c : Csr) (v : Word) : (s.csrStore c v).pending = s.pending := by
  cases c <;> rfl
@[simp] theorem csrStore_ram (s : State) (c : Csr) (v : Word) : (s.csrStore c v).ram = s.ram := by
  cases c <;> rfl
@[simp] theorem csrStore_mem (s : State) (c : Csr) (v : Word) : (s.csrStore c v).mem = s.mem := by
  cases c <;> rfl
@[simp] theorem csrStore_freeCount (s : State) (c : Csr) (v : Word) : (s.csrStore c v).freeCount = s.freeCount := by
  cases c <;> rfl
@[simp] theorem csrStore_cfg (s : State) (c : Csr) (v : Word) : (s.csrStore c v).cfg = s.cfg := by
  cases c <;> rfl
@[simp] theorem csrStore_readReg (s : State) (c : Csr) (v : Word) (r : Reg) :
    (s.csrStore c v).readReg r = s.readReg r := readReg_congr (csrStore_x s c v) r

@[simp] theorem applyPending_x (s : State) : (applyPending s).x = s.x := by
  unfold applyPending; (repeat' split) <;> simp
@[simp] theorem applyPending_pc (s : State) : (applyPending s).pc = s.pc := by
  unfold applyPending; (repeat' split) <;> simp
@[simp] theorem applyPending_priv (s : State) : (applyPending s).priv = s.priv := by
  unfold applyPending; (repeat' split) <;> simp
@[simp] theorem applyPending_reserved (s : State) : (applyPending s).reserved = s.reserved := by
  unfold applyPending; (repeat' split) <;> simp
@[simp] theorem applyPending_ram (s : State) : (applyPending s).ram = s.ram := by
  unfold applyPending; (repeat' split) <;> simp
@[simp] theorem applyPending_mem (s : State) : (applyPending s).mem = s.mem := by
  unfold applyPending; (repeat' split) <;> simp
@[simp] theorem applyPending_freeCount (s : State) : (applyPending s).freeCount = s.freeCount := by
  unfold applyPending; (repeat' split) <;> simp
@[simp] theorem applyPending_cfg (s : State) : (applyPending s).cfg = s.cfg := by
  unfold applyPending; (repeat' split) <;> simp
@[simp] theorem csrStep_x (s : State) : (csrStep s).x = s.x := by
  simp [csrStep, countersStep]
@[simp] theorem csrStep_pc (s : State) : (csrStep s).pc = s.pc := by
  simp [csrStep, countersStep]
@[simp] theorem csrStep_priv (s : State) : (csrStep s).priv = s.priv := by
  simp [csrStep, countersStep]
@[simp] theorem csrStep_reserved (s : State) : (csrStep s).reserved = s.reserved := by
  simp [csrStep, countersStep]
@[simp] theorem csrStep_ram (s : State) : (csrStep s).ram = s.ram := by
  simp [csrStep, countersStep]
@[simp] theorem csrStep_mem (s : State) : (csrStep s).mem = s.mem := by
  simp [csrStep, countersStep]
@[simp] theorem csrStep_freeCount (s : State) : (csrStep s).freeCount = s.freeCount := by
  simp [csrStep, countersStep]
@[simp] theorem csrStep_cfg (s : State) : (csrStep s).cfg = s.cfg := by
  simp [csrStep, countersStep]
@[simp] theorem csrStep_pending (s : State) : (csrStep s).pending = none := rfl

@[simp] theorem csrStep_readReg (s : State) (r : Reg) : (csrStep s).readReg r = s.readReg r :=
  readReg_congr (csrStep_x s) r

end Sys2Proof.Machine
end

