-- ==== Sys2Proof/Laws/Memory.lean ====
section
/-!
SUPPORT. The laws of memory: a byte reads back as it was written, every other byte is kept, and every operation keeps the
canonical form and the window.
-/

namespace Sys2Proof.Machine

/-! ## One byte -/

theorem Memory.above_trans {lo mid : Nat} {m : Memory} (h : lo ≤ mid) (hm : m.above mid = true) :
    m.above lo = true := by
  induction m with
  | nil => rfl
  | cons p m ih =>
    obtain ⟨k, v⟩ := p
    simp only [Memory.above, Bool.and_eq_true, decide_eq_true_eq] at hm ⊢
    exact ⟨by omega, ih hm.2⟩

/-- An address at or below every listed one reads as unlisted. -/
theorem Memory.read_of_above {lo a : Nat} {m : Memory} (hm : m.above lo = true) (h : a ≤ lo) :
    m.read a = Memory.unlisted := by
  induction m with
  | nil => rfl
  | cons p m ih =>
    obtain ⟨k, v⟩ := p
    simp only [Memory.above, Bool.and_eq_true, decide_eq_true_eq] at hm
    simp only [Memory.read, if_neg (show k ≠ a by omega), ih hm.2]

theorem Memory.read_put_ne {a b : Nat} (v : Byte) (m : Memory) (h : b ≠ a) :
    (Memory.put a v m).read b = m.read b := by
  unfold Memory.put
  split
  · rfl
  · simp only [Memory.read, if_neg (Ne.symm h)]

theorem Memory.read_put_self {a : Nat} {v : Byte} {m : Memory} (h : m.above a = true) :
    (Memory.put a v m).read a = v := by
  unfold Memory.put
  split
  · next hv => rw [Memory.read_of_above h (Nat.le_refl a), hv]
  · simp only [Memory.read, if_true]

/-- A write leaves every other byte alone, whatever form the memory has. -/
theorem Memory.read_write_ne (m : Memory) {a b : Nat} (v : Byte) (h : b ≠ a) :
    (m.write a v).read b = m.read b := by
  induction m with
  | nil => exact Memory.read_put_ne v [] h
  | cons p m ih =>
    obtain ⟨k, u⟩ := p
    simp only [Memory.write]
    split
    · exact Memory.read_put_ne v _ h
    · split
      · next hk =>
        subst hk
        rw [Memory.read_put_ne v m h]
        simp only [Memory.read, if_neg (Ne.symm h)]
      · simp only [Memory.read, ih]

/-- A byte reads back as it was written, in a memory of canonical form. -/
theorem Memory.read_write_self (m : Memory) (a : Nat) (v : Byte) (hm : m.wf = true) :
    (m.write a v).read a = v := by
  induction m with
  | nil => exact Memory.read_put_self rfl
  | cons p m ih =>
    obtain ⟨k, u⟩ := p
    simp only [Memory.wf, Bool.and_eq_true] at hm
    simp only [Memory.write]
    split
    · next hk =>
      refine Memory.read_put_self ?_
      simp only [Memory.above, Bool.and_eq_true, decide_eq_true_eq]
      exact ⟨hk, Memory.above_trans (Nat.le_of_lt hk) hm.1.2⟩
    · split
      · next hk => exact Memory.read_put_self (hk ▸ hm.1.2)
      · next hk =>
        simp only [Memory.read, if_neg (Ne.symm hk)]
        exact ih hm.2

/-- Read after write, in one equation. -/
theorem Memory.read_write (m : Memory) (a b : Nat) (v : Byte) (hm : m.wf = true) :
    (m.write a v).read b = if b = a then v else m.read b := by
  split
  · next h => rw [h, Memory.read_write_self m a v hm]
  · next h => exact Memory.read_write_ne m v h

theorem Memory.above_put {lo a : Nat} {v : Byte} {m : Memory} (ha : lo < a) (hm : m.above lo = true) :
    (Memory.put a v m).above lo = true := by
  unfold Memory.put
  split
  · exact hm
  · simp only [Memory.above, Bool.and_eq_true, decide_eq_true_eq]
    exact ⟨ha, hm⟩

theorem Memory.above_write {lo a : Nat} {v : Byte} {m : Memory} (ha : lo < a) (hm : m.above lo = true) :
    (m.write a v).above lo = true := by
  induction m with
  | nil => exact Memory.above_put ha rfl
  | cons p m ih =>
    obtain ⟨k, u⟩ := p
    have hm' := hm
    simp only [Memory.above, Bool.and_eq_true, decide_eq_true_eq] at hm
    simp only [Memory.write]
    split
    · exact Memory.above_put ha hm'
    · split
      · exact Memory.above_put ha hm.2
      · simp only [Memory.above, Bool.and_eq_true, decide_eq_true_eq]
        exact ⟨hm.1, ih hm.2⟩

theorem Memory.wf_put {a : Nat} {v : Byte} {m : Memory} (hm : m.wf = true) (ha : m.above a = true) :
    (Memory.put a v m).wf = true := by
  unfold Memory.put
  split
  · exact hm
  · next hv =>
    simp only [Memory.wf, Bool.and_eq_true, bne_iff_ne]
    exact ⟨⟨hv, ha⟩, hm⟩

/-- A write keeps the canonical form. -/
theorem Memory.wf_write (m : Memory) (a : Nat) (v : Byte) (hm : m.wf = true) : (m.write a v).wf = true := by
  induction m with
  | nil => exact Memory.wf_put rfl rfl
  | cons p m ih =>
    obtain ⟨k, u⟩ := p
    have hm' := hm
    simp only [Memory.wf, Bool.and_eq_true, bne_iff_ne] at hm
    simp only [Memory.write]
    split
    · next hk =>
      refine Memory.wf_put hm' ?_
      simp only [Memory.above, Bool.and_eq_true, decide_eq_true_eq]
      exact ⟨hk, Memory.above_trans (Nat.le_of_lt hk) hm.1.2⟩
    · split
      · next hk => exact Memory.wf_put hm.2 (hk ▸ hm.1.2)
      · next hk hk' =>
        simp only [Memory.wf, Bool.and_eq_true, bne_iff_ne]
        exact ⟨⟨hm.1.1, Memory.above_write (by omega) hm.1.2⟩, ih hm.2⟩

/-- A write inside the window keeps every listed address inside it. -/
theorem Memory.within_write (m : Memory) (lo size a : Nat) (v : Byte) (ha : lo ≤ a ∧ a < lo + size)
    (hm : m.within lo size = true) : (m.write a v).within lo size = true := by
  have hput (m : Memory) (hm : m.within lo size = true) : (Memory.put a v m).within lo size = true := by
    unfold Memory.put
    split
    · exact hm
    · simp only [Memory.within, List.all_cons, Bool.and_eq_true, decide_eq_true_eq] at hm ⊢
      exact ⟨ha, hm⟩
  induction m with
  | nil => exact hput [] rfl
  | cons p m ih =>
    obtain ⟨k, u⟩ := p
    have hm' := hm
    simp only [Memory.within, List.all_cons, Bool.and_eq_true] at hm
    simp only [Memory.write]
    split
    · exact hput _ hm'
    · split
      · exact hput m hm.2
      · simp only [Memory.within, List.all_cons, Bool.and_eq_true]
        exact ⟨hm.1, ih hm.2⟩

/-! ## Halfwords and words -/

/-- A write of `n` bytes leaves every other byte alone. -/
theorem ramWrite_read_ne (m : Memory) (n : Width) (a b : Nat) (v : Word) (h : b < a ∨ a + n.bytes ≤ b) :
    (ramWrite m n a v).read b = m.read b := by
  cases n <;> simp only [Width.bytes] at h <;> simp only [ramWrite] <;>
    repeat rw [Memory.read_write_ne _ _ (by omega)]

/-- Byte number `k` of what was written. -/
theorem ramWrite_read (m : Memory) (n : Width) (a k : Nat) (v : Word) (hm : m.wf = true) (hk : k < n.bytes) :
    (ramWrite m n a v).read (a + k) = v.extractLsb' (8 * k) 8 := by
  cases n with
  | byte =>
    obtain rfl : k = 0 := by simpa [Width.bytes] using hk
    exact Memory.read_write_self m a _ hm
  | half =>
    have h1 := Memory.wf_write m a (v.extractLsb' 0 8) hm
    have : k = 0 ∨ k = 1 := by simp only [Width.bytes] at hk; omega
    rcases this with rfl | rfl <;> simp [ramWrite, Memory.read_write, hm, h1]
  | word =>
    have h1 := Memory.wf_write m a (v.extractLsb' 0 8) hm
    have h2 := Memory.wf_write _ (a + 1) (v.extractLsb' 8 8) h1
    have h3 := Memory.wf_write _ (a + 2) (v.extractLsb' 16 8) h2
    have : k = 0 ∨ k = 1 ∨ k = 2 ∨ k = 3 := by simp only [Width.bytes] at hk; omega
    rcases this with rfl | rfl | rfl | rfl <;> simp [ramWrite, Memory.read_write, hm, h1, h2, h3]

/-- A write keeps the canonical form. -/
theorem ramWrite_wf (m : Memory) (n : Width) (a : Nat) (v : Word) (hm : m.wf = true) :
    (ramWrite m n a v).wf = true := by
  cases n <;> simp only [ramWrite] <;> repeat' apply Memory.wf_write
  all_goals exact hm

/-- A write inside the window keeps the window. -/
theorem ramWrite_within (m : Memory) (n : Width) (lo size a : Nat) (v : Word)
    (ha : lo ≤ a ∧ a + n.bytes ≤ lo + size) (hm : m.within lo size = true) :
    (ramWrite m n a v).within lo size = true := by
  cases n <;> simp only [Width.bytes] at ha <;> simp only [ramWrite] <;>
    repeat' (first | exact hm | refine Memory.within_write _ lo size _ _ (by omega) ?_)

/-- A read depends on the bytes it reads alone. -/
theorem ramRead_congr {m m' : Memory} (n : Width) (a : Nat)
    (h : ∀ k < n.bytes, m'.read (a + k) = m.read (a + k)) : ramRead m' n a = ramRead m n a := by
  cases n with
  | byte => simp only [ramRead, show m'.read a = m.read a from h 0 (by decide)]
  | half =>
    simp only [ramRead, show m'.read a = m.read a from h 0 (by decide), h 1 (by decide)]
  | word =>
    simp only [ramRead, show m'.read a = m.read a from h 0 (by decide), h 1 (by decide), h 2 (by decide),
      h 3 (by decide)]

/-- What was written reads back, cut to its width. -/
theorem ramRead_ramWrite (m : Memory) (n : Width) (a : Nat) (v : Word) (hm : m.wf = true) :
    ramRead (ramWrite m n a v) n a = n.cut v := by
  have key := fun k hk => ramWrite_read m n a k v hm hk
  cases n with
  | byte =>
    have h0 := key 0 (by decide)
    simp only [Nat.add_zero, Nat.mul_zero] at h0
    simp only [ramRead, h0, Width.cut]
  | half =>
    have h0 := key 0 (by decide)
    have h1 := key 1 (by decide)
    simp only [Nat.add_zero, Nat.mul_zero, Nat.mul_one] at h0 h1
    simp only [ramRead, h0, h1, Width.cut]
    ext i hi
    simp only [BitVec.getElem_setWidth, BitVec.getLsbD_append, BitVec.getLsbD_extractLsb']
    grind
  | word =>
    have h0 := key 0 (by decide)
    have h1 := key 1 (by decide)
    have h2 := key 2 (by decide)
    have h3 := key 3 (by decide)
    simp only [Nat.add_zero, Nat.mul_zero, Nat.mul_one] at h0 h1
    simp only [ramRead, h0, h1, h2, h3, Width.cut]
    ext i hi
    simp only [← BitVec.getLsbD_eq_getElem, BitVec.getLsbD_append, BitVec.getLsbD_extractLsb']
    grind

/-- A read elsewhere is unchanged by a write. -/
theorem ramRead_ramWrite_ne (m : Memory) (n n' : Width) (a b : Nat) (v : Word)
    (h : b + n'.bytes ≤ a ∨ a + n.bytes ≤ b) : ramRead (ramWrite m n a v) n' b = ramRead m n' b :=
  ramRead_congr n' b fun k hk => ramWrite_read_ne m n a (b + k) v (by omega)

end Sys2Proof.Machine
end

