-- ==== Sys2Proof/Laws/Ops.lean ====
section
/-!
SUPPORT. One lemma per shared operation that says what it can answer, for later proofs to cite.
-/

namespace Sys2Proof.Machine

/-! ## Addresses -/

theorem Width.aligned_iff (n : Width) (a : Word) : n.aligned a = true ↔ a.toNat % n.bytes = 0 := by
  cases n with
  | byte => simp [Width.aligned, Width.bytes, Nat.mod_one]
  | half =>
    simp only [Width.aligned, Width.bytes, beq_iff_eq, ← BitVec.toNat_inj, BitVec.extractLsb'_toNat]
    simp
  | word =>
    simp only [Width.aligned, Width.bytes, beq_iff_eq, ← BitVec.toNat_inj, BitVec.extractLsb'_toNat]
    simp

theorem State.inRam_iff (s : State) (a : Word) :
    s.inRam a = true ↔ s.cfg.ramBase.toNat ≤ a.toNat ∧ a.toNat < s.cfg.ramBase.toNat + s.cfg.ramSize := by
  simp [State.inRam]

/-- The constraints of R8, as facts. -/
theorem Config.wf_iff (c : Config) : c.wf = true ↔
    c.resetVector.getLsbD 0 = false ∧ c.ramBase.toNat % 4 = 0 ∧ c.ramSize % 4 = 0
      ∧ c.ramBase.toNat + c.ramSize ≤ 2 ^ 32 := by
  simp [Config.wf, and_assoc]

/-- An aligned access that starts in the window ends in it (R85). -/
theorem State.inRam_end (s : State) (n : Width) (a : Word) (hc : s.cfg.wf = true) (ha : a.toNat % n.bytes = 0)
    (h : s.inRam a = true) :
    s.cfg.ramBase.toNat ≤ a.toNat ∧ a.toNat + n.bytes ≤ s.cfg.ramBase.toNat + s.cfg.ramSize := by
  rw [State.inRam_iff] at h
  rw [Config.wf_iff] at hc
  cases n <;> simp only [Width.bytes] at ha ⊢ <;> omega

/-! ## Memory access -/

theorem State.memRead_inside {s : State} {a : Word} (n : Width) (h : s.inRam a = true) :
    s.memRead n a = (some (ramRead s.ram n a.toNat), s) := by
  rw [State.memRead, if_pos h]

theorem State.memRead_outside {s : State} {a : Word} (n : Width) (h : s.inRam a = false) :
    s.memRead n a = ((s.mem.read n a).1, { s with mem := (s.mem.read n a).2 }) := by
  rw [State.memRead, if_neg (by simp [h])]

theorem State.memWrite_inside {s : State} {a : Word} (n : Width) (v : Word) (h : s.inRam a = true) :
    s.memWrite n a v = .ok { s with ram := ramWrite s.ram n a.toNat v } := by
  rw [State.memWrite, if_pos h]

/-- Every answer of a write: inside the window the bytes are stored; outside, MEM has been asked once and nothing else is
changed. -/
theorem State.memWrite_cases (s : State) (n : Width) (a v : Word) :
    (s.inRam a = true ∧ s.memWrite n a v = .ok { s with ram := ramWrite s.ram n a.toNat v })
    ∨ (s.inRam a = false ∧
      let u : State := { s with mem := (s.mem.write n a v).2 }
      ((s.mem.write n a v).1 = .ok ∧ s.memWrite n a v = .ok u
        ∨ (s.mem.write n a v).1 = .fail ∧ s.memWrite n a v = .fail u
        ∨ ∃ code, (s.mem.write n a v).1 = .halt code ∧ s.memWrite n a v = .halt code u)) := by
  by_cases h : s.inRam a = true
  · exact .inl ⟨h, s.memWrite_inside n v h⟩
  · refine .inr ⟨by simpa using h, ?_⟩
    simp only [State.memWrite, if_neg h]
    cases h' : (s.mem.write n a v).1 with
    | ok => exact .inl ⟨rfl, rfl⟩
    | fail => exact .inr (.inl ⟨rfl, rfl⟩)
    | halt code => exact .inr (.inr ⟨code, rfl, rfl⟩)

/-- A listed answer is the answer (log entry 5). -/
theorem MemPort.readAnswer_listed {p : MemPort} {before : List MemCall} {n : Width} {a : Word} {r : Option Word}
    (h : p.reads.lookup (.read n a :: before) = some r) : p.readAnswer before n a = r := by
  rw [MemPort.readAnswer, h]

theorem MemPort.writeAnswer_listed {p : MemPort} {before : List MemCall} {n : Width} {a v : Word} {r : WriteReply}
    (h : p.writes.lookup (.write n a v :: before) = some r) : p.writeAnswer before n a v = r := by
  rw [MemPort.writeAnswer, h]

/-- An answer that is not listed is the free function's where MEM is free (log entry 5). -/
theorem MemPort.readAnswer_free {p : MemPort} {before : List MemCall} {n : Width} {a : Word} {k : Nat}
    (h : p.reads.lookup (.read n a :: before) = none) (hk : p.rest = .free k) :
    p.readAnswer before n a = Config.memRead k n a before := by
  rw [MemPort.readAnswer, h, hk]

theorem MemPort.writeAnswer_free {p : MemPort} {before : List MemCall} {n : Width} {a v : Word} {k : Nat}
    (h : p.writes.lookup (.write n a v :: before) = none) (hk : p.rest = .free k) :
    p.writeAnswer before n a v = Config.memWrite k n a v before := by
  rw [MemPort.writeAnswer, h, hk]

/-! ## Trap entry and MRET -/

/-- No cause of the block is an interrupt, so every trap goes to the base (R500). -/
theorem trapTarget_code (m : Word) (c : Cause) : trapTarget m c.code = clearBit0 m := by
  have : c.code.getLsbD 31 = false := by cases c <;> decide
  simp only [trapTarget, this, Bool.and_false, Bool.false_eq_true, if_false]

/-- `mstatus` after trap entry, bit by bit (R490). -/
theorem trapStatus_getLsbD (m : Word) (p : Priv) (i : Nat) (hi : i < 32) :
    (trapStatus m p).getLsbD i = if i = 3 then false
      else if i = 7 then m.getLsbD 7 || m.getLsbD 3
      else if i = 11 ∨ i = 12 then p == .M
      else m.getLsbD i := by
  have h1 : ∀ i < 32, (~~~0x1800#32).getLsbD i = !(i == 11 || i == 12) := by decide
  have h2 : ∀ i < 32, (~~~0x8#32).getLsbD i = !(i == 3) := by decide
  have h3 : ∀ i < 32, (0x80#32).getLsbD i = (i == 7) := by decide
  have h4 : ∀ p : Priv, ∀ i < 32, (p.code.setWidth 32 <<< 11 : Word).getLsbD i
      = ((i == 11 || i == 12) && p == .M) := by intro p; cases p <;> decide
  have h5 : ((m &&& ~~~0x1800#32) ||| (p.code.setWidth 32 <<< 11)).getLsbD 3 = m.getLsbD 3 := by
    rw [BitVec.getLsbD_or, BitVec.getLsbD_and, h1 3 (by decide), h4 p 3 (by decide)]; simp
  simp only [trapStatus, h5]
  cases m.getLsbD 3 <;>
    simp only [Bool.false_eq_true, if_true, if_false, BitVec.getLsbD_or, BitVec.getLsbD_and, h1 i hi, h2 i hi, h3 i hi,
      h4 p i hi] <;> grind

/-- `mstatus` after MRET, bit by bit (R495). -/
theorem mretStatus_getLsbD (m : Word) (i : Nat) (hi : i < 32) :
    (mretStatus m).getLsbD i = if i = 3 then m.getLsbD 3 || m.getLsbD 7
      else if i = 7 then false else m.getLsbD i := by
  have h2 : ∀ i < 32, (~~~0x80#32).getLsbD i = !(i == 7) := by decide
  have h3 : ∀ i < 32, (0x8#32).getLsbD i = (i == 3) := by decide
  simp only [mretStatus]
  cases h : m.getLsbD 7 <;>
    simp only [Bool.false_eq_true, if_true, if_false, BitVec.getLsbD_or, BitVec.getLsbD_and, h2 i hi, h3 i hi] <;> grind

/-- MPP after trap entry is the privilege before it (R490). -/
theorem trapStatus_mpp (m : Word) (p : Priv) : (trapStatus m p).extractLsb' 11 2 = p.code := by
  have h := trapStatus_getLsbD m p
  ext i hi
  have : i = 0 ∨ i = 1 := by omega
  rw [← BitVec.getLsbD_eq_getElem, BitVec.getLsbD_extractLsb']
  rcases this with rfl | rfl <;> rw [h _ (by decide)] <;> cases p <;> simp [Priv.code]

/-! ## The shared shapes of instructions -/

/-- A load answers in one of three ways (R301). -/
theorem loadOp_cases (ilen : Word) (n : Width) (ext : Word → Word) (rd : Reg) (a : Word) (s : State) :
    (n.aligned a = false ∧ loadOp ilen n ext rd a s = raise .loadAlign s)
    ∨ (n.aligned a = true ∧ (s.memRead n a).1 = none
      ∧ loadOp ilen n ext rd a s = raise .loadFault (s.memRead n a).2)
    ∨ (n.aligned a = true ∧ ∃ v, (s.memRead n a).1 = some v
      ∧ loadOp ilen n ext rd a s = commitRd ilen rd (ext v) (s.memRead n a).2) := by
  unfold loadOp
  by_cases h : n.aligned a = true
  · cases h' : (s.memRead n a).1 with
    | none => exact .inr (.inl ⟨h, rfl, by simp [h]⟩)
    | some v => exact .inr (.inr ⟨h, v, rfl, by simp [h]⟩)
  · exact .inl ⟨by simpa using h, by simp [h]⟩

/-- A store answers in one of four ways (R302). -/
theorem storeOp_cases (ilen : Word) (n : Width) (a v : Word) (s : State) :
    (n.aligned a = false ∧ storeOp ilen n a v s = raise .storeAlign s)
    ∨ (n.aligned a = true ∧ ∃ u, s.memWrite n a v = .ok u ∧ storeOp ilen n a v s = .next (u.advance ilen))
    ∨ (n.aligned a = true ∧ ∃ u, s.memWrite n a v = .fail u ∧ storeOp ilen n a v s = raise .storeFault u)
    ∨ (n.aligned a = true ∧ ∃ code u, s.memWrite n a v = .halt code u
      ∧ storeOp ilen n a v s = .fault (.hostHalt code u)) := by
  unfold storeOp afterWrite
  by_cases h : n.aligned a = true
  · cases h' : s.memWrite n a v with
    | ok u => exact .inr (.inl ⟨h, u, rfl, by simp [h]⟩)
    | fail u => exact .inr (.inr (.inl ⟨h, u, rfl, by simp [h]⟩))
    | halt code u => exact .inr (.inr (.inr ⟨h, code, u, rfl, by simp [h]⟩))
  · exact .inl ⟨by simpa using h, by simp [h]⟩

/-- An AMO answers in one of five ways (R327). -/
theorem amoOp_cases (f : Word → Word → Word) (rd rs1 rs2 : Reg) (s : State) :
    let a := s.readReg rs1
    let m := s.memRead .word a
    (Width.word.aligned a = false ∧ amoOp f rd rs1 rs2 s = raise .storeAlign s)
    ∨ (Width.word.aligned a = true ∧ m.1 = none ∧ amoOp f rd rs1 rs2 s = raise .storeFault m.2)
    ∨ (Width.word.aligned a = true ∧ ∃ old, m.1 = some old ∧
      ((∃ u, m.2.memWrite .word a (f old (s.readReg rs2)) = .ok u
          ∧ amoOp f rd rs1 rs2 s = commitRd ilen32 rd old u)
        ∨ (∃ u, m.2.memWrite .word a (f old (s.readReg rs2)) = .fail u
          ∧ amoOp f rd rs1 rs2 s = raise .storeFault u)
        ∨ ∃ code u, m.2.memWrite .word a (f old (s.readReg rs2)) = .halt code u
          ∧ amoOp f rd rs1 rs2 s = .fault (.hostHalt code u))) := by
  intro a m
  unfold amoOp afterWrite
  by_cases h : Width.word.aligned a = true
  · cases hm : m.1 with
    | none => exact .inr (.inl ⟨h, rfl, by simp [a, m] at h hm ⊢; simp [h, hm]⟩)
    | some old =>
      refine .inr (.inr ⟨h, old, rfl, ?_⟩)
      cases hw : m.2.memWrite .word a (f old (s.readReg rs2)) with
      | ok u => exact .inl ⟨u, rfl, by simp [a, m] at h hm hw ⊢; simp [h, hm, hw]⟩
      | fail u => exact .inr (.inl ⟨u, rfl, by simp [a, m] at h hm hw ⊢; simp [h, hm, hw]⟩)
      | halt c u => exact .inr (.inr ⟨c, u, rfl, by simp [a, m] at h hm hw ⊢; simp [h, hm, hw]⟩)
  · exact .inl ⟨by simpa using h, by simp [a] at h ⊢; simp [h]⟩

/-! ## CSRs -/

theorem csrAt_addr {a : CsrAddr} {c : Csr} (h : csrAt a = some c) : c.addr = a := by
  simpa using List.find?_some h

@[simp] theorem csrAt_of_addr (c : Csr) : csrAt c.addr = some c := by cases c <;> decide

/-- Every CSR that exists needs M-mode (R41, R506). -/
theorem csrGate_user {a : CsrAddr} {c : Csr} (h : csrAt a = some c) : csrGate a .U = false := by
  rw [← csrAt_addr h]; cases c <;> decide

theorem csrGate_machine (a : CsrAddr) : csrGate a .M = true := by
  have := (a.extractLsb' 8 2).isLt
  exact decide_eq_true (by simp only [Priv.code]; change _ ≤ 3; omega)

/-- In U-mode no CSR can be read (R359). -/
theorem State.csrRead_user {s : State} {a : CsrAddr} (h : s.priv = .U) : s.csrRead a = none := by
  unfold State.csrRead
  rw [h]
  cases hc : csrAt a with
  | none => simp
  | some c => simp [csrGate_user hc]

/-- In U-mode no CSR can be written (R359). -/
theorem State.csrWrite_user {s : State} {a : CsrAddr} {data : Word} {op : CsrOp} (h : s.priv = .U) :
    s.csrWrite a data op = none := by
  unfold State.csrWrite csrWritable
  rw [h]
  cases hc : csrAt a with
  | none => simp
  | some c => simp [csrGate_user hc]

/-- What a CSR write stages, when it does not fail (R51): the pending slot is filled, and nothing else changes. -/
theorem State.csrWrite_some {s u : State} {a : CsrAddr} {data : Word} {op : CsrOp}
    (h : s.csrWrite a data op = some u) : ∃ v, u = { s with pending := some (a, v) } := by
  unfold State.csrWrite at h
  split at h
  · split at h <;> cases h <;> exact ⟨_, rfl⟩
  · cases h

/-- A CSR instruction traps with nothing done, or stages its write if it is one that writes, writes `x[rd]` if it has read,
and goes on (R351). -/
theorem csrInstr_cases (op : CsrOp) (imm : Bool) (rd : Reg) (a : CsrAddr) (src : Word) (field : BitVec 5)
    (s : State) :
    csrInstr op imm rd a src field s = raise .instrIllegal s
    ∨ ∃ u, (u = s ∨ (op = .write ∨ field ≠ 0) ∧ s.csrWrite a src op = some u)
      ∧ (csrInstr op imm rd a src field s = .next (u.advance ilen32)
        ∨ ∃ old, s.csrRead a = some old ∧ csrInstr op imm rd a src field s = commitRd ilen32 rd old u) := by
  unfold csrInstr
  extract_lets doRead doWrite v silent
  have hv : ∀ old, v = some old → s.csrRead a = some old := by
    intro old h
    by_cases hd : doRead = true
    · simpa [v, hd] using h
    · simp [v, hd] at h
  clear_value v
  have hw : ∀ u, (if doWrite = true then s.csrWrite a src op else some s) = some u →
      u = s ∨ (op = .write ∨ field ≠ 0) ∧ s.csrWrite a src op = some u := by
    intro u h
    by_cases hd : doWrite = true
    · refine .inr ⟨?_, by simpa [hd] using h⟩
      simpa [doWrite, Decidable.imp_iff_not_or] using hd
    · exact .inl (by simpa [hd] using h.symm)
  by_cases h : (doRead && v.isNone && !silent) = true
  · exact .inl (if_pos h)
  · rw [if_neg h]
    cases hu : (if doWrite = true then s.csrWrite a src op else some s) with
    | none => exact .inl rfl
    | some u =>
      refine .inr ⟨u, hw u hu, ?_⟩
      cases v with
      | none => exact .inl rfl
      | some old => exact .inr ⟨old, hv old rfl, rfl⟩

/-- In M-mode every CSR can be read (R50). -/
theorem State.csrRead_machine {s : State} (h : s.priv = .M) (r : Csr) : s.csrRead r.addr = some (s.csrValue r) := by
  rw [State.csrRead, h, csrGate_machine, if_pos rfl, csrAt_of_addr]
  rfl

/-- In M-mode a write to a writable CSR stages the new value (R51). -/
theorem State.csrWrite_machine {s : State} (h : s.priv = .M) {r : Csr} {m : Word} (hm : r.writeMask = some m)
    (data : Word) (op : CsrOp) :
    s.csrWrite r.addr data op = some { s with pending := some (r.addr, op.apply (s.csrValue r) data) } := by
  have hw : csrWritable r.addr = true := by simp [csrWritable, hm]
  have hg : csrGate r.addr s.priv = true := by rw [h, csrGate_machine]
  unfold State.csrWrite
  simp only [hw, hg, State.csrRead_machine h, Bool.and_self, if_true]
  cases op <;> rfl

/-- A CSR instruction that writes a writable CSR in M-mode stages the new value, and `x[rd]` takes the old one (R351). -/
theorem csrInstr_machine {s : State} (h : s.priv = .M) {r : Csr} {m : Word} (hm : r.writeMask = some m)
    {op : CsrOp} {field : BitVec 5} (hf : op = .write ∨ field ≠ 0) (imm : Bool) (rd : Reg) (src : Word) :
    csrInstr op imm rd r.addr src field s = .next (({ s with
      pending := some (r.addr, op.apply (s.csrValue r) src) }.writeReg rd (s.csrValue r)).advance ilen32) := by
  have hw : (!(op != .write && field == 0)) = true := by cases op <;> simp_all
  unfold csrInstr
  simp only [hw, if_true, s.csrWrite_machine h hm, s.csrRead_machine h]
  by_cases hr : (!(op == .write && rd == 0)) = true
  · simp only [hr, if_true]
    rfl
  · obtain ⟨-, rfl⟩ : op = .write ∧ rd = 0 := by simpa using hr
    simp only [hr]
    rfl

/-! ## The end of a step -/

/-- A counter after a step, as a number (R59). -/
theorem nextCount_toNat (inhibit : Bool) (hi lo : Word) : (nextCount inhibit hi lo).toNat
    = (hi.toNat * 2 ^ 32 + lo.toNat + if inhibit then 0 else 1) % 2 ^ 64 := by
  have h : (hi ++ lo : BitVec 64).toNat = hi.toNat * 2 ^ 32 + lo.toNat := by
    rw [BitVec.toNat_append, ← Nat.shiftLeft_add_eq_or_of_lt lo.isLt, Nat.shiftLeft_eq]
  have := (hi ++ lo : BitVec 64).isLt
  cases inhibit <;> simp [nextCount, BitVec.toNat_add, h]; omega

/-- The halves of a counter after a step: the high one takes the carry, the low one the increment (R59). -/
theorem nextCount_hi (inhibit : Bool) (hi lo : Word) : (nextCount inhibit hi lo).extractLsb' 32 32
    = hi + if inhibit = false ∧ lo = 0xFFFFFFFF#32 then 1 else 0 := by
  have := hi.isLt
  have := lo.isLt
  apply BitVec.eq_of_toNat_eq
  rw [BitVec.extractLsb'_toNat, nextCount_toNat, Nat.shiftRight_eq_div_pow]
  simp only [← BitVec.toNat_inj (y := 0xFFFFFFFF#32)]
  cases inhibit <;> simp <;> (try split) <;> (try simp) <;> omega

theorem nextCount_lo (inhibit : Bool) (hi lo : Word) :
    (nextCount inhibit hi lo).extractLsb' 0 32 = lo + if inhibit then 0 else 1 := by
  have := lo.isLt
  apply BitVec.eq_of_toNat_eq
  rw [BitVec.extractLsb'_toNat, nextCount_toNat, Nat.shiftRight_eq_div_pow]
  cases inhibit <;> simp <;> omega

/-- A pending write that is applied leaves its CSR at the staged value under its mask (R59). -/
theorem csrStep_written {s : State} {r : Csr} {m v : Word} (hm : r.writeMask = some m)
    (hp : s.pending = some (r.addr, v)) :
    csrStep s = { (countersStep s).csrStore r (v &&& m) with pending := none }
      ∧ (csrStep s).csrValue r = v &&& m := by
  have h : csrStep s = { (countersStep s).csrStore r (v &&& m) with pending := none } := by
    rw [csrStep, applyPending, show (countersStep s).pending = some (r.addr, v) from hp]
    simp only [csrAt_of_addr, hm]
  refine ⟨h, ?_⟩
  rw [h]
  cases r <;> cases hm <;> try rfl
  have h7 : ∀ i < 32, (7#32).getLsbD i = decide (i < 3) := by decide
  ext i hi
  simp only [State.csrStore, State.csrValue, ← BitVec.getLsbD_eq_getElem, BitVec.getLsbD_setWidth,
    BitVec.getLsbD_extractLsb', BitVec.getLsbD_and, h7 i hi, Nat.zero_add]
  grind

/-! ## Outcomes -/

/-- An outcome that is a trap is a next state. -/
theorem raise_next (c : Cause) (s : State) : raise c s = .next (trapEnter c.code s) := rfl

theorem commitRd_next (ilen : Word) (rd : Reg) (v : Word) (s : State) :
    commitRd ilen rd v s = .next ((s.writeReg rd v).advance ilen) := rfl

end Sys2Proof.Machine
end

