-- ==== Sys2Proof/Laws/Exec.lean ====
section
/-!
SUPPORT. What one instruction can do, said once for all of them (`exec_shape`): it completes, or it takes one exception, or MEM
halts the run, or it is MRET. Invariants and rules over all instructions follow by these four cases.
-/

namespace Sys2Proof.Machine

/-- RAM keeps its form and its window from `s` to `u`, given the parameters' constraints. -/
def KeepsForm (s u : State) : Prop :=
  s.cfg.wf = true → s.ram.wf = true → s.ram.within s.cfg.ramBase.toNat s.cfg.ramSize = true →
    u.ram.wf = true ∧ u.ram.within s.cfg.ramBase.toNat s.cfg.ramSize = true

theorem KeepsForm.of_eq {s u : State} (h : u.ram = s.ram) : KeepsForm s u := fun _ h1 h2 => by
  rw [h]; exact ⟨h1, h2⟩

theorem AsksMem.refl (s : State) : AsksMem s s := ⟨_, rfl, List.suffix_refl _⟩

theorem AsksMem.trans {s u w : State} (h : AsksMem s u) (h' : AsksMem u w) : AsksMem s w := by
  obtain ⟨c, hc, hs⟩ := h
  obtain ⟨c', hc', hs'⟩ := h'
  rw [hc] at hc' hs'
  exact ⟨c', hc', hs.trans hs'⟩

/-- A halt after further calls is a halt. -/
theorem HaltedBy.after {code : Int} {s u w : State} (h' : HaltedBy code u w) (h : AsksMem s u) : HaltedBy code s w := by
  obtain ⟨c, hc, hs⟩ := h
  obtain ⟨n, a, v, b, hm, hb, ha⟩ := h'
  rw [hc] at hm hb ha
  exact ⟨n, a, v, b, hm, hs.trans hb, ha⟩

/-- `u` is `s` but for memory, and MEM has only been asked. -/
structure OnlyMemory (s u : State) : Prop where
  eq : ∃ ram mem, u = { s with ram := ram, mem := mem }
  asks : AsksMem s u
  form : KeepsForm s u

theorem OnlyMemory.refl (s : State) : OnlyMemory s s := ⟨⟨_, _, rfl⟩, .refl s, .of_eq rfl⟩

theorem OnlyMemory.trans {s u w : State} (h : OnlyMemory s u) (h' : OnlyMemory u w) : OnlyMemory s w := by
  refine ⟨?_, h.asks.trans h'.asks, fun hc h1 h2 => ?_⟩ <;> obtain ⟨r, m, rfl⟩ := h.eq
  · obtain ⟨r', m', rfl⟩ := h'.eq
    exact ⟨_, _, rfl⟩
  · obtain ⟨h3, h4⟩ := h.form hc h1 h2
    exact h'.form hc h3 h4

theorem OnlyMemory.readReg {s u : State} (h : OnlyMemory s u) (r : Reg) : u.readReg r = s.readReg r := by
  obtain ⟨_, _, rfl⟩ := h.eq
  rfl

/-- One call of MEM leaves the state as it was but for the history. -/
theorem onlyMemory_record (s : State) (c : MemCall) : OnlyMemory s { s with mem := s.mem.record c } :=
  ⟨⟨_, _, rfl⟩, ⟨_, rfl, List.suffix_cons _ _⟩, .of_eq rfl⟩

theorem onlyMemory_memRead (s : State) (n : Width) (a : Word) : OnlyMemory s (s.memRead n a).2 := by
  unfold State.memRead
  split
  · exact .refl s
  · exact onlyMemory_record s _

theorem onlyMemory_memWrite_ok {s u : State} {n : Width} {a v : Word} (ha : n.aligned a = true)
    (h : s.memWrite n a v = .ok u) : OnlyMemory s u := by
  rcases s.memWrite_cases n a v with ⟨hr, h'⟩ | ⟨_, ⟨_, h'⟩ | ⟨_, h'⟩ | ⟨c, _, h'⟩⟩ <;>
    rw [h'] at h <;> cases h
  · refine ⟨⟨_, _, rfl⟩, .refl s, fun hc h1 h2 => ⟨ramWrite_wf _ _ _ _ h1, ?_⟩⟩
    exact ramWrite_within _ n _ _ _ _ (s.inRam_end n a hc ((n.aligned_iff a).1 ha) hr) h2
  · exact onlyMemory_record s _

theorem onlyMemory_memWrite_fail {s u : State} {n : Width} {a v : Word}
    (h : s.memWrite n a v = .fail u) : OnlyMemory s u ∧ u.ram = s.ram := by
  rcases s.memWrite_cases n a v with ⟨hr, h'⟩ | ⟨_, ⟨_, h'⟩ | ⟨_, h'⟩ | ⟨c, _, h'⟩⟩ <;>
    rw [h'] at h <;> cases h
  exact ⟨onlyMemory_record s _, rfl⟩

theorem onlyMemory_memWrite_halt {s u : State} {n : Width} {a v : Word} {code : Int}
    (h : s.memWrite n a v = .halt code u) : OnlyMemory s u ∧ HaltedBy code s u := by
  rcases s.memWrite_cases n a v with ⟨hr, h'⟩ | ⟨_, ⟨_, h'⟩ | ⟨_, h'⟩ | ⟨c, hc, h'⟩⟩ <;>
    rw [h'] at h <;> cases h
  exact ⟨onlyMemory_record s _, n, a, n.cut v, s.mem.calls, rfl, List.suffix_refl _, hc⟩

/-- A fetch changes nothing but what MEM has been asked (R93). -/
theorem fetch_eq (s : State) : ∃ mem, (fetch s).2 = { s with mem := mem } ∧ AsksMem s (fetch s).2 := by
  have h : (fetch s).2 = ((s.memRead .half s.pc).2.memRead .half (s.pc + 2#32)).2 := by
    unfold fetch
    simp only
    (repeat' split) <;> rfl
  have h' := (onlyMemory_memRead s .half s.pc).trans (onlyMemory_memRead _ .half (s.pc + 2#32))
  rw [h]
  obtain ⟨r, m, hm⟩ := h'.eq
  obtain rfl : r = s.ram := by simpa using (congrArg State.ram hm).symm
  exact ⟨m, hm, h'.asks⟩

/-- What an instruction that completes (and is not MRET) can have done. -/
structure Ran (i : Instr) (s t : State) : Prop where
  eq : ∃ x pc ram mem reserved pending,
    t = { s with x := x, pc := pc, ram := ram, mem := mem, reserved := reserved, pending := pending }
  zero : t.x[0] = s.x[0]
  pc : s.pc.getLsbD 0 = false → t.pc.getLsbD 0 = false
  form : KeepsForm s t
  ram : isStoreInstr i = false → t.ram = s.ram
  reserved : t.reserved = s.reserved ∨ (t.reserved = true ∧ ∃ rd rs1 aq rl, i = .lrW rd rs1 aq rl)
    ∨ (t.reserved = false ∧ ∃ rd rs1 rs2 aq rl, i = .scW rd rs1 rs2 aq rl)
  pending : t.pending = s.pending ∨ s.priv = .M ∧ ∃ a v, csrTarget i = some a ∧ t.pending = some (a, v)

/-- What an instruction that takes exception `c` in state `u` can have done before it. -/
structure Faulted (i : Instr) (s : State) (c : Cause) (u : State) : Prop where
  cause : c ≠ .instrAlign ∧ c ≠ .instrFault
  eq : ∃ x ram mem freeCount, u = { s with x := x, ram := ram, mem := mem, freeCount := freeCount }
  zero : u.x[0] = s.x[0]
  form : KeepsForm s u
  regs : isPopInstr i = false → u.x = s.x ∧ u.freeCount = s.freeCount
  ram : (∀ rlist spimm, i ≠ .cmPush rlist spimm) → u.ram = s.ram

/-- The four ways an instruction ends. -/
inductive Shape (i : Instr) (s : State) : Result → Prop
  | ran {t : State} (h : Ran i s t) : Shape i s (.next t)
  | trapped {c : Cause} {u : State} (h : Faulted i s c u) : Shape i s (raise c u)
  | halted {code : Int} {u : State} (h : OnlyMemory s u) (hs : isStoreInstr i = true)
      (hm : HaltedBy code s u) : Shape i s (.fault (.hostHalt code u))
  | mret (hi : i = .mret) (hp : s.priv = .M) : Shape i s (trapMret s)

/-! ## The shape of each shared operation -/

theorem even_add {a b : Word} (ha : a.getLsbD 0 = false) (hb : b.getLsbD 0 = false) :
    (a + b).getLsbD 0 = false := by
  simp only [BitVec.getLsbD] at *
  simp only [Nat.testBit_zero, BitVec.toNat_add, decide_eq_false_iff_not] at *
  omega

theorem even_clearBit0 (v : Word) : (clearBit0 v).getLsbD 0 = false := by
  simp [clearBit0]

/-- A trap with nothing done before it. -/
theorem Shape.raise (i : Instr) (s : State) (c : Cause) (hc : c ≠ .instrAlign ∧ c ≠ .instrFault) :
    Shape i s (raise c s) :=
  .trapped ⟨hc, ⟨_, _, _, _, rfl⟩, rfl, .of_eq rfl, fun _ => ⟨rfl, rfl⟩, fun _ => rfl⟩

/-- A trap after accesses that left RAM alone. -/
theorem Shape.raiseAfter (i : Instr) {s u : State} (c : Cause) (hc : c ≠ .instrAlign ∧ c ≠ .instrFault)
    (h : OnlyMemory s u) (hr : u.ram = s.ram) : Shape i s (Machine.raise c u) := by
  have hf := h.form
  obtain ⟨r, m, rfl⟩ := h.eq
  exact .trapped ⟨hc, ⟨_, _, _, _, rfl⟩, rfl, hf, fun _ => ⟨rfl, rfl⟩, fun _ => hr⟩

/-- Completion after memory accesses, with a register written and `pc` moved. -/
theorem Ran.after {i : Instr} {s u : State} (h : OnlyMemory s u) (hr : isStoreInstr i = false → u.ram = s.ram)
    (rd : Reg) (v pc : Word) (hpc : s.pc.getLsbD 0 = false → pc.getLsbD 0 = false) :
    Ran i s { u.writeReg rd v with pc := pc } := by
  obtain ⟨x, hx, h0⟩ := writeReg_eq u rd v
  have hf := h.form
  rw [hx]
  obtain ⟨r, m, rfl⟩ := h.eq
  exact ⟨⟨_, _, _, _, _, _, rfl⟩, h0, hpc, hf, hr, .inl rfl, .inl rfl⟩

theorem Shape.commitRd (i : Instr) (ilen : Word) (rd : Reg) (v : Word) {s u : State} (h : OnlyMemory s u)
    (hr : isStoreInstr i = false → u.ram = s.ram) (hl : ilen.getLsbD 0 = false) :
    Shape i s (commitRd ilen rd v u) := by
  have hpc : u.pc = s.pc := by obtain ⟨_, _, rfl⟩ := h.eq; rfl
  have := Ran.after h hr rd v (s.pc + ilen) fun e => even_add e hl
  exact .ran (by simpa [State.advance, hpc] using this)

theorem Shape.commit (i : Instr) (ilen : Word) (rd : Reg) (v : Word) (s : State) (hl : ilen.getLsbD 0 = false) :
    Shape i s (Machine.commitRd ilen rd v s) := .commitRd i ilen rd v (.refl s) (fun _ => rfl) hl

theorem Ran.moved (i : Instr) (s : State) (pc : Word) (hpc : s.pc.getLsbD 0 = false → pc.getLsbD 0 = false) :
    Ran i s { s with pc := pc } :=
  ⟨⟨_, _, _, _, _, _, rfl⟩, rfl, hpc, .of_eq rfl, fun _ => rfl, .inl rfl, .inl rfl⟩

theorem Shape.branchOp (i : Instr) (ilen : Word) (taken : Bool) (off : Word) (s : State)
    (hl : ilen.getLsbD 0 = false) (ho : off.getLsbD 0 = false) : Shape i s (branchOp ilen taken off s) :=
  .ran (Ran.moved i s _ fun e => by split <;> exact even_add e (by assumption))

theorem Shape.jumpLink (i : Instr) (ilen : Word) (rd : Reg) (target : Word) (s : State)
    (ht : s.pc.getLsbD 0 = false → target.getLsbD 0 = false) : Shape i s (jumpLink ilen rd target s) :=
  .ran (Ran.after (.refl s) (fun _ => rfl) rd _ target ht)

theorem Shape.loadOp (i : Instr) (ilen : Word) (n : Width) (ext : Word → Word) (rd : Reg) (a : Word) (s : State)
    (hl : ilen.getLsbD 0 = false) : Shape i s (loadOp ilen n ext rd a s) := by
  rcases loadOp_cases ilen n ext rd a s with ⟨_, h⟩ | ⟨_, _, h⟩ | ⟨_, v, _, h⟩ <;> rw [h]
  · exact .raise i s _ (by decide)
  · exact .raiseAfter i _ (by decide) (onlyMemory_memRead s n a) (by simp)
  · exact .commitRd i ilen rd _ (onlyMemory_memRead s n a) (fun _ => by simp) hl

/-- Completion of a store. -/
theorem Ran.stored {i : Instr} {s u : State} (h : OnlyMemory s u) (hs : isStoreInstr i = true) (ilen : Word)
    (hl : ilen.getLsbD 0 = false) : Ran i s (u.advance ilen) := by
  have hf := h.form
  obtain ⟨r, m, rfl⟩ := h.eq
  exact ⟨⟨_, _, _, _, _, _, rfl⟩, rfl, fun e => even_add e hl, hf, fun h => by simp [hs] at h, .inl rfl,
    .inl rfl⟩

theorem Shape.storeOp (i : Instr) (hs : isStoreInstr i = true) (ilen : Word) (n : Width) (a v : Word) (s : State)
    (hl : ilen.getLsbD 0 = false) : Shape i s (storeOp ilen n a v s) := by
  rcases storeOp_cases ilen n a v s with ⟨_, h⟩ | ⟨ha, u, hu, h⟩ | ⟨_, u, hu, h⟩ | ⟨_, code, u, hu, h⟩ <;> rw [h]
  · exact .raise i s _ (by decide)
  · exact .ran (Ran.stored (onlyMemory_memWrite_ok ha hu) hs ilen hl)
  · exact .raiseAfter i _ (by decide) (onlyMemory_memWrite_fail hu).1 (onlyMemory_memWrite_fail hu).2
  · exact .halted (onlyMemory_memWrite_halt hu).1 hs (onlyMemory_memWrite_halt hu).2

theorem Shape.amoOp (i : Instr) (hs : isStoreInstr i = true) (f : Word → Word → Word) (rd rs1 rs2 : Reg)
    (s : State) : Shape i s (amoOp f rd rs1 rs2 s) := by
  have hm := onlyMemory_memRead s .word (s.readReg rs1)
  rcases amoOp_cases f rd rs1 rs2 s with
    ⟨_, h⟩ | ⟨_, _, h⟩ | ⟨ha, old, _, ⟨u, hu, h⟩ | ⟨u, hu, h⟩ | ⟨code, u, hu, h⟩⟩ <;> rw [h]
  · exact .raise i s _ (by decide)
  · exact .raiseAfter i _ (by decide) hm (by simp)
  · exact .commitRd i ilen32 rd old (hm.trans (onlyMemory_memWrite_ok ha hu)) (by simp [hs]) rfl
  · have := onlyMemory_memWrite_fail hu
    exact .raiseAfter i _ (by decide) (hm.trans this.1) (by rw [this.2]; simp)
  · have := onlyMemory_memWrite_halt hu
    exact .halted (hm.trans this.1) hs (this.2.after hm.asks)

theorem Shape.csrInstr (i : Instr) (op : CsrOp) (imm : Bool) (rd : Reg) (a : CsrAddr) (src : Word) (field : BitVec 5)
    (hi : op = .write ∨ field ≠ 0 → csrTarget i = some a) (s : State) :
    Shape i s (csrInstr op imm rd a src field s) := by
  rcases csrInstr_cases op imm rd a src field s with h | ⟨u, hu, h⟩
  · rw [h]
    exact .raise i s _ (by decide)
  · have he : ∃ p, u = { s with pending := p }
        ∧ (p = s.pending ∨ s.priv = .M ∧ ∃ a v, csrTarget i = some a ∧ p = some (a, v)) := by
      rcases hu with rfl | ⟨hw, hu⟩
      · exact ⟨_, rfl, .inl rfl⟩
      · obtain ⟨v, rfl⟩ := s.csrWrite_some hu
        refine ⟨_, rfl, .inr ⟨?_, a, v, hi hw, rfl⟩⟩
        cases hp : s.priv with
        | M => rfl
        | U => rw [State.csrWrite_user hp] at hu; cases hu
    have key (rd : Reg) (v : Word) : Ran i s ((u.writeReg rd v).advance ilen32) := by
      obtain ⟨x, hx, h0⟩ := writeReg_eq u rd v
      rw [hx]
      obtain ⟨p, rfl, hp⟩ := he
      exact ⟨⟨_, _, _, _, _, _, rfl⟩, h0, fun e => even_add (b := ilen32) e rfl, .of_eq rfl, fun _ => rfl, .inl rfl, hp⟩
    rcases h with h | ⟨old, _, h⟩ <;> rw [h]
    · exact .ran (by simpa using key 0#5 0#32)
    · exact .ran (key rd old)

/-! ## The instructions with a meaning of their own -/

theorem Shape.lrW (rd rs1 : Reg) (aq rl : BitVec 1) (s : State) :
    Shape (.lrW rd rs1 aq rl) s (execLrW rd rs1 aq rl s) := by
  have hm := onlyMemory_memRead s .word (s.readReg rs1)
  unfold execLrW
  simp only
  split
  · split
    · next v _ =>
      have hr : (s.memRead .word (s.readReg rs1)).2.ram = s.ram := by simp
      obtain ⟨r, m, he⟩ := hm.eq
      rw [he] at hr ⊢
      obtain ⟨x, hx, h0⟩ := writeReg_eq { s with ram := r, mem := m, reserved := true } rd v
      rw [commitRd_next, hx]
      exact .ran ⟨⟨_, _, _, _, _, _, rfl⟩, h0, fun e => even_add (b := ilen32) e rfl, .of_eq hr, fun _ => hr,
        .inr (.inl ⟨rfl, rd, rs1, aq, rl, rfl⟩), .inl rfl⟩
    · exact .raiseAfter _ _ (by decide) hm (by simp)
  · exact .raise _ s _ (by decide)

theorem Shape.scW (rd rs1 rs2 : Reg) (aq rl : BitVec 1) (s : State) :
    Shape (.scW rd rs1 rs2 aq rl) s (execScW rd rs1 rs2 aq rl s) := by
  have key {u : State} (hm : OnlyMemory s u) (v : Word) :
      Shape (.scW rd rs1 rs2 aq rl) s (Machine.commitRd ilen32 rd v { u with reserved := false }) := by
    have hf := hm.form
    obtain ⟨r, m, rfl⟩ := hm.eq
    obtain ⟨x, hx, h0⟩ := writeReg_eq { s with ram := r, mem := m, reserved := false } rd v
    rw [commitRd_next, hx]
    exact .ran ⟨⟨_, _, _, _, _, _, rfl⟩, h0, fun e => even_add (b := ilen32) e rfl, hf,
      fun h => by simp [isStoreInstr] at h, .inr (.inr ⟨rfl, rd, rs1, rs2, aq, rl, rfl⟩), .inl rfl⟩
  unfold execScW
  simp only
  split
  · next ha =>
    split
    · unfold afterWrite
      split
      · next u hu => exact key (onlyMemory_memWrite_ok ha hu) _
      · next u hu =>
        exact .raiseAfter _ _ (by decide) (onlyMemory_memWrite_fail hu).1 (onlyMemory_memWrite_fail hu).2
      · next code u hu =>
        exact .halted (onlyMemory_memWrite_halt hu).1 rfl (onlyMemory_memWrite_halt hu).2
    · exact key (.refl s) _
  · exact .raise _ s _ (by decide)

/-! ## Push and pop -/

/-- Subtracting 4 keeps an address aligned. -/
theorem aligned_sub_four {a : Word} (h : Width.word.aligned a = true) : Width.word.aligned (a - 4#32) = true := by
  rw [Width.aligned_iff] at *
  simp only [Width.bytes] at *
  rw [BitVec.toNat_sub]
  simp
  omega

/-- The stores of a PUSH change memory alone, however they end. -/
theorem pushLoop_onlyMemory (l : List Reg) (a : Word) (s : State) (ha : Width.word.aligned a = true) :
    match pushLoop l a s with
    | .ok u => OnlyMemory s u
    | .fail u => OnlyMemory s u
    | .halt code u => OnlyMemory s u ∧ HaltedBy code s u := by
  induction l generalizing a s with
  | nil => exact .refl s
  | cons r rs ih =>
    simp only [pushLoop]
    cases hw : s.memWrite .word a (s.readReg r) with
    | fail u => exact (onlyMemory_memWrite_fail hw).1
    | halt code u => exact onlyMemory_memWrite_halt hw
    | ok u =>
      have h := onlyMemory_memWrite_ok ha hw
      have hrec := ih (a - 4#32) u (aligned_sub_four ha)
      simp only
      cases hp : pushLoop rs (a - 4#32) u with
      | ok w => rw [hp] at hrec; exact h.trans hrec
      | fail w => rw [hp] at hrec; exact h.trans hrec
      | halt code w => rw [hp] at hrec; exact ⟨h.trans hrec.1, hrec.2.after h.asks⟩

theorem Shape.cmPush (rlist : BitVec 4) (spimm : BitVec 2) (s : State) :
    Shape (.cmPush rlist spimm) s (execCmPush rlist spimm s) := by
  unfold execCmPush
  split
  · exact .raise _ s _ (by decide)
  · split
    · next ha =>
      have h := pushLoop_onlyMemory (zcmpRegs rlist) (s.readReg sp - 4#32) s (aligned_sub_four ha)
      unfold afterWrite
      cases hp : pushLoop (zcmpRegs rlist) (s.readReg sp - 4#32) s with
      | ok u => rw [hp] at h; exact .commitRd _ _ _ _ h (fun h => by simp [isStoreInstr] at h) rfl
      | fail u =>
        rw [hp] at h
        have hf := h.form
        obtain ⟨r, m, rfl⟩ := h.eq
        exact .trapped ⟨by decide, ⟨_, _, _, _, rfl⟩, rfl, hf, fun _ => ⟨rfl, rfl⟩,
          fun hne => absurd rfl (hne rlist spimm)⟩
      | halt code u => rw [hp] at h; exact .halted h.1 rfl h.2
    · exact .raise _ s _ (by decide)

/-- The loads of a POP only ask MEM. -/
theorem popLoop_eq (l : List Reg) (a : Word) (s : State) :
    ∃ mem, (popLoop l a s).2.2 = { s with mem := mem } := by
  induction l generalizing a s with
  | nil => exact ⟨_, rfl⟩
  | cons r rs ih =>
    obtain ⟨m, hm⟩ := memRead_eq s .word a
    simp only [popLoop]
    split
    · exact ⟨m, hm⟩
    · obtain ⟨m', hm'⟩ := ih (a - 4#32) (s.memRead .word a).2
      exact ⟨m', by rw [hm', hm]⟩

/-- Writing several registers changes `x` alone, and never register 0. -/
theorem writeRegs_eq (l : List (Reg × Word)) (s : State) :
    ∃ x, writeRegs l s = { s with x := x } ∧ x[0] = s.x[0] := by
  induction l generalizing s with
  | nil => exact ⟨_, rfl, rfl⟩
  | cons p l ih =>
    obtain ⟨x, hx, h0⟩ := writeReg_eq s p.1 p.2
    obtain ⟨x', hx', h0'⟩ := ih (s.writeReg p.1 p.2)
    exact ⟨x', by show writeRegs l (s.writeReg p.1 p.2) = _; rw [hx', hx], by rw [h0', hx, h0]⟩

theorem popFaultRegs_eq (l : List (Reg × Word)) (k : Nat) (s : State) :
    ∃ x, popFaultRegs l k s = { s with x := x } ∧ x[0] = s.x[0] := by
  induction l generalizing s with
  | nil => exact ⟨_, rfl, rfl⟩
  | cons p l ih =>
    obtain ⟨r, v⟩ := p
    simp only [popFaultRegs]
    split
    · obtain ⟨x, hx, h0⟩ := writeReg_eq s r v
      obtain ⟨x', hx', h0'⟩ := ih (s.writeReg r v)
      exact ⟨x', by rw [hx', hx], by rw [h0', hx, h0]⟩
    · exact ih s

theorem Shape.popOp (i : Instr) (hi : isPopInstr i = true) (rlist : BitVec 4) (spimm : BitVec 2)
    (next : State → Result) (s : State)
    (hn : ∀ x mem, x[0] = s.x[0] → ∃ x' pc', next { s with x := x, mem := mem } =
      .next { s with x := x', mem := mem, pc := pc' } ∧ x'[0] = s.x[0]
        ∧ (s.pc.getLsbD 0 = false → pc'.getLsbD 0 = false)) :
    Shape i s (Machine.popOp rlist spimm next s) := by
  unfold Machine.popOp
  split
  · exact .raise i s _ (by decide)
  · split
    · simp only
      generalize s.readReg sp + stackAdj rlist spimm = top
      obtain ⟨mem, hm⟩ := popLoop_eq (zcmpRegs rlist) (top - 4#32) s
      generalize popLoop (zcmpRegs rlist) (top - 4#32) s = p at hm ⊢
      obtain ⟨l, ok, w⟩ := p
      simp only at hm ⊢
      subst hm
      split
      · obtain ⟨x, hx, h0⟩ := writeRegs_eq l { s with mem := mem }
        rw [hx]
        obtain ⟨x', hx', h0'⟩ := writeReg_eq { s with mem := mem, x := x } sp top
        rw [hx']
        obtain ⟨x'', pc', hn', h0'', hpc⟩ := hn x' mem (h0'.trans h0)
        rw [hn']
        exact .ran ⟨⟨_, _, _, _, _, _, rfl⟩, h0'', hpc, .of_eq rfl, fun _ => rfl, .inl rfl, .inl rfl⟩
      · obtain ⟨x, hx, h0⟩ := popFaultRegs_eq l s.freeCount { s with mem := mem }
        rw [hx]
        exact .trapped ⟨by decide, ⟨_, _, _, _, rfl⟩, h0, .of_eq rfl, by simp [hi], fun _ => rfl⟩
    · exact .raise i s _ (by decide)

/-! ## Every instruction -/

theorem even_immB (off : BitVec 12) : (immB off).getLsbD 0 = false := by
  rw [immB, BitVec.getLsbD_signExtend, BitVec.getLsbD_append]; simp

theorem even_immJ (off : BitVec 20) : (immJ off).getLsbD 0 = false := by
  rw [immJ, BitVec.getLsbD_signExtend, BitVec.getLsbD_append]; simp

theorem even_offCj (off : BitVec 11) : (offCj off).getLsbD 0 = false := by
  rw [offCj, BitVec.getLsbD_signExtend, BitVec.getLsbD_append]; simp

theorem even_offCb (off : BitVec 8) : (offCb off).getLsbD 0 = false := by
  rw [offCb, BitVec.getLsbD_signExtend, BitVec.getLsbD_append]; simp

/-- Two registers written, and `pc` moved past a 16-bit instruction. -/
theorem Shape.twoRegs (i : Instr) (r q : Reg) (v w : Word) (s : State) :
    Shape i s (.next (((s.writeReg r v).writeReg q w).advance ilen16)) := by
  obtain ⟨x, hx, h0⟩ := writeReg_eq s r v
  obtain ⟨x', hx', h0'⟩ := writeReg_eq { s with x := x } q w
  rw [hx, hx']
  exact .ran ⟨⟨_, _, _, _, _, _, rfl⟩, h0'.trans h0, fun e => even_add (b := ilen16) e rfl, .of_eq rfl, fun _ => rfl,
    .inl rfl, .inl rfl⟩

theorem Shape.miscMem (i : Instr) (s : State) : Shape i s (miscMemOp s) := by
  unfold miscMemOp
  split
  · exact .ran (Ran.moved i s _ fun e => even_add (b := ilen32) e rfl)
  · exact .raise i s _ (by decide)

/-- A form that is reserved on some operands. -/
theorem Shape.ifIllegal (i : Instr) (s : State) {p : Prop} [Decidable p] {r : Result} (h : Shape i s r) :
    Shape i s (if p then Machine.raise .instrIllegal s else r) := by
  split
  · exact .raise i s _ (by decide)
  · exact h

/-- What any instruction can do: it completes, takes one exception, is halted by MEM, or is MRET in M-mode. -/
theorem exec_shape (i : Instr) (s : State) : Shape i s (exec i s) := by
  cases i with
  | lrW rd rs1 aq rl => exact Shape.lrW rd rs1 aq rl s
  | scW rd rs1 rs2 aq rl => exact Shape.scW rd rs1 rs2 aq rl s
  | cmPush rlist spimm => exact Shape.cmPush rlist spimm s
  | mret =>
    simp only [exec, execMret]
    split
    · next h => exact .mret rfl h
    · exact .raise _ s _ (by decide)
  | ecall => simp only [exec, execEcall, ecallCause]; split <;> exact .raise _ s _ (by decide)
  | cmPop rlist spimm =>
    exact Shape.popOp (.cmPop rlist spimm) rfl rlist spimm (fun s' => .next (s'.advance ilen16)) s fun x mem h0 =>
      ⟨x, s.pc + ilen16, rfl, h0, fun e => even_add (b := ilen16) e rfl⟩
  | cmPopret rlist spimm =>
    exact Shape.popOp (.cmPopret rlist spimm) rfl rlist spimm
      (fun s' => .next { s' with pc := clearBit0 (s'.readReg ra) }) s fun x mem h0 =>
      ⟨x, clearBit0 (State.readReg { s with x := x, mem := mem } ra), rfl, h0, fun _ => even_clearBit0 _⟩
  | cmPopretz rlist spimm =>
    refine Shape.popOp (.cmPopretz rlist spimm) rfl rlist spimm
      (fun s' => .next { s'.writeReg a0 0#32 with pc := clearBit0 (s'.readReg ra) }) s fun x mem h0 => ?_
    obtain ⟨x', hx', h0'⟩ := writeReg_eq { s with x := x, mem := mem } a0 0#32
    refine ⟨x', clearBit0 (State.readReg { s with x := x, mem := mem } ra), ?_, h0'.trans h0,
      fun _ => even_clearBit0 _⟩
    show Host.Outcome.next _ = _
    rw [hx']
  | cmMva01s r1 r2 => exact Shape.twoRegs _ _ _ _ _ s
  | cmMvsa01 r1 r2 =>
    simp only [exec, execCmMvsa01]
    split
    · exact .raise _ s _ (by decide)
    · exact Shape.twoRegs _ _ _ _ _ s
  | jal rd off => exact .jumpLink _ _ _ _ s fun e => even_add e (even_immJ off)
  | jalr rd rs1 imm => exact .jumpLink _ _ _ _ s fun _ => even_clearBit0 _
  | cJal off => exact .jumpLink _ _ _ _ s fun e => even_add e (even_offCj off)
  | cJalr rs1 => exact .jumpLink _ _ _ _ s fun _ => even_clearBit0 _
  | cJ off => exact .ran (Ran.moved _ s _ fun e => even_add e (even_offCj off))
  | cJr rs1 =>
    simp only [exec, execCJr]
    split
    · exact .raise _ s _ (by decide)
    · exact .ran (Ran.moved _ s _ fun _ => even_clearBit0 _)
  | beq rs1 rs2 off => exact .branchOp _ _ _ _ s rfl (even_immB off)
  | bne rs1 rs2 off => exact .branchOp _ _ _ _ s rfl (even_immB off)
  | blt rs1 rs2 off => exact .branchOp _ _ _ _ s rfl (even_immB off)
  | bge rs1 rs2 off => exact .branchOp _ _ _ _ s rfl (even_immB off)
  | bltu rs1 rs2 off => exact .branchOp _ _ _ _ s rfl (even_immB off)
  | bgeu rs1 rs2 off => exact .branchOp _ _ _ _ s rfl (even_immB off)
  | cBeqz rs1 off => exact .branchOp _ _ _ _ s rfl (even_offCb off)
  | cBnez rs1 off => exact .branchOp _ _ _ _ s rfl (even_offCb off)
  | fence fm pred succ rs1 rd => exact Shape.miscMem _ s
  | fenceI imm rs1 rd => exact Shape.miscMem _ s
  | add rd rs1 rs2 => exact .commit _ ilen32 _ _ s rfl
  | sub rd rs1 rs2 => exact .commit _ ilen32 _ _ s rfl
  | sll rd rs1 rs2 => exact .commit _ ilen32 _ _ s rfl
  | slt rd rs1 rs2 => exact .commit _ ilen32 _ _ s rfl
  | sltu rd rs1 rs2 => exact .commit _ ilen32 _ _ s rfl
  | xor rd rs1 rs2 => exact .commit _ ilen32 _ _ s rfl
  | srl rd rs1 rs2 => exact .commit _ ilen32 _ _ s rfl
  | sra rd rs1 rs2 => exact .commit _ ilen32 _ _ s rfl
  | or rd rs1 rs2 => exact .commit _ ilen32 _ _ s rfl
  | and rd rs1 rs2 => exact .commit _ ilen32 _ _ s rfl
  | addi rd rs1 imm => exact .commit _ ilen32 _ _ s rfl
  | slti rd rs1 imm => exact .commit _ ilen32 _ _ s rfl
  | sltiu rd rs1 imm => exact .commit _ ilen32 _ _ s rfl
  | xori rd rs1 imm => exact .commit _ ilen32 _ _ s rfl
  | ori rd rs1 imm => exact .commit _ ilen32 _ _ s rfl
  | andi rd rs1 imm => exact .commit _ ilen32 _ _ s rfl
  | slli rd rs1 shamt => exact .commit _ ilen32 _ _ s rfl
  | srli rd rs1 shamt => exact .commit _ ilen32 _ _ s rfl
  | srai rd rs1 shamt => exact .commit _ ilen32 _ _ s rfl
  | lui rd imm => exact .commit _ ilen32 _ _ s rfl
  | auipc rd imm => exact .commit _ ilen32 _ _ s rfl
  | mul rd rs1 rs2 => exact .commit _ ilen32 _ _ s rfl
  | mulh rd rs1 rs2 => exact .commit _ ilen32 _ _ s rfl
  | mulhsu rd rs1 rs2 => exact .commit _ ilen32 _ _ s rfl
  | mulhu rd rs1 rs2 => exact .commit _ ilen32 _ _ s rfl
  | div rd rs1 rs2 => exact .commit _ ilen32 _ _ s rfl
  | divu rd rs1 rs2 => exact .commit _ ilen32 _ _ s rfl
  | rem rd rs1 rs2 => exact .commit _ ilen32 _ _ s rfl
  | remu rd rs1 rs2 => exact .commit _ ilen32 _ _ s rfl
  | andn rd rs1 rs2 => exact .commit _ ilen32 _ _ s rfl
  | orn rd rs1 rs2 => exact .commit _ ilen32 _ _ s rfl
  | xnor rd rs1 rs2 => exact .commit _ ilen32 _ _ s rfl
  | sh1add rd rs1 rs2 => exact .commit _ ilen32 _ _ s rfl
  | sh2add rd rs1 rs2 => exact .commit _ ilen32 _ _ s rfl
  | sh3add rd rs1 rs2 => exact .commit _ ilen32 _ _ s rfl
  | max rd rs1 rs2 => exact .commit _ ilen32 _ _ s rfl
  | maxu rd rs1 rs2 => exact .commit _ ilen32 _ _ s rfl
  | min rd rs1 rs2 => exact .commit _ ilen32 _ _ s rfl
  | minu rd rs1 rs2 => exact .commit _ ilen32 _ _ s rfl
  | rol rd rs1 rs2 => exact .commit _ ilen32 _ _ s rfl
  | ror rd rs1 rs2 => exact .commit _ ilen32 _ _ s rfl
  | rori rd rs1 shamt => exact .commit _ ilen32 _ _ s rfl
  | bclr rd rs1 rs2 => exact .commit _ ilen32 _ _ s rfl
  | bclri rd rs1 shamt => exact .commit _ ilen32 _ _ s rfl
  | bext rd rs1 rs2 => exact .commit _ ilen32 _ _ s rfl
  | bexti rd rs1 shamt => exact .commit _ ilen32 _ _ s rfl
  | binv rd rs1 rs2 => exact .commit _ ilen32 _ _ s rfl
  | binvi rd rs1 shamt => exact .commit _ ilen32 _ _ s rfl
  | bset rd rs1 rs2 => exact .commit _ ilen32 _ _ s rfl
  | bseti rd rs1 shamt => exact .commit _ ilen32 _ _ s rfl
  | clmul rd rs1 rs2 => exact .commit _ ilen32 _ _ s rfl
  | clmulh rd rs1 rs2 => exact .commit _ ilen32 _ _ s rfl
  | clmulr rd rs1 rs2 => exact .commit _ ilen32 _ _ s rfl
  | pack rd rs1 rs2 => exact .commit _ ilen32 _ _ s rfl
  | packh rd rs1 rs2 => exact .commit _ ilen32 _ _ s rfl
  | clz rd rs1 => exact .commit _ ilen32 _ _ s rfl
  | ctz rd rs1 => exact .commit _ ilen32 _ _ s rfl
  | cpop rd rs1 => exact .commit _ ilen32 _ _ s rfl
  | sextB rd rs1 => exact .commit _ ilen32 _ _ s rfl
  | sextH rd rs1 => exact .commit _ ilen32 _ _ s rfl
  | zip rd rs1 => exact .commit _ ilen32 _ _ s rfl
  | unzip rd rs1 => exact .commit _ ilen32 _ _ s rfl
  | brev8 rd rs1 => exact .commit _ ilen32 _ _ s rfl
  | orcB rd rs1 => exact .commit _ ilen32 _ _ s rfl
  | rev8 rd rs1 => exact .commit _ ilen32 _ _ s rfl
  | lb rd rs1 imm => exact .loadOp _ ilen32 .byte sext8 _ _ s rfl
  | lh rd rs1 imm => exact .loadOp _ ilen32 .half sext16 _ _ s rfl
  | lw rd rs1 imm => exact .loadOp _ ilen32 .word id _ _ s rfl
  | lbu rd rs1 imm => exact .loadOp _ ilen32 .byte zext8 _ _ s rfl
  | lhu rd rs1 imm => exact .loadOp _ ilen32 .half zext16 _ _ s rfl
  | sb rs1 rs2 imm => exact .storeOp _ rfl ilen32 .byte _ _ s rfl
  | sh rs1 rs2 imm => exact .storeOp _ rfl ilen32 .half _ _ s rfl
  | sw rs1 rs2 imm => exact .storeOp _ rfl ilen32 .word _ _ s rfl
  | amoswapW rd rs1 rs2 aq rl => exact Shape.amoOp (.amoswapW rd rs1 rs2 aq rl) rfl (fun _ v => v) rd rs1 rs2 s
  | amoaddW rd rs1 rs2 aq rl => exact Shape.amoOp (.amoaddW rd rs1 rs2 aq rl) rfl (fun old v => old + v) rd rs1 rs2 s
  | amoxorW rd rs1 rs2 aq rl => exact Shape.amoOp (.amoxorW rd rs1 rs2 aq rl) rfl (fun old v => old ^^^ v) rd rs1 rs2 s
  | amoandW rd rs1 rs2 aq rl => exact Shape.amoOp (.amoandW rd rs1 rs2 aq rl) rfl (fun old v => old &&& v) rd rs1 rs2 s
  | amoorW rd rs1 rs2 aq rl => exact Shape.amoOp (.amoorW rd rs1 rs2 aq rl) rfl (fun old v => old ||| v) rd rs1 rs2 s
  | amominW rd rs1 rs2 aq rl => exact Shape.amoOp (.amominW rd rs1 rs2 aq rl) rfl (fun old v => if ltSigned old v then old else v) rd rs1 rs2 s
  | amomaxW rd rs1 rs2 aq rl => exact Shape.amoOp (.amomaxW rd rs1 rs2 aq rl) rfl (fun old v => if ltSigned old v then v else old) rd rs1 rs2 s
  | amominuW rd rs1 rs2 aq rl => exact Shape.amoOp (.amominuW rd rs1 rs2 aq rl) rfl (fun old v => if ltUnsigned old v then old else v) rd rs1 rs2 s
  | amomaxuW rd rs1 rs2 aq rl => exact Shape.amoOp (.amomaxuW rd rs1 rs2 aq rl) rfl (fun old v => if ltUnsigned old v then v else old) rd rs1 rs2 s
  | csrrw rd rs1 csr => exact Shape.csrInstr (.csrrw rd rs1 csr) .write false rd csr (s.readReg rs1) rs1 (by simp +contextual [csrTarget]) s
  | csrrs rd rs1 csr => exact Shape.csrInstr (.csrrs rd rs1 csr) .set false rd csr (s.readReg rs1) rs1 (by simp +contextual [csrTarget]) s
  | csrrc rd rs1 csr => exact Shape.csrInstr (.csrrc rd rs1 csr) .clear false rd csr (s.readReg rs1) rs1 (by simp +contextual [csrTarget]) s
  | csrrwi rd uimm csr => exact Shape.csrInstr (.csrrwi rd uimm csr) .write true rd csr (uimm5 uimm) uimm (by simp +contextual [csrTarget]) s
  | csrrsi rd uimm csr => exact Shape.csrInstr (.csrrsi rd uimm csr) .set true rd csr (uimm5 uimm) uimm (by simp +contextual [csrTarget]) s
  | csrrci rd uimm csr => exact Shape.csrInstr (.csrrci rd uimm csr) .clear true rd csr (uimm5 uimm) uimm (by simp +contextual [csrTarget]) s
  | ebreak => exact Shape.raise .ebreak s _ (by decide)
  | h3Bextm rd rs1 rs2 size => exact .commit _ ilen32 _ _ s rfl
  | h3Bextmi rd rs1 shamt size => exact .commit _ ilen32 _ _ s rfl
  | illegal16 => exact Shape.raise .illegal16 s _ (by decide)
  | cAddi4spn rd uimm => exact .ifIllegal _ s (.commit _ ilen16 _ _ s rfl)
  | cLw rd rs1 uimm => exact .loadOp _ ilen16 .word id _ _ s rfl
  | cSw rs1 rs2 uimm => exact .storeOp _ rfl ilen16 .word _ _ s rfl
  | cAddi rd imm => exact .commit _ ilen16 _ _ s rfl
  | cLi rd imm => exact .commit _ ilen16 _ _ s rfl
  | cLui rd imm => exact .ifIllegal _ s (.commit _ ilen16 _ _ s rfl)
  | cAddi16sp imm => exact .ifIllegal _ s (.commit _ ilen16 _ _ s rfl)
  | cSrli rd shamt => exact .commit _ ilen16 _ _ s rfl
  | cSrai rd shamt => exact .commit _ ilen16 _ _ s rfl
  | cAndi rd imm => exact .commit _ ilen16 _ _ s rfl
  | cSub rd rs2 => exact .commit _ ilen16 _ _ s rfl
  | cXor rd rs2 => exact .commit _ ilen16 _ _ s rfl
  | cOr rd rs2 => exact .commit _ ilen16 _ _ s rfl
  | cAnd rd rs2 => exact .commit _ ilen16 _ _ s rfl
  | cSlli rd shamt => exact .commit _ ilen16 _ _ s rfl
  | cLwsp rd uimm => exact .ifIllegal _ s (.loadOp _ ilen16 .word id _ _ s rfl)
  | cMv rd rs2 => exact .commit _ ilen16 _ _ s rfl
  | cEbreak => exact Shape.raise .cEbreak s _ (by decide)
  | cAdd rd rs2 => exact .commit _ ilen16 _ _ s rfl
  | cSwsp rs2 uimm => exact .storeOp _ rfl ilen16 .word _ _ s rfl

end Sys2Proof.Machine
end

