-- ==== Sys2Proof/Laws/PerInstr.lean ====
section
/-!
SUPPORT. A statement about every instruction as syntax, one lemma per constructor: the low two bits of its code say its length.
-/

namespace Sys2Proof.Laws.CodeLength

/-- The low two bits of the code are `11` exactly when the instruction is 32 bits long (R120), so fetch delivers the code
whole. -/
def Statement (i : Instr) : Prop :=
  match encode i with
  | .half c => c.extractLsb' 0 2 ≠ 3#2
  | .word w => w.extractLsb' 0 2 = 3#2

/-- A 32-bit code with a major opcode that ends in `11`. -/
theorem word_of {w : BitVec 32} {op : BitVec 7} (h : w.extractLsb' 0 7 = op) (ho : op.extractLsb' 0 2 = 3#2) :
    w.extractLsb' 0 2 = 3#2 := by
  rw [← ho, ← h, BitVec.extractLsb'_extractLsb'_of_le (by decide)]

/-- A 16-bit code with a quadrant other than `11`. -/
theorem half_of {c : BitVec 16} {q : BitVec 2} (h : c.extractLsb' 0 2 = q) (hq : q ≠ 3#2) :
    c.extractLsb' 0 2 ≠ 3#2 := by
  rw [h]
  exact hq

theorem add (rd rs1 rs2 : Reg) : Statement (.add rd rs1 rs2) :=
  word_of (encR_fields _ _ _ _ _ _).1 (by decide)
theorem sub (rd rs1 rs2 : Reg) : Statement (.sub rd rs1 rs2) :=
  word_of (encR_fields _ _ _ _ _ _).1 (by decide)
theorem sll (rd rs1 rs2 : Reg) : Statement (.sll rd rs1 rs2) :=
  word_of (encR_fields _ _ _ _ _ _).1 (by decide)
theorem slt (rd rs1 rs2 : Reg) : Statement (.slt rd rs1 rs2) :=
  word_of (encR_fields _ _ _ _ _ _).1 (by decide)
theorem sltu (rd rs1 rs2 : Reg) : Statement (.sltu rd rs1 rs2) :=
  word_of (encR_fields _ _ _ _ _ _).1 (by decide)
theorem xor (rd rs1 rs2 : Reg) : Statement (.xor rd rs1 rs2) :=
  word_of (encR_fields _ _ _ _ _ _).1 (by decide)
theorem srl (rd rs1 rs2 : Reg) : Statement (.srl rd rs1 rs2) :=
  word_of (encR_fields _ _ _ _ _ _).1 (by decide)
theorem sra (rd rs1 rs2 : Reg) : Statement (.sra rd rs1 rs2) :=
  word_of (encR_fields _ _ _ _ _ _).1 (by decide)
theorem or (rd rs1 rs2 : Reg) : Statement (.or rd rs1 rs2) :=
  word_of (encR_fields _ _ _ _ _ _).1 (by decide)
theorem and (rd rs1 rs2 : Reg) : Statement (.and rd rs1 rs2) :=
  word_of (encR_fields _ _ _ _ _ _).1 (by decide)
theorem addi (rd rs1 : Reg) (imm : BitVec 12) : Statement (.addi rd rs1 imm) :=
  word_of (encI_fields _ _ _ _ _).1 (by decide)
theorem slti (rd rs1 : Reg) (imm : BitVec 12) : Statement (.slti rd rs1 imm) :=
  word_of (encI_fields _ _ _ _ _).1 (by decide)
theorem sltiu (rd rs1 : Reg) (imm : BitVec 12) : Statement (.sltiu rd rs1 imm) :=
  word_of (encI_fields _ _ _ _ _).1 (by decide)
theorem xori (rd rs1 : Reg) (imm : BitVec 12) : Statement (.xori rd rs1 imm) :=
  word_of (encI_fields _ _ _ _ _).1 (by decide)
theorem ori (rd rs1 : Reg) (imm : BitVec 12) : Statement (.ori rd rs1 imm) :=
  word_of (encI_fields _ _ _ _ _).1 (by decide)
theorem andi (rd rs1 : Reg) (imm : BitVec 12) : Statement (.andi rd rs1 imm) :=
  word_of (encI_fields _ _ _ _ _).1 (by decide)
theorem slli (rd rs1 : Reg) (shamt : BitVec 5) : Statement (.slli rd rs1 shamt) :=
  word_of (encR_fields _ _ _ _ _ _).1 (by decide)
theorem srli (rd rs1 : Reg) (shamt : BitVec 5) : Statement (.srli rd rs1 shamt) :=
  word_of (encR_fields _ _ _ _ _ _).1 (by decide)
theorem srai (rd rs1 : Reg) (shamt : BitVec 5) : Statement (.srai rd rs1 shamt) :=
  word_of (encR_fields _ _ _ _ _ _).1 (by decide)
theorem lui (rd : Reg) (imm : BitVec 20) : Statement (.lui rd imm) :=
  word_of (encU_fields _ _ _).1 (by decide)
theorem auipc (rd : Reg) (imm : BitVec 20) : Statement (.auipc rd imm) :=
  word_of (encU_fields _ _ _).1 (by decide)
theorem mul (rd rs1 rs2 : Reg) : Statement (.mul rd rs1 rs2) :=
  word_of (encR_fields _ _ _ _ _ _).1 (by decide)
theorem mulh (rd rs1 rs2 : Reg) : Statement (.mulh rd rs1 rs2) :=
  word_of (encR_fields _ _ _ _ _ _).1 (by decide)
theorem mulhsu (rd rs1 rs2 : Reg) : Statement (.mulhsu rd rs1 rs2) :=
  word_of (encR_fields _ _ _ _ _ _).1 (by decide)
theorem mulhu (rd rs1 rs2 : Reg) : Statement (.mulhu rd rs1 rs2) :=
  word_of (encR_fields _ _ _ _ _ _).1 (by decide)
theorem div (rd rs1 rs2 : Reg) : Statement (.div rd rs1 rs2) :=
  word_of (encR_fields _ _ _ _ _ _).1 (by decide)
theorem divu (rd rs1 rs2 : Reg) : Statement (.divu rd rs1 rs2) :=
  word_of (encR_fields _ _ _ _ _ _).1 (by decide)
theorem rem (rd rs1 rs2 : Reg) : Statement (.rem rd rs1 rs2) :=
  word_of (encR_fields _ _ _ _ _ _).1 (by decide)
theorem remu (rd rs1 rs2 : Reg) : Statement (.remu rd rs1 rs2) :=
  word_of (encR_fields _ _ _ _ _ _).1 (by decide)
theorem andn (rd rs1 rs2 : Reg) : Statement (.andn rd rs1 rs2) :=
  word_of (encR_fields _ _ _ _ _ _).1 (by decide)
theorem orn (rd rs1 rs2 : Reg) : Statement (.orn rd rs1 rs2) :=
  word_of (encR_fields _ _ _ _ _ _).1 (by decide)
theorem xnor (rd rs1 rs2 : Reg) : Statement (.xnor rd rs1 rs2) :=
  word_of (encR_fields _ _ _ _ _ _).1 (by decide)
theorem sh1add (rd rs1 rs2 : Reg) : Statement (.sh1add rd rs1 rs2) :=
  word_of (encR_fields _ _ _ _ _ _).1 (by decide)
theorem sh2add (rd rs1 rs2 : Reg) : Statement (.sh2add rd rs1 rs2) :=
  word_of (encR_fields _ _ _ _ _ _).1 (by decide)
theorem sh3add (rd rs1 rs2 : Reg) : Statement (.sh3add rd rs1 rs2) :=
  word_of (encR_fields _ _ _ _ _ _).1 (by decide)
theorem max (rd rs1 rs2 : Reg) : Statement (.max rd rs1 rs2) :=
  word_of (encR_fields _ _ _ _ _ _).1 (by decide)
theorem maxu (rd rs1 rs2 : Reg) : Statement (.maxu rd rs1 rs2) :=
  word_of (encR_fields _ _ _ _ _ _).1 (by decide)
theorem min (rd rs1 rs2 : Reg) : Statement (.min rd rs1 rs2) :=
  word_of (encR_fields _ _ _ _ _ _).1 (by decide)
theorem minu (rd rs1 rs2 : Reg) : Statement (.minu rd rs1 rs2) :=
  word_of (encR_fields _ _ _ _ _ _).1 (by decide)
theorem rol (rd rs1 rs2 : Reg) : Statement (.rol rd rs1 rs2) :=
  word_of (encR_fields _ _ _ _ _ _).1 (by decide)
theorem ror (rd rs1 rs2 : Reg) : Statement (.ror rd rs1 rs2) :=
  word_of (encR_fields _ _ _ _ _ _).1 (by decide)
theorem rori (rd rs1 : Reg) (shamt : BitVec 5) : Statement (.rori rd rs1 shamt) :=
  word_of (encR_fields _ _ _ _ _ _).1 (by decide)
theorem bclr (rd rs1 rs2 : Reg) : Statement (.bclr rd rs1 rs2) :=
  word_of (encR_fields _ _ _ _ _ _).1 (by decide)
theorem bclri (rd rs1 : Reg) (shamt : BitVec 5) : Statement (.bclri rd rs1 shamt) :=
  word_of (encR_fields _ _ _ _ _ _).1 (by decide)
theorem bext (rd rs1 rs2 : Reg) : Statement (.bext rd rs1 rs2) :=
  word_of (encR_fields _ _ _ _ _ _).1 (by decide)
theorem bexti (rd rs1 : Reg) (shamt : BitVec 5) : Statement (.bexti rd rs1 shamt) :=
  word_of (encR_fields _ _ _ _ _ _).1 (by decide)
theorem binv (rd rs1 rs2 : Reg) : Statement (.binv rd rs1 rs2) :=
  word_of (encR_fields _ _ _ _ _ _).1 (by decide)
theorem binvi (rd rs1 : Reg) (shamt : BitVec 5) : Statement (.binvi rd rs1 shamt) :=
  word_of (encR_fields _ _ _ _ _ _).1 (by decide)
theorem bset (rd rs1 rs2 : Reg) : Statement (.bset rd rs1 rs2) :=
  word_of (encR_fields _ _ _ _ _ _).1 (by decide)
theorem bseti (rd rs1 : Reg) (shamt : BitVec 5) : Statement (.bseti rd rs1 shamt) :=
  word_of (encR_fields _ _ _ _ _ _).1 (by decide)
theorem clmul (rd rs1 rs2 : Reg) : Statement (.clmul rd rs1 rs2) :=
  word_of (encR_fields _ _ _ _ _ _).1 (by decide)
theorem clmulh (rd rs1 rs2 : Reg) : Statement (.clmulh rd rs1 rs2) :=
  word_of (encR_fields _ _ _ _ _ _).1 (by decide)
theorem clmulr (rd rs1 rs2 : Reg) : Statement (.clmulr rd rs1 rs2) :=
  word_of (encR_fields _ _ _ _ _ _).1 (by decide)
theorem pack (rd rs1 rs2 : Reg) : Statement (.pack rd rs1 rs2) :=
  word_of (encR_fields _ _ _ _ _ _).1 (by decide)
theorem packh (rd rs1 rs2 : Reg) : Statement (.packh rd rs1 rs2) :=
  word_of (encR_fields _ _ _ _ _ _).1 (by decide)
theorem clz (rd rs1 : Reg) : Statement (.clz rd rs1) :=
  word_of (encR_fields _ _ _ _ _ _).1 (by decide)
theorem ctz (rd rs1 : Reg) : Statement (.ctz rd rs1) :=
  word_of (encR_fields _ _ _ _ _ _).1 (by decide)
theorem cpop (rd rs1 : Reg) : Statement (.cpop rd rs1) :=
  word_of (encR_fields _ _ _ _ _ _).1 (by decide)
theorem sextB (rd rs1 : Reg) : Statement (.sextB rd rs1) :=
  word_of (encR_fields _ _ _ _ _ _).1 (by decide)
theorem sextH (rd rs1 : Reg) : Statement (.sextH rd rs1) :=
  word_of (encR_fields _ _ _ _ _ _).1 (by decide)
theorem zip (rd rs1 : Reg) : Statement (.zip rd rs1) :=
  word_of (encR_fields _ _ _ _ _ _).1 (by decide)
theorem unzip (rd rs1 : Reg) : Statement (.unzip rd rs1) :=
  word_of (encR_fields _ _ _ _ _ _).1 (by decide)
theorem brev8 (rd rs1 : Reg) : Statement (.brev8 rd rs1) :=
  word_of (encR_fields _ _ _ _ _ _).1 (by decide)
theorem orcB (rd rs1 : Reg) : Statement (.orcB rd rs1) :=
  word_of (encR_fields _ _ _ _ _ _).1 (by decide)
theorem rev8 (rd rs1 : Reg) : Statement (.rev8 rd rs1) :=
  word_of (encR_fields _ _ _ _ _ _).1 (by decide)
theorem beq (rs1 rs2 : Reg) (off : BitVec 12) : Statement (.beq rs1 rs2 off) :=
  word_of (encB_fields _ _ _ _ _).1 (by decide)
theorem bne (rs1 rs2 : Reg) (off : BitVec 12) : Statement (.bne rs1 rs2 off) :=
  word_of (encB_fields _ _ _ _ _).1 (by decide)
theorem blt (rs1 rs2 : Reg) (off : BitVec 12) : Statement (.blt rs1 rs2 off) :=
  word_of (encB_fields _ _ _ _ _).1 (by decide)
theorem bge (rs1 rs2 : Reg) (off : BitVec 12) : Statement (.bge rs1 rs2 off) :=
  word_of (encB_fields _ _ _ _ _).1 (by decide)
theorem bltu (rs1 rs2 : Reg) (off : BitVec 12) : Statement (.bltu rs1 rs2 off) :=
  word_of (encB_fields _ _ _ _ _).1 (by decide)
theorem bgeu (rs1 rs2 : Reg) (off : BitVec 12) : Statement (.bgeu rs1 rs2 off) :=
  word_of (encB_fields _ _ _ _ _).1 (by decide)
theorem jal (rd : Reg) (off : BitVec 20) : Statement (.jal rd off) :=
  word_of (encJ_fields _ _ _).1 (by decide)
theorem jalr (rd rs1 : Reg) (imm : BitVec 12) : Statement (.jalr rd rs1 imm) :=
  word_of (encI_fields _ _ _ _ _).1 (by decide)
theorem lb (rd rs1 : Reg) (imm : BitVec 12) : Statement (.lb rd rs1 imm) :=
  word_of (encI_fields _ _ _ _ _).1 (by decide)
theorem lh (rd rs1 : Reg) (imm : BitVec 12) : Statement (.lh rd rs1 imm) :=
  word_of (encI_fields _ _ _ _ _).1 (by decide)
theorem lw (rd rs1 : Reg) (imm : BitVec 12) : Statement (.lw rd rs1 imm) :=
  word_of (encI_fields _ _ _ _ _).1 (by decide)
theorem lbu (rd rs1 : Reg) (imm : BitVec 12) : Statement (.lbu rd rs1 imm) :=
  word_of (encI_fields _ _ _ _ _).1 (by decide)
theorem lhu (rd rs1 : Reg) (imm : BitVec 12) : Statement (.lhu rd rs1 imm) :=
  word_of (encI_fields _ _ _ _ _).1 (by decide)
theorem sb (rs1 rs2 : Reg) (imm : BitVec 12) : Statement (.sb rs1 rs2 imm) :=
  word_of (encS_fields _ _ _ _ _).1 (by decide)
theorem sh (rs1 rs2 : Reg) (imm : BitVec 12) : Statement (.sh rs1 rs2 imm) :=
  word_of (encS_fields _ _ _ _ _).1 (by decide)
theorem sw (rs1 rs2 : Reg) (imm : BitVec 12) : Statement (.sw rs1 rs2 imm) :=
  word_of (encS_fields _ _ _ _ _).1 (by decide)
theorem lrW (rd rs1 : Reg) (aq rl : BitVec 1) : Statement (.lrW rd rs1 aq rl) :=
  word_of (encAmo_fields _ _ _ _ _ _).1 (by decide)
theorem scW (rd rs1 rs2 : Reg) (aq rl : BitVec 1) : Statement (.scW rd rs1 rs2 aq rl) :=
  word_of (encAmo_fields _ _ _ _ _ _).1 (by decide)
theorem amoswapW (rd rs1 rs2 : Reg) (aq rl : BitVec 1) : Statement (.amoswapW rd rs1 rs2 aq rl) :=
  word_of (encAmo_fields _ _ _ _ _ _).1 (by decide)
theorem amoaddW (rd rs1 rs2 : Reg) (aq rl : BitVec 1) : Statement (.amoaddW rd rs1 rs2 aq rl) :=
  word_of (encAmo_fields _ _ _ _ _ _).1 (by decide)
theorem amoxorW (rd rs1 rs2 : Reg) (aq rl : BitVec 1) : Statement (.amoxorW rd rs1 rs2 aq rl) :=
  word_of (encAmo_fields _ _ _ _ _ _).1 (by decide)
theorem amoandW (rd rs1 rs2 : Reg) (aq rl : BitVec 1) : Statement (.amoandW rd rs1 rs2 aq rl) :=
  word_of (encAmo_fields _ _ _ _ _ _).1 (by decide)
theorem amoorW (rd rs1 rs2 : Reg) (aq rl : BitVec 1) : Statement (.amoorW rd rs1 rs2 aq rl) :=
  word_of (encAmo_fields _ _ _ _ _ _).1 (by decide)
theorem amominW (rd rs1 rs2 : Reg) (aq rl : BitVec 1) : Statement (.amominW rd rs1 rs2 aq rl) :=
  word_of (encAmo_fields _ _ _ _ _ _).1 (by decide)
theorem amomaxW (rd rs1 rs2 : Reg) (aq rl : BitVec 1) : Statement (.amomaxW rd rs1 rs2 aq rl) :=
  word_of (encAmo_fields _ _ _ _ _ _).1 (by decide)
theorem amominuW (rd rs1 rs2 : Reg) (aq rl : BitVec 1) : Statement (.amominuW rd rs1 rs2 aq rl) :=
  word_of (encAmo_fields _ _ _ _ _ _).1 (by decide)
theorem amomaxuW (rd rs1 rs2 : Reg) (aq rl : BitVec 1) : Statement (.amomaxuW rd rs1 rs2 aq rl) :=
  word_of (encAmo_fields _ _ _ _ _ _).1 (by decide)
theorem csrrw (rd rs1 : Reg) (csr : CsrAddr) : Statement (.csrrw rd rs1 csr) :=
  word_of (encI_fields _ _ _ _ _).1 (by decide)
theorem csrrs (rd rs1 : Reg) (csr : CsrAddr) : Statement (.csrrs rd rs1 csr) :=
  word_of (encI_fields _ _ _ _ _).1 (by decide)
theorem csrrc (rd rs1 : Reg) (csr : CsrAddr) : Statement (.csrrc rd rs1 csr) :=
  word_of (encI_fields _ _ _ _ _).1 (by decide)
theorem csrrwi (rd : Reg) (uimm : BitVec 5) (csr : CsrAddr) : Statement (.csrrwi rd uimm csr) :=
  word_of (encI_fields _ _ _ _ _).1 (by decide)
theorem csrrsi (rd : Reg) (uimm : BitVec 5) (csr : CsrAddr) : Statement (.csrrsi rd uimm csr) :=
  word_of (encI_fields _ _ _ _ _).1 (by decide)
theorem csrrci (rd : Reg) (uimm : BitVec 5) (csr : CsrAddr) : Statement (.csrrci rd uimm csr) :=
  word_of (encI_fields _ _ _ _ _).1 (by decide)
theorem ecall : Statement .ecall :=
  word_of (op := 0b1110011#7) rfl (by decide)
theorem ebreak : Statement .ebreak :=
  word_of (op := 0b1110011#7) rfl (by decide)
theorem mret : Statement .mret :=
  word_of (op := 0b1110011#7) rfl (by decide)
theorem fence (fm pred succ : BitVec 4) (rs1 rd : Reg) : Statement (.fence fm pred succ rs1 rd) :=
  word_of (encFence_fields _ _ _ _ _).1 (by decide)
theorem fenceI (imm : BitVec 12) (rs1 rd : Reg) : Statement (.fenceI imm rs1 rd) :=
  word_of (encI_fields _ _ _ _ _).1 (by decide)
theorem h3Bextm (rd rs1 rs2 : Reg) (size : BitVec 3) : Statement (.h3Bextm rd rs1 rs2 size) :=
  word_of (encBextm_fields _ _ _ _ _).1 (by decide)
theorem h3Bextmi (rd rs1 : Reg) (shamt : BitVec 5) (size : BitVec 3) : Statement (.h3Bextmi rd rs1 shamt size) :=
  word_of (encBextm_fields _ _ _ _ _).1 (by decide)
theorem illegal16 : Statement .illegal16 :=
  half_of rfl (by decide)
theorem cAddi4spn (rd : ShortReg) (uimm : BitVec 8) : Statement (.cAddi4spn rd uimm) :=
  half_of (encAddi4spn_fields _ _).1 (by decide)
theorem cLw (rd rs1 : ShortReg) (uimm : BitVec 5) : Statement (.cLw rd rs1 uimm) :=
  half_of (encCls_fields _ _ _ _).1 (by decide)
theorem cSw (rs1 rs2 : ShortReg) (uimm : BitVec 5) : Statement (.cSw rs1 rs2 uimm) :=
  half_of (encCls_fields _ _ _ _).1 (by decide)
theorem cAddi (rd : Reg) (imm : BitVec 6) : Statement (.cAddi rd imm) :=
  half_of (encCi_fields _ _ _ _).1 (by decide)
theorem cJal (off : BitVec 11) : Statement (.cJal off) :=
  half_of (encCj_fields _ _).1 (by decide)
theorem cLi (rd : Reg) (imm : BitVec 6) : Statement (.cLi rd imm) :=
  half_of (encCi_fields _ _ _ _).1 (by decide)
theorem cLui (rd : Reg) (imm : BitVec 6) : Statement (.cLui rd imm) :=
  half_of (encCi_fields _ _ _ _).1 (by decide)
theorem cAddi16sp (imm : BitVec 6) : Statement (.cAddi16sp imm) :=
  half_of (encAddi16sp_fields _).1 (by decide)
theorem cSrli (rd : ShortReg) (shamt : BitVec 5) : Statement (.cSrli rd shamt) :=
  half_of (encCbAlu_fields _ _ _ _).1 (by decide)
theorem cSrai (rd : ShortReg) (shamt : BitVec 5) : Statement (.cSrai rd shamt) :=
  half_of (encCbAlu_fields _ _ _ _).1 (by decide)
theorem cAndi (rd : ShortReg) (imm : BitVec 6) : Statement (.cAndi rd imm) :=
  half_of (encCbAlu_fields _ _ _ _).1 (by decide)
theorem cSub (rd rs2 : ShortReg) : Statement (.cSub rd rs2) :=
  half_of (encCa_fields _ _ _).1 (by decide)
theorem cXor (rd rs2 : ShortReg) : Statement (.cXor rd rs2) :=
  half_of (encCa_fields _ _ _).1 (by decide)
theorem cOr (rd rs2 : ShortReg) : Statement (.cOr rd rs2) :=
  half_of (encCa_fields _ _ _).1 (by decide)
theorem cAnd (rd rs2 : ShortReg) : Statement (.cAnd rd rs2) :=
  half_of (encCa_fields _ _ _).1 (by decide)
theorem cJ (off : BitVec 11) : Statement (.cJ off) :=
  half_of (encCj_fields _ _).1 (by decide)
theorem cBeqz (rs1 : ShortReg) (off : BitVec 8) : Statement (.cBeqz rs1 off) :=
  half_of (encCb_fields _ _ _).1 (by decide)
theorem cBnez (rs1 : ShortReg) (off : BitVec 8) : Statement (.cBnez rs1 off) :=
  half_of (encCb_fields _ _ _).1 (by decide)
theorem cSlli (rd : Reg) (shamt : BitVec 5) : Statement (.cSlli rd shamt) :=
  half_of (encCi_fields _ _ _ _).1 (by decide)
theorem cLwsp (rd : Reg) (uimm : BitVec 6) : Statement (.cLwsp rd uimm) :=
  half_of (encLwsp_fields _ _).1 (by decide)
theorem cJr (rs1 : Reg) : Statement (.cJr rs1) :=
  half_of (encCr_fields _ _ _).1 (by decide)
theorem cMv (rd rs2 : Reg) : Statement (.cMv rd rs2) :=
  half_of (encCr_fields _ _ _).1 (by decide)
theorem cEbreak : Statement .cEbreak :=
  half_of rfl (by decide)
theorem cJalr (rs1 : Reg) : Statement (.cJalr rs1) :=
  half_of (encCr_fields _ _ _).1 (by decide)
theorem cAdd (rd rs2 : Reg) : Statement (.cAdd rd rs2) :=
  half_of (encCr_fields _ _ _).1 (by decide)
theorem cSwsp (rs2 : Reg) (uimm : BitVec 6) : Statement (.cSwsp rs2 uimm) :=
  half_of (encSwsp_fields _ _).1 (by decide)
theorem cmPush (rlist : BitVec 4) (spimm : BitVec 2) : Statement (.cmPush rlist spimm) :=
  half_of (encCmpp_fields _ _ _).1 (by decide)
theorem cmPop (rlist : BitVec 4) (spimm : BitVec 2) : Statement (.cmPop rlist spimm) :=
  half_of (encCmpp_fields _ _ _).1 (by decide)
theorem cmPopretz (rlist : BitVec 4) (spimm : BitVec 2) : Statement (.cmPopretz rlist spimm) :=
  half_of (encCmpp_fields _ _ _).1 (by decide)
theorem cmPopret (rlist : BitVec 4) (spimm : BitVec 2) : Statement (.cmPopret rlist spimm) :=
  half_of (encCmpp_fields _ _ _).1 (by decide)
theorem cmMvsa01 (r1s r2s : ShortReg) : Statement (.cmMvsa01 r1s r2s) :=
  half_of (encCmmv_fields _ _ _).1 (by decide)
theorem cmMva01s (r1s r2s : ShortReg) : Statement (.cmMva01s r1s r2s) :=
  half_of (encCmmv_fields _ _ _).1 (by decide)

end Sys2Proof.Laws.CodeLength
end

