-- ==== Sys2Proof/Laws/Rules.lean ====
section
/-!
SUPPORT. The terms of Safety.lean hold of the shared operations: what a computation, a trap, a load, a store and an AMO leave,
proved once for every instruction made from them.
-/

namespace Sys2Proof.Machine

/-- A computation leaves what `Computes` says. -/
theorem computes_commitRd (il : Word) (rd : Reg) (v : Word) (s : State) :
    Computes il rd v s ((s.writeReg rd v).advance il) := by
  obtain ⟨x, hx, h0⟩ := writeReg_eq s rd v
  have hr := fun r => readReg_writeReg s rd r v
  rw [hx] at hr ⊢
  exact ⟨⟨⟨rfl, fun c => by cases c <;> rfl, rfl, rfl, rfl⟩, rfl⟩, hr, rfl, ⟨fun _ => rfl, rfl⟩⟩

/-- Entering a trap leaves what `Trapped` says (R490). -/
theorem trapped_trapEnter (c : Cause) (s : State) : Trapped c s (trapEnter c.code s) :=
  ⟨fun _ => rfl, rfl, rfl, rfl, rfl, trapTarget_code _ _, trapStatus_getLsbD _ _, by
    intro r h1 h2 h3; cases r <;> first | rfl | contradiction, rfl, rfl⟩

/-- An instruction whose effect is one trap. -/
theorem traps_of_raise (i : Instr) (s : State) (c : Cause) (h : exec i s = raise c s) :
    Traps i s c :=
  ⟨_, h, trapped_trapEnter c s, ⟨fun _ => rfl, rfl⟩, rfl⟩

/-- An instruction that traps after memory accesses. -/
theorem trapsAfter_of_raise (i : Instr) (s u : State) (c : Cause) (h : exec i s = raise c u)
    (ho : OnlyMemory s u) : TrapsAfter i s u c := by
  obtain ⟨r, m, rfl⟩ := ho.eq
  refine ⟨_, h, ?_, fun _ => rfl, rfl, rfl⟩
  have := trapped_trapEnter c { s with ram := r, mem := m }
  exact ⟨this.1, this.2, this.3, this.4, this.5, this.6, this.7,
    fun r h1 h2 h3 => by cases r <;> first | rfl | contradiction, rfl, rfl⟩

/-- A load that completes leaves what `Loads` says (R301). -/
theorem loads_commitRd (il : Word) (rd : Reg) (v : Word) (s u : State) (m : MemPort) (h : u = { s with mem := m }) :
    Loads il rd v s u ((u.writeReg rd v).advance il) := by
  subst h
  obtain ⟨x, hx, h0⟩ := writeReg_eq { s with mem := m } rd v
  have hr := fun r => readReg_writeReg { s with mem := m } rd r v
  rw [hx] at hr ⊢
  exact ⟨⟨⟨rfl, fun c => by cases c <;> rfl, rfl, rfl, rfl⟩, rfl⟩, hr, rfl, fun _ => rfl, rfl⟩

/-- Every instruction that is a `loadOp` meets R301. -/
theorem loadRule_of_loadOp (i : Instr) (il : Word) (n : Width) (ext ext' : Word → Word) (rd : Reg) (a : Word) (s : State)
    (h : exec i s = loadOp il n ext' rd a s) (he : ext' = ext) : LoadRule i il n ext rd a s := by
  subst he
  rcases loadOp_cases il n ext' rd a s with ⟨ha, h'⟩ | ⟨ha, hm, h'⟩ | ⟨ha, v, hv, h'⟩ <;> rw [h'] at h
  · have ha' : ¬ a.toNat % n.bytes = 0 := by rw [← Width.aligned_iff]; simp [ha]
    exact ⟨fun h => absurd h ha', fun _ => traps_of_raise _ _ _ h, fun h => absurd h ha'⟩
  · have ha' := (Width.aligned_iff _ _).1 ha
    refine ⟨fun _ v u he => ?_, fun h => absurd ha' h, fun _ u he => ?_⟩
    · rw [he] at hm; cases hm
    · rw [he] at h
      have := onlyMemory_memRead s n a
      rw [he] at this
      exact trapsAfter_of_raise _ _ _ _ h this
  · have ha' := (Width.aligned_iff _ _).1 ha
    refine ⟨fun _ v' u he => ?_, fun h => absurd ha' h, fun _ u he => ?_⟩
    · rw [he] at h hv
      cases hv
      obtain ⟨m, hm⟩ := memRead_eq s n a
      rw [he] at hm
      exact ⟨_, h, loads_commitRd _ _ _ _ _ m hm⟩
    · rw [he] at hv; cases hv

/-- A write that answers `ok` leaves what `Stored` says (R87). -/
theorem stored_of_memWrite {s u : State} {n : Width} {a v : Word} (hwf : s.ram.wf = true) (h : s.memWrite n a v = .ok u) : Stored n a v s u := by
  rcases s.memWrite_cases n a v with ⟨hr, h'⟩ | ⟨hr, ⟨hm, h'⟩ | ⟨_, h'⟩ | ⟨c, _, h'⟩⟩ <;>
    rw [h'] at h <;> cases h
  · exact ⟨fun _ => ⟨rfl, fun k hk => ramWrite_read _ _ _ _ _ hwf hk⟩, fun h => (by rw [hr] at h; cases h), fun b hb => ramWrite_read_ne _ _ _ _ _ hb⟩
  · exact ⟨fun h => (by rw [hr] at h; cases h), fun _ => ⟨fun _ => rfl, hm, rfl⟩, fun b hb => rfl⟩

/-- Every instruction that is a `storeOp` meets R302. -/
theorem storeRule_of_storeOp (i : Instr) (il : Word) (n : Width) (a v : Word) (s : State) (hwf : s.ram.wf = true)
    (h : exec i s = storeOp il n a v s) : StoreRule i il n a v s := by
  rcases storeOp_cases il n a v s with ⟨ha, h'⟩ | ⟨ha, u, hu, h'⟩ | ⟨ha, u, hu, h'⟩ | ⟨ha, code, u, hu, h'⟩ <;> rw [h'] at h
  · have ha' : ¬ a.toNat % n.bytes = 0 := by rw [← Width.aligned_iff]; simp [ha]
    exact ⟨fun h => absurd h ha', fun _ => traps_of_raise _ _ _ h, fun h => absurd h ha', fun h => absurd h ha'⟩
  · have ha' := (Width.aligned_iff _ _).1 ha
    refine ⟨fun _ w hw => ?_, fun h => absurd ha' h, fun _ u he => ?_, fun _ c u he => ?_⟩ 
    · rw [hu] at hw; cases hw
      have st := stored_of_memWrite hwf hu
      have ho := onlyMemory_memWrite_ok ha hu
      obtain ⟨r, m, rfl⟩ := ho.eq
      exact ⟨_, h, ⟨⟨rfl, fun c => by cases c <;> rfl, rfl, rfl, rfl⟩, rfl⟩, fun _ => rfl, rfl, ⟨st.1, st.2, st.3⟩⟩
    · rw [hu] at he; cases he
    · rw [hu] at he; cases he
  · have ha' := (Width.aligned_iff _ _).1 ha
    refine ⟨fun _ w hw => ?_, fun h => absurd ha' h, fun _ u he => ?_, fun _ c u he => ?_⟩ <;> try (rw [hu] at *; contradiction)
    rw [hu] at he; cases he
    have := onlyMemory_memWrite_fail hu
    exact ⟨trapsAfter_of_raise _ _ _ _ h this.1, fun a => by rw [this.2]⟩
  · have ha' := (Width.aligned_iff _ _).1 ha
    refine ⟨fun _ w hw => ?_, fun h => absurd ha' h, fun _ u he => ?_, fun _ c u he => ?_⟩
    · rw [hu] at hw; cases hw
    · rw [hu] at he; cases he
    · rw [hu] at he; cases he
      have : u.ram = s.ram := by
        rcases s.memWrite_cases n a v with ⟨hr, h'⟩ | ⟨_, ⟨_, h'⟩ | ⟨_, h'⟩ | ⟨c, _, h'⟩⟩ <;>
          rw [h'] at hu <;> cases hu
        rfl
      exact ⟨h, fun a => by rw [this]⟩

/-- Every instruction that is an `amoOp` meets R327. -/
theorem amoRule_of_amoOp (i : Instr) (f : Word → Word → Word) (rd rs1 rs2 : Reg) (s : State) (hwf : s.ram.wf = true)
    (h : exec i s = amoOp f rd rs1 rs2 s) : AmoRule i f rd (s.readReg rs1) (s.readReg rs2) s := by
  generalize hp : s.memRead .word (s.readReg rs1) = p
  have hmr := onlyMemory_memRead s .word (s.readReg rs1)
  have hram : p.2.ram = s.ram := by rw [← hp]; simp
  rw [hp] at hmr
  rcases amoOp_cases f rd rs1 rs2 s with
    ⟨ha, h'⟩ | ⟨ha, hm, h'⟩ | ⟨ha, old, hm, h'⟩
  · rw [h'] at h
    have ha' : ¬ (s.readReg rs1).toNat % 4 = 0 := by rw [show 4 = Width.word.bytes from rfl, ← Width.aligned_iff]; simp [ha]
    exact ⟨fun h => absurd h ha', fun _ => traps_of_raise _ _ _ h, fun h => absurd h ha', fun h => absurd h ha', fun h => absurd h ha'⟩
  · rw [h'] at h
    have ha' := (Width.aligned_iff .word _).1 ha
    refine ⟨fun _ old u w hr => ?_, fun h => absurd ha' h, fun _ u hr => ?_, fun _ old u w hr => ?_, fun _ old u c w hr => ?_⟩ <;> rw [hp] at hr hm <;> cases hr
    · cases hm
    · rw [hp] at h; exact ⟨trapsAfter_of_raise _ _ _ _ h hmr, fun a => by rw [hram]⟩
    · cases hm
    · cases hm
  · have ha' := (Width.aligned_iff .word _).1 ha
    rw [hp] at hm h'
    have hw2 : p.2.ram.wf = true := by rw [hram]; exact hwf
    refine ⟨fun _ old u w hr hw => ?_, fun h => absurd ha' h, fun _ u hr => ?_, fun _ old u w hr hw => ?_, fun _ old u c w hr hw => ?_⟩ <;> rw [hp] at hr <;> cases hr <;> cases hm
    · rcases h' with ⟨u', hu, h'⟩ | ⟨u', hu, h'⟩ | ⟨c, u', hu, h'⟩ <;> rw [h'] at h <;> rw [hw] at hu <;> cases hu
      have st := stored_of_memWrite hw2 hw
      have ho := hmr.trans (onlyMemory_memWrite_ok ha hw)
      obtain ⟨r, m, rfl⟩ := ho.eq
      obtain ⟨x, hx, h0⟩ := writeReg_eq { s with ram := r, mem := m } rd old
      have hr := fun r' => readReg_writeReg { s with ram := r, mem := m } rd r' old
      rw [commitRd_next] at h
      rw [hx] at hr h
      exact ⟨_, h, ⟨⟨rfl, fun c => by cases c <;> rfl, rfl, rfl, rfl⟩, rfl⟩, hr, rfl, fun a => by rw [← hram], ⟨st.1, st.2, st.3⟩⟩
    · rcases h' with ⟨u', hu, h'⟩ | ⟨u', hu, h'⟩ | ⟨c, u', hu, h'⟩ <;> rw [h'] at h <;> rw [hw] at hu <;> cases hu
      have := onlyMemory_memWrite_fail hw
      exact ⟨trapsAfter_of_raise _ _ _ _ h (hmr.trans this.1), fun a => by rw [this.2, hram]⟩
    · rcases h' with ⟨u', hu, h'⟩ | ⟨u', hu, h'⟩ | ⟨c, u', hu, h'⟩ <;> rw [h'] at h <;> rw [hw] at hu <;> cases hu
      refine ⟨h, fun a => ?_⟩
      have : w.ram = s.ram := by
        rw [← hram]
        rcases State.memWrite_cases u .word (s.readReg rs1) (f old (s.readReg rs2)) with ⟨hr, h'⟩ | ⟨_, ⟨_, h'⟩ | ⟨_, h'⟩ | ⟨c, _, h'⟩⟩ <;>
          rw [h'] at hw <;> cases hw
        rfl
      rw [this]

end Sys2Proof.Machine
end

