-- ==== Sys2Proof/Machine/Asm.lean ====
section
/-!
DEFINITION. Names of the assembler, which no step reads: the ABI names of the registers (spec R23) and the expansions of the
pseudo-instructions (R151). "None is a hardware feature": each pseudo-instruction is the listed real ones. A label is given as
its offset from the address of the (first) instruction.
-/

namespace Sys2Proof.Machine

/-- The ABI names of a register, the usual one first (R23). -/
def abiNames (r : Reg) : List String :=
  match r.toNat with
  | 0 => ["zero"] | 1 => ["ra"] | 2 => ["sp"] | 3 => ["gp"] | 4 => ["tp"] | 5 => ["t0"] | 6 => ["t1"] | 7 => ["t2"]
  | 8 => ["s0", "fp"] | 9 => ["s1"] | 10 => ["a0"] | 11 => ["a1"] | 12 => ["a2"] | 13 => ["a3"] | 14 => ["a4"]
  | 15 => ["a5"] | 16 => ["a6"] | 17 => ["a7"] | 18 => ["s2"] | 19 => ["s3"] | 20 => ["s4"] | 21 => ["s5"] | 22 => ["s6"]
  | 23 => ["s7"] | 24 => ["s8"] | 25 => ["s9"] | 26 => ["s10"] | 27 => ["s11"] | 28 => ["t3"] | 29 => ["t4"]
  | 30 => ["t5"] | _ => ["t6"]

/-- The pseudo-instructions of R151. -/
inductive Pseudo where
  | nop
  | li (rd : Reg) (imm : Word)
  | mv (rd rs : Reg)
  | not (rd rs : Reg)
  | neg (rd rs : Reg)
  | seqz (rd rs : Reg)
  | snez (rd rs : Reg)
  | sltz (rd rs : Reg)
  | sgtz (rd rs : Reg)
  | bgt (rs rt : Reg) (off : BitVec 12)
  | ble (rs rt : Reg) (off : BitVec 12)
  | bgtu (rs rt : Reg) (off : BitVec 12)
  | bleu (rs rt : Reg) (off : BitVec 12)
  | beqz (rs : Reg) (off : BitVec 12)
  | bnez (rs : Reg) (off : BitVec 12)
  | blez (rs : Reg) (off : BitVec 12)
  | bgez (rs : Reg) (off : BitVec 12)
  | bltz (rs : Reg) (off : BitVec 12)
  | bgtz (rs : Reg) (off : BitVec 12)
  | j (off : BitVec 20)
  | jal (off : BitVec 20)
  | jr (rs : Reg)
  | jalr (rs : Reg)
  | ret
  | call (off : Word)
  | tail (off : Word)
  | la (rd : Reg) (off : Word)
  | csrr (rd : Reg) (csr : CsrAddr)
  | csrw (csr : CsrAddr) (rs : Reg)
  | csrs (csr : CsrAddr) (rs : Reg)
  | csrc (csr : CsrAddr) (rs : Reg)
  | csrwi (csr : CsrAddr) (u : BitVec 5)
  | csrsi (csr : CsrAddr) (u : BitVec 5)
  | csrci (csr : CsrAddr) (u : BitVec 5)
  | zextH (rd rs : Reg)
  | fence
  | cNop
deriving DecidableEq, Repr

/-- `hi20 = (imm + 0x800) >> 12` (R151). -/
def hi20 (imm : Word) : BitVec 20 := (imm + 0x800#32).extractLsb' 12 20

/-- `lo12 = imm[11:0]` (R151). -/
def lo12 (imm : Word) : BitVec 12 := imm.extractLsb' 0 12

/-- The real instructions a pseudo-instruction stands for (R151). -/
def Pseudo.expand : Pseudo → List Instr
  | .nop => [.addi 0 0 0]
  | .li rd imm =>
    if hi20 imm = 0 then [.addi rd 0 (lo12 imm)]
    else if lo12 imm = 0 then [.lui rd (hi20 imm)]
    else [.lui rd (hi20 imm), .addi rd rd (lo12 imm)]
  | .mv rd rs => [.addi rd rs 0]
  | .not rd rs => [.xori rd rs 0xFFF]
  | .neg rd rs => [.sub rd 0 rs]
  | .seqz rd rs => [.sltiu rd rs 1]
  | .snez rd rs => [.sltu rd 0 rs]
  | .sltz rd rs => [.slt rd rs 0]
  | .sgtz rd rs => [.slt rd 0 rs]
  | .bgt rs rt off => [.blt rt rs off]
  | .ble rs rt off => [.bge rt rs off]
  | .bgtu rs rt off => [.bltu rt rs off]
  | .bleu rs rt off => [.bgeu rt rs off]
  | .beqz rs off => [.beq rs 0 off]
  | .bnez rs off => [.bne rs 0 off]
  | .blez rs off => [.bge 0 rs off]
  | .bgez rs off => [.bge rs 0 off]
  | .bltz rs off => [.blt rs 0 off]
  | .bgtz rs off => [.blt 0 rs off]
  | .j off => [.jal 0 off]
  | .jal off => [.jal 1 off]
  | .jr rs => [.jalr 0 rs 0]
  | .jalr rs => [.jalr 1 rs 0]
  | .ret => [.jalr 0 1 0]
  | .call off => [.auipc 1 (hi20 off), .jalr 1 1 (lo12 off)]
  | .tail off => [.auipc 6 (hi20 off), .jalr 0 6 (lo12 off)]
  | .la rd off => [.auipc rd (hi20 off), .addi rd rd (lo12 off)]
  | .csrr rd csr => [.csrrs rd 0 csr]
  | .csrw csr rs => [.csrrw 0 rs csr]
  | .csrs csr rs => [.csrrs 0 rs csr]
  | .csrc csr rs => [.csrrc 0 rs csr]
  | .csrwi csr u => [.csrrwi 0 u csr]
  | .csrsi csr u => [.csrrsi 0 u csr]
  | .csrci csr u => [.csrrci 0 u csr]
  | .zextH rd rs => [.pack rd rs 0]
  | .fence => [.fence 0 15 15 0 0]
  | .cNop => [.cAddi 0 0]

end Sys2Proof.Machine
end

