-- ==== Sys2Proof/Tests/Slice0.lean ====
section
/-!
SUPPORT. Tests: well-formedness, words of the spec's tables decoded, single steps, and for every statement with hypotheses a
state that meets them. Expected values come from the spec: 95_test_vectors.md (its section is named at each test) and the
encodings of 40 to 49; none was produced by this model.
-/

namespace Sys2Proof.Tests

open Sys2Proof.Machine

/-! ## Small states -/

/-- Register `r` set to `v`. -/
def withReg (r v : Nat) (s : State) : State := s.writeReg (BitVec.ofNat 5 r) (BitVec.ofNat 32 v)

/-- The word `v` at address `a` of RAM. -/
def withWord (a v : Nat) (s : State) : State := { s with ram := ramWrite s.ram .word a (BitVec.ofNat 32 v) }

/-- The state before a single-instruction vector (95_test_vectors.md section 0): that of reset, `pc` 0x100, the window 0 to
0xFFFF, and a MEM that refuses everything. -/
def start : State := State.reset

/-- The state after a step. -/
def stepped (s : State) : Option State :=
  match step s with
  | .next t => some t
  | _ => none

/-- The state after the step that runs the code `w` placed at `pc`. -/
def after (nbits w : Nat) (s : State) : Option State := stepped (s.withFetchWord nbits w)

/-- Register `r` and `pc` after a step of `w` from `s`. -/
def regPc (r nbits w : Nat) (s : State) : Option (Word × Word) :=
  (after nbits w s).map fun t => (t.readReg (BitVec.ofNat 5 r), t.pc)

/-- x3 after a 32-bit `w` that ran on to 0x104, with x1 = `a` and x2 = `b`. -/
def x3 (w a b : Nat) : Option Word :=
  match regPc 3 32 w (start |> withReg 1 a |> withReg 2 b) with
  | some (v, p) => if p = 0x104#32 then some v else none
  | none => none

/-- Whether a step or an instruction answers a next state. -/
def isNext : Result → Bool
  | .next _ => true
  | _ => false

/-- What a trap leaves, as the vectors list it. -/
structure TrapView where
  mcause : Word
  mepc : Word
  pc : Word
  mstatus : Word
  priv : Priv
deriving DecidableEq, Repr

/-- What a step of `w` leaves of it. -/
def trapView (nbits w : Nat) (s : State) : Option TrapView :=
  (after nbits w s).map fun t => ⟨t.mcause, t.mepc, t.pc, t.mstatus, t.priv⟩

/-- The word at address `a` of RAM after a step of `w`. -/
def wordAfter (a nbits w : Nat) (s : State) : Option Word := (after nbits w s).map fun t => ramRead t.ram .word a

/-! ## Well-formedness: one ill-formed term for each check -/

theorem test_wf_refuses :
    [Instr.cAddi4spn 0 0, .cLui 2 1, .cLui 1 0, .cAddi16sp 0, .cLwsp 0 1, .cJr 0, .cJalr 0, .cMv 1 0, .cAdd 1 0,
      .cmPush 3 0, .cmPop 3 0, .cmPopretz 3 0, .cmPopret 3 0, .cmMvsa01 5 5].all (fun i => !i.wf) = true := by decide

theorem test_wf_accepts :
    [Instr.cAddi4spn 0 1, .cLui 1 1, .cLui 0 1, .cAddi16sp 1, .cLwsp 1 0, .cJr 1, .cJalr 1, .cMv 0 1, .cAdd 0 1,
      .cmPush 4 0, .cmPop 4 0, .cmPopretz 15 3, .cmPopret 4 0, .cmMvsa01 5 4, .cmMva01s 5 5].all Instr.wf = true := by
  decide

/-! ## Decoding: for every constructor a word of the spec's tables or a word written from its encoding there

The words are those of 95_test_vectors.md sections 2.1 to 2.10; the assembly text beside each word there names the
operands. -/

theorem test_decode_op :
    decodeTableWord 32 0x002081B3 = some (.add 3 1 2) ∧ decodeTableWord 32 0x402081B3 = some (.sub 3 1 2)
    ∧ decodeTableWord 32 0x002091B3 = some (.sll 3 1 2) ∧ decodeTableWord 32 0x0020A1B3 = some (.slt 3 1 2)
    ∧ decodeTableWord 32 0x0020B1B3 = some (.sltu 3 1 2) ∧ decodeTableWord 32 0x0020C1B3 = some (.xor 3 1 2)
    ∧ decodeTableWord 32 0x0020D1B3 = some (.srl 3 1 2) ∧ decodeTableWord 32 0x4020D1B3 = some (.sra 3 1 2)
    ∧ decodeTableWord 32 0x0020E1B3 = some (.or 3 1 2) ∧ decodeTableWord 32 0x0020F1B3 = some (.and 3 1 2) := by
  decide

theorem test_decode_op_imm :
    decodeTableWord 32 0xFFF08093 = some (.addi 1 1 0xFFF) ∧ decodeTableWord 32 0xFFF0A193 = some (.slti 3 1 0xFFF)
    ∧ decodeTableWord 32 0x0010B193 = some (.sltiu 3 1 1) ∧ decodeTableWord 32 0xFFF0C193 = some (.xori 3 1 0xFFF)
    ∧ decodeTableWord 32 0x8000E193 = some (.ori 3 1 0x800) ∧ decodeTableWord 32 0x7FF0F193 = some (.andi 3 1 0x7FF)
    ∧ decodeTableWord 32 0x01F09193 = some (.slli 3 1 31) ∧ decodeTableWord 32 0x0040D193 = some (.srli 3 1 4)
    ∧ decodeTableWord 32 0x4040D193 = some (.srai 3 1 4) ∧ decodeTableWord 32 0xFFFFF1B7 = some (.lui 3 0xFFFFF)
    ∧ decodeTableWord 32 0xFFFFF197 = some (.auipc 3 0xFFFFF) := by decide

theorem test_decode_muldiv :
    decodeTableWord 32 0x022081B3 = some (.mul 3 1 2) ∧ decodeTableWord 32 0x022091B3 = some (.mulh 3 1 2)
    ∧ decodeTableWord 32 0x0220A1B3 = some (.mulhsu 3 1 2) ∧ decodeTableWord 32 0x0220B1B3 = some (.mulhu 3 1 2)
    ∧ decodeTableWord 32 0x0220C1B3 = some (.div 3 1 2) ∧ decodeTableWord 32 0x0220D1B3 = some (.divu 3 1 2)
    ∧ decodeTableWord 32 0x0220E1B3 = some (.rem 3 1 2) ∧ decodeTableWord 32 0x0220F1B3 = some (.remu 3 1 2) := by
  decide

theorem test_decode_bitmanip_register :
    decodeTableWord 32 0x4020F1B3 = some (.andn 3 1 2) ∧ decodeTableWord 32 0x4020E1B3 = some (.orn 3 1 2)
    ∧ decodeTableWord 32 0x4020C1B3 = some (.xnor 3 1 2) ∧ decodeTableWord 32 0x2020A1B3 = some (.sh1add 3 1 2)
    ∧ decodeTableWord 32 0x2020C1B3 = some (.sh2add 3 1 2) ∧ decodeTableWord 32 0x2020E1B3 = some (.sh3add 3 1 2)
    ∧ decodeTableWord 32 0x0A20E1B3 = some (.max 3 1 2) ∧ decodeTableWord 32 0x0A20F1B3 = some (.maxu 3 1 2)
    ∧ decodeTableWord 32 0x0A20C1B3 = some (.min 3 1 2) ∧ decodeTableWord 32 0x0A20D1B3 = some (.minu 3 1 2)
    ∧ decodeTableWord 32 0x602091B3 = some (.rol 3 1 2) ∧ decodeTableWord 32 0x6020D1B3 = some (.ror 3 1 2)
    ∧ decodeTableWord 32 0x482091B3 = some (.bclr 3 1 2) ∧ decodeTableWord 32 0x4820D1B3 = some (.bext 3 1 2)
    ∧ decodeTableWord 32 0x682091B3 = some (.binv 3 1 2) ∧ decodeTableWord 32 0x282091B3 = some (.bset 3 1 2)
    ∧ decodeTableWord 32 0x0A2091B3 = some (.clmul 3 1 2) ∧ decodeTableWord 32 0x0A20B1B3 = some (.clmulh 3 1 2)
    ∧ decodeTableWord 32 0x0A20A1B3 = some (.clmulr 3 1 2) ∧ decodeTableWord 32 0x0820C1B3 = some (.pack 3 1 2)
    ∧ decodeTableWord 32 0x0820F1B3 = some (.packh 3 1 2) := by decide

theorem test_decode_bitmanip_immediate :
    decodeTableWord 32 0x6040D193 = some (.rori 3 1 4) ∧ decodeTableWord 32 0x48009193 = some (.bclri 3 1 0)
    ∧ decodeTableWord 32 0x4840D193 = some (.bexti 3 1 4) ∧ decodeTableWord 32 0x69F09193 = some (.binvi 3 1 31)
    ∧ decodeTableWord 32 0x28509193 = some (.bseti 3 1 5) ∧ decodeTableWord 32 0x60009193 = some (.clz 3 1)
    ∧ decodeTableWord 32 0x60109193 = some (.ctz 3 1) ∧ decodeTableWord 32 0x60209193 = some (.cpop 3 1)
    ∧ decodeTableWord 32 0x60409193 = some (.sextB 3 1) ∧ decodeTableWord 32 0x60509193 = some (.sextH 3 1)
    ∧ decodeTableWord 32 0x08F09193 = some (.zip 3 1) ∧ decodeTableWord 32 0x08F0D193 = some (.unzip 3 1)
    ∧ decodeTableWord 32 0x6870D193 = some (.brev8 3 1) ∧ decodeTableWord 32 0x2870D193 = some (.orcB 3 1)
    ∧ decodeTableWord 32 0x6980D193 = some (.rev8 3 1) := by decide

/-- The branch and jump offsets are in halfwords: +16 is 8, -8 is -4, +0x800 is 0x400. -/
theorem test_decode_control :
    decodeTableWord 32 0xFE208CE3 = some (.beq 1 2 0xFFC) ∧ decodeTableWord 32 0x00209863 = some (.bne 1 2 8)
    ∧ decodeTableWord 32 0x0020C863 = some (.blt 1 2 8) ∧ decodeTableWord 32 0x0020D863 = some (.bge 1 2 8)
    ∧ decodeTableWord 32 0x0020E863 = some (.bltu 1 2 8) ∧ decodeTableWord 32 0xFE20FCE3 = some (.bgeu 1 2 0xFFC)
    ∧ decodeTableWord 32 0x001000EF = some (.jal 1 0x400) ∧ decodeTableWord 32 0x800F80EF = some (.jal 1 0xFC000)
    ∧ decodeTableWord 32 0xFFC08067 = some (.jalr 0 1 0xFFC) := by decide

theorem test_decode_load_store :
    decodeTableWord 32 0x00308183 = some (.lb 3 1 3) ∧ decodeTableWord 32 0x00209183 = some (.lh 3 1 2)
    ∧ decodeTableWord 32 0xFFC0A183 = some (.lw 3 1 0xFFC) ∧ decodeTableWord 32 0x0030C183 = some (.lbu 3 1 3)
    ∧ decodeTableWord 32 0x0020D183 = some (.lhu 3 1 2) ∧ decodeTableWord 32 0x002080A3 = some (.sb 1 2 1)
    ∧ decodeTableWord 32 0x00209123 = some (.sh 1 2 2) ∧ decodeTableWord 32 0xFE20AE23 = some (.sw 1 2 0xFFC) := by
  decide

theorem test_decode_atomics :
    decodeTableWord 32 0x1600A1AF = some (.lrW 3 1 1 1) ∧ decodeTableWord 32 0x1820A22F = some (.scW 4 1 2 0 0)
    ∧ decodeTableWord 32 0x0C20A1AF = some (.amoswapW 3 1 2 1 0) ∧ decodeTableWord 32 0x0020A1AF = some (.amoaddW 3 1 2 0 0)
    ∧ decodeTableWord 32 0x2020A1AF = some (.amoxorW 3 1 2 0 0) ∧ decodeTableWord 32 0x6020A1AF = some (.amoandW 3 1 2 0 0)
    ∧ decodeTableWord 32 0x4020A1AF = some (.amoorW 3 1 2 0 0) ∧ decodeTableWord 32 0x8020A1AF = some (.amominW 3 1 2 0 0)
    ∧ decodeTableWord 32 0xA020A1AF = some (.amomaxW 3 1 2 0 0)
    ∧ decodeTableWord 32 0xC020A1AF = some (.amominuW 3 1 2 0 0)
    ∧ decodeTableWord 32 0xE020A1AF = some (.amomaxuW 3 1 2 0 0) := by decide

theorem test_decode_system :
    decodeTableWord 32 0x34029373 = some (.csrrw 6 5 0x340) ∧ decodeTableWord 32 0x30432073 = some (.csrrs 0 6 0x304)
    ∧ decodeTableWord 32 0x300332F3 = some (.csrrc 5 6 0x300) ∧ decodeTableWord 32 0x3402D073 = some (.csrrwi 0 5 0x340)
    ∧ decodeTableWord 32 0x30046073 = some (.csrrsi 0 8 0x300) ∧ decodeTableWord 32 0x300472F3 = some (.csrrci 5 8 0x300)
    ∧ decodeTableWord 32 0x00000073 = some .ecall ∧ decodeTableWord 32 0x00100073 = some .ebreak
    ∧ decodeTableWord 32 0x30200073 = some .mret ∧ decodeTableWord 32 0x0FF0000F = some (.fence 0 15 15 0 0)
    ∧ decodeTableWord 32 0x0000100F = some (.fenceI 0 0 0) ∧ decodeTableWord 32 0x1C20818B = some (.h3Bextm 3 1 2 7)
    ∧ decodeTableWord 32 0x0C40C18B = some (.h3Bextmi 3 1 4 3) := by decide

/-- The three-bit register fields number from x8, and the immediates are without their low zero bits: `c.lw x10, 8(x11)` is
field 2 from field 3, two words on. -/
theorem test_decode_compressed :
    decodeTableWord 16 0x0000 = some .illegal16 ∧ decodeTableWord 16 0x1FE8 = some (.cAddi4spn 2 255)
    ∧ decodeTableWord 16 0x0800 = some (.cAddi4spn 0 4) ∧ decodeTableWord 16 0x4588 = some (.cLw 2 3 2)
    ∧ decodeTableWord 16 0xC050 = some (.cSw 0 4 1) ∧ decodeTableWord 16 0x157D = some (.cAddi 10 0x3F)
    ∧ decodeTableWord 16 0x2021 = some (.cJal 4) ∧ decodeTableWord 16 0x3001 = some (.cJal 0x400)
    ∧ decodeTableWord 16 0x5501 = some (.cLi 10 0x20) ∧ decodeTableWord 16 0x757D = some (.cLui 10 0x3F)
    ∧ decodeTableWord 16 0x7139 = some (.cAddi16sp 0x3C) ∧ decodeTableWord 16 0x617D = some (.cAddi16sp 0x1F)
    ∧ decodeTableWord 16 0x8011 = some (.cSrli 0 4) ∧ decodeTableWord 16 0x8491 = some (.cSrai 1 4)
    ∧ decodeTableWord 16 0x9941 = some (.cAndi 2 0x30) ∧ decodeTableWord 16 0x8C05 = some (.cSub 0 1)
    ∧ decodeTableWord 16 0x8D2D = some (.cXor 2 3) ∧ decodeTableWord 16 0x8E55 = some (.cOr 4 5)
    ∧ decodeTableWord 16 0x8F7D = some (.cAnd 6 7) ∧ decodeTableWord 16 0xBFF5 = some (.cJ 0x7FE)
    ∧ decodeTableWord 16 0xC019 = some (.cBeqz 0 3) ∧ decodeTableWord 16 0xF381 = some (.cBnez 7 0x80)
    ∧ decodeTableWord 16 0x0512 = some (.cSlli 10 4) ∧ decodeTableWord 16 0x40B2 = some (.cLwsp 1 3)
    ∧ decodeTableWord 16 0x8082 = some (.cJr 1) ∧ decodeTableWord 16 0x852E = some (.cMv 10 11)
    ∧ decodeTableWord 16 0x9002 = some .cEbreak ∧ decodeTableWord 16 0x9282 = some (.cJalr 5)
    ∧ decodeTableWord 16 0x952E = some (.cAdd 10 11) ∧ decodeTableWord 16 0xDF86 = some (.cSwsp 1 63) := by decide

theorem test_decode_zcmp :
    decodeTableWord 16 0xB85E = some (.cmPush 5 3) ∧ decodeTableWord 16 0xBA66 = some (.cmPop 6 1)
    ∧ decodeTableWord 16 0xBC42 = some (.cmPopretz 4 0) ∧ decodeTableWord 16 0xBE62 = some (.cmPopret 6 0)
    ∧ decodeTableWord 16 0xAC26 = some (.cmMvsa01 0 1) ∧ decodeTableWord 16 0xAFAA = some (.cmMvsa01 7 2)
    ∧ decodeTableWord 16 0xAD7E = some (.cmMva01s 2 7) := by decide

/-- The rows in parentheses of 95_test_vectors.md section 2: an encoding beside a legal one, which is none. -/
theorem test_decode_illegal_neighbours :
    (∀ w ∈ [0x02109193, 0x402091B3, 0x60309193, 0x6990D193, 0x08E09193, 0x000290E7, 0x0020A863, 0x0020B863, 0x0000B183,
      0x0000E183, 0x0020B023, 0x1020A1AF, 0x2820A1AF, 0x0020B1AF, 0x340042F3, 0x10500073, 0x10200073, 0x000000F3,
      0x0000200F, 0x1C20918B, 0x1E20818B, 0x3C20818B], decodeTableWord 32 w = none)
    ∧ ∀ w ∈ [0x0004, 0x6501, 0x6101, 0x9011, 0x9C01, 0xB832, 0xADAE, 0xA002], decodeTableWord 16 w = none := by decide

/-! ## Single steps: rows of 95_test_vectors.md -/

/-- Section 2.1. -/
theorem test_integer_register :
    x3 0x002081B3 0x7FFFFFFF 1 = some 0x80000000#32 ∧ x3 0x402081B3 0 1 = some 0xFFFFFFFF#32
    ∧ x3 0x002091B3 1 0x21 = some 2#32 ∧ x3 0x0020A1B3 0xFFFFFFFF 1 = some 1#32
    ∧ x3 0x0020B1B3 0xFFFFFFFF 1 = some 0#32 ∧ x3 0x0020C1B3 0xFF00FF00 0x0FF00FF0 = some 0xF0F0F0F0#32
    ∧ x3 0x0020D1B3 0x80000000 0x1F = some 1#32 ∧ x3 0x4020D1B3 0x80000000 0x24 = some 0xF8000000#32
    ∧ x3 0x0020E1B3 0xF0F00000 0x0F0F0000 = some 0xFFFF0000#32
    ∧ x3 0x0020F1B3 0xF0F0F0F0 0xFF00FF00 = some 0xF000F000#32 := by decide

/-- Section 2.1, with `add x0, x1, x2`, which writes nothing. -/
theorem test_integer_immediate :
    x3 0xFFF0A193 0x80000000 0 = some 1#32 ∧ x3 0xFFF0B193 0xFFFFFFFE 0 = some 1#32
    ∧ x3 0xFFF0C193 0x12345678 0 = some 0xEDCBA987#32 ∧ x3 0x8000E193 1 0 = some 0xFFFFF801#32
    ∧ x3 0x7FF0F193 0xFFFFFFFF 0 = some 0x7FF#32 ∧ x3 0x01F09193 3 0 = some 0x80000000#32
    ∧ x3 0x0040D193 0x87654321 0 = some 0x08765432#32 ∧ x3 0x4040D193 0x87654321 0 = some 0xF8765432#32
    ∧ x3 0xFFFFF1B7 0 0 = some 0xFFFFF000#32
    ∧ regPc 1 32 0x7FF08093 (start |> withReg 1 0x7FFFF801) = some (0x80000000#32, 0x104#32)
    ∧ regPc 3 32 0xFFFFF197 { start with pc := 0x2000#32 } = some (0x1000#32, 0x2004#32)
    ∧ regPc 0 32 0x00208033 (start |> withReg 1 5 |> withReg 2 6) = some (0#32, 0x104#32) := by decide

/-- Section 2.2. -/
theorem test_muldiv :
    x3 0x022081B3 0x12345678 0x9ABCDEF0 = some 0x242D2080#32 ∧ x3 0x022091B3 0x80000000 0x7FFFFFFF = some 0xC0000000#32
    ∧ x3 0x0220A1B3 0xFFFFFFFF 0xFFFFFFFF = some 0xFFFFFFFF#32 ∧ x3 0x0220B1B3 0x80000000 0x7FFFFFFF = some 0x3FFFFFFF#32
    ∧ x3 0x0220C1B3 7 0xFFFFFFFE = some 0xFFFFFFFD#32 ∧ x3 0x0220C1B3 0x80000000 0xFFFFFFFF = some 0x80000000#32
    ∧ x3 0x0200C1B3 0x80000000 0 = some 0xFFFFFFFF#32 ∧ x3 0x0220D1B3 0xFFFFFFF9 2 = some 0x7FFFFFFC#32
    ∧ x3 0x0220E1B3 0xFFFFFFF9 2 = some 0xFFFFFFFF#32 ∧ x3 0x0200E1B3 0x80000000 0 = some 0x80000000#32
    ∧ x3 0x0220F1B3 0xFFFFFFF9 2 = some 1#32 := by decide

/-- Section 2.3. -/
theorem test_bitmanip_register :
    x3 0x4020F1B3 0xFFFF0000 0xFF00FF00 = some 0x00FF0000#32 ∧ x3 0x4020E1B3 0xFFFF0000 0xFF00FF00 = some 0xFFFF00FF#32
    ∧ x3 0x4020C1B3 0xFFFF0000 0xFF00FF00 = some 0xFF0000FF#32 ∧ x3 0x2020A1B3 0x80000001 0x10 = some 0x12#32
    ∧ x3 0x2020C1B3 0x40000001 0x10 = some 0x14#32 ∧ x3 0x2020E1B3 0x20000001 0xFFFFFFFF = some 7#32
    ∧ x3 0x0A20E1B3 0x80000000 0x7FFFFFFF = some 0x7FFFFFFF#32 ∧ x3 0x0A20F1B3 0x80000000 0x7FFFFFFF = some 0x80000000#32
    ∧ x3 0x0A20C1B3 0x80000000 0x7FFFFFFF = some 0x80000000#32 ∧ x3 0x0A20D1B3 0x80000000 0x7FFFFFFF = some 0x7FFFFFFF#32
    ∧ x3 0x602091B3 0x12345678 8 = some 0x34567812#32 ∧ x3 0x6020D1B3 0x12345678 0x18 = some 0x34567812#32
    ∧ x3 0x482091B3 0xFFFFFFFF 0x3F = some 0x7FFFFFFF#32 ∧ x3 0x4820D1B3 0x80000000 0x1F = some 1#32
    ∧ x3 0x682091B3 0 0x23 = some 8#32 ∧ x3 0x282091B3 0 0x1F = some 0x80000000#32
    ∧ x3 0x0820C1B3 0x1234ABCD 0x5678EF01 = some 0xEF01ABCD#32
    ∧ x3 0x0820F1B3 0x1234ABCD 0x5678EF01 = some 0x1CD#32 := by decide

/-- Section 2.3. -/
theorem test_carryless :
    x3 0x0A2091B3 0x12345678 0x9ABCDEF0 = some 0x5CD25A80#32 ∧ x3 0x0A20B1B3 0x12345678 0x9ABCDEF0 = some 0x08860E94#32
    ∧ x3 0x0A20A1B3 0x12345678 0x9ABCDEF0 = some 0x110C1D28#32 := by decide

/-- Section 2.3. -/
theorem test_bitmanip_unary :
    x3 0x6040D193 0x12345678 0 = some 0x81234567#32 ∧ x3 0x48009193 0xFFFFFFFF 0 = some 0xFFFFFFFE#32
    ∧ x3 0x4840D193 0x10 0 = some 1#32 ∧ x3 0x69F09193 0xFFFFFFFF 0 = some 0x7FFFFFFF#32
    ∧ x3 0x28509193 0x20 0 = some 0x20#32 ∧ x3 0x60009193 0x10000 0 = some 15#32 ∧ x3 0x60109193 0 0 = some 32#32
    ∧ x3 0x60209193 0x12345678 0 = some 13#32 ∧ x3 0x60409193 0x12345680 0 = some 0xFFFFFF80#32
    ∧ x3 0x60509193 0x12348000 0 = some 0xFFFF8000#32 ∧ x3 0x08F09193 0x12345678 0 = some 0x131C1F60#32
    ∧ x3 0x08F0D193 0x131C1F60 0 = some 0x12345678#32 ∧ x3 0x6870D193 0x12345678 0 = some 0x482C6A1E#32
    ∧ x3 0x2870D193 0x00120034 0 = some 0x00FF00FF#32 ∧ x3 0x6980D193 0x12345678 0 = some 0x78563412#32 := by decide

/-- Section 2.4. -/
theorem test_control :
    let s := start |> withReg 1 0xFFFFFFFF |> withReg 2 1
    (after 32 0x00208863 s).map (·.pc) = some 0x104#32 ∧ (after 32 0x00209863 s).map (·.pc) = some 0x110#32
    ∧ (after 32 0x0020C863 s).map (·.pc) = some 0x110#32 ∧ (after 32 0x0020D863 s).map (·.pc) = some 0x104#32
    ∧ (after 32 0x0020E863 s).map (·.pc) = some 0x104#32 ∧ (after 32 0x0020F863 s).map (·.pc) = some 0x110#32
    ∧ (after 32 0x80000063 { start with pc := 0x1000#32 }).map (·.pc) = some 0#32
    ∧ regPc 1 32 0x800F80EF { start with pc := 0x8000#32 } = some (0x8004#32, 0#32)
    ∧ regPc 5 32 0x000282E7 (start |> withReg 5 0x300) = some (0x104#32, 0x300#32)
    ∧ regPc 1 32 0x005280E7 (start |> withReg 5 0x200) = some (0x104#32, 0x204#32) := by decide

/-- Section 2.5: loads from a word of known bytes. -/
theorem test_loads :
    let s := start |> withReg 1 0x200 |> withWord 0x200 0x8899AABB
    regPc 3 32 0x00308183 s = some (0xFFFFFF88#32, 0x104#32) ∧ regPc 3 32 0x0030C183 s = some (0x88#32, 0x104#32)
    ∧ regPc 3 32 0x00209183 s = some (0xFFFF8899#32, 0x104#32) ∧ regPc 3 32 0x0020D183 s = some (0x8899#32, 0x104#32)
    ∧ regPc 3 32 0xFFC0A183 (s |> withReg 1 0x204) = some (0x8899AABB#32, 0x104#32)
    ∧ trapView 32 0x0010A183 (start |> withReg 1 0x10000) = some ⟨4#32, 0x100#32, 0#32, 0x1800#32, .M⟩
    ∧ trapView 32 0x0000A183 (start |> withReg 1 0x10000) = some ⟨5#32, 0x100#32, 0#32, 0x1800#32, .M⟩ := by decide

/-- Section 2.5: stores. -/
theorem test_stores :
    let s := start |> withReg 1 0x200 |> withReg 2 0x12345678 |> withWord 0x200 0x8899AABB
    wordAfter 0x200 32 0x002080A3 (s |> withReg 2 0x123456FF) = some 0x8899FFBB#32
    ∧ wordAfter 0x200 32 0x00209123 s = some 0x5678AABB#32 ∧ wordAfter 0x200 32 0x0020A023 s = some 0x12345678#32
    ∧ trapView 32 0x0020A123 s = some ⟨6#32, 0x100#32, 0#32, 0x1800#32, .M⟩
    ∧ trapView 32 0x0020A023 (s |> withReg 1 0x10000) = some ⟨7#32, 0x100#32, 0#32, 0x1800#32, .M⟩ := by decide

/-- Section 2.6: the reservation. -/
theorem test_lr_sc :
    let s := start |> withReg 1 0x200 |> withReg 2 7 |> withReg 4 0x55 |> withWord 0x200 0x2A
    (after 32 0x1600A1AF s).map (fun t => (t.readReg 3, t.reserved)) = some (0x2A#32, true)
    ∧ (after 32 0x1820A22F { s with reserved := true }).map (fun t => (t.readReg 4, t.reserved, ramRead t.ram .word 0x200))
        = some (0#32, false, 7#32)
    ∧ (after 32 0x1820A22F s).map (fun t => (t.readReg 4, ramRead t.ram .word 0x200)) = some (1#32, 0x2A#32)
    ∧ (after 32 0x1820A22F { s with reserved := true } |>.map (·.pc)) = some 0x104#32
    ∧ (after 32 0x1820A22F { (s |> withReg 1 0x10000) with reserved := true }).map
        (fun t => (t.mcause, t.readReg 4, t.reserved)) = some (7#32, 0x55#32, true) := by decide

/-- x3 and the word at 0x200 after an AMO on the word `m` there with x2 = `b`. -/
def amo (w m b : Nat) : Option (Word × Word) :=
  (after 32 w (start |> withReg 1 0x200 |> withReg 2 b |> withWord 0x200 m)).map
    fun t => (t.readReg 3, ramRead t.ram .word 0x200)

/-- Section 2.6: the read-modify-writes. -/
theorem test_amo :
    amo 0x0820A1AF 5 9 = some (5#32, 9#32) ∧ amo 0x0020A1AF 0xFFFFFFFF 1 = some (0xFFFFFFFF#32, 0#32)
    ∧ amo 0x2020A1AF 0xFF00FF00 0x0FF00FF0 = some (0xFF00FF00#32, 0xF0F0F0F0#32)
    ∧ amo 0x6020A1AF 0xF0F0F0F0 0xFF00FF00 = some (0xF0F0F0F0#32, 0xF000F000#32)
    ∧ amo 0x4020A1AF 0xF0F0F0F0 0x0F0F0000 = some (0xF0F0F0F0#32, 0xFFFFF0F0#32)
    ∧ amo 0x8020A1AF 0xFFFFFFFF 1 = some (0xFFFFFFFF#32, 0xFFFFFFFF#32)
    ∧ amo 0xA020A1AF 0xFFFFFFFF 1 = some (0xFFFFFFFF#32, 1#32) ∧ amo 0xC020A1AF 0xFFFFFFFF 1 = some (0xFFFFFFFF#32, 1#32)
    ∧ amo 0xE020A1AF 0xFFFFFFFF 1 = some (0xFFFFFFFF#32, 0xFFFFFFFF#32)
    ∧ trapView 32 0x0020A1AF (start |> withReg 1 0x10000) = some ⟨7#32, 0x100#32, 0#32, 0x1800#32, .M⟩ := by decide

/-- Section 2.7: the CSR instructions, seen after the step. -/
theorem test_csr :
    (after 32 0x340292F3 { (start |> withReg 5 0x22) with mscratch := 0x11#32 }).map (fun t => (t.readReg 5, t.mscratch))
        = some (0x11#32, 0x22#32)
    ∧ (after 32 0x30432073 { (start |> withReg 6 0xF0) with mie := 0xF#32 }).map (·.mie) = some 0xFF#32
    ∧ (after 32 0x300332F3 { (start |> withReg 6 8) with mstatus := 0x88#32 }).map (fun t => (t.readReg 5, t.mstatus))
        = some (0x88#32, 0x80#32)
    ∧ (after 32 0x340052F3 { start with mscratch := 0x11#32 }).map (fun t => (t.readReg 5, t.mscratch)) = some (0x11#32, 0#32)
    ∧ (after 32 0x30046073 start).map (·.mstatus) = some 8#32
    ∧ (after 32 0x300472F3 { start with mstatus := 0x88#32 }).map (fun t => (t.readReg 5, t.mstatus))
        = some (0x88#32, 0x80#32) := by decide

/-- Section 2.7: the write masks and the accesses that fail. -/
theorem test_csr_masks_and_gate :
    (after 32 0x30529073 (start |> withReg 5 0xFFFFFFFF)).map (·.mtvec) = some 0xFFFFFFFD#32
    ∧ (after 32 0x34229073 (start |> withReg 5 0xFFFFFFFF)).map (·.mcause) = some 0x8000000F#32
    ∧ trapView 32 0x3013A2F3 start = some ⟨2#32, 0x100#32, 0#32, 0x1800#32, .M⟩
    ∧ trapView 32 0x340022F3 { start with priv := .U } = some ⟨2#32, 0x100#32, 0#32, 0#32, .M⟩ := by decide

/-- Section 2.7: a write to one half of a counter wins, the other half takes its carry. -/
theorem test_counters :
    (after 32 0xB0029073 { (start |> withReg 5 5) with mcycle := 0xFFFFFFFF#32 }).map (fun t => (t.mcycle, t.mcycleh))
        = some (5#32, 1#32)
    ∧ (after 32 0xB8029073 { (start |> withReg 5 5) with mcycle := 0xFFFFFFFF#32 }).map (fun t => (t.mcycle, t.mcycleh))
        = some (0#32, 5#32)
    ∧ (after 32 0x00000013 { start with mcountinhibit := 5#3, mcycle := 10#32, minstret := 20#32 }).map
        (fun t => (t.mcycle, t.minstret)) = some (10#32, 20#32)
    ∧ (after 32 0x00000013 { start with minstret := 0xFFFFFFFF#32, minstreth := 0xFFFFFFFF#32 }).map
        (fun t => (t.minstret, t.minstreth)) = some (0#32, 0#32) := by decide

/-- Sections 2.7 and 2.11: traps. -/
theorem test_traps :
    trapView 32 0x00000073 { start with mstatus := 0xFFFFFFFF#32, mtvec := 0x400#32, priv := .U }
        = some ⟨8#32, 0x100#32, 0x400#32, 0xFFFFE7F7#32, .M⟩
    ∧ trapView 32 0x00000073 { start with mstatus := 0x80#32, mtvec := 0x400#32 }
        = some ⟨11#32, 0x100#32, 0x400#32, 0x1880#32, .M⟩
    ∧ trapView 32 0x00100073 { start with mtvec := 0x401#32 } = some ⟨3#32, 0x100#32, 0x400#32, 0x1800#32, .M⟩
    ∧ trapView 32 0x10500073 { start with mtvec := 0x400#32 } = some ⟨2#32, 0x100#32, 0x400#32, 0x1800#32, .M⟩ := by
  decide

/-- Sections 2.7 and 2.11: MRET to U-mode, to M-mode, and in U-mode. -/
theorem test_mret :
    trapView 32 0x30200073 { start with mstatus := 0x80#32, mepc := 0x204#32 } = some ⟨0#32, 0x204#32, 0x204#32, 8#32, .U⟩
    ∧ trapView 32 0x30200073 { start with mstatus := 0x1880#32, mepc := 0x204#32 }
        = some ⟨0#32, 0x204#32, 0x204#32, 0x1808#32, .M⟩
    ∧ trapView 32 0x30200073 { start with priv := .U, mtvec := 0x400#32 } = some ⟨2#32, 0x100#32, 0x400#32, 0#32, .M⟩ := by
  decide

/-- Section 2.11, last row, and section 2.7: fetch across the end of the window; the fences. -/
theorem test_fetch_fault_and_fences :
    (stepped { start with pc := 0xFFFE#32, ram := ramWrite [] .half 0xFFFE 0x0013#32 }).map (fun t => (t.mcause, t.mepc, t.pc))
        = some (1#32, 0xFFFE#32, 0#32)
    ∧ (after 32 0x0FF0000F start).map (·.pc) = some 0x104#32 ∧ (after 32 0x0000100F start).map (·.pc) = some 0x104#32 := by
  decide

/-- Section 2.8. -/
theorem test_custom0 :
    x3 0x1C20818B 0xF0000000 0x1C = some 0xF#32 ∧ x3 0x0020818B 0x80000000 0x3F = some 1#32
    ∧ x3 0x0C40C18B 0x12345678 0 = some 7#32 := by decide

/-- Section 2.9: registers. -/
theorem test_compressed_registers :
    regPc 8 16 0x0800 (start |> withReg 2 0x1000) = some (0x1010#32, 0x102#32)
    ∧ regPc 10 16 0x157D start = some (0xFFFFFFFF#32, 0x102#32) ∧ regPc 10 16 0x5501 start = some (0xFFFFFFE0#32, 0x102#32)
    ∧ regPc 10 16 0x757D start = some (0xFFFFF000#32, 0x102#32)
    ∧ regPc 2 16 0x7139 (start |> withReg 2 0x1000) = some (0xFC0#32, 0x102#32)
    ∧ regPc 8 16 0x8011 (start |> withReg 8 0x87654321) = some (0x08765432#32, 0x102#32)
    ∧ regPc 9 16 0x8491 (start |> withReg 9 0x87654321) = some (0xF8765432#32, 0x102#32)
    ∧ regPc 10 16 0x9941 (start |> withReg 10 0x12345678) = some (0x12345670#32, 0x102#32)
    ∧ regPc 8 16 0x8C05 (start |> withReg 8 5 |> withReg 9 7) = some (0xFFFFFFFE#32, 0x102#32)
    ∧ regPc 10 16 0x8D2D (start |> withReg 10 0xFF00 |> withReg 11 0xFF0) = some (0xF0F0#32, 0x102#32)
    ∧ regPc 12 16 0x8E55 (start |> withReg 12 0xFF00 |> withReg 13 0xFF0) = some (0xFFF0#32, 0x102#32)
    ∧ regPc 14 16 0x8F7D (start |> withReg 14 0xFF00 |> withReg 15 0xFF0) = some (0xF00#32, 0x102#32)
    ∧ regPc 10 16 0x0512 (start |> withReg 10 0x12345678) = some (0x23456780#32, 0x102#32) := by decide

/-- Section 2.9: jumps and branches; C.JR, C.MV, C.JALR and C.ADD by R424, R425, R427, R428. -/
theorem test_compressed_control :
    regPc 1 16 0x3001 { start with pc := 0x1002#32 } = some (0x1004#32, 0x802#32)
    ∧ (after 16 0xBFF5 start).map (·.pc) = some 0xFC#32 ∧ (after 16 0xC019 start).map (·.pc) = some 0x106#32
    ∧ (after 16 0xC019 (start |> withReg 8 1)).map (·.pc) = some 0x102#32
    ∧ (after 16 0xF381 { (start |> withReg 15 1) with pc := 0x400#32 }).map (·.pc) = some 0x300#32
    ∧ (after 16 0x8082 (start |> withReg 1 0x301)).map (·.pc) = some 0x300#32
    ∧ regPc 1 16 0x9082 (start |> withReg 1 0x301) = some (0x102#32, 0x300#32)
    ∧ regPc 10 16 0x852E (start |> withReg 10 1 |> withReg 11 2) = some (2#32, 0x102#32)
    ∧ regPc 10 16 0x952E (start |> withReg 10 1 |> withReg 11 2) = some (3#32, 0x102#32)
    ∧ trapView 16 0x9002 start = some ⟨3#32, 0x100#32, 0#32, 0x1800#32, .M⟩
    ∧ trapView 16 0x0000 start = some ⟨2#32, 0x100#32, 0#32, 0x1800#32, .M⟩ := by decide

/-- Section 2.9: loads and stores. -/
theorem test_compressed_memory :
    regPc 10 16 0x4588 (start |> withReg 11 0x200 |> withWord 0x208 0xDEADBEEF) = some (0xDEADBEEF#32, 0x102#32)
    ∧ wordAfter 0x204 16 0xC050 (start |> withReg 8 0x200 |> withReg 12 0xCAFEF00D) = some 0xCAFEF00D#32
    ∧ regPc 1 16 0x40B2 (start |> withReg 2 0x200 |> withWord 0x20C 0x77) = some (0x77#32, 0x102#32)
    ∧ wordAfter 0x2FC 16 0xDF86 (start |> withReg 2 0x200 |> withReg 1 0x55) = some 0x55#32 := by decide

/-- Section 2.10: push; in the second row the second store is below the window, and the first one stays. -/
theorem test_push :
    let s := start |> withReg 2 0x1000 |> withReg 1 0xA1 |> withReg 8 0xA8 |> withReg 9 0xA9
    (after 16 0xB862 s).map (fun t => (t.readReg 2, [0xFF4, 0xFF8, 0xFFC].map (ramRead t.ram .word)))
        = some (0xFF0#32, [0xA1#32, 0xA8#32, 0xA9#32])
    ∧ (after 16 0xB862 (s |> withReg 2 4)).map (fun t => (t.mcause, t.readReg 2, ramRead t.ram .word 0))
        = some (7#32, 4#32, 0xA9#32) := by decide

/-- A stack frame as the pop rows of section 2.10 have it. -/
def popFrame : State :=
  start |> withReg 2 0xFF0 |> withReg 10 0x77 |> withWord 0xFF4 0x2001 |> withWord 0xFF8 0xA8 |> withWord 0xFFC 0xA9

/-- Section 2.10: pop, pop and return, pop, return and clear a0; and a pop from above the window. -/
theorem test_pop :
    (after 16 0xBA62 popFrame).map (fun t => ([1, 2, 8, 9].map t.readReg, t.pc))
        = some ([0x2001#32, 0x1000#32, 0xA8#32, 0xA9#32], 0x102#32)
    ∧ (after 16 0xBE62 popFrame).map (fun t => ([1, 2, 8, 9].map t.readReg, t.pc))
        = some ([0x2001#32, 0x1000#32, 0xA8#32, 0xA9#32], 0x2000#32)
    ∧ (after 16 0xBC42 (popFrame |> withWord 0xFFC 0x300)).map (fun t => ([1, 2, 10].map t.readReg, t.pc))
        = some ([0x300#32, 0x1000#32, 0#32], 0x300#32)
    ∧ (after 16 0xBA42 (start |> withReg 2 0x10000)).map (fun t => (t.mcause, t.readReg 2, t.readReg 1))
        = some (5#32, 0x10000#32, 0#32) := by decide

/-- Section 2.10: the paired moves. -/
theorem test_paired_moves :
    (after 16 0xAFAA (start |> withReg 10 0x10 |> withReg 11 0x11)).map (fun t => (t.readReg 18, t.readReg 23))
        = some (0x11#32, 0x10#32)
    ∧ (after 16 0xAD7E (start |> withReg 18 0x22 |> withReg 23 0x27)).map (fun t => (t.readReg 10, t.readReg 11))
        = some (0x22#32, 0x27#32) := by decide

/-- R151: the two halves of a constant, when the low half is negative; `nop`; `csrw mcycle, x5`. -/
theorem test_pseudo :
    (Pseudo.li 1 0x12345FFF#32).expand = [.lui 1 0x12346, .addi 1 1 0xFFF] ∧ Pseudo.nop.expand.map encode = [.word 0x13#32]
    ∧ (Pseudo.csrw 0xB00 5).expand.map encode = [.word 0xB0029073#32] ∧ abiNames 8 = ["s0", "fp"] := by decide

/-! ## Witnesses: for each statement with hypotheses, states and operands that meet them, clause by clause

The two ends of the RAM window are 0 and 0xFFFC; outside it MEM answers what it lists, by the history of calls. -/

/-- What an instruction answers. -/
def ran (i : Instr) (s : State) : Option State :=
  match exec i s with
  | .next t => some t
  | _ => none

/-- The state after a write that MEM or RAM accepted; the state before it otherwise. -/
def written (s : State) (n : Width) (addr v : Word) : State :=
  match s.memWrite n addr v with
  | .ok t => t
  | _ => s

/-- How a write ends: 0 accepted, 1 failed, 2 halted. -/
def ending : WriteResult → Nat
  | .ok _ => 0
  | .fail _ => 1
  | .halt _ _ => 2

/-- A state with MEM answers, each under its history. -/
def withMem (reads : List (List MemCall × Option Word)) (writes : List (List MemCall × WriteReply)) (s : State) : State :=
  { s with mem := { s.mem with reads := reads, writes := writes } }

/-- The states between the stores of a PUSH. -/
def pushStates (rlist : BitVec 4) (s : State) : Nat → State
  | 0 => s
  | k + 1 => written (pushStates rlist s k) .word (s.readReg sp - BitVec.ofNat 32 (4 * (k + 1)))
      (s.readReg ((listedRegs rlist).getD k 0#5))

/-- The states between the loads of a POP. -/
def popStates (top : Word) (s : State) : Nat → State
  | 0 => s
  | k + 1 => ((popStates top s k).memRead .word (top - BitVec.ofNat 32 (4 * (k + 1)))).2

/-- The words a POP loads. -/
def popWords (top : Word) (s : State) (k : Nat) : Word :=
  (((popStates top s k).memRead .word (top - BitVec.ofNat 32 (4 * (k + 1)))).1).getD 0#32

theorem witness_DecodeInvertsEncode :
    (Instr.cmPush 4 0).wf = true ∧ (Instr.cAddi4spn 7 1).wf = true ∧ (Instr.lui 31 0xFFFFF).wf = true := by decide

theorem witness_EncodeInvertsDecode :
    decodeCode (.half 0xB842#16) = .ok (.cmPush 4 0) ∧ decodeCode (.word 0x30200073#32) = .ok .mret := ⟨rfl, rfl⟩

theorem witness_BytesOfCodeDecode : (Instr.cmMvsa01 0 1).wf = true ∧ (Instr.addi 31 31 0xFFF).wf = true := by decide

/-- One code for each clause of the 16-bit part, in its order. -/
theorem witness_IllegalCodesRejected_16 :
    (let c := 0x0004#16; c.extractLsb' 0 2 = 0 ∧ c.extractLsb' 13 3 = 0 ∧ c.extractLsb' 5 8 = 0 ∧ c ≠ 0)
    ∧ (let c := 0x2000#16; c.extractLsb' 0 2 = 0 ∧ c.extractLsb' 13 3 ∈ [1#3, 3#3, 4#3, 5#3, 7#3])
    ∧ (let c := 0x6101#16; c.extractLsb' 0 2 = 1 ∧ c.extractLsb' 13 3 = 3 ∧ c.extractLsb' 12 1 = 0 ∧ c.extractLsb' 2 5 = 0)
    ∧ (let c := 0x9011#16; c.extractLsb' 0 2 = 1 ∧ c.extractLsb' 13 3 = 4 ∧ c.extractLsb' 12 1 = 1 ∧ c.extractLsb' 10 2 ≠ 2)
    ∧ (let c := 0x1002#16; c.extractLsb' 0 2 = 2 ∧ c.extractLsb' 13 3 = 0 ∧ c.extractLsb' 12 1 = 1)
    ∧ (let c := 0x4002#16; c.extractLsb' 0 2 = 2 ∧ c.extractLsb' 13 3 = 2 ∧ c.extractLsb' 7 5 = 0)
    ∧ (let c := 0xE002#16; c.extractLsb' 0 2 = 2 ∧ c.extractLsb' 13 3 ∈ [1#3, 3#3, 7#3])
    ∧ (let c := 0xB832#16; c.extractLsb' 0 2 = 2 ∧ c.extractLsb' 8 8 ∈ [0xB8#8, 0xBA#8, 0xBC#8, 0xBE#8]
        ∧ (c.extractLsb' 4 4).toNat < 4)
    ∧ (let c := 0xADAE#16; c.extractLsb' 0 2 = 2 ∧ c.extractLsb' 10 6 = 0b101011#6 ∧ c.extractLsb' 5 2 = 1
        ∧ c.extractLsb' 7 3 = c.extractLsb' 2 3)
    ∧ (let c := 0xA002#16; c.extractLsb' 0 2 = 2 ∧ c.extractLsb' 13 3 = 5
        ∧ c.extractLsb' 8 8 ∉ [0xB8#8, 0xBA#8, 0xBC#8, 0xBE#8]
        ∧ ¬(c.extractLsb' 10 6 = 0b101011#6 ∧ c.extractLsb' 5 2 ∈ [1#2, 3#2])) := by decide

/-- One word for each clause of the 32-bit part, in its order. -/
theorem witness_IllegalCodesRejected_32 :
    (0x00000007#32).extractLsb' 0 7 = 0b0000111#7
    ∧ (let w := 0x0000B183#32; w.extractLsb' 0 7 = 0b0000011#7 ∧ w.extractLsb' 12 3 ∈ [3#3, 6#3, 7#3])
    ∧ (let w := 0x0020B023#32; w.extractLsb' 0 7 = 0b0100011#7 ∧ 2 < (w.extractLsb' 12 3).toNat)
    ∧ (let w := 0x0020A863#32; w.extractLsb' 0 7 = 0b1100011#7 ∧ w.extractLsb' 12 3 ∈ [2#3, 3#3])
    ∧ (let w := 0x000290E7#32; w.extractLsb' 0 7 = 0b1100111#7 ∧ w.extractLsb' 12 3 ≠ 0)
    ∧ (let w := 0x0020B1AF#32; w.extractLsb' 0 7 = 0b0101111#7 ∧ w.extractLsb' 12 3 ≠ 2)
    ∧ (let w := 0x2820A1AF#32; w.extractLsb' 0 7 = 0b0101111#7 ∧ w.extractLsb' 27 5 = 0b00101#5)
    ∧ (let w := 0x1020A1AF#32; w.extractLsb' 0 7 = 0b0101111#7 ∧ w.extractLsb' 27 5 = 0b00010#5 ∧ w.extractLsb' 20 5 ≠ 0)
    ∧ (let w := 0x340042F3#32; w.extractLsb' 0 7 = 0b1110011#7 ∧ w.extractLsb' 12 3 = 4)
    ∧ (let w := 0x10500073#32; w.extractLsb' 0 7 = 0b1110011#7 ∧ w.extractLsb' 12 3 = 0
        ∧ w ∉ [0x00000073#32, 0x00100073#32, 0x30200073#32])
    ∧ (let w := 0x0000200F#32; w.extractLsb' 0 7 = 0b0001111#7 ∧ 1 < (w.extractLsb' 12 3).toNat)
    ∧ (let w := 0x1E20818B#32; w.extractLsb' 0 7 = 0b0001011#7 ∧ w.extractLsb' 25 1 ≠ 0)
    ∧ (let w := 0x402091B3#32; w.extractLsb' 0 7 = 0b0110011#7
        ∧ w.extractLsb' 12 3 ∉ (opTable.lookup (w.extractLsb' 25 7)).getD [])
    ∧ (let w := 0x042081B3#32; w.extractLsb' 0 7 = 0b0110011#7 ∧ (opTable.lookup (w.extractLsb' 25 7)).isNone = true)
    ∧ (let w := 0x60309193#32; w.extractLsb' 0 7 = 0b0010011#7 ∧ w.extractLsb' 12 3 ∈ [1#3, 5#3]
        ∧ (w.extractLsb' 12 3, w.extractLsb' 25 7, none) ∉ opImmTable
        ∧ (w.extractLsb' 12 3, w.extractLsb' 25 7, some (w.extractLsb' 20 5)) ∉ opImmTable) := by decide

/-- A fetch that MEM answers; at the last word of the window, an ADDI; at its last halfword, a C.NOP. -/
theorem witness_StepRunsDecodedInstruction :
    (let s := { start with pc := 0x10000#32 } |> withMem [([.read .half 0x10000#32], some 0x0001#32)] [];
      fetch s = (some (.half 0x0001#16), (fetch s).2) ∧ decodeCode (.half 0x0001#16) = .ok (.cAddi 0 0))
    ∧ (let s := { start |> withWord 0xFFFC 0x00500093 with pc := 0xFFFC#32 };
      s.inRam s.pc = true ∧ s.inRam (s.pc + 2#32) = true
      ∧ decode [s.ram.read s.pc.toNat, s.ram.read (s.pc.toNat + 1), s.ram.read (s.pc + 2#32).toNat,
          s.ram.read ((s.pc + 2#32).toNat + 1)] = .ok (.addi 1 0 5, []))
    ∧ (let s := { start with pc := 0xFFFE#32, ram := ramWrite [] .half 0xFFFE 0x0001#32 };
      s.inRam s.pc = true ∧ s.inRam (s.pc + 2#32) = false
      ∧ decode [s.ram.read s.pc.toNat, s.ram.read (s.pc.toNat + 1)] = .ok (.cAddi 0 0, [])) :=
  ⟨⟨rfl, rfl⟩, ⟨by decide, by decide, rfl⟩, by decide, by decide, rfl⟩

/-- The low halfword missing; the high one missing of a 32-bit code, and of a 16-bit one; neither missing. -/
theorem witness_FetchReadsTwoHalfwords :
    ({ start with pc := 0x10000#32 }.memRead .half 0x10000#32).1 = none
    ∧ (let s := { start with pc := 0xFFFE#32, ram := ramWrite [] .half 0xFFFE 0x0013#32 };
      ((s.memRead .half s.pc).1.map (·.extractLsb' 0 2), (s.memRead .half (s.pc + 2#32)).1) = (some 3#2, none))
    ∧ (let s := { start with pc := 0xFFFE#32, ram := ramWrite [] .half 0xFFFE 0x0001#32 };
      ((s.memRead .half s.pc).1.map (·.extractLsb' 0 2), (s.memRead .half (s.pc + 2#32)).1) = (some 1#2, none))
    ∧ (let s := start |> withWord 0x100 0x00500093;
      ((s.memRead .half s.pc).1.map (·.extractLsb' 0 2), (s.memRead .half (s.pc + 2#32)).1) = (some 3#2, some 0x50#32)) := by
  decide

theorem witness_UnmatchedCodeTraps :
    (fetch (start |> withWord 0x100 0x10500073)).1 = some (.word 0x10500073#32)
    ∧ decodeCode (.word 0x10500073#32) = .error (.unmatched32 0x10500073#32) := ⟨by decide, rfl⟩

/-- A state that is not the one after reset and meets the invariant. -/
def inner : State :=
  { start |> withReg 1 0xFFFFFFFF |> withWord 0xFFFC 0x12345678 with
    pc := 0xFFFE#32, mepc := 0xFFFFFFFE#32, mtvec := 0xFFFFFFFD#32, mcause := 0x8000000F#32, priv := .U
    mem := { reads := [([.read .half 0x10000#32], some 0#32)], writes := [([.write .word 0x10000#32 0#32], .halt 1)]
             rest := .free 5, calls := [] } }

theorem witness_inner_inv : inner.Inv := by
  constructor <;> decide

/-- Outside the window, where the code goes to MEM's answers, and inside. -/
theorem witness_PlacedInstructionIsFetched :
    inner.Inv ∧ (Instr.addi 1 0 5).wf = true ∧ (Instr.cmPush 4 0).wf = true :=
  ⟨witness_inner_inv, by decide, by decide⟩

/-- A state whose step stores a word outside the window, which MEM answers by a halt. -/
def halting : State :=
  start |> withReg 1 0x10000 |> withMem [] [([.write .word 0x10000#32 0#32], .halt 7)] |> withWord 0x100 0x0020A023

/-- The second and the third outcome both happen. -/
theorem witness_StepIsTotal :
    step halting
      = .fault (.hostHalt 7 { halting with mem := { halting.mem with calls := [.write .word 0x10000#32 0#32] } })
    ∧ step ({ start with mstatus := 0x0800#32 } |> withWord 0x100 0x30200073) = .refused .mretReservedMpp := ⟨rfl, rfl⟩

theorem witness_HostHaltCommitsNothing :
    ∃ f, step halting = .fault (.hostHalt 7 f) :=
  ⟨_, rfl⟩

/-- At a carry, with one counter inhibited: a step that is no CSR instruction, a read of `mcycle`, a write of `mcycleh`
(which leaves the other counter), a write of `mscratch`, and a write of `mcycle` in U-mode, which traps. -/
theorem witness_CountersAdvanceEveryStep :
    let s (w : Nat) (p : Priv) :=
      { start |> withWord 0x100 w with mcycle := 0xFFFFFFFF#32, mcountinhibit := 4#3, priv := p }
    ((s 0x13 .M).pending = none ∧ isNext (step (s 0x13 .M)) = true ∧ (fetch (s 0x13 .M)).1 = some (.word 0x13#32)
      ∧ (decodeCode (.word 0x13#32)).map csrTarget = .ok none)
    ∧ (isNext (step (s 0xB00020F3 .M)) = true ∧ (decodeCode (.word 0xB00020F3#32)).map csrTarget = .ok none)
    ∧ (isNext (step (s 0xB80290F3 .M)) = true ∧ (decodeCode (.word 0xB80290F3#32)).map csrTarget = .ok (some 0xB80#12))
    ∧ (isNext (step (s 0x340290F3 .M)) = true ∧ (decodeCode (.word 0x340290F3#32)).map csrTarget = .ok (some 0x340#12))
    ∧ ((s 0xB00290F3 .U).priv = .U ∧ isNext (step (s 0xB00290F3 .U)) = true) := by decide

/-- A vector outside the window, which ends at the top of the address space; MEM refuses the fetch. -/
theorem witness_ResetValues :
    let c := { Config.default with resetVector := 0x10000#32 }
    c.wf = true ∧ ({ c with ramBase := 0xFFFFFFFC#32, ramSize := 4 } : Config).wf = true ∧ Memory.wf [(0, 1#8)] = true
    ∧ Memory.within 0 0x10000 [(0, 1#8)] = true
    ∧ (fetch (State.resetWith { Config.default with resetVector := 0x10000#32 } rfl [(0, 1#8)] rfl rfl [] [] .refuses)).1
      = none := by decide

theorem witness_StepKeepsInvariant : inner.Inv ∧ isNext (step inner) = true := ⟨witness_inner_inv, by decide⟩

/-- The last halfword inside, the first one outside. -/
theorem witness_MemReadServesWindowOrMem :
    (0xFFFE#32).toNat % Width.half.bytes = 0 ∧ start.inRam 0xFFFE#32 = true
    ∧ (0x10000#32).toNat % Width.word.bytes = 0 ∧ start.inRam 0x10000#32 = false ∧ start.inRam 0#32 = true := by decide

theorem witness_MemWriteSplicesOrAsksMem :
    inner.ram.wf = true ∧ (0xFFFE#32).toNat % Width.half.bytes = 0 ∧ inner.inRam 0xFFFE#32 = true
    ∧ (0x10000#32).toNat % Width.word.bytes = 0 ∧ inner.inRam 0x10000#32 = false := by decide

/-- R84: MEM answers by address and by the history of calls; here the second read of a device register differs from the
first. -/
theorem test_mem_answers :
    let c := MemCall.read .word 0x20000#32
    let s := start |> withMem [([c], some 1#32), ([c, c], some 2#32)] [([.write .byte 0x20004#32 0xFF#32], .ok)]
    (s.memRead .word 0x20000#32).1 = some 1#32
    ∧ ((s.memRead .word 0x20000#32).2.memRead .word 0x20000#32).1 = some 2#32
    ∧ (s.memRead .word 0x20004#32).1 = none
    ∧ ending (s.memWrite .byte 0x20004#32 0x1FF#32) = 0 ∧ ending (s.memWrite .byte 0x20004#32 0xFE#32) = 1 := by decide

/-- A code placed outside the window, and across its end, is fetched (R93). -/
theorem test_placed_outside :
    (fetch ({ start with pc := 0x20000#32 }.withFetchWord 32 0x00500093)).1 = some (.word 0x00500093#32)
    ∧ (fetch ({ start with pc := 0xFFFE#32 }.withFetchWord 32 0x00500093)).1 = some (.word 0x00500093#32)
    ∧ (fetch ({ start with pc := 0xFFFFFFFE#32 }.withFetchWord 32 0x00500093)).1 = some (.word 0x00500093#32) := by decide

theorem witness_OnlyStoresWriteRam :
    isStoreInstr (.lw 1 0 0) = false ∧ isNext (exec (.lw 1 0 0) start) = true
    ∧ isStoreInstr (.lw 1 0 1) = false ∧ isNext (exec (.lw 1 0 1) start) = true := by decide

/-- A system call from U-mode; an MRET to U-mode. -/
theorem witness_PrivilegeChangesByTrapOrMret :
    (let s := { start |> withWord 0x100 0x00000073 with priv := .U };
      s.pending = none ∧ (stepped s).map (·.priv) = some .M)
    ∧ (let s := start |> withWord 0x100 0x30200073;
      s.pending = none ∧ s.priv = .M ∧ (stepped s).map (·.priv) = some .U) := by decide

theorem witness_UserModeCannotChangeCsrs :
    (ran (.addi 1 0 5) { start with priv := .U }).map (·.priv) = some .U := by decide

theorem witness_OnlyLrAndScChangeReservation :
    (ran (.addi 1 0 5) { start with reserved := true }).map (·.reserved) = some true
    ∧ (ran (.lrW 1 0 0 0) start).map (·.reserved) = some true
    ∧ (ran (.scW 1 0 0 0 0) { start with reserved := true }).map (·.reserved) = some false := by decide

/-- The two outcomes: a load that completes, and one that is misaligned. -/
theorem witness_TrapsArePrecise :
    (ran (.lw 1 0 0) start).map (·.mepc) = some 0#32
    ∧ (ran (.lw 1 0 1) start).map (fun t => (t.mcause, t.mepc)) = some (4#32, 0x100#32) := by decide

/-- Vectored and an interrupt at its least cause; vectored and the largest cause that is none; direct. -/
theorem witness_TrapTargetDirectOrVectored :
    (0x401#32).toNat % 2 = 1 ∧ 2 ^ 31 ≤ (0x80000000#32).toNat ∧ (0x7FFFFFFF#32).toNat < 2 ^ 31
    ∧ (0x400#32).toNat % 2 = 0 := by decide

/-- MPP 0 and 3 in M-mode; U-mode. -/
theorem witness_MretRestoresPrivilege :
    start.priv = .M ∧ start.mstatus.extractLsb' 11 2 = 0 ∧ (0x1800#32).extractLsb' 11 2 = 3#2
    ∧ { start with priv := Priv.U }.priv = .U := by decide

/-- MPP 1 and 2. -/
theorem witness_MretRefusedExactlyOnReservedMpp :
    start.priv = .M ∧ (0x0800#32).extractLsb' 11 2 = 1#2 ∧ (0x1000#32).extractLsb' 11 2 = 2#2 ∧ inner.priv = .U := by decide

theorem witness_EnvironmentCallsAndBreakpointsTrap : inner.priv = .U ∧ start.priv = .M := by decide

/-- A write pending to a counter half, which the other three halves' clauses allow; to an address that is no counter. -/
theorem witness_CsrStepCommits :
    (let s := { start with pending := some (0xB00#12, 5#32) };
      s.pending = some (Csr.mcycle.addr, 5#32) ∧ writableTable.lookup Csr.mcycle.addr = some 0xFFFFFFFF#32
      ∧ s.pending ≠ some (0xB80#12, 5#32))
    ∧ start.pending = none := by decide

/-- A writable CSR and a read-only one, in M-mode; a nonzero and a zero register field. -/
theorem witness_CsrInstructionsReadAndStage :
    start.priv = .M ∧ (csrTable start).lookup 0x300#12 = some 0#32 ∧ (writableTable.lookup 0x300#12).isSome = true
    ∧ (csrTable start).lookup 0xF12#12 = some 0x1B#32 ∧ (1#5) ≠ 0 ∧ (0#5) = 0 := by decide

/-- U-mode; a read-only address; an address outside the table; each policy. -/
theorem witness_CsrAccessFailuresTrap :
    { start with priv := Priv.U }.priv = .U ∧ (writableTable.lookup 0xF12#12).isNone = true
    ∧ ((csrTable start).lookup 0xC00#12).isNone = true ∧ start.cfg.csrImmReadFail = .illegal
    ∧ { start with cfg := { start.cfg with csrImmReadFail := .silent } }.cfg.csrImmReadFail = .silent := by decide

/-- The code `w` is fetched, decodes as `i`, and the CSR `r` is writable. -/
def csrWriteWitness (s : State) (w : BitVec 32) (i : Instr) (r : Csr) : Bool :=
  s.pending == none && s.priv == .M && (fetch s).1 == some (.word w) && decide (decodeCode (.word w) = .ok i)
    && (writableTable.lookup r.addr).isSome

/-- Each of the six forms; each half of each counter, at a carry. -/
theorem witness_CsrWriteVisibleAfterItsStep :
    let s (w : Nat) := { start |> withReg 5 0xF0 |> withWord 0x100 w with mcycle := 0xFFFFFFFF#32, minstret := 0xFFFFFFFF#32 }
    csrWriteWitness (s 0xB0029073) 0xB0029073#32 (.csrrw 0 5 Csr.mcycle.addr) .mcycle = true
    ∧ csrWriteWitness (s 0xB802A0F3) 0xB802A0F3#32 (.csrrs 1 5 Csr.mcycleh.addr) .mcycleh = true
    ∧ csrWriteWitness (s 0xB022B0F3) 0xB022B0F3#32 (.csrrc 1 5 Csr.minstret.addr) .minstret = true
    ∧ csrWriteWitness (s 0xB82FD0F3) 0xB82FD0F3#32 (.csrrwi 1 31 Csr.minstreth.addr) .minstreth = true
    ∧ csrWriteWitness (s 0x3040E0F3) 0x3040E0F3#32 (.csrrsi 1 1 Csr.mie.addr) .mie = true
    ∧ csrWriteWitness (s 0x300470F3) 0x300470F3#32 (.csrrci 1 8 Csr.mstatus.addr) .mstatus = true
    ∧ (s 0x13).mcountinhibit.getLsbD 0 = false ∧ (s 0x13).mcountinhibit.getLsbD 2 = false := by decide

/-- The overflow case of the signed pair. -/
theorem witness_DivisionLaw :
    let s := start |> withReg 1 0x80000000 |> withReg 2 0xFFFFFFFF
    (3#5) ≠ 0 ∧ s.readReg 2 ≠ 0 ∧ isNext (exec (.div 3 1 2) s) = true ∧ isNext (exec (.rem 3 1 2) s) = true
    ∧ isNext (exec (.divu 3 1 2) s) = true ∧ isNext (exec (.remu 3 1 2) s) = true := by decide

/-- The rotate amounts 0 and 0, and 1 and 31. -/
theorem witness_BitManipulationLaws :
    let s := start |> withReg 1 0x12345678 |> withReg 2 1 |> withReg 4 31
    (3#5) ≠ 0 ∧ isNext (exec (.zip 3 1) s) = true ∧ isNext (exec (.unzip 3 3) s) = true
    ∧ isNext (exec (.rev8 3 1) s) = true ∧ isNext (exec (.brev8 3 1) s) = true
    ∧ (s.readReg 4).toNat % 32 = (32 - (s.readReg 2).toNat % 32) % 32
    ∧ (s.readReg 0).toNat % 32 = (32 - (s.readReg 0).toNat % 32) % 32
    ∧ isNext (exec (.ror 3 1 2) s) = true ∧ isNext (exec (.rol 3 1 4) s) = true := by decide

theorem witness_FencesPassOrTrap :
    start.cfg.miscMem = .nop ∧ { start with cfg := { start.cfg with miscMem := .illegal } }.cfg.miscMem = .illegal := by decide

/-- The last word inside the window; misaligned; outside. -/
theorem witness_LoadResults :
    (0xFFFC#32).toNat % Width.word.bytes = 0 ∧ (start.memRead .word 0xFFFC#32).1 = some 0#32
    ∧ (0xFFFF#32).toNat % Width.half.bytes ≠ 0 ∧ (start.memRead .byte 0x10000#32).1 = none := by decide

/-- Accepted inside, misaligned, refused, halted. -/
theorem witness_StoreResults :
    start.ram.wf = true ∧ ending (start.memWrite .word 0xFFFC#32 1#32) = 0 ∧ (0xFFFE#32).toNat % Width.word.bytes ≠ 0
    ∧ ending (start.memWrite .byte 0xFFFFFFFF#32 1#32) = 1
    ∧ ending ((start |> withMem [] [([.write .half 0x10000#32 1#32], .halt 0)]).memWrite .half 0x10000#32 1#32) = 2
    ∧ ending ((start |> withMem [] [([.write .half 0x10000#32 1#32], .ok)]).memWrite .half 0x10000#32 1#32) = 0 := by decide

theorem witness_LoadReservedStoreConditional :
    start.ram.wf = true ∧ (0xFFFC#32).toNat % 4 = 0 ∧ (start.memRead .word 0xFFFC#32).1 = some 0#32
    ∧ (0xFFFD#32).toNat % 4 ≠ 0 ∧ (start.memRead .word 0x10000#32).1 = none
    ∧ (let s := { start with reserved := true };
      s.reserved = true ∧ ending (s.memWrite .word 0xFFFC#32 1#32) = 0 ∧ ending (s.memWrite .word 0x10000#32 1#32) = 1
      ∧ ending ((s |> withMem [] [([.write .word 0x10000#32 1#32], .halt 3)]).memWrite .word 0x10000#32 1#32) = 2)
    ∧ start.reserved = false := by decide

/-- Read and write inside; outside: read refused, write refused after a read, halted after a read. -/
theorem witness_AtomicReadModifyWriteResults :
    (start.memRead .word 0#32).1 = some 0#32 ∧ ending (start.memWrite .word 0#32 1#32) = 0 ∧ (0x10002#32).toNat % 4 ≠ 0
    ∧ (start.memRead .word 0x10000#32).1 = none
    ∧ (let s := start |> withMem [([.read .word 0x10000#32], some 5#32)]
        [([.write .word 0x10000#32 6#32, .read .word 0x10000#32], .fail)];
      let u := (s.memRead .word 0x10000#32).2;
      (s.memRead .word 0x10000#32).1 = some 5#32 ∧ ending (u.memWrite .word 0x10000#32 6#32) = 1)
    ∧ (let s := start |> withMem [([.read .word 0x10000#32], some 5#32)]
        [([.write .word 0x10000#32 6#32, .read .word 0x10000#32], .halt 1)];
      let u := (s.memRead .word 0x10000#32).2;
      ending (u.memWrite .word 0x10000#32 6#32) = 2) := by decide

/-- The least immediates that are not 0, and the register next to the excluded one. -/
theorem witness_CompressedImmediateResults :
    (0#4 ++ 0#2 ++ 0#1 ++ 1#1 : BitVec 8) ≠ 0 ∧ (1#5) ≠ 2 ∧ (3#5) ≠ 2 ∧ (0#1 ++ 1#5 : BitVec 6) ≠ 0
    ∧ (0#1 ++ 0#2 ++ 0#1 ++ 0#1 ++ 1#1 : BitVec 6) ≠ 0 := by decide

theorem witness_CompressedRegisterResults : (1#5) ≠ 0 ∧ (31#5) ≠ 0 := by decide

theorem witness_CompressedControlResults : (1#5) ≠ 0 ∧ (31#5) ≠ 0 := by decide

theorem witness_CompressedMemoryResults : start.ram.wf = true ∧ inner.ram.wf = true ∧ (1#5) ≠ 0 := by decide

/-- The sixteen words below the top of the window fit; so do those that MEM accepts. -/
theorem witness_PushStoresAndAdjusts :
    let s := start |> withReg 2 0x10000
    4 ≤ (15#4).toNat ∧ (s.readReg sp).toNat % 4 = 0 ∧ PushesOk 15 (pushStates 15 s) (listedRegs 15).length := by
  refine ⟨by decide, by decide, ?_⟩
  show ∀ k < (listedRegs 15).length, _
  decide

/-- The first store refused; the second halted; `sp` misaligned. -/
theorem witness_PushStoresAndAdjusts_stops :
    (let s := start |> withReg 2 0;
      PushesOk 4 (pushStates 4 s) 0 ∧ 0 < (listedRegs 4).length
      ∧ ending ((pushStates 4 s 0).memWrite .word (s.readReg sp - 4#32) (s.readReg 1)) = 1)
    ∧ (let s := start |> withReg 2 4 |> withMem [] [([.write .word 0xFFFFFFFC#32 0#32], .halt 1)];
      PushesOk 5 (pushStates 5 s) 1 ∧ 1 < (listedRegs 5).length
      ∧ ending ((pushStates 5 s 1).memWrite .word (s.readReg sp - 8#32) (s.readReg 1)) = 2)
    ∧ ((start |> withReg 2 6).readReg sp).toNat % 4 ≠ 0 := by
  refine ⟨⟨?_, by decide, by decide⟩, ⟨?_, by decide, by decide⟩, by decide⟩
  · show ∀ k < 0, _
    decide
  · show ∀ k < 1, _
    decide

theorem witness_PushFrameInRam :
    let s := start |> withReg 2 0x34
    4 ≤ (15#4).toNat ∧ s.ram.wf = true ∧ (s.readReg sp).toNat % 4 = 0
    ∧ ∀ k < (listedRegs 15).length, s.inRam (s.readReg sp - BitVec.ofNat 32 (4 * (k + 1))) = true := by decide

/-- The shortest list, at the top of the window. -/
theorem witness_PopLoadsAndReturns :
    let s := start |> withReg 2 0xFFF0
    4 ≤ (4#4).toNat ∧ (s.readReg sp).toNat % 4 = 0
    ∧ PopsOk 0x10000#32 (popStates 0x10000#32 s) (popWords 0x10000#32 s) (listedRegs 4).length := by
  refine ⟨by decide, by decide, ?_⟩
  show ∀ k < (listedRegs 4).length, _
  decide

/-- `sp` misaligned; the first word missing; the second word missing. -/
theorem witness_PopFaults :
    ((start |> withReg 2 0x101).readReg sp).toNat % 4 ≠ 0
    ∧ (let s := start |> withReg 2 0x10000;
      PopsOk 0x10010#32 (popStates 0x10010#32 s) (popWords 0x10010#32 s) 0
      ∧ ((popStates 0x10010#32 s 0).memRead .word 0x1000C#32).1 = none)
    ∧ (let s := start |> withReg 2 0xFFFFFFF4;
      PopsOk 4#32 (popStates 4#32 s) (popWords 4#32 s) 1 ∧ 1 < (listedRegs 5).length
      ∧ ((popStates 4#32 s 1).memRead .word 0xFFFFFFFC#32).1 = none) := by
  refine ⟨by decide, ⟨?_, by decide⟩, ?_, by decide, by decide⟩
  · show ∀ k < 0, _
    decide
  · show ∀ k < 1, _
    decide

theorem witness_PairedMoveResults : (0#3) ≠ 7 := by decide

/-- The state the PUSH leaves is itself one the POP may start from; and the moves run. -/
theorem witness_PushPopDuality :
    (let s := start |> withReg 2 0x1000 |> withReg 1 0xA1;
      4 ≤ (4#4).toNat ∧ s.ram.wf = true ∧ (s.readReg sp).toNat % 4 = 0 ∧ s.inRam (s.readReg sp - 4#32) = true
      ∧ isNext (exec (.cmPush 4 0) s) = true)
    ∧ (0#3) ≠ 1 ∧ isNext (exec (.cmMvsa01 0 1) start) = true := by decide

end Sys2Proof.Tests
end

section
/-!
PROOFS. The end of a step and reset: what `csr_step` leaves in each CSR (R59), what the state right after reset holds (R61, R540),
and the trap of a step whose fetch fails (R541).
-/

namespace Sys2Proof.Machine

/-! ## `csr_step` on a CSR the pending write does not target -/

theorem pendingAt_iff (s : State) (a : CsrAddr) : s.pendingAt a = true ↔ ∃ v, s.pending = some (a, v) := by
  unfold State.pendingAt
  split <;> simp_all

/-- A store to one CSR leaves every other one. -/
theorem csrStore_csrValue_ne (s : State) {c r : Csr} (h : r ≠ c) (v : Word) :
    (s.csrStore c v).csrValue r = s.csrValue r := by
  cases c <;> cases r <;> simp_all [State.csrStore, State.csrValue]

/-- The pending write leaves every CSR it does not target. -/
theorem applyPending_csrValue {s : State} {r : Csr} (h : s.pendingAt r.addr = false) :
    (applyPending s).csrValue r = s.csrValue r := by
  unfold applyPending
  split
  · rfl
  next a v hp =>
    split
    · rfl
    next c hc =>
      have hne : r ≠ c := fun hrc => by simp [(pendingAt_iff s a).2 ⟨v, hp⟩, hrc, csrAt_addr hc] at h
      split
      · rfl
      · exact csrStore_csrValue_ne s hne _

/-- What a CSR holds after a step whose pending write does not target it: a counter half takes its half of the next count,
every other CSR its old value (R59). -/
def State.nextCsrValue (s : State) : Csr → Word
  | .mcycle => (nextCount (s.mcountinhibit.getLsbD 0) s.mcycleh s.mcycle).extractLsb' 0 32
  | .mcycleh => (nextCount (s.mcountinhibit.getLsbD 0) s.mcycleh s.mcycle).extractLsb' 32 32
  | .minstret => (nextCount (s.mcountinhibit.getLsbD 2) s.minstreth s.minstret).extractLsb' 0 32
  | .minstreth => (nextCount (s.mcountinhibit.getLsbD 2) s.minstreth s.minstret).extractLsb' 32 32
  | r => s.csrValue r

theorem nextCsrValue_of_not_counter (s : State) {r : Csr} (h1 : r ≠ .mcycle) (h2 : r ≠ .mcycleh)
    (h3 : r ≠ .minstret) (h4 : r ≠ .minstreth) : s.nextCsrValue r = s.csrValue r := by
  cases r <;> simp_all [State.nextCsrValue]

theorem countersStep_csrValue {s : State} {r : Csr} (h : s.pendingAt r.addr = false) :
    (countersStep s).csrValue r = s.nextCsrValue r := by
  cases r <;> simp_all [countersStep, State.nextCsrValue, State.csrValue, Csr.addr]

theorem csrStep_csrValue {s : State} {r : Csr} (h : s.pendingAt r.addr = false) :
    (csrStep s).csrValue r = s.nextCsrValue r := by
  calc (csrStep s).csrValue r
    _ = (applyPending (countersStep s)).csrValue r := by cases r <;> rfl
    _ = (countersStep s).csrValue r := applyPending_csrValue h
    _ = s.nextCsrValue r := countersStep_csrValue h

/-! ## The counter halves as numbers -/

theorem nextCount_lo_ofNat (inhibit : Bool) (hi lo : Word) : (nextCount inhibit hi lo).extractLsb' 0 32
    = BitVec.ofNat 32 ((hi.toNat * 2 ^ 32 + lo.toNat + if inhibit then 0 else 1) % 2 ^ 64) := by
  rw [← nextCount_toNat, BitVec.extractLsb', Nat.shiftRight_zero]

theorem nextCount_hi_ofNat (inhibit : Bool) (hi lo : Word) : (nextCount inhibit hi lo).extractLsb' 32 32
    = BitVec.ofNat 32 ((hi.toNat * 2 ^ 32 + lo.toNat + if inhibit then 0 else 1) % 2 ^ 64 / 2 ^ 32) := by
  rw [← nextCount_toNat, BitVec.extractLsb', Nat.shiftRight_eq_div_pow]

/-- The spec's table of writable CSRs is the model's function of write masks (R41). -/
theorem writableTable_lookup (r : Csr) : writableTable.lookup r.addr = r.writeMask := by cases r <;> rfl

/-- Settles O30: an untargeted CSR takes `nextCsrValue`, the target what was staged under its mask. -/
theorem csrStepCommits : Obligations.CsrStepCommits := by
  intro s c i t targets
  have untargeted {a : CsrAddr} (h : ¬ targets a) : s.pendingAt a = false :=
    Bool.eq_false_iff.2 (mt (pendingAt_iff s a).1 h)
  refine ⟨fun h => ?mcycle, fun h => ?mcycleh, fun h => ?minstret, fun h => ?minstreth, fun r v m hp hm => ?written,
    fun r h1 h2 h3 h4 h => ?kept, csrStep_pending s,
    csrStep_readReg s, csrStep_pc s, csrStep_priv s, csrStep_reserved s, ⟨fun a => ?ram, csrStep_mem s⟩,
    csrStep_cfg s, csrStep_freeCount s⟩
  case mcycle => exact (csrStep_csrValue (r := .mcycle) (untargeted h)).trans (nextCount_lo_ofNat ..)
  case mcycleh => exact (csrStep_csrValue (r := .mcycleh) (untargeted h)).trans (nextCount_hi_ofNat ..)
  case minstret => exact (csrStep_csrValue (r := .minstret) (untargeted h)).trans (nextCount_lo_ofNat ..)
  case minstreth => exact (csrStep_csrValue (r := .minstreth) (untargeted h)).trans (nextCount_hi_ofNat ..)
  case written => exact (csrStep_written ((writableTable_lookup r).symm.trans hm) hp).2
  case kept => exact (csrStep_csrValue (untargeted h)).trans (nextCsrValue_of_not_counter s h1 h2 h3 h4)
  case ram => rw [csrStep_ram]

/-! ## Reset -/

section Reset

variable {cfg : Config} {hc : cfg.wf = true} {ram : Memory} {hr : ram.wf = true}
  {hw : ram.within cfg.ramBase.toNat cfg.ramSize = true} {reads : List (List MemCall × Option Word)}
  {writes : List (List MemCall × WriteReply)} {rest : MemRest}

/-- Every general register is 0 after reset (R61). -/
theorem resetWith_readReg (r : Reg) : (State.resetWith cfg hc ram hr hw reads writes rest).readReg r = 0#32 := by
  by_cases h : r = 0#5
  · rw [h, readReg_zero]
  · rw [readReg_of_ne_zero _ _ h]
    exact Vector.getElem_replicate _

/-- Every writable CSR is 0 after reset (R61). -/
theorem resetWith_csrValue {r : Csr} {m : Word} (h : r.writeMask = some m) :
    (State.resetWith cfg hc ram hr hw reads writes rest).csrValue r = 0#32 := by
  cases r <;> cases h <;> rfl

end Reset

/-- A step whose fetch fails is the trap entry with `INSTR_FAULT`, then `csr_step` (R93, R551). -/
theorem step_of_fetch_none {s : State} (h : (fetch s).1 = none) :
    step s = .next (csrStep (trapEnter Cause.instrFault.code (fetch s).2)) := by
  simp only [step, h, raise_next, endStep]

/-- Settles O13: `mtvec` is 0 after reset, so a fetch that fails there traps to 0, and `csr_step` keeps the trap's CSRs. -/
theorem resetValues : Obligations.ResetValues := by
  intro cfg hc ram hr hw reads writes rest s
  refine ⟨resetWith_readReg, rfl, rfl, rfl, rfl, fun c h => ?csrs, rfl, fun hf => ?trap⟩
  case csrs =>
    have writable : ∀ c ∈ [Csr.mstatus, .mie, .mip, .mtvec, .mscratch, .mepc, .mcause, .mcycle, .mcycleh, .minstret,
        .minstreth, .mcountinhibit], c.writeMask.isSome = true := by decide
    obtain ⟨m, hm⟩ := Option.isSome_iff_exists.1 (writable c h)
    exact resetWith_csrValue hm
  case trap =>
    obtain ⟨mem, hu, -⟩ := fetch_eq s
    have hstep := step_of_fetch_none hf
    rw [hu] at hstep
    have target : trapTarget s.mtvec Cause.instrFault.code = 0#32 := by
      rw [trapTarget_code]
      exact (by decide : clearBit0 0#32 = 0#32)
    have status : trapStatus 0#32 .M = 0x1800#32 := by decide
    exact ⟨_, hstep, (csrStep_pc _).trans target, csrStep_priv _, csrStep_csrValue (r := .mcause) rfl,
      csrStep_csrValue (r := .mepc) rfl, (csrStep_csrValue (r := .mstatus) rfl).trans status⟩

end Sys2Proof.Machine
end

section
/-!
PROOFS. Memory accesses against the containing little-endian word: reading by the shifts of R86, splicing by R87, and the one call
of MEM outside the window (R84).
-/

namespace Sys2Proof.Machine

/-! ## The low bits a width selects -/

/-- The mask of the low `8n` bits of a word (R87). -/
def Width.mask : Width → Word
  | .byte => 0xFF#32
  | .half => 0xFFFF#32
  | .word => 0xFFFFFFFF#32

theorem Width.cut_getLsbD (n : Width) (v : Word) (i : Nat) :
    (n.cut v).getLsbD i = (decide (i < 8 * n.bytes) && v.getLsbD i) := by
  have inWord := @BitVec.lt_of_getLsbD 32 v i
  cases n
  all_goals
    simp only [Width.cut, Width.bytes, BitVec.getLsbD_setWidth, BitVec.getLsbD_extractLsb', Nat.zero_add]
    grind

theorem Width.mask_eq_cut_allOnes (n : Width) : n.mask = n.cut (BitVec.allOnes 32) := by cases n <;> decide

theorem Width.bits_le (n : Width) : 8 * n.bytes ≤ 32 := by cases n <;> decide

theorem Width.mask_getLsbD (n : Width) (i : Nat) : n.mask.getLsbD i = decide (i < 8 * n.bytes) := by
  have := n.bits_le
  simp only [Width.mask_eq_cut_allOnes, Width.cut_getLsbD, BitVec.getLsbD_allOnes]
  grind

theorem Width.and_mask (n : Width) (v : Word) : v &&& n.mask = n.cut v := by
  refine BitVec.eq_of_getLsbD_eq fun i _ => ?_
  rw [BitVec.getLsbD_and, Width.mask_getLsbD, Width.cut_getLsbD, Bool.and_comm]

theorem Width.cut_toNat (n : Width) (v : Word) : (n.cut v).toNat = v.toNat % 2 ^ (8 * n.bytes) := by
  cases n with
  | word => exact (Nat.mod_eq_of_lt v.isLt).symm
  | _ => simp only [Width.cut, Width.bytes, BitVec.toNat_setWidth, BitVec.extractLsb'_toNat]; omega

/-! ## Bytes of the containing word -/

/-- Bit `i` of a little-endian value is bit `i % 8` of its byte `i / 8` (R81). -/
theorem ramRead_getLsbD (m : Memory) (n : Width) (a i : Nat) :
    (ramRead m n a).getLsbD i = (decide (i < 8 * n.bytes) && (m.read (a + i / 8)).getLsbD (i % 8)) := by
  have hi : i = 8 * (i / 8) + i % 8 := by omega
  have hr : i % 8 < 8 := by omega
  generalize i / 8 = q at hi ⊢
  generalize i % 8 = r at hi hr ⊢
  subst hi
  have byteIndex : q = 0 ∨ q = 1 ∨ q = 2 ∨ q = 3 ∨ 4 ≤ q := by omega
  cases n
  all_goals
    simp only [ramRead, Width.bytes, BitVec.getLsbD_setWidth, BitVec.getLsbD_append]
    rcases byteIndex with rfl | rfl | rfl | rfl | h <;> grind

/-- An aligned read is cut out of the containing word by the shift of R86. -/
theorem ramRead_eq_cut_shift (m : Memory) (n : Width) (a : Nat) (h : a % n.bytes = 0) :
    ramRead m n a = n.cut (ramRead m .word (a - a % 4) >>> (8 * (a % 4))) := by
  refine BitVec.eq_of_getLsbD_eq fun i _ => ?_
  simp only [Width.cut_getLsbD, BitVec.getLsbD_ushiftRight, ramRead_getLsbD]
  by_cases hi : i < 8 * n.bytes
  · have inside : 8 * (a % 4) + i < 8 * Width.word.bytes := by cases n <;> simp only [Width.bytes] at h hi ⊢ <;> omega
    have byte : a - a % 4 + (8 * (a % 4) + i) / 8 = a + i / 8 := by omega
    have bit : (8 * (a % 4) + i) % 8 = i % 8 := by omega
    simp only [inside, byte, bit, decide_true, Bool.true_and]
  · simp only [hi, decide_false, Bool.false_and]

/-- The word that holds the first byte of a write, spliced as R87 says. -/
theorem ramRead_word_ramWrite (m : Memory) (n : Width) (a : Nat) (v : Word) (hm : m.wf = true) :
    ramRead (ramWrite m n a v) .word (a - a % 4) =
      (ramRead m .word (a - a % 4) &&& ~~~(n.mask <<< (8 * (a % 4)))) ||| (n.cut v <<< (8 * (a % 4))) := by
  refine BitVec.eq_of_getLsbD_eq fun i hi => ?_
  have inWord : i < 8 * Width.word.bytes := hi
  simp only [ramRead_getLsbD, BitVec.getLsbD_or, BitVec.getLsbD_and, BitVec.getLsbD_not, BitVec.getLsbD_shiftLeft,
    Width.mask_getLsbD, Width.cut_getLsbD, hi, inWord, decide_true, Bool.true_and]
  by_cases written : 8 * (a % 4) ≤ i ∧ i - 8 * (a % 4) < 8 * n.bytes
  · have byte : a - a % 4 + i / 8 = a + (i / 8 - a % 4) := by omega
    have bit : 8 * (i / 8 - a % 4) + i % 8 = i - 8 * (a % 4) := by omega
    rw [byte, ramWrite_read m n a _ v hm (by omega), BitVec.getLsbD_extractLsb', bit]
    simp [Nat.not_lt.2 written.1, written.2, Nat.mod_lt]
  · rw [ramWrite_read_ne m n a _ v (by omega)]
    grind

/-- An aligned write stays inside the containing word (R87). -/
theorem ramWrite_read_outside_word {m : Memory} {n : Width} {a b : Nat} {v : Word} (h : a % n.bytes = 0)
    (hb : b < a - a % 4 ∨ a - a % 4 + 4 ≤ b) : (ramWrite m n a v).read b = m.read b := by
  refine ramWrite_read_ne m n a b v ?_
  cases n <;> simp only [Width.bytes] at h ⊢ <;> omega

/-! ## The state after an access -/

/-- An access to memory leaves everything outside memory. -/
theorem OnlyMemory.keeps {s u : State} (h : OnlyMemory s u) : KeepsRegs s u ∧ KeepsSystem s u ∧ u.pc = s.pc := by
  refine ⟨h.readReg, ?_⟩
  obtain ⟨_, _, rfl⟩ := h.eq
  exact ⟨⟨⟨rfl, fun c => by cases c <;> rfl, rfl, rfl, rfl⟩, rfl⟩, rfl⟩

theorem MemPort.write_fst (p : MemPort) (n : Width) (a v : Word) :
    (p.write n a v).1 = p.writeAnswer p.calls n a (n.cut v) := rfl

/-! ## MemRead and MemWrite -/

/-- Settles O16: inside the window by `ramRead_eq_cut_shift`, outside by the answer MEM gives to one call. -/
theorem memReadServesWindowOrMem : Obligations.MemReadServesWindowOrMem := by
  intro s n addr haligned a w
  refine ⟨fun hin => ?inside, fun hout u v hread => ?outside⟩
  case inside =>
    rw [s.memRead_inside n hin]
    cases n with
    | byte | half =>
      rw [ramRead_eq_cut_shift _ _ _ haligned, ← Width.and_mask]
      rfl
    | word =>
      have whole : a = addr.toNat := congrArg (addr.toNat - ·) haligned
      simp only [w, whole, ramRead]
  case outside =>
    have hkeeps := (onlyMemory_memRead s n addr).keeps
    rw [hread] at hkeeps
    rw [State.memRead_outside n hout] at hread
    cases hread
    have cut : n.cut = fun x => BitVec.ofNat 32 (x.toNat % 2 ^ (8 * n.bytes)) :=
      funext fun x => by rw [← Width.cut_toNat, BitVec.ofNat_toNat, BitVec.setWidth_eq]
    exact ⟨by rw [← cut]; rfl, rfl, fun _ => rfl, hkeeps⟩

/-- Settles O17: inside the window by `ramRead_word_ramWrite`, outside by the answer MEM gives to one call. -/
theorem memWriteSplicesOrAsksMem : Obligations.MemWriteSplicesOrAsksMem := by
  intro s n addr v hwf haligned a word mask sh
  have hmask : mask = n.mask := by cases n <;> rfl
  rw [hmask, Width.and_mask]
  refine ⟨fun hin => ?inside, fun hout => ?outside⟩
  case inside =>
    have hok := s.memWrite_inside n v hin
    exact ⟨_, hok, ramRead_word_ramWrite s.ram n addr.toNat v hwf,
      fun b hb => ramWrite_read_outside_word haligned hb, rfl,
      (onlyMemory_memWrite_ok ((n.aligned_iff addr).2 haligned) hok).keeps⟩
  case outside =>
    let u : State := { s with mem := s.mem.record (.write n addr (n.cut v)) }
    obtain ⟨hregs, hsystem, hpc⟩ := (onlyMemory_record s (.write n addr (n.cut v))).keeps
    refine ⟨u, fun _ => rfl, hregs, hsystem, hpc, rfl, ?_⟩
    rcases s.memWrite_cases n addr v with ⟨hin, -⟩ | ⟨-, ⟨hans, hw⟩ | ⟨hans, hw⟩ | ⟨code, hans, hw⟩⟩
    · exact absurd hin (by simp [hout])
    all_goals
      rw [MemPort.write_fst] at hans
      rw [hans]
      exact hw

end Sys2Proof.Machine
end

section
/-!
PROOFS. The codes that decode to no instruction (R130 to R144): the route of a code to the decoder of its opcode or quadrant, the
codes that each of those rejects, and from both the reserved and unlisted codes, clause by clause.
-/

namespace Sys2Proof

/-! ## Fields of fields -/

/-- A field of a field is a field of the whole. -/
theorem extractLsb'_extractLsb'_of_le {w : Nat} (x : BitVec w) (i : Nat) {n j m : Nat} (h : j + m ≤ n) :
    (x.extractLsb' i n).extractLsb' j m = x.extractLsb' (i + j) m := by
  refine BitVec.eq_of_getLsbD_eq fun k hk => ?_
  have inside : j + k < n := by omega
  simp only [BitVec.getLsbD_extractLsb', hk, inside, decide_true, Bool.true_and, Nat.add_assoc]

/-- The fields inside a field that is zero are zero. -/
theorem extractLsb'_eq_zero_of_field {w i n : Nat} {x : BitVec w} (h : x.extractLsb' i n = 0) (j m : Nat)
    (hj : j + m ≤ n) : x.extractLsb' (i + j) m = 0 := by
  rw [← extractLsb'_extractLsb'_of_le x i hj, h]
  exact BitVec.extractLsb'_zero

/-! ## From a failed decoder to the decode error -/

theorem decodeCode_half_of_none {c : BitVec 16} (h : decode16 c = none) :
    decodeCode (.half c) = .error (.unmatched16 c) := by
  rw [decodeCode, h]

theorem decodeCode_word_of_none {w : BitVec 32} (h : decode32 w = none) :
    decodeCode (.word w) = .error (.unmatched32 w) := by
  rw [decodeCode, h]

theorem guardWf_of_not_wf {i : Instr} (h : i.wf = false) : guardWf i = none := by
  rw [guardWf, h]
  rfl

/-! ## 16-bit codes -/

section Half

variable {c : BitVec 16}

theorem decode16_quadrant0 (h : c.extractLsb' 0 2 = 0) : decode16 c = decodeQ0 c := by
  rw [decode16, h]
  rfl

theorem decode16_quadrant1 (h : c.extractLsb' 0 2 = 1) : decode16 c = decodeQ1 c := by
  rw [decode16, h]
  rfl

theorem decode16_quadrant2 (h : c.extractLsb' 0 2 = 2) : decode16 c = decodeQ2 c := by
  rw [decode16, h]
  rfl

theorem decodeQ1_alu (h : c.extractLsb' 13 3 = 4) : decodeQ1 c = decodeQ1Alu c := by
  rw [decodeQ1, h]
  rfl

theorem decodeQ2_zcmp (h : c.extractLsb' 13 3 = 5) : decodeQ2 c = decodeZcmp c := by
  rw [decodeQ2, h]
  rfl

/-- C.ADDI4SPN with immediate 0: the immediate's four fields lie in `c[12:5]` (R138, R404). -/
theorem decodeQ0_addi4spn_zero (hf : c.extractLsb' 13 3 = 0) (hz : c.extractLsb' 5 8 = 0) (hc : c ≠ 0) :
    decodeQ0 c = none := by
  rw [decodeQ0, hf, show c.extractLsb' 7 4 = 0 from extractLsb'_eq_zero_of_field hz 2 4 (by decide),
    show c.extractLsb' 11 2 = 0 from extractLsb'_eq_zero_of_field hz 6 2 (by decide),
    show c.extractLsb' 5 1 = 0 from extractLsb'_eq_zero_of_field hz 0 1 (by decide),
    show c.extractLsb' 6 1 = 0 from extractLsb'_eq_zero_of_field hz 1 1 (by decide)]
  exact (if_neg hc).trans (guardWf_of_not_wf rfl)

theorem decodeQ0_unlisted (h : c.extractLsb' 13 3 ∈ [1#3, 3#3, 4#3, 5#3, 7#3]) : decodeQ0 c = none := by
  unfold decodeQ0
  split
  case h_4 => rfl
  all_goals
    next hf => exact absurd (hf ▸ h) (by decide)

/-- C.LUI and C.ADDI16SP with immediate 0: both immediates lie in `c[12]` and `c[6:2]` (R138, R410, R411). -/
theorem decodeQ1_lui_zero (hf : c.extractLsb' 13 3 = 3) (hb : c.extractLsb' 12 1 = 0) (hz : c.extractLsb' 2 5 = 0) :
    decodeQ1 c = none := by
  rw [decodeQ1, hf, hb, hz, show c.extractLsb' 3 2 = 0 from extractLsb'_eq_zero_of_field hz 1 2 (by decide),
    show c.extractLsb' 5 1 = 0 from extractLsb'_eq_zero_of_field hz 3 1 (by decide),
    show c.extractLsb' 2 1 = 0 from extractLsb'_eq_zero_of_field hz 0 1 (by decide),
    show c.extractLsb' 6 1 = 0 from extractLsb'_eq_zero_of_field hz 4 1 (by decide)]
  by_cases hrd : c.extractLsb' 7 5 = 2
  · exact (if_pos hrd).trans (guardWf_of_not_wf rfl)
  · exact (if_neg hrd).trans (guardWf_of_not_wf (Bool.and_false _))

/-- Every operation of funct3 `100` but C.ANDI has `c[12]` zero (R138, R143). -/
theorem decodeQ1Alu_bit12 (hb : c.extractLsb' 12 1 = 1) (hand : c.extractLsb' 10 2 ≠ 2) : decodeQ1Alu c = none := by
  have hb0 : c.extractLsb' 12 1 ≠ 0 := by rw [hb]; decide
  unfold decodeQ1Alu
  split
  case h_3 h => exact absurd h hand
  all_goals exact if_neg hb0

theorem decodeQ2_slli_bit12 (hf : c.extractLsb' 13 3 = 0) (hb : c.extractLsb' 12 1 = 1) : decodeQ2 c = none := by
  rw [decodeQ2, hf, hb]
  rfl

theorem decodeQ2_lwsp_zero (hf : c.extractLsb' 13 3 = 2) (hrd : c.extractLsb' 7 5 = 0) : decodeQ2 c = none := by
  rw [decodeQ2, hf, hrd]
  exact guardWf_of_not_wf rfl

theorem decodeQ2_unlisted (h : c.extractLsb' 13 3 ∈ [1#3, 3#3, 7#3]) : decodeQ2 c = none := by
  unfold decodeQ2
  split
  case h_6 => rfl
  all_goals
    next hf => exact absurd (hf ▸ h) (by decide)

/-- The selectors `c[15:8]` of PUSH, POP, POPRETZ and POPRET (R144). -/
def pushPopSelectors : List (BitVec 8) := [0xB8#8, 0xBA#8, 0xBC#8, 0xBE#8]

theorem funct3_of_pushPop (h : c.extractLsb' 8 8 ∈ pushPopSelectors) : c.extractLsb' 13 3 = 5 := by
  have zcmp : ∀ b ∈ pushPopSelectors, b.extractLsb' 5 3 = 5 := by decide
  rw [← zcmp _ h]
  exact (extractLsb'_extractLsb'_of_le c 8 (n := 8) (j := 5) (m := 3) (by decide)).symm

theorem funct3_of_moves (h : c.extractLsb' 10 6 = 0b101011#6) : c.extractLsb' 13 3 = 5 := by
  rw [← extractLsb'_extractLsb'_of_le c 10 (n := 6) (j := 3) (by decide), h]
  decide

theorem decodeZcmp_short_rlist (h : c.extractLsb' 8 8 ∈ pushPopSelectors) (hr : (c.extractLsb' 4 4).toNat < 4) :
    decodeZcmp c = none := by
  have short : decide (4 ≤ (c.extractLsb' 4 4).toNat) = false := decide_eq_false (Nat.not_le.2 hr)
  have selector : c.extractLsb' 8 5 = (c.extractLsb' 8 8).extractLsb' 0 5 :=
    (extractLsb'_extractLsb'_of_le c 8 (n := 8) (j := 0) (m := 5) (by decide)).symm
  simp only [pushPopSelectors, List.mem_cons, List.not_mem_nil, or_false] at h
  rcases h with h | h | h | h
  all_goals
    rw [decodeZcmp, selector, h]
    exact guardWf_of_not_wf short

/-- MVSA01 with equal selectors (R138, R461). -/
theorem decodeZcmp_mvsa01_equal (hsel : c.extractLsb' 10 6 = 0b101011#6) (hmv : c.extractLsb' 5 2 = 1)
    (heq : c.extractLsb' 7 3 = c.extractLsb' 2 3) : decodeZcmp c = none := by
  have moves : c.extractLsb' 10 3 = 0b011#3 := by
    rw [← extractLsb'_extractLsb'_of_le c 10 (n := 6) (j := 0) (by decide), hsel]
    decide
  have inSelector : (c.extractLsb' 8 5).extractLsb' 2 3 = 0b011#3 :=
    (extractLsb'_extractLsb'_of_le c 8 (by decide)).trans moves
  unfold decodeZcmp
  split
  case h_5 =>
    rw [if_pos moves, hmv, heq]
    exact guardWf_of_not_wf (bne_self_eq_false _)
  all_goals
    next h =>
      rw [h] at inSelector
      exact absurd inSelector (by decide)

/-- The codes of funct3 `101` that R144 does not list. -/
theorem decodeZcmp_unlisted (hf : c.extractLsb' 13 3 = 5) (hpush : c.extractLsb' 8 8 ∉ pushPopSelectors)
    (hmv : ¬(c.extractLsb' 10 6 = 0b101011#6 ∧ c.extractLsb' 5 2 ∈ [1#2, 3#2])) : decodeZcmp c = none := by
  have join8 : c.extractLsb' 8 8 = 5#3 ++ c.extractLsb' 8 5 := by
    rw [← BitVec.extractLsb'_append_extractLsb'_eq_extractLsb' (start₂ := 13) (len₂ := 3) (len₁ := 5) rfl, hf]
    rfl
  have join6 : c.extractLsb' 10 6 = 5#3 ++ c.extractLsb' 10 3 := by
    rw [← BitVec.extractLsb'_append_extractLsb'_eq_extractLsb' (start₂ := 13) (len₂ := 3) (len₁ := 3) rfl, hf]
    rfl
  unfold decodeZcmp
  split
  case h_5 =>
    split
    case isTrue moves =>
      have hsel : c.extractLsb' 10 6 = 0b101011#6 := by rw [join6, moves]; rfl
      split
      case h_3 => rfl
      all_goals
        next h => exact absurd ⟨hsel, by rw [h]; decide⟩ hmv
    case isFalse => rfl
  all_goals
    next h => exact absurd (by rw [join8, h]; decide) hpush

/-- C.JR with `rs1 = 0` (R138, R424). -/
theorem decode16_jr_zero : decode16 0x8002#16 = none := by decide

end Half

/-! ## 32-bit codes: what each opcode's decoder rejects -/

section Fields

variable {rd rs1 rs2 : Reg} {f3 : BitVec 3} {f7 : BitVec 7} {sel : BitVec 5} {w : BitVec 32}

theorem decodeLoad_unlisted {imm : BitVec 12} (h : f3 ∈ [3#3, 6#3, 7#3]) : decodeLoad f3 rd rs1 imm = none := by
  unfold decodeLoad
  split
  case h_6 => rfl
  all_goals exact absurd h (by decide)

theorem decodeStore_unlisted {imm : BitVec 12} (h : 2 < f3.toNat) : decodeStore f3 rs1 rs2 imm = none := by
  unfold decodeStore
  split
  case h_4 => rfl
  all_goals exact absurd h (by decide)

theorem decodeBranch_unlisted {off : BitVec 12} (h : f3 ∈ [2#3, 3#3]) : decodeBranch f3 rs1 rs2 off = none := by
  unfold decodeBranch
  split
  case h_7 => rfl
  all_goals exact absurd h (by decide)

/-- The funct5 values of the AMO opcode (R133). -/
def amoFunct5 : List (BitVec 5) :=
  [0b00010#5, 0b00011#5, 0b00001#5, 0b00000#5, 0b00100#5, 0b01100#5, 0b01000#5, 0b10000#5, 0b10100#5, 0b11000#5,
    0b11100#5]

theorem decodeAmo_unlisted {f5 : BitVec 5} {aq rl : BitVec 1} (h : f5 ∉ amoFunct5) :
    decodeAmo f5 rd rs1 rs2 aq rl = none := by
  unfold decodeAmo
  split
  case h_12 => rfl
  all_goals exact absurd (by decide) h

/-- LR.W with a nonzero rs2 field (R324). -/
theorem decodeAmo_lr_rs2 {aq rl : BitVec 1} (h : rs2 ≠ 0) : decodeAmo 0b00010#5 rd rs1 rs2 aq rl = none :=
  if_neg h

theorem decodeSystem0_unlisted (h : w ∉ [0x00000073#32, 0x00100073#32, 0x30200073#32]) : decodeSystem0 w = none := by
  unfold decodeSystem0
  split
  case h_4 => rfl
  all_goals exact absurd (by decide) h

theorem decodeMiscMem_unlisted (h : 1 < f3.toNat) : decodeMiscMem w f3 rd rs1 = none := by
  unfold decodeMiscMem
  split
  case h_3 => rfl
  all_goals exact absurd h (by decide)

theorem decodeCustom0_unlisted (h : w.extractLsb' 29 3 ≠ 0 ∨ w.extractLsb' 25 1 ≠ 0 ∨ f3 ∉ [0#3, 4#3]) :
    decodeCustom0 w f3 rd rs1 rs2 = none := by
  unfold decodeCustom0
  split
  case isFalse => rfl
  case isTrue hzero =>
    obtain ⟨hhigh, hlow⟩ := hzero
    have hf : f3 ∉ [0#3, 4#3] := (h.resolve_left (absurd hhigh)).resolve_left (absurd hlow)
    split
    case h_3 => rfl
    all_goals exact absurd (by decide) hf

/-- The dashes of R131's table. -/
theorem decodeOp_dash (h : f3 ∉ (Machine.opTable.lookup f7).getD []) : decodeOp f7 f3 rd rs1 rs2 = none := by
  unfold decodeOp
  split
  case h_40 => rfl
  all_goals exact absurd (by decide) h

/-- The combinations of R132's table that have no instruction, funct3 `001`: of the ten rows, the first four shift. -/
theorem decodeOpImm1_unlisted (hshift : (1#3, f7, none) ∉ Machine.opImmTable)
    (hunary : (1#3, f7, some sel) ∉ Machine.opImmTable) : decodeOpImm1 f7 sel rd rs1 = none := by
  unfold decodeOpImm1
  split
  case h_1 | h_2 | h_3 | h_4 => exact absurd (by decide) hshift
  case h_11 => rfl
  all_goals exact absurd (by decide) hunary

/-- The combinations of R132's table that have no instruction, funct3 `101`: of the eight rows, the first four shift. -/
theorem decodeOpImm5_unlisted (hshift : (5#3, f7, none) ∉ Machine.opImmTable)
    (hunary : (5#3, f7, some sel) ∉ Machine.opImmTable) : decodeOpImm5 f7 sel rd rs1 = none := by
  unfold decodeOpImm5
  split
  case h_1 | h_2 | h_3 | h_4 => exact absurd (by decide) hshift
  case h_9 => rfl
  all_goals exact absurd (by decide) hunary

/-- OP-IMM, funct3 `001` and `101`: the combinations that R132's table does not have. -/
theorem decodeOpImm_unlisted (hf : f3 ∈ [1#3, 5#3]) (hshift : (f3, w.extractLsb' 25 7, none) ∉ Machine.opImmTable)
    (hunary : (f3, w.extractLsb' 25 7, some (w.extractLsb' 20 5)) ∉ Machine.opImmTable) :
    decodeOpImm w f3 rd rs1 = none := by
  simp only [List.mem_cons, List.not_mem_nil, or_false] at hf
  rcases hf with rfl | rfl
  · exact decodeOpImm1_unlisted hshift hunary
  · exact decodeOpImm5_unlisted hshift hunary

end Fields

/-! ## 32-bit codes by opcode -/

section Word

variable {w : BitVec 32}

/-- The major opcodes of R130. -/
def majorOpcodes : List (BitVec 7) :=
  [0b0000011#7, 0b0001011#7, 0b0001111#7, 0b0010011#7, 0b0010111#7, 0b0100011#7, 0b0101111#7, 0b0110011#7, 0b0110111#7,
    0b1100011#7, 0b1100111#7, 0b1101111#7, 0b1110011#7]

theorem decode32_unlisted_opcode (h : w.extractLsb' 0 7 ∉ majorOpcodes) : decode32 w = none := by
  unfold decode32
  split
  case h_14 => rfl
  all_goals
    next hop => exact absurd (by rw [hop]; decide) h

theorem decode32_load (h : w.extractLsb' 0 7 = 0b0000011#7) : decode32 w =
    decodeLoad (w.extractLsb' 12 3) (w.extractLsb' 7 5) (w.extractLsb' 15 5) (w.extractLsb' 20 12) := by
  rw [decode32, h]
  rfl

theorem decode32_custom0 (h : w.extractLsb' 0 7 = 0b0001011#7) : decode32 w =
    decodeCustom0 w (w.extractLsb' 12 3) (w.extractLsb' 7 5) (w.extractLsb' 15 5) (w.extractLsb' 20 5) := by
  rw [decode32, h]
  rfl

theorem decode32_miscMem (h : w.extractLsb' 0 7 = 0b0001111#7) : decode32 w =
    decodeMiscMem w (w.extractLsb' 12 3) (w.extractLsb' 7 5) (w.extractLsb' 15 5) := by
  rw [decode32, h]
  rfl

theorem decode32_opImm (h : w.extractLsb' 0 7 = 0b0010011#7) : decode32 w =
    decodeOpImm w (w.extractLsb' 12 3) (w.extractLsb' 7 5) (w.extractLsb' 15 5) := by
  rw [decode32, h]
  rfl

theorem decode32_store (h : w.extractLsb' 0 7 = 0b0100011#7) : decode32 w =
    decodeStore (w.extractLsb' 12 3) (w.extractLsb' 15 5) (w.extractLsb' 20 5)
      (w.extractLsb' 25 7 ++ w.extractLsb' 7 5) := by
  rw [decode32, h]
  rfl

theorem decode32_amo (h : w.extractLsb' 0 7 = 0b0101111#7) : decode32 w =
    if w.extractLsb' 12 3 = 0b010#3 then
      decodeAmo (w.extractLsb' 27 5) (w.extractLsb' 7 5) (w.extractLsb' 15 5) (w.extractLsb' 20 5) (w.extractLsb' 26 1)
        (w.extractLsb' 25 1)
      else none := by
  rw [decode32, h]
  rfl

theorem decode32_op (h : w.extractLsb' 0 7 = 0b0110011#7) : decode32 w =
    decodeOp (w.extractLsb' 25 7) (w.extractLsb' 12 3) (w.extractLsb' 7 5) (w.extractLsb' 15 5)
      (w.extractLsb' 20 5) := by
  rw [decode32, h]
  rfl

theorem decode32_branch (h : w.extractLsb' 0 7 = 0b1100011#7) : decode32 w =
    decodeBranch (w.extractLsb' 12 3) (w.extractLsb' 15 5) (w.extractLsb' 20 5)
      (w.extractLsb' 31 1 ++ w.extractLsb' 7 1 ++ w.extractLsb' 25 6 ++ w.extractLsb' 8 4) := by
  rw [decode32, h]
  rfl

theorem decode32_jalr (h : w.extractLsb' 0 7 = 0b1100111#7) : decode32 w =
    if w.extractLsb' 12 3 = 0b000#3 then
      some (.jalr (w.extractLsb' 7 5) (w.extractLsb' 15 5) (w.extractLsb' 20 12)) else none := by
  rw [decode32, h]
  rfl

theorem decode32_system (h : w.extractLsb' 0 7 = 0b1110011#7) : decode32 w =
    decodeSystem w (w.extractLsb' 12 3) (w.extractLsb' 7 5) (w.extractLsb' 15 5) (w.extractLsb' 20 12) := by
  rw [decode32, h]
  rfl

end Word

/-! ## The clauses together -/

/-- Settles O5: each clause goes by quadrant or major opcode to the decoder that rejects it. -/
theorem illegalCodesRejected : Obligations.IllegalCodesRejected := by
  refine ⟨fun c h => decodeCode_half_of_none ?half, fun w h => decodeCode_word_of_none ?word⟩
  case half =>
    rcases h with ⟨hq, hf, hz, hc⟩ | ⟨hq, hf⟩ | ⟨hq, hf, hb, hz⟩ | ⟨hq, hf, hb, hand⟩ | ⟨hq, hf, hb⟩ | ⟨hq, hf, hrd⟩
      | rfl | ⟨hq, hf⟩ | ⟨hq, hpush, hr⟩ | ⟨hq, hsel, hmv, heq⟩ | ⟨hq, hf, hpush, hmv⟩
    · exact (decode16_quadrant0 hq).trans (decodeQ0_addi4spn_zero hf hz hc)
    · exact (decode16_quadrant0 hq).trans (decodeQ0_unlisted hf)
    · exact (decode16_quadrant1 hq).trans (decodeQ1_lui_zero hf hb hz)
    · rw [decode16_quadrant1 hq, decodeQ1_alu hf, decodeQ1Alu_bit12 hb hand]
    · exact (decode16_quadrant2 hq).trans (decodeQ2_slli_bit12 hf hb)
    · exact (decode16_quadrant2 hq).trans (decodeQ2_lwsp_zero hf hrd)
    · exact decode16_jr_zero
    · exact (decode16_quadrant2 hq).trans (decodeQ2_unlisted hf)
    · rw [decode16_quadrant2 hq, decodeQ2_zcmp (funct3_of_pushPop hpush), decodeZcmp_short_rlist hpush hr]
    · rw [decode16_quadrant2 hq, decodeQ2_zcmp (funct3_of_moves hsel), decodeZcmp_mvsa01_equal hsel hmv heq]
    · rw [decode16_quadrant2 hq, decodeQ2_zcmp hf, decodeZcmp_unlisted hf hpush hmv]
  case word =>
    rcases h with hop | ⟨hop, hf⟩ | ⟨hop, hf⟩ | ⟨hop, hf⟩ | ⟨hop, hf⟩ | ⟨hop, hf⟩ | ⟨hop, hf5⟩ | ⟨hop, hf5, hrs2⟩
      | ⟨hop, hf⟩ | ⟨hop, hf, hw⟩ | ⟨hop, hf⟩ | ⟨hop, hbits⟩ | ⟨hop, hf⟩ | ⟨hop, hf, hshift, hunary⟩
    · exact decode32_unlisted_opcode hop
    · exact (decode32_load hop).trans (decodeLoad_unlisted hf)
    · exact (decode32_store hop).trans (decodeStore_unlisted hf)
    · exact (decode32_branch hop).trans (decodeBranch_unlisted hf)
    · exact (decode32_jalr hop).trans (if_neg hf)
    · exact (decode32_amo hop).trans (if_neg hf)
    · rw [decode32_amo hop, decodeAmo_unlisted hf5, ite_self]
    · rw [decode32_amo hop, hf5, decodeAmo_lr_rs2 hrs2, ite_self]
    · rw [decode32_system hop, hf]
      rfl
    · rw [decode32_system hop, hf]
      exact decodeSystem0_unlisted hw
    · exact (decode32_miscMem hop).trans (decodeMiscMem_unlisted hf)
    · exact (decode32_custom0 hop).trans (decodeCustom0_unlisted hbits)
    · exact (decode32_op hop).trans (decodeOp_dash hf)
    · exact (decode32_opImm hop).trans (decodeOpImm_unlisted hf hshift hunary)

end Sys2Proof
end

section
/-!
PROOFS. The base integer computational instructions: the routes of OP, OP-IMM and the U format from an encoding to its instruction
(R130 to R132), the rule for an encoding whose instruction commits one result (R160), and the results of ADD to AUIPC (R162 to
R182).
-/

namespace Sys2Proof

/-! ## From an encoding to its instruction -/

theorem decodeCode_word_of_some {w : BitVec 32} {i : Instr} (h : decode32 w = some i) : decodeCode (.word w) = .ok i := by
  rw [decodeCode, h]

/-- OP goes by funct7 and funct3 (R131). -/
theorem decode32_encR_op (f7 : BitVec 7) (rs2 rs1 : Reg) (f3 : BitVec 3) (rd : Reg) :
    decode32 (encR f7 rs2 rs1 f3 rd 0b0110011#7) = decodeOp f7 f3 rd rs1 rs2 := by
  obtain ⟨hop, hrd, hf3, hrs1, hrs2, hf7⟩ := encR_fields f7 rs2 rs1 f3 rd 0b0110011#7
  rw [decode32_op hop, hrd, hf3, hrs1, hrs2, hf7]

/-- OP-IMM with funct3 `001` goes by funct7 and the selector (R132). -/
theorem decode32_encR_opImm1 (f7 : BitVec 7) (sel : BitVec 5) (rs1 rd : Reg) :
    decode32 (encR f7 sel rs1 0b001#3 rd 0b0010011#7) = decodeOpImm1 f7 sel rd rs1 := by
  obtain ⟨hop, hrd, hf3, hrs1, hsel, hf7⟩ := encR_fields f7 sel rs1 0b001#3 rd 0b0010011#7
  rw [decode32_opImm hop, hrd, hf3, hrs1, decodeOpImm, hsel, hf7]

/-- OP-IMM with funct3 `101` goes by funct7 and the selector (R132). -/
theorem decode32_encR_opImm5 (f7 : BitVec 7) (sel : BitVec 5) (rs1 rd : Reg) :
    decode32 (encR f7 sel rs1 0b101#3 rd 0b0010011#7) = decodeOpImm5 f7 sel rd rs1 := by
  obtain ⟨hop, hrd, hf3, hrs1, hsel, hf7⟩ := encR_fields f7 sel rs1 0b101#3 rd 0b0010011#7
  rw [decode32_opImm hop, hrd, hf3, hrs1, decodeOpImm, hsel, hf7]

/-- OP-IMM in the I format: the immediate of the instruction is that of the encoding (R123, R132). -/
theorem decode32_encI_opImm {rs1 rd : Reg} {f3 : BitVec 3} {i : BitVec 12 → Instr}
    (h : ∀ w, decodeOpImm w f3 rd rs1 = some (i (w.extractLsb' 20 12))) (imm : BitVec 12) :
    decode32 (encI imm rs1 f3 rd 0b0010011#7) = some (i imm) := by
  obtain ⟨hop, hrd, hf3, hrs1, himm⟩ := encI_fields imm rs1 f3 rd 0b0010011#7
  rw [decode32_opImm hop, hrd, hf3, hrs1, h, himm]

theorem decode32_encU_lui (imm : BitVec 20) (rd : Reg) : decode32 (encU imm rd 0b0110111#7) = some (.lui rd imm) := by
  obtain ⟨hop, hrd, himm⟩ := encU_fields imm rd 0b0110111#7
  rw [decode32, hop, hrd, himm]
  rfl

theorem decode32_encU_auipc (imm : BitVec 20) (rd : Reg) :
    decode32 (encU imm rd 0b0010111#7) = some (.auipc rd imm) := by
  obtain ⟨hop, hrd, himm⟩ := encU_fields imm rd 0b0010111#7
  rw [decode32, hop, hrd, himm]
  rfl

end Sys2Proof

namespace Sys2Proof.Machine

/-! ## Comparisons and shift amounts as numbers -/

theorem shiftAmount_toNat (v : Word) : (shiftAmount v).toNat = v.toNat % 32 := BitVec.extractLsb'_toNat 0 5 v

theorem boolWord_ltSigned (a b : Word) : boolWord (ltSigned a b) = if a.toInt < b.toInt then 1 else 0 := by
  simp only [boolWord, ltSigned, decide_eq_true_eq]
  rfl

theorem boolWord_ltUnsigned (a b : Word) : boolWord (ltUnsigned a b) = if a.toNat < b.toNat then 1 else 0 := by
  simp only [boolWord, ltUnsigned, decide_eq_true_eq]
  rfl

/-! ## The rule of a 32-bit instruction that commits one result -/

/-- A 32-bit encoding whose instruction commits `u` runs, and computes every `v` that equals `u` (R160). -/
theorem runs_of_commitRd {w : BitVec 32} {i : Instr} {rd : Reg} {u v : Word} {s : State} (hdecode : decode32 w = some i)
    (hexec : exec i s = commitRd ilen32 rd u s) (hvalue : u = v) : Runs (.word w) i s (Computes 4#32 rd v s) :=
  hvalue ▸ ⟨decodeCode_word_of_some hdecode, _, hexec, computes_commitRd ilen32 rd u s⟩

/-! ## The results -/

/-- Settles O34: each encoding is one of OP's, and the value its instruction commits is that of its rule. -/
theorem registerArithmeticResults : Obligations.RegisterArithmeticResults := by
  intro s rd rs1 rs2 a b
  have amount : (shiftAmount b).toNat = b.toNat % 32 := shiftAmount_toNat b
  refine ⟨?add, ?sub, ?sll, ?slt, ?sltu, ?xor, ?srl, ?sra, ?or, ?and⟩
  case add | sub | xor | or | and => exact runs_of_commitRd (decode32_encR_op ..) rfl rfl
  case sll => exact runs_of_commitRd (decode32_encR_op ..) rfl (congrArg (a <<< ·) amount)
  case srl => exact runs_of_commitRd (decode32_encR_op ..) rfl (congrArg (a >>> ·) amount)
  case sra => exact runs_of_commitRd (decode32_encR_op ..) rfl (congrArg a.sshiftRight amount)
  case slt => exact runs_of_commitRd (decode32_encR_op ..) rfl (boolWord_ltSigned a b)
  case sltu => exact runs_of_commitRd (decode32_encR_op ..) rfl (boolWord_ltUnsigned a b)

/-- Settles O35: each encoding is one of OP-IMM's or a U format, and the value its instruction commits is that of its rule. -/
theorem immediateArithmeticResults : Obligations.ImmediateArithmeticResults := by
  intro s rd rs1 imm sh imm20 a m
  refine ⟨?addi, ?slti, ?sltiu, ?xori, ?ori, ?andi, ?slli, ?srli, ?srai, ?lui, ?auipc⟩
  case addi | xori | ori | andi => exact runs_of_commitRd (decode32_encI_opImm (fun _ => rfl) imm) rfl rfl
  case slti => exact runs_of_commitRd (decode32_encI_opImm (fun _ => rfl) imm) rfl (boolWord_ltSigned a m)
  case sltiu => exact runs_of_commitRd (decode32_encI_opImm (fun _ => rfl) imm) rfl (boolWord_ltUnsigned a m)
  case slli => exact runs_of_commitRd (decode32_encR_opImm1 ..) rfl rfl
  case srli | srai => exact runs_of_commitRd (decode32_encR_opImm5 ..) rfl rfl
  case lui => exact runs_of_commitRd (decode32_encU_lui imm20 rd) rfl rfl
  case auipc => exact runs_of_commitRd (decode32_encU_auipc imm20 rd) rfl rfl

end Sys2Proof.Machine
end

section
/-!
PROOFS. Multiply and divide: the two halves of an exact product as numbers (R201), and the results of MUL to REMU (R202 to R209).
-/

namespace Sys2Proof.Machine

/-! ## The halves of an exact product -/

theorem productLow_natCast (n : Nat) : productLow n = BitVec.ofNat 32 n := by
  apply BitVec.eq_of_toNat_eq
  simp only [productLow, BitVec.ofInt_natCast, BitVec.extractLsb'_toNat, BitVec.toNat_ofNat, Nat.shiftRight_zero]
  omega

/-- Bits 63:32 are the floor of the product by 2^32, so the high half of a negative product rounds down (R203, R204). -/
theorem productHigh_eq_floor (p : Int) : productHigh p = BitVec.ofInt 32 (p / 2 ^ 32) := by
  apply BitVec.eq_of_toNat_eq
  simp only [productHigh, BitVec.extractLsb'_toNat, BitVec.toNat_ofInt, Nat.shiftRight_eq_div_pow]
  omega

theorem productHigh_natCast (n : Nat) : productHigh n = BitVec.ofNat 32 (n / 2 ^ 32) :=
  (productHigh_eq_floor n).trans (BitVec.ofInt_natCast 32 (n / 2 ^ 32))

theorem unsignedInt_mul (a b : Word) : unsignedInt a * unsignedInt b = (a.toNat * b.toNat : Nat) :=
  (Int.natCast_mul a.toNat b.toNat).symm

/-! ## The signed remainder -/

/-- What REM subtracts from the dividend leaves the remainder of truncating division (R208). -/
theorem remSigned_eq_tmod (a b : Word) : remSigned a b =
    if b.toInt = 0 then a else if a.toInt = -2 ^ 31 ∧ b.toInt = -1 then 0 else BitVec.ofInt 32 (a.toInt.tmod b.toInt) := by
  rw [Int.tmod_def]
  rfl

/-! ## The results -/

/-- Settles O36: each encoding is one of OP's, and the half of the product its instruction commits is that of its rule. -/
theorem multiplyResults : Obligations.MultiplyResults := by
  intro s rd rs1 rs2 a b
  have product : unsignedInt a * unsignedInt b = (a.toNat * b.toNat : Nat) := unsignedInt_mul a b
  refine ⟨?mul, ?mulh, ?mulhsu, ?mulhu⟩
  case mul =>
    exact runs_of_commitRd (decode32_encR_op ..) rfl ((congrArg productLow product).trans (productLow_natCast _))
  case mulh => exact runs_of_commitRd (decode32_encR_op ..) rfl (productHigh_eq_floor (a.toInt * b.toInt))
  case mulhsu => exact runs_of_commitRd (decode32_encR_op ..) rfl (productHigh_eq_floor (a.toInt * b.toNat))
  case mulhu =>
    exact runs_of_commitRd (decode32_encR_op ..) rfl ((congrArg productHigh product).trans (productHigh_natCast _))

/-- Settles O37: each encoding is one of OP's; the committed values are its rules', REM's by `remSigned_eq_tmod`. -/
theorem divideResults : Obligations.DivideResults := by
  intro s rd rs1 rs2 a b
  refine ⟨?div, ?divu, ?rem, ?remu⟩
  case div | divu | remu => exact runs_of_commitRd (decode32_encR_op ..) rfl rfl
  case rem => exact runs_of_commitRd (decode32_encR_op ..) rfl (remSigned_eq_tmod a b)

end Sys2Proof.Machine
end

section
/-!
PROOFS. The words of the bit-manipulation and bit-field operations, as numbers and by their bits: rotates, single bits,
carry-less products, fields, counts and permutations (R221 to R258, R390).
-/

namespace Sys2Proof.Machine

/-! ## Shifts, comparisons and rotates -/

theorem shiftLeft_eq_ofNat_mul (a : Word) (n : Nat) : a <<< n = BitVec.ofNat 32 (2 ^ n) * a := by
  apply BitVec.eq_of_toNat_eq
  rw [BitVec.toNat_shiftLeft, BitVec.toNat_mul, BitVec.toNat_ofNat, Nat.mod_mul_mod, Nat.mul_comm, Nat.shiftLeft_eq,
    Nat.mul_comm]

theorem oneHot_eq_ofNat (n : BitVec 5) : oneHot n = BitVec.ofNat 32 (2 ^ n.toNat) :=
  (shiftLeft_eq_ofNat_mul 1#32 n.toNat).trans (BitVec.mul_one _)

theorem ite_ltSigned (a b u v : Word) :
    (if ltSigned a b then u else v) = if a.toInt < b.toInt then u else v := by
  simp only [ltSigned, decide_eq_true_eq]

theorem ite_ltUnsigned (a b u v : Word) :
    (if ltUnsigned a b then u else v) = if a.toNat < b.toNat then u else v := by
  simp only [ltUnsigned, decide_eq_true_eq]

/-- The case of amount 0 is the identity of `rotateLeft` too: the second shift, by 32, leaves no bit (R232). -/
theorem rotl_eq_rotateLeft (a : Word) (n : BitVec 5) : rotl a n = a.rotateLeft n.toNat := by
  rw [rotl, BitVec.rotateLeft_def, Nat.mod_eq_of_lt n.isLt]
  split
  next h => simp [h, BitVec.ushiftRight_eq_zero]
  next => rfl

theorem rotr_eq_rotateRight (a : Word) (n : BitVec 5) : rotr a n = a.rotateRight n.toNat := by
  rw [rotr, BitVec.rotateRight_def, Nat.mod_eq_of_lt n.isLt]
  split
  next h => simp [h]
  next => rfl

/-- The two shifts of a rotate right are those of the rotate left by the complementary amount (R258). -/
theorem rotr_eq_rotl (a : Word) {k j : BitVec 5} (h : j.toNat = (32 - k.toNat) % 32) : rotr a k = rotl a j := by
  by_cases hk : k = 0
  · have hj : j = 0 := BitVec.eq_of_toNat_eq (by simp [h, hk])
    rw [rotr, rotl, if_pos hk, if_pos hj]
  · have hk0 : k.toNat ≠ 0 := mt (BitVec.eq_of_toNat_eq (y := 0)) hk
    have hj : j ≠ 0 := ne_of_apply_ne BitVec.toNat (show j.toNat ≠ 0 by omega)
    rw [rotr, rotl, if_neg hk, if_neg hj, show 32 - j.toNat = k.toNat by omega, show 32 - k.toNat = j.toNat by omega,
      BitVec.or_comm]

/-- BEXT: bit `n` alone (R237). -/
theorem shiftRight_and_one (a : Word) (n : Nat) : (a >>> n) &&& 1#32 = if a.getLsbD n then 1 else 0 := by
  rw [BitVec.and_one_eq_setWidth_ofBool_getLsbD, BitVec.getLsbD_ushiftRight, Nat.add_zero]
  cases a.getLsbD n <;> rfl

/-! ## Carry-less products, packs and fields -/

/-- One term of the carry-less product: `acc`, with `zext_64(a) << i` added when bit `i` of `b` is 1. -/
def clmulAdd (a b : Word) (acc : BitVec 64) (i : Nat) : BitVec 64 :=
  if b.getLsbD i then acc ^^^ (a.setWidth 64 <<< i) else acc

theorem clmulBits_eq_foldl (a b : Word) (n : Nat) : clmulBits a b n = (List.range n).foldl (clmulAdd a b) 0 := by
  induction n with
  | zero => rfl
  | succ n ih =>
    rw [List.range_succ, List.foldl_concat, ← ih, clmulBits, clmulAdd]
    split
    · rfl
    · exact BitVec.xor_zero

/-- Two low fields side by side are a number in base `2 ^ n` (R246, R247). -/
theorem setWidth_append_low (n : Nat) (a b : Word) : (b.extractLsb' 0 n ++ a.extractLsb' 0 n).setWidth 32 =
    BitVec.ofNat 32 (b.toNat % 2 ^ n * 2 ^ n + a.toNat % 2 ^ n) := by
  rw [← BitVec.ofNat_toNat, BitVec.toNat_append, BitVec.extractLsb'_toNat, BitVec.extractLsb'_toNat, Nat.shiftRight_zero,
    Nat.shiftRight_zero, ← Nat.shiftLeft_add_eq_or_of_lt (Nat.mod_lt _ (Nat.two_pow_pos n)), Nat.shiftLeft_eq]

theorem bextmMask_toNat : ∀ size : BitVec 3, (bextmMask size).toNat = 2 ^ (size.toNat + 1) - 1 := by decide

/-- The mask keeps the `size + 1` low bits of the shifted word, into which zeros were shifted (R391). -/
theorem shiftRight_and_bextmMask (a : Word) (n : Nat) (size : BitVec 3) : (a >>> n) &&& bextmMask size =
    BitVec.ofNat 32 (a.toNat / 2 ^ n % 2 ^ (size.toNat + 1)) := by
  rw [← Nat.shiftRight_eq_div_pow, ← BitVec.toNat_ushiftRight, ← Nat.and_two_pow_sub_one_eq_mod, ← bextmMask_toNat,
    ← BitVec.toNat_and, BitVec.ofNat_toNat, BitVec.setWidth_eq]

/-! ## Counts -/

/-- The number of consecutive `false` values of `f` from `f (n - 1)` down to `f 0`. -/
def leadingFalse (f : Nat → Bool) : Nat → Nat
  | 0 => 0
  | n + 1 => if f n then 0 else leadingFalse f n + 1

theorem leadingZeros_eq (a : Word) (n : Nat) : leadingZeros a n = leadingFalse a.getLsbD n := by
  induction n with
  | zero => rfl
  | succ n ih => rw [leadingZeros, leadingFalse, ih]

theorem trailingZeros_eq (a : Word) (n : Nat) : trailingZeros a n = leadingFalse (fun i => a.getLsbD (31 - i)) n := by
  induction n with
  | zero => rfl
  | succ n ih => rw [trailingZeros, leadingFalse, ih]

theorem leadingFalse_le (f : Nat → Bool) (n : Nat) : leadingFalse f n ≤ n := by
  induction n with
  | zero => exact Nat.le_refl 0
  | succ n ih => rw [leadingFalse]; split <;> omega

theorem apply_of_lt_leadingFalse {f : Nat → Bool} {n k : Nat} (h : k < leadingFalse f n) : f (n - 1 - k) = false := by
  induction n generalizing k with
  | zero => exact absurd h (Nat.not_lt_zero k)
  | succ n ih =>
    rw [leadingFalse] at h
    split at h
    next => exact absurd h (Nat.not_lt_zero k)
    next hf =>
      cases k with
      | zero => exact Bool.eq_false_iff.2 hf
      | succ k =>
        rw [show n + 1 - 1 - (k + 1) = n - 1 - k by omega]
        exact ih (Nat.lt_of_succ_lt_succ h)

theorem apply_leadingFalse {f : Nat → Bool} {n : Nat} (h : leadingFalse f n < n) :
    f (n - 1 - leadingFalse f n) = true := by
  induction n with
  | zero => exact absurd h (Nat.not_lt_zero _)
  | succ n ih =>
    rw [leadingFalse] at h ⊢
    split at h
    next hf => rwa [if_pos hf]
    next hf =>
      rw [if_neg hf, show n + 1 - 1 - (leadingFalse f n + 1) = n - 1 - leadingFalse f n by omega]
      exact ih (Nat.lt_of_succ_lt_succ h)

theorem leadingZeros_le (a : Word) : leadingZeros a 32 ≤ 32 := leadingZeros_eq a 32 ▸ leadingFalse_le _ 32

theorem getLsbD_of_lt_leadingZeros {a : Word} {k : Nat} (h : k < leadingZeros a 32) : a.getLsbD (31 - k) = false :=
  apply_of_lt_leadingFalse (leadingZeros_eq a 32 ▸ h)

theorem getLsbD_leadingZeros {a : Word} (h : leadingZeros a 32 < 32) :
    a.getLsbD (31 - leadingZeros a 32) = true := by
  rw [leadingZeros_eq] at h ⊢
  exact apply_leadingFalse h

theorem trailingZeros_le (a : Word) : trailingZeros a 32 ≤ 32 := trailingZeros_eq a 32 ▸ leadingFalse_le _ 32

theorem getLsbD_of_lt_trailingZeros {a : Word} {k : Nat} (h : k < trailingZeros a 32) : a.getLsbD k = false := by
  have hk : 31 - (32 - 1 - k) = k := by have := trailingZeros_le a; omega
  rw [trailingZeros_eq] at h
  exact hk ▸ apply_of_lt_leadingFalse h

theorem getLsbD_trailingZeros {a : Word} (h : trailingZeros a 32 < 32) : a.getLsbD (trailingZeros a 32) = true := by
  have hk : 31 - (32 - 1 - trailingZeros a 32) = trailingZeros a 32 := by omega
  rw [trailingZeros_eq] at h hk ⊢
  exact hk ▸ apply_leadingFalse h

theorem popCount_eq_countP (a : Word) (n : Nat) : popCount a n = (List.range n).countP fun k => a.getLsbD k := by
  induction n with
  | zero => rfl
  | succ n ih =>
    rw [List.range_succ, List.countP_append, ← ih, popCount, List.countP_singleton]
    cases a.getLsbD n <;> rfl

/-! ## Permutations of bits and bytes -/

theorem ofBits_getLsbD (f : Nat → Bool) {n i : Nat} (h : i < n) : (ofBits n f).getLsbD i = f i := by
  induction n with
  | zero => exact absurd h (Nat.not_lt_zero i)
  | succ n ih =>
    rw [ofBits, BitVec.getLsbD_cons]
    split
    next hi => rw [hi]
    next hi => exact ih (by omega)

theorem zipWord_even (a : Word) {k : Nat} (hk : k < 16) : (zipWord a).getLsbD (2 * k) = a.getLsbD k := by
  rw [zipWord, ofBits_getLsbD _ (by omega), if_pos (by omega), Nat.mul_div_cancel_left k Nat.two_pos]

theorem zipWord_odd (a : Word) {k : Nat} (hk : k < 16) : (zipWord a).getLsbD (2 * k + 1) = a.getLsbD (k + 16) := by
  rw [zipWord, ofBits_getLsbD _ (by omega), if_neg (by omega), show (2 * k + 1) / 2 = k by omega]

theorem unzipWord_low (a : Word) {k : Nat} (hk : k < 16) : (unzipWord a).getLsbD k = a.getLsbD (2 * k) := by
  rw [unzipWord, ofBits_getLsbD _ (by omega), if_pos hk]

theorem unzipWord_high (a : Word) {k : Nat} (hk : k < 16) :
    (unzipWord a).getLsbD (k + 16) = a.getLsbD (2 * k + 1) := by
  rw [unzipWord, ofBits_getLsbD _ (by omega), if_neg (by omega), Nat.add_sub_cancel]

theorem unzipWord_zipWord (a : Word) : unzipWord (zipWord a) = a := by
  refine BitVec.eq_of_getLsbD_eq fun i hi => ?_
  by_cases h : i < 16
  · rw [unzipWord_low _ h, zipWord_even _ h]
  · obtain ⟨k, rfl⟩ := Nat.exists_eq_add_of_le' (Nat.le_of_not_lt h)
    rw [unzipWord_high _ (by omega), zipWord_odd _ (by omega)]

theorem brev8Word_getLsbD (a : Word) {k j : Nat} (hk : k < 4) (hj : j < 8) :
    (brev8Word a).getLsbD (8 * k + j) = a.getLsbD (8 * k + 7 - j) := by
  rw [brev8Word, ofBits_getLsbD _ (by omega), show (8 * k + j) / 8 = k by omega, show (8 * k + j) % 8 = j by omega]

/-- Two words with the same four bytes, compared bit by bit, are equal. -/
theorem word_eq_of_byteBits {u v : Word} (h : ∀ k < 4, ∀ j < 8, u.getLsbD (8 * k + j) = v.getLsbD (8 * k + j)) :
    u = v := by
  refine BitVec.eq_of_getLsbD_eq fun i hi => ?_
  rw [← Nat.div_add_mod i 8]
  exact h (i / 8) (by omega) (i % 8) (by omega)

theorem brev8Word_brev8Word (a : Word) : brev8Word (brev8Word a) = a := by
  refine word_eq_of_byteBits fun k hk j hj => ?_
  rw [brev8Word_getLsbD _ hk hj, show 8 * k + 7 - j = 8 * k + (7 - j) by omega, brev8Word_getLsbD _ hk (by omega),
    show 8 * k + 7 - (7 - j) = 8 * k + j by omega]

theorem orcBWord_byte (a : Word) {k : Nat} (hk : k < 4) : (orcBWord a).extractLsb' (8 * k) 8 =
    if a.extractLsb' (8 * k) 8 = 0 then 0x00#8 else 0xFF#8 := by
  have bit (j : Nat) (hj : j < 8) : (orcBWord a).getLsbD (8 * k + j) = (a.extractLsb' (8 * k) 8 != 0#8) := by
    rw [orcBWord, ofBits_getLsbD _ (by omega), show (8 * k + j) / 8 = k by omega]
  refine BitVec.eq_of_getLsbD_eq fun j hj => ?_
  rw [BitVec.getLsbD_extractLsb', bit j hj, decide_eq_true hj, Bool.true_and]
  split
  next h => exact (bne_eq_false_iff_eq.2 h).trans BitVec.getLsbD_zero.symm
  next h =>
    have ones : (0xFF#8).getLsbD j = true := (BitVec.getLsbD_allOnes (v := 8)).trans (decide_eq_true hj)
    exact (bne_iff_ne.2 h).trans ones.symm

theorem rev8Word_getLsbD (a : Word) {k j : Nat} (hk : k < 4) (hj : j < 8) :
    (rev8Word a).getLsbD (8 * k + j) = a.getLsbD (24 - 8 * k + j) := by
  have above (m : Nat) (hm : 8 ≤ m) : ¬ j + m < 8 := by omega
  simp only [rev8Word, BitVec.getLsbD_append, BitVec.getLsbD_extractLsb']
  interval_cases k <;> simp [hj, above, Nat.add_comm]

theorem rev8Word_byte (a : Word) {k : Nat} (hk : k < 4) :
    (rev8Word a).extractLsb' (8 * k) 8 = a.extractLsb' (24 - 8 * k) 8 := by
  refine BitVec.eq_of_getLsbD_eq fun j hj => ?_
  rw [BitVec.getLsbD_extractLsb', BitVec.getLsbD_extractLsb', rev8Word_getLsbD a hk hj]

theorem rev8Word_rev8Word (a : Word) : rev8Word (rev8Word a) = a := by
  refine word_eq_of_byteBits fun k hk j hj => ?_
  rw [rev8Word_getLsbD _ hk hj, show 24 - 8 * k = 8 * (3 - k) by omega, rev8Word_getLsbD _ (by omega) hj,
    show 24 - 8 * (3 - k) = 8 * k by omega]

end Sys2Proof.Machine
end

section
/-!
PROOFS. Bit manipulation: the route of custom-0 from an encoding to its instruction (R390), the results of ANDN to REV8 (R222 to
R257) and of the bit-field extracts (R391, R392), and the laws of R258.
-/

namespace Sys2Proof

/-! ## From an encoding to its instruction -/

/-- Custom-0 goes by funct3; the fixed fields of the format pass the decoder's check (R390). -/
theorem decode32_encBextm (size : BitVec 3) (rs2 rs1 : Reg) (f3 : BitVec 3) (rd : Reg) :
    decode32 (encBextm size rs2 rs1 f3 rd) = decodeCustom0 (encBextm size rs2 rs1 f3 rd) f3 rd rs1 rs2 := by
  obtain ⟨hop, hrd, hf3, hrs1, hrs2, -, -, -⟩ := encBextm_fields size rs2 rs1 f3 rd
  rw [decode32_custom0 hop, hrd, hf3, hrs1, hrs2]

theorem decode32_encBextm_h3Bextm (size : BitVec 3) (rs2 rs1 rd : Reg) :
    decode32 (encBextm size rs2 rs1 0b000#3 rd) = some (.h3Bextm rd rs1 rs2 size) := by
  obtain ⟨-, -, -, -, -, hb25, hsize, hb29⟩ := encBextm_fields size rs2 rs1 0b000#3 rd
  rw [decode32_encBextm, decodeCustom0, if_pos ⟨hb29, hb25⟩, hsize]

theorem decode32_encBextm_h3Bextmi (size : BitVec 3) (sh rs1 rd : Reg) :
    decode32 (encBextm size sh rs1 0b100#3 rd) = some (.h3Bextmi rd rs1 sh size) := by
  obtain ⟨-, -, -, -, -, hb25, hsize, hb29⟩ := encBextm_fields size sh rs1 0b100#3 rd
  rw [decode32_encBextm, decodeCustom0, if_pos ⟨hb29, hb25⟩, hsize]

end Sys2Proof

namespace Sys2Proof.Machine

/-! ## What a completed instruction commits -/

theorem Runs.imp {c : Code} {i : Instr} {s : State} {P Q : State → Prop} (h : Runs c i s P) (hPQ : ∀ t, P t → Q t) :
    Runs c i s Q := by
  obtain ⟨hdecode, t, hexec, hp⟩ := h
  exact ⟨hdecode, t, hexec, hPQ t hp⟩

theorem readReg_of_commitRd {il : Word} {rd : Reg} {v : Word} {s t : State} (hrd : rd ≠ 0)
    (h : commitRd il rd v s = .next t) : t.readReg rd = v := by
  cases h
  rw [advance_readReg, readReg_writeReg_self s rd v hrd]

/-- What the second instruction reads back from `rd` is the word the first one committed there. -/
theorem readReg_of_undone_commitRd {f g : Word → Word} (hgf : ∀ v, g (f v) = v) {il : Word} {rd rs1 : Reg} {s t u : State}
    (hrd : rd ≠ 0) (ht : commitRd il rd (f (s.readReg rs1)) s = .next t)
    (hu : commitRd il rd (g (t.readReg rd)) t = .next u) : u.readReg rd = s.readReg rs1 :=
  calc u.readReg rd
    _ = g (t.readReg rd) := readReg_of_commitRd hrd hu
    _ = g (f (s.readReg rs1)) := congrArg g (readReg_of_commitRd hrd ht)
    _ = s.readReg rs1 := hgf _

/-! ## The results -/

/-- Settles O39: each encoding is one of OP's; the shifts are products by `shiftLeft_eq_ofNat_mul`, the comparisons those
of numbers. -/
theorem logicShiftAddMinMaxResults : Obligations.LogicShiftAddMinMaxResults := by
  intro s rd rs1 rs2 a b
  refine ⟨?andn, ?orn, ?xnor, ?sh1add, ?sh2add, ?sh3add, ?max, ?maxu, ?min, ?minu⟩
  case andn | orn | xnor => exact runs_of_commitRd (decode32_encR_op ..) rfl rfl
  case sh1add => exact runs_of_commitRd (decode32_encR_op ..) rfl (congrArg (b + ·) (shiftLeft_eq_ofNat_mul a 1))
  case sh2add => exact runs_of_commitRd (decode32_encR_op ..) rfl (congrArg (b + ·) (shiftLeft_eq_ofNat_mul a 2))
  case sh3add => exact runs_of_commitRd (decode32_encR_op ..) rfl (congrArg (b + ·) (shiftLeft_eq_ofNat_mul a 3))
  case max => exact runs_of_commitRd (decode32_encR_op ..) rfl (ite_ltSigned a b b a)
  case maxu => exact runs_of_commitRd (decode32_encR_op ..) rfl (ite_ltUnsigned a b b a)
  case min => exact runs_of_commitRd (decode32_encR_op ..) rfl (ite_ltSigned a b a b)
  case minu => exact runs_of_commitRd (decode32_encR_op ..) rfl (ite_ltUnsigned a b a b)

/-- Settles O40: each encoding is one of OP's or OP-IMM's; the committed word is a function of the amount, which a register
form takes from bits 4:0 (R221). -/
theorem rotateAndSingleBitResults : Obligations.RotateAndSingleBitResults := by
  intro s rd rs1 rs2 sh a b
  have amount : (shiftAmount b).toNat = b.toNat % 32 := shiftAmount_toNat b
  have bit : oneHot (shiftAmount b) = BitVec.ofNat 32 (2 ^ (b.toNat % 32)) := amount ▸ oneHot_eq_ofNat (shiftAmount b)
  refine ⟨?rol, ?ror, ?rori, ?bclr, ?bclri, ?bext, ?bexti, ?binv, ?binvi, ?bset, ?bseti⟩
  case rol => exact runs_of_commitRd (decode32_encR_op ..) rfl (amount ▸ rotl_eq_rotateLeft a (shiftAmount b))
  case ror => exact runs_of_commitRd (decode32_encR_op ..) rfl (amount ▸ rotr_eq_rotateRight a (shiftAmount b))
  case rori => exact runs_of_commitRd (decode32_encR_opImm5 ..) rfl (rotr_eq_rotateRight a sh)
  case bclr => exact runs_of_commitRd (decode32_encR_op ..) rfl (congrArg (a &&& ~~~·) bit)
  case bclri => exact runs_of_commitRd (decode32_encR_opImm1 ..) rfl (congrArg (a &&& ~~~·) (oneHot_eq_ofNat sh))
  case bext => exact runs_of_commitRd (decode32_encR_op ..) rfl (amount ▸ shiftRight_and_one a (shiftAmount b).toNat)
  case bexti => exact runs_of_commitRd (decode32_encR_opImm5 ..) rfl (shiftRight_and_one a sh.toNat)
  case binv => exact runs_of_commitRd (decode32_encR_op ..) rfl (congrArg (a ^^^ ·) bit)
  case binvi => exact runs_of_commitRd (decode32_encR_opImm1 ..) rfl (congrArg (a ^^^ ·) (oneHot_eq_ofNat sh))
  case bset => exact runs_of_commitRd (decode32_encR_op ..) rfl (congrArg (a ||| ·) bit)
  case bseti => exact runs_of_commitRd (decode32_encR_opImm1 ..) rfl (congrArg (a ||| ·) (oneHot_eq_ofNat sh))

/-- Settles O41: the committed words are slices of the product P, pairs of low fields, and a masked shift. -/
theorem carrylessPackAndFieldResults : Obligations.CarrylessPackAndFieldResults := by
  intro s rd rs1 rs2 sh size a b field p
  have product : clmulFull a b = p := clmulBits_eq_foldl a b 32
  have bextm : (a >>> (shiftAmount b).toNat) &&& bextmMask size = field (b.toNat % 32) :=
    shiftAmount_toNat b ▸ shiftRight_and_bextmMask a (shiftAmount b).toNat size
  refine ⟨?clmul, ?clmulh, ?clmulr, ?pack, ?packh, ?bextm, ?bextmi⟩
  case clmul => exact runs_of_commitRd (decode32_encR_op ..) rfl (congrArg (BitVec.extractLsb' 0 32) product)
  case clmulh => exact runs_of_commitRd (decode32_encR_op ..) rfl (congrArg (BitVec.extractLsb' 32 32) product)
  case clmulr => exact runs_of_commitRd (decode32_encR_op ..) rfl (congrArg (BitVec.extractLsb' 31 32) product)
  case pack =>
    exact runs_of_commitRd (decode32_encR_op ..) rfl ((BitVec.setWidth_eq _).symm.trans (setWidth_append_low 16 a b))
  case packh => exact runs_of_commitRd (decode32_encR_op ..) rfl (setWidth_append_low 8 a b)
  case bextm => exact runs_of_commitRd (decode32_encBextm_h3Bextm ..) rfl bextm
  case bextmi => exact runs_of_commitRd (decode32_encBextm_h3Bextmi ..) rfl (shiftRight_and_bextmMask a sh.toNat size)

/-- Settles O42: each encoding is one of OP-IMM's unary group, and the committed word has the bits of its rule. -/
theorem unaryBitResults : Obligations.UnaryBitResults := by
  intro s rd rs1 a
  refine ⟨?clz, ?ctz, ?cpop, ?sextB, ?sextH, ?zip, ?unzip, ?brev8, ?orcB, ?rev8⟩
  case clz =>
    refine (runs_of_commitRd (decode32_encR_opImm1 ..) rfl rfl).imp fun t ht => ?_
    exact ⟨leadingZeros a 32, leadingZeros_le a, fun k => getLsbD_of_lt_leadingZeros, getLsbD_leadingZeros, ht⟩
  case ctz =>
    refine (runs_of_commitRd (decode32_encR_opImm1 ..) rfl rfl).imp fun t ht => ?_
    exact ⟨trailingZeros a 32, trailingZeros_le a, fun k => getLsbD_of_lt_trailingZeros, getLsbD_trailingZeros, ht⟩
  case cpop =>
    exact runs_of_commitRd (decode32_encR_opImm1 ..) rfl (congrArg (BitVec.ofNat 32) (popCount_eq_countP a 32))
  case sextB | sextH => exact runs_of_commitRd (decode32_encR_opImm1 ..) rfl rfl
  case zip =>
    exact (runs_of_commitRd (decode32_encR_opImm1 ..) rfl rfl).imp fun t ht =>
      ⟨zipWord a, fun k hk => ⟨zipWord_even a hk, zipWord_odd a hk⟩, ht⟩
  case unzip =>
    exact (runs_of_commitRd (decode32_encR_opImm5 ..) rfl rfl).imp fun t ht =>
      ⟨unzipWord a, fun k hk => ⟨unzipWord_low a hk, unzipWord_high a hk⟩, ht⟩
  case brev8 =>
    exact (runs_of_commitRd (decode32_encR_opImm5 ..) rfl rfl).imp fun t ht =>
      ⟨brev8Word a, fun k hk j hj => brev8Word_getLsbD a hk hj, ht⟩
  case orcB =>
    exact (runs_of_commitRd (decode32_encR_opImm5 ..) rfl rfl).imp fun t ht =>
      ⟨orcBWord a, fun k hk => orcBWord_byte a hk, ht⟩
  case rev8 =>
    exact (runs_of_commitRd (decode32_encR_opImm5 ..) rfl rfl).imp fun t ht =>
      ⟨rev8Word a, fun k hk => rev8Word_byte a hk, ht⟩

/-- Settles O43: the laws hold of the committed words, which the registers then hold. -/
theorem bitManipulationLaws : Obligations.BitManipulationLaws := by
  intro s rd rs1 rs2 rs3 hrd
  refine ⟨fun t u ht hu => ?zip, fun t u ht hu => ?rev8, fun t u ht hu => ?brev8, fun t u hamount ht hu => ?rotate⟩
  case zip => exact readReg_of_undone_commitRd unzipWord_zipWord hrd ht hu
  case rev8 => exact readReg_of_undone_commitRd rev8Word_rev8Word hrd ht hu
  case brev8 => exact readReg_of_undone_commitRd brev8Word_brev8Word hrd ht hu
  case rotate =>
    rw [← shiftAmount_toNat, ← shiftAmount_toNat] at hamount
    calc u.readReg rd
      _ = rotl (s.readReg rs1) (shiftAmount (s.readReg rs3)) := readReg_of_commitRd hrd hu
      _ = rotr (s.readReg rs1) (shiftAmount (s.readReg rs2)) := (rotr_eq_rotl _ hamount).symm
      _ = t.readReg rd := (readReg_of_commitRd hrd ht).symm

end Sys2Proof.Machine
end

section
/-!
PROOFS. Control transfer: the routes of BRANCH, JAL and JALR from an encoding with its scattered offset to its instruction (R126,
R127, R133), what a branch and a jump leave, and the results of BEQ to BGEU, JAL and JALR (R283 to R290).
-/

namespace Sys2Proof

/-! ## Offsets that an encoding scatters -/

/-- The B format of an offset given by its four fields (R126). -/
theorem encB_append (b12 b11 : BitVec 1) (b10_5 : BitVec 6) (b4_1 : BitVec 4) (rs2 rs1 : Reg) (f3 : BitVec 3)
    (op : BitVec 7) : encB (b12 ++ b11 ++ b10_5 ++ b4_1) rs2 rs1 f3 op =
      b12 ++ b10_5 ++ rs2 ++ rs1 ++ f3 ++ b4_1 ++ b11 ++ op := by
  simp only [encB, BitVec.extractLsb'_append_eq_of_le, BitVec.extractLsb'_append_eq_right,
    BitVec.extractLsb'_eq_self, Nat.reduceLeDiff, Nat.reduceSub]

/-- The J format of an offset given by its four fields (R127). -/
theorem encJ_append (b20 b11 : BitVec 1) (b19_12 : BitVec 8) (b10_1 : BitVec 10) (rd : Reg) (op : BitVec 7) :
    encJ (b20 ++ b19_12 ++ b11 ++ b10_1) rd op = b20 ++ b10_1 ++ b11 ++ b19_12 ++ rd ++ op := by
  simp only [encJ, BitVec.extractLsb'_append_eq_of_le, BitVec.extractLsb'_append_eq_right,
    BitVec.extractLsb'_eq_self, Nat.reduceLeDiff, Nat.reduceSub]

/-! ## From an encoding to its instruction -/

/-- BRANCH goes by funct3, and the offset of the instruction is that of the encoding (R126, R133). -/
theorem decode32_encB_branch (off : BitVec 12) (rs2 rs1 : Reg) (f3 : BitVec 3) :
    decode32 (encB off rs2 rs1 f3 0b1100011#7) = decodeBranch f3 rs1 rs2 off := by
  obtain ⟨hop, hf3, hrs1, hrs2, h7, h8, h25, h31⟩ := encB_fields off rs2 rs1 f3 0b1100011#7
  rw [decode32_branch hop, hf3, hrs1, hrs2, h7, h8, h25, h31, encB_join]

theorem decode32_encJ_jal (off : BitVec 20) (rd : Reg) : decode32 (encJ off rd 0b1101111#7) = some (.jal rd off) := by
  obtain ⟨hop, hrd, h12, h20, h21, h31⟩ := encJ_fields off rd 0b1101111#7
  rw [decode32, hop, hrd, h12, h20, h21, h31, encJ_join]
  rfl

theorem decode32_encI_jalr (imm : BitVec 12) (rs1 rd : Reg) :
    decode32 (encI imm rs1 0b000#3 rd 0b1100111#7) = some (.jalr rd rs1 imm) := by
  obtain ⟨hop, hrd, hf3, hrs1, himm⟩ := encI_fields imm rs1 0b000#3 rd 0b1100111#7
  rw [decode32_jalr hop, hrd, hf3, hrs1, himm, if_pos rfl]

end Sys2Proof

namespace Sys2Proof.Machine

/-! ## What a branch and a jump leave -/

theorem branchOp_next (il : Word) (taken : Bool) (off : Word) (s : State) :
    branchOp il taken off s = .next { s with pc := if taken then s.pc + off else s.pc + il } := rfl

theorem jumpLink_next (il : Word) (rd : Reg) (target : Word) (s : State) :
    jumpLink il rd target s = .next { s.writeReg rd (s.pc + il) with pc := target } := rfl

/-- A change of `pc` alone leaves what `Moves` says. -/
theorem moves_pc (target : Word) (s : State) : Moves target s { s with pc := target } :=
  ⟨⟨⟨rfl, fun c => by cases c <;> rfl, rfl, rfl, rfl⟩, rfl⟩, fun _ => rfl, rfl, ⟨fun _ => rfl, rfl⟩⟩

/-- A register write with a change of `pc` leaves what `Jumps` says. -/
theorem jumps_writeReg_pc (rd : Reg) (link target : Word) (s : State) :
    Jumps rd link target s { s.writeReg rd link with pc := target } := by
  obtain ⟨x, hx, -⟩ := writeReg_eq s rd link
  have hr := fun r => readReg_writeReg s rd r link
  rw [hx] at hr ⊢
  exact ⟨⟨⟨rfl, fun c => by cases c <;> rfl, rfl, rfl, rfl⟩, rfl⟩, hr, rfl, ⟨fun _ => rfl, rfl⟩⟩

/-! ## Conditions and targets as numbers -/

theorem ltSigned_iff (a b : Word) : ltSigned a b = true ↔ a.toInt < b.toInt := decide_eq_true_iff

theorem ltUnsigned_iff (a b : Word) : ltUnsigned a b = true ↔ a.toNat < b.toNat := decide_eq_true_iff

theorem not_ltSigned_iff (a b : Word) : (!ltSigned a b) = true ↔ a.toInt ≥ b.toInt := by
  rw [Bool.not_eq_true', ← Bool.not_eq_true, ltSigned_iff, not_lt]

theorem not_ltUnsigned_iff (a b : Word) : (!ltUnsigned a b) = true ↔ a.toNat ≥ b.toNat := by
  rw [Bool.not_eq_true', ← Bool.not_eq_true, ltUnsigned_iff, not_lt]

/-- Clearing bit 0 takes the number down to the even one (R290). -/
theorem clearBit0_eq_ofNat_sub (v : Word) : clearBit0 v = BitVec.ofNat 32 (v.toNat - v.toNat % 2) := by
  have hshift : clearBit0 v = v >>> 1 <<< 1 := by
    rw [BitVec.shiftLeft_ushiftRight]
    rfl
  apply BitVec.eq_of_toNat_eq
  rw [hshift, BitVec.toNat_shiftLeft, BitVec.toNat_ushiftRight, BitVec.toNat_ofNat, Nat.shiftLeft_eq,
    Nat.shiftRight_eq_div_pow]
  omega

/-! ## The rules of a 32-bit branch and jump -/

section Rules

variable {w : BitVec 32} {i : Instr} {s : State} (hdecode : decode32 w = some i)
include hdecode

/-- A 32-bit encoding whose instruction is a branch on `c` runs, and moves `pc` by the offset or past the instruction. -/
theorem runs_of_branchOp {taken : Bool} {off : Word} {c : Prop} [Decidable c]
    (hexec : exec i s = branchOp ilen32 taken off s) (htaken : taken = true ↔ c) :
    Runs (.word w) i s (Moves (if c then s.pc + off else s.pc + 4#32) s) := by
  rw [branchOp_next] at hexec
  simp only [← htaken]
  exact ⟨decodeCode_word_of_some hdecode, _, hexec, moves_pc _ s⟩

/-- A 32-bit encoding whose instruction is a jump to `u` runs, and jumps to every `target` that equals `u` (R282). -/
theorem runs_of_jumpLink {rd : Reg} {u target : Word} (hexec : exec i s = jumpLink ilen32 rd u s) (htarget : u = target) :
    Runs (.word w) i s (Jumps rd (s.pc + 4#32) target s) :=
  htarget ▸ ⟨decodeCode_word_of_some hdecode, _, hexec, jumps_writeReg_pc rd (s.pc + ilen32) u s⟩

end Rules

/-! ## The results -/

/-- Settles O44: each encoding is one of BRANCH's, and its instruction is a branch on the condition of its rule. -/
theorem branchResults : Obligations.BranchResults := by
  intro s rs1 rs2 b12 b11 b10_5 b4_1 a b imm
  simp only [← encB_append]
  refine ⟨?beq, ?bne, ?blt, ?bge, ?bltu, ?bgeu⟩
  case beq => exact runs_of_branchOp (decode32_encB_branch ..) rfl beq_iff_eq
  case bne => exact runs_of_branchOp (decode32_encB_branch ..) rfl bne_iff_ne
  case blt => exact runs_of_branchOp (decode32_encB_branch ..) rfl (ltSigned_iff a b)
  case bge => exact runs_of_branchOp (decode32_encB_branch ..) rfl (not_ltSigned_iff a b)
  case bltu => exact runs_of_branchOp (decode32_encB_branch ..) rfl (ltUnsigned_iff a b)
  case bgeu => exact runs_of_branchOp (decode32_encB_branch ..) rfl (not_ltUnsigned_iff a b)

/-- Settles O45: each encoding is that of its instruction, a jump whose target is computed before the link is written. -/
theorem jumpResults : Obligations.JumpResults := by
  intro s rd rs1 imm b20 b11 b19_12 b10_1 immj sum
  constructor
  case left =>
    rw [← encJ_append]
    exact runs_of_jumpLink (decode32_encJ_jal ..) rfl rfl
  case right => exact runs_of_jumpLink (decode32_encI_jalr imm rs1 rd) rfl (clearBit0_eq_ofNat_sub sum)

end Sys2Proof.Machine
end

section
/-!
PROOFS. Loads and stores: the routes of LOAD and STORE from an encoding to its instruction (R123, R124, R133), and the rules of LB
to LHU (R301, R304 to R308) and of SB, SH, SW (R302, R309 to R311).
-/

namespace Sys2Proof

/-! ## From an encoding to its instruction -/

/-- LOAD goes by funct3 (R133). -/
theorem decode32_encI_load (imm : BitVec 12) (rs1 : Reg) (f3 : BitVec 3) (rd : Reg) :
    decode32 (encI imm rs1 f3 rd 0b0000011#7) = decodeLoad f3 rd rs1 imm := by
  obtain ⟨hop, hrd, hf3, hrs1, himm⟩ := encI_fields imm rs1 f3 rd 0b0000011#7
  rw [decode32_load hop, hrd, hf3, hrs1, himm]

/-- The S format of an immediate given by its two fields (R124). -/
theorem encS_append (hi : BitVec 7) (lo : BitVec 5) (rs2 rs1 : Reg) (f3 : BitVec 3) (op : BitVec 7) :
    encS (hi ++ lo) rs2 rs1 f3 op = hi ++ rs2 ++ rs1 ++ f3 ++ lo ++ op := by
  simp only [encS, BitVec.extractLsb'_append_eq_left, BitVec.extractLsb'_append_eq_right]

/-- STORE goes by funct3, and the immediate of the instruction is that of the encoding (R124, R133). -/
theorem decode32_encS_store (imm : BitVec 12) (rs2 rs1 : Reg) (f3 : BitVec 3) :
    decode32 (encS imm rs2 rs1 f3 0b0100011#7) = decodeStore f3 rs1 rs2 imm := by
  obtain ⟨hop, hlo, hf3, hrs1, hrs2, hhi⟩ := encS_fields imm rs2 rs1 f3 0b0100011#7
  rw [decode32_store hop, hf3, hrs1, hrs2, hhi, hlo, encS_join]

end Sys2Proof

namespace Sys2Proof.Machine

/-! ## The rules of a 32-bit load and store -/

section Rules

variable {w : BitVec 32} {i : Instr} {s : State} (hdecode : decode32 w = some i)
include hdecode

/-- A 32-bit encoding whose instruction is a `loadOp` decodes to it and meets R301. -/
theorem decodes_loadRule_of_loadOp {n : Width} {ext : Word → Word} {rd : Reg} {addr : Word}
    (hexec : exec i s = loadOp ilen32 n ext rd addr s) :
    decodeCode (.word w) = .ok i ∧ LoadRule i 4#32 n ext rd addr s :=
  ⟨decodeCode_word_of_some hdecode, loadRule_of_loadOp i ilen32 n ext ext rd addr s hexec rfl⟩

/-- A 32-bit encoding whose instruction is a `storeOp` decodes to it and meets R302. -/
theorem decodes_storeRule_of_storeOp {n : Width} {addr v : Word} (hwf : s.ram.wf = true)
    (hexec : exec i s = storeOp ilen32 n addr v s) :
    decodeCode (.word w) = .ok i ∧ StoreRule i 4#32 n addr v s :=
  ⟨decodeCode_word_of_some hdecode, storeRule_of_storeOp i ilen32 n addr v s hwf hexec⟩

end Rules

/-! ## The results -/

/-- Settles O47: each encoding is one of LOAD's, and its instruction is a load of its width with its extension. -/
theorem loadResults : Obligations.LoadResults := by
  intro s rd rs1 imm addr
  refine ⟨?lb, ?lh, ?lw, ?lbu, ?lhu⟩
  case lb | lh | lw | lbu | lhu => exact decodes_loadRule_of_loadOp (decode32_encI_load ..) rfl

/-- Settles O48: each encoding is one of STORE's, and its instruction is a store of its width. -/
theorem storeResults : Obligations.StoreResults := by
  intro s rs1 rs2 hi lo hwf addr
  simp only [← encS_append]
  refine ⟨?sb, ?sh, ?sw⟩
  case sb | sh | sw => exact decodes_storeRule_of_storeOp (decode32_encS_store ..) hwf rfl

end Sys2Proof.Machine
end

section
/-!
PROOFS. The atomics: the route of AMO from an encoding to its instruction (R133, R320), what LR.W and SC.W answer case by case
(R324, R325), and the rules of AMOSWAP.W to AMOMAXU.W (R327 to R336).
-/

namespace Sys2Proof

/-! ## From an encoding to its instruction -/

/-- AMO goes by funct5; aq and rl are fields of the instruction (R133, R320). -/
theorem decode32_encAmo (f5 : BitVec 5) (aq rl : BitVec 1) (rs2 rs1 rd : Reg) :
    decode32 (encAmo f5 aq rl rs2 rs1 rd) = decodeAmo f5 rd rs1 rs2 aq rl := by
  obtain ⟨hop, hrd, hf3, hrs1, hrs2, hrl, haq, hf5⟩ := encAmo_fields f5 aq rl rs2 rs1 rd
  rw [decode32_amo hop, if_pos hf3, hf5, hrd, hrs1, hrs2, haq, hrl]

end Sys2Proof

namespace Sys2Proof.Machine

/-! ## LR.W and SC.W, case by case -/

theorem Width.word_aligned_iff (a : Word) : Width.word.aligned a = true ↔ a.toNat % 4 = 0 := Width.aligned_iff .word a

section Cases

variable {s u : State} {rd rs1 rs2 : Reg} {aq rl : BitVec 1}

theorem exec_lrW_misaligned (ha : (s.readReg rs1).toNat % 4 ≠ 0) : exec (.lrW rd rs1 aq rl) s = raise .loadAlign s :=
  if_neg (mt (Width.word_aligned_iff _).1 ha)

theorem exec_scW_misaligned (ha : (s.readReg rs1).toNat % 4 ≠ 0) :
    exec (.scW rd rs1 rs2 aq rl) s = raise .storeAlign s :=
  if_neg (mt (Width.word_aligned_iff _).1 ha)

section Aligned

variable (ha : (s.readReg rs1).toNat % 4 = 0)
include ha

theorem exec_lrW_of_memRead_some {v : Word} (hr : s.memRead .word (s.readReg rs1) = (some v, u)) :
    exec (.lrW rd rs1 aq rl) s = commitRd ilen32 rd v { u with reserved := true } := by
  show execLrW rd rs1 aq rl s = _
  simp only [execLrW, (Width.word_aligned_iff _).2 ha, if_true, hr]

theorem exec_lrW_of_memRead_none (hr : s.memRead .word (s.readReg rs1) = (none, u)) :
    exec (.lrW rd rs1 aq rl) s = raise .loadFault u := by
  show execLrW rd rs1 aq rl s = _
  simp only [execLrW, (Width.word_aligned_iff _).2 ha, if_true, hr]

theorem exec_scW_of_reserved (hres : s.reserved = true) :
    exec (.scW rd rs1 rs2 aq rl) s = afterWrite (s.memWrite .word (s.readReg rs1) (s.readReg rs2)) fun u =>
      commitRd ilen32 rd 0#32 { u with reserved := false } :=
  (if_pos ((Width.word_aligned_iff _).2 ha)).trans (if_pos hres)

theorem exec_scW_of_not_reserved (hres : s.reserved = false) :
    exec (.scW rd rs1 rs2 aq rl) s = commitRd ilen32 rd 1#32 { s with reserved := false } :=
  (if_pos ((Width.word_aligned_iff _).2 ha)).trans (if_neg (Bool.eq_false_iff.1 hres))

end Aligned

end Cases

/-! ## What a completed LR.W or SC.W leaves -/

/-- After accesses to memory alone, the flag set to `f` and `x[rd]` committed: memory is as the accesses left it, and the rest is
as it was before them (R324, R325). -/
theorem commitRd_reserved_of_onlyMemory {s u : State} (h : OnlyMemory s u) (rd : Reg) (v : Word) (f : Bool) :
    ∃ t, commitRd ilen32 rd v { u with reserved := f } = .next t ∧ WritesReg rd v s t ∧ t.reserved = f
      ∧ t.pc = s.pc + 4#32 ∧ KeepsControl s t ∧ KeepsMemory u t := by
  obtain ⟨ram, mem, rfl⟩ := h.eq
  obtain ⟨⟨⟨hpriv, hcsrs, hpending, hcfg, hcount⟩, hflag⟩, hregs, hpc, hram, hmem⟩ :=
    computes_commitRd ilen32 rd v { s with ram := ram, mem := mem, reserved := f }
  refine ⟨_, rfl, hregs, hflag, hpc, ⟨hpriv, fun c => ?csrs, hpending, hcfg, hcount⟩, hram, hmem⟩
  case csrs => exact (hcsrs c).trans (by cases c <;> rfl)

/-- A completed write is one still after a change outside memory. -/
theorem Stored.of_keepsMemory {n : Width} {a v : Word} {s u t : State} (h : Stored n a v s u) (hk : KeepsMemory u t) :
    Stored n a v s t := by
  obtain ⟨hram, hmem⟩ := hk
  refine ⟨fun hin => ?_, fun hout => ?_, fun b hb => (hram b).trans (h.frame b hb)⟩
  · obtain ⟨hasks, hbytes⟩ := h.inside hin
    exact ⟨hmem.trans hasks, fun k hk => (hram _).trans (hbytes k hk)⟩
  · obtain ⟨hkeeps, hanswer, hcalls⟩ := h.outside hout
    exact ⟨fun b => (hram b).trans (hkeeps b), hanswer, hmem.trans hcalls⟩

/-! ## The rule of a read-modify-write AMO -/

/-- A 32-bit encoding whose instruction is an `amoOp` decodes to it and meets R327. -/
theorem decodes_amoRule_of_amoOp {w : BitVec 32} {i : Instr} {f : Word → Word → Word} {rd rs1 rs2 : Reg} {s : State}
    (hwf : s.ram.wf = true) (hdecode : decode32 w = some i) (hexec : exec i s = amoOp f rd rs1 rs2 s) :
    decodeCode (.word w) = .ok i ∧ AmoRule i f rd (s.readReg rs1) (s.readReg rs2) s :=
  ⟨decodeCode_word_of_some hdecode, amoRule_of_amoOp i f rd rs1 rs2 s hwf hexec⟩

/-! ## The results -/

/-- Settles O49: both encodings are AMO's; LR.W reads, SC.W with the reservation writes, and each answer of the access is one
outcome of the instruction. -/
theorem loadReservedStoreConditional : Obligations.LoadReservedStoreConditional := by
  intro s rd rs1 rs2 aq rl hwf addr lr sc
  refine ⟨decodeCode_word_of_some (decode32_encAmo ..), decodeCode_word_of_some (decode32_encAmo ..),
    fun ha v u hr => ?lrCompletes, fun ha => ⟨?lrMisaligned, ?scMisaligned⟩, fun ha u hr => ?lrFails,
    fun ha hres u hw => ?scStores, fun ha hres u hw => ?scFails, fun ha hres code u hw => ?scHalts,
    fun ha hres => ?scUnreserved⟩
  case lrCompletes =>
    have hu : u = (s.memRead .word addr).2 := (congrArg Prod.snd hr).symm
    obtain ⟨t, ht, hregs, hflag, hpc, hcontrol, hram, hmem⟩ :=
      commitRd_reserved_of_onlyMemory (hu ▸ onlyMemory_memRead s .word addr) rd v true
    have hkeeps : KeepsRam s t := fun a => (hram a).trans (by rw [hu, memRead_ram])
    exact ⟨t, (exec_lrW_of_memRead_some ha hr).trans ht, hregs, hflag, hpc, hcontrol, hkeeps, hmem⟩
  case lrMisaligned => exact traps_of_raise _ _ _ (exec_lrW_misaligned ha)
  case scMisaligned => exact traps_of_raise _ _ _ (exec_scW_misaligned ha)
  case lrFails =>
    have hu : u = (s.memRead .word addr).2 := (congrArg Prod.snd hr).symm
    exact trapsAfter_of_raise _ _ _ _ (exec_lrW_of_memRead_none ha hr) (hu ▸ onlyMemory_memRead s .word addr)
  case scStores =>
    obtain ⟨t, ht, hregs, hflag, hpc, hcontrol, hmemory⟩ :=
      commitRd_reserved_of_onlyMemory (onlyMemory_memWrite_ok ((Width.word_aligned_iff _).2 ha) hw) rd 0#32 false
    have hexec : exec sc s = .next t := by rw [exec_scW_of_reserved ha hres, hw, ← ht, afterWrite]
    exact ⟨t, hexec, hregs, hflag, hpc, hcontrol, (stored_of_memWrite hwf hw).of_keepsMemory hmemory⟩
  case scFails =>
    have hexec : exec sc s = raise .storeFault u := by rw [exec_scW_of_reserved ha hres, hw, afterWrite]
    exact trapsAfter_of_raise _ _ _ _ hexec (onlyMemory_memWrite_fail hw).1
  case scHalts => rw [exec_scW_of_reserved ha hres, hw, afterWrite]
  case scUnreserved =>
    obtain ⟨t, ht, hregs, hflag, hpc, hcontrol, hmemory⟩ := commitRd_reserved_of_onlyMemory (.refl s) rd 1#32 false
    exact ⟨t, (exec_scW_of_not_reserved ha hres).trans ht, hregs, hflag, hpc, hcontrol, hmemory⟩

/-- Settles O50: each encoding is one of AMO's, and its instruction is an `amoOp` with the combination of its rule, MIN and MAX by the
model's comparisons (R333 to R336). -/
theorem atomicReadModifyWriteResults : Obligations.AtomicReadModifyWriteResults := by
  intro s rd rs1 rs2 aq rl hwf addr b
  simp only [← ite_ltSigned, ← ite_ltUnsigned]
  refine ⟨?swap, ?add, ?xor, ?and, ?or, ?min, ?max, ?minu, ?maxu⟩
  case swap | add | xor | and | or | min | max | minu | maxu =>
    exact decodes_amoRule_of_amoOp hwf (decode32_encAmo ..) rfl

end Sys2Proof.Machine
end

section
/-!
PROOFS. System instructions: the mode and the state that an MRET in M-mode returns to (R31, R367, R495), and the traps of ECALL,
EBREAK, C.EBREAK and ILLEGAL16 (R365, R366, R403, R426).
-/

namespace Sys2Proof.Machine

/-! ## MRET, by mode -/

/-- A privilege level's encoding names that level (R31). -/
theorem privOfCode_code (p : Priv) : privOfCode p.code = some p := by cases p <;> rfl

theorem exec_mret_user {s : State} (h : s.priv = .U) : exec .mret s = raise .instrIllegal s := by
  show execMret s = _
  rw [execMret, h]

/-- In M-mode with the code of `p` in MPP, MRET returns to `p` (R495). -/
theorem exec_mret_machine {s : State} {p : Priv} (h : s.priv = .M) (hp : s.mstatus.extractLsb' 11 2 = p.code) :
    exec .mret s = .next { s with priv := p, mstatus := mretStatus s.mstatus, pc := s.mepc } := by
  show execMret s = _
  rw [execMret, h]
  show trapMret s = _
  rw [trapMret, mppOf, hp, privOfCode_code]

/-- A change of the mode, `mstatus` and `pc` leaves every other CSR. -/
theorem csrValue_of_ne_mstatus (s : State) (p : Priv) (mstatus pc : Word) {r : Csr} (hr : r ≠ .mstatus) :
    { s with priv := p, mstatus := mstatus, pc := pc }.csrValue r = s.csrValue r := by
  cases r with
  | mstatus => exact absurd rfl hr
  | _ => rfl

/-! ## The results -/

/-- Settles O25: MPP is the code of the mode it chooses; the rest is the state that `exec_mret_machine` gives. -/
theorem mretRestoresPrivilege : Obligations.MretRestoresPrivilege := by
  refine ⟨rfl, fun s => ⟨fun p hpriv hmpp => ?machine, fun hpriv => ?user⟩⟩
  case machine =>
    have hcode : s.mstatus.extractLsb' 11 2 = p.code := by
      rcases hmpp with ⟨hmpp, rfl⟩ | ⟨hmpp, rfl⟩ <;> exact hmpp
    exact ⟨_, exec_mret_machine hpriv hcode, rfl, rfl, mretStatus_getLsbD s.mstatus, fun _ => rfl,
      ⟨fun _ => rfl, rfl⟩, rfl, rfl, fun _ hr => csrValue_of_ne_mstatus s p _ _ hr, rfl, rfl⟩
  case user => exact traps_of_raise _ _ _ (exec_mret_user hpriv)

/-- Settles O27: each of the four is one `raise`, ECALL's with the cause of the mode. -/
theorem environmentCallsAndBreakpointsTrap : Obligations.EnvironmentCallsAndBreakpointsTrap := by
  refine ⟨rfl, rfl, rfl, rfl, fun s => ?traps⟩
  have ecall (p : Priv) (h : s.priv = p) : Traps .ecall s (ecallCause p) := traps_of_raise _ _ _ (h ▸ rfl)
  exact ⟨ecall .U, ecall .M, traps_of_raise _ _ _ rfl, traps_of_raise _ _ _ rfl, traps_of_raise _ _ _ rfl,
    rfl, rfl, rfl, rfl⟩

end Sys2Proof.Machine
end

section
/-!
PROOFS. The 16-bit encodings but for Zcmp: each format of an immediate given by the fields it scatters (R142), and the route of each
format from an encoding to its instruction (R140, R143).
-/

namespace Sys2Proof

/-! ## Immediates that a 16-bit encoding scatters -/

/-- C.ADDI4SPN of an immediate given by its four fields (R142). -/
theorem encAddi4spn_append (u9_6 : BitVec 4) (u5_4 : BitVec 2) (u3 u2 : BitVec 1) (rd : ShortReg) :
    encAddi4spn (u9_6 ++ u5_4 ++ u3 ++ u2) rd = 0b000#3 ++ u5_4 ++ u9_6 ++ u2 ++ u3 ++ rd ++ 0b00#2 := by
  simp only [encAddi4spn, BitVec.extractLsb'_append_eq_of_le, BitVec.extractLsb'_append_eq_right,
    BitVec.extractLsb'_eq_self, Nat.reduceLeDiff, Nat.reduceSub]

/-- C.LW and C.SW of an offset given by its three fields (R142). -/
theorem encCls_append (f3 : BitVec 3) (u6 : BitVec 1) (u5_3 : BitVec 3) (u2 : BitVec 1) (rs1 r : ShortReg) :
    encCls f3 (u6 ++ u5_3 ++ u2) rs1 r = f3 ++ u5_3 ++ rs1 ++ u2 ++ u6 ++ r ++ 0b00#2 := by
  simp only [encCls, BitVec.extractLsb'_append_eq_of_le, BitVec.extractLsb'_append_eq_right,
    BitVec.extractLsb'_eq_self, Nat.reduceLeDiff, Nat.reduceSub]

/-- The CI format of an immediate given by its two fields (R142). -/
theorem encCi_append (f3 : BitVec 3) (i5 : BitVec 1) (i4_0 : BitVec 5) (rd : Reg) (q : BitVec 2) :
    encCi f3 (i5 ++ i4_0) rd q = f3 ++ i5 ++ rd ++ i4_0 ++ q := by
  simp only [encCi, BitVec.extractLsb'_append_eq_left, BitVec.extractLsb'_append_eq_right]

/-- C.ADDI16SP of an immediate given by its five fields (R142). -/
theorem encAddi16sp_append (j9 : BitVec 1) (j8_7 : BitVec 2) (j6 j5 j4 : BitVec 1) :
    encAddi16sp (j9 ++ j8_7 ++ j6 ++ j5 ++ j4) = 0b011#3 ++ j9 ++ 0b00010#5 ++ j4 ++ j6 ++ j8_7 ++ j5 ++ 0b01#2 := by
  simp only [encAddi16sp, BitVec.extractLsb'_append_eq_of_le, BitVec.extractLsb'_append_eq_right,
    BitVec.extractLsb'_eq_self, Nat.reduceLeDiff, Nat.reduceSub]

/-- The CJ format of an offset given by its eight fields (R142). -/
theorem encCj_append (f3 : BitVec 3) (b11 b10 : BitVec 1) (b9_8 : BitVec 2) (b7 b6 b5 b4 : BitVec 1) (b3_1 : BitVec 3) :
    encCj f3 (b11 ++ b10 ++ b9_8 ++ b7 ++ b6 ++ b5 ++ b4 ++ b3_1) =
      f3 ++ b11 ++ b4 ++ b9_8 ++ b10 ++ b6 ++ b7 ++ b3_1 ++ b5 ++ 0b01#2 := by
  simp only [encCj, BitVec.extractLsb'_append_eq_of_le, BitVec.extractLsb'_append_eq_right,
    BitVec.extractLsb'_eq_self, Nat.reduceLeDiff, Nat.reduceSub]

/-- C.BEQZ and C.BNEZ of an offset given by its five fields (R142). -/
theorem encCb_append (f3 : BitVec 3) (b8 : BitVec 1) (b7_6 : BitVec 2) (b5 : BitVec 1) (b4_3 b2_1 : BitVec 2)
    (rs1 : ShortReg) :
    encCb f3 rs1 (b8 ++ b7_6 ++ b5 ++ b4_3 ++ b2_1) = f3 ++ b8 ++ b4_3 ++ rs1 ++ b7_6 ++ b2_1 ++ b5 ++ 0b01#2 := by
  simp only [encCb, BitVec.extractLsb'_append_eq_of_le, BitVec.extractLsb'_append_eq_right,
    BitVec.extractLsb'_eq_self, Nat.reduceLeDiff, Nat.reduceSub]

/-- C.LWSP of an offset given by its three fields (R142). -/
theorem encLwsp_append (u7_6 : BitVec 2) (u5 : BitVec 1) (u4_2 : BitVec 3) (rd : Reg) :
    encLwsp rd (u7_6 ++ u5 ++ u4_2) = 0b010#3 ++ u5 ++ rd ++ u4_2 ++ u7_6 ++ 0b10#2 := by
  simp only [encLwsp, BitVec.extractLsb'_append_eq_of_le, BitVec.extractLsb'_append_eq_right,
    BitVec.extractLsb'_eq_self, Nat.reduceLeDiff, Nat.reduceSub]

/-- C.SWSP of an offset given by its two fields (R142). -/
theorem encSwsp_append (u7_6 : BitVec 2) (v5_2 : BitVec 4) (rs2 : Reg) :
    encSwsp rs2 (u7_6 ++ v5_2) = 0b110#3 ++ v5_2 ++ u7_6 ++ rs2 ++ 0b10#2 := by
  simp only [encSwsp, BitVec.extractLsb'_append_eq_left, BitVec.extractLsb'_append_eq_right]

/-! ## From a decoder's answer to the decoded instruction -/

theorem decodeCode_half_of_some {c : BitVec 16} {i : Instr} (h : decode16 c = some i) : decodeCode (.half c) = .ok i := by
  rw [decodeCode, h]

theorem guardWf_of_wf {i : Instr} (h : i.wf = true) : guardWf i = some i := if_pos h

/-! ## From an encoding to its instruction -/

section Routes

variable {c : BitVec 16} {i : Instr} {f3 : BitVec 3}

/-- A nonzero immediate keeps C.ADDI4SPN apart from ILLEGAL16 (R403, R404). -/
theorem encAddi4spn_ne_zero {uimm : BitVec 8} (hu : uimm ≠ 0) (rd : ShortReg) : encAddi4spn uimm rd ≠ 0 := by
  intro hzero
  obtain ⟨-, -, h5, h6, h7, h11, -⟩ := encAddi4spn_fields uimm rd
  apply hu
  rw [← encAddi4spn_join uimm, ← h5, ← h6, ← h7, ← h11, hzero]
  rfl

theorem decode16_encAddi4spn {uimm : BitVec 8} (hu : uimm ≠ 0) (rd : ShortReg) :
    decode16 (encAddi4spn uimm rd) = some (.cAddi4spn rd uimm) := by
  obtain ⟨h0, h2, h5, h6, h7, h11, h13⟩ := encAddi4spn_fields uimm rd
  rw [decode16_quadrant0 h0, decodeQ0, h13, h2, h5, h6, h7, h11, encAddi4spn_join]
  exact (if_neg (encAddi4spn_ne_zero hu rd)).trans (guardWf_of_wf (bne_iff_ne.2 hu))

/-- C.LW and C.SW go by funct3 (R143). -/
theorem decode16_encCls {uimm : BitVec 5} {rs1 r : ShortReg}
    (h : f3 = 0b010#3 ∧ i = .cLw r rs1 uimm ∨ f3 = 0b110#3 ∧ i = .cSw rs1 r uimm) :
    decode16 (encCls f3 uimm rs1 r) = some i := by
  obtain ⟨h0, h2, h5, h6, h7, h10, h13⟩ := encCls_fields f3 uimm rs1 r
  rw [decode16_quadrant0 h0, decodeQ0, h13, h2, h5, h6, h7, h10, encCls_join]
  rcases h with ⟨rfl, rfl⟩ | ⟨rfl, rfl⟩ <;> rfl

/-- C.ADDI and C.LI, and C.LUI with operands it allows, go by funct3 (R143, R410). -/
theorem decode16_encCi {imm : BitVec 6} {rd : Reg}
    (h : f3 = 0b000#3 ∧ i = .cAddi rd imm ∨ f3 = 0b010#3 ∧ i = .cLi rd imm
      ∨ f3 = 0b011#3 ∧ i = .cLui rd imm ∧ rd ≠ 2 ∧ imm ≠ 0) :
    decode16 (encCi f3 imm rd 0b01#2) = some i := by
  obtain ⟨h0, h2, h7, h12, h13⟩ := encCi_fields f3 imm rd 0b01#2
  rw [decode16_quadrant1 h0, decodeQ1, h13, h2, h7, h12, encCi_join]
  rcases h with ⟨rfl, rfl⟩ | ⟨rfl, rfl⟩ | ⟨rfl, rfl, hrd, himm⟩
  · rfl
  · rfl
  · have hwf : (Instr.cLui rd imm).wf = true := Bool.and_eq_true_iff.2 ⟨bne_iff_ne.2 hrd, bne_iff_ne.2 himm⟩
    exact (if_neg hrd).trans (guardWf_of_wf hwf)

theorem decode16_encAddi16sp {imm : BitVec 6} (himm : imm ≠ 0) :
    decode16 (encAddi16sp imm) = some (.cAddi16sp imm) := by
  obtain ⟨h0, h2, h3, h5, h6, h7, h12, h13⟩ := encAddi16sp_fields imm
  rw [decode16_quadrant1 h0, decodeQ1, h13, h2, h3, h5, h6, h7, h12, encAddi16sp_join]
  exact guardWf_of_wf (bne_iff_ne.2 himm)

/-- C.SRLI, C.SRAI and C.ANDI go by `c[11:10]`; the shifts need `c[12] = 0` (R138, R143). -/
theorem decode16_encCbAlu {b12 : BitVec 1} {sel : BitVec 2} {rd : ShortReg} {low : BitVec 5}
    (h : b12 = 0 ∧ sel = 0b00#2 ∧ i = .cSrli rd low ∨ b12 = 0 ∧ sel = 0b01#2 ∧ i = .cSrai rd low
      ∨ sel = 0b10#2 ∧ i = .cAndi rd (b12 ++ low)) :
    decode16 (encCbAlu b12 sel rd low) = some i := by
  obtain ⟨h0, h2, h7, h10, h12, h13⟩ := encCbAlu_fields b12 sel rd low
  rw [decode16_quadrant1 h0, decodeQ1_alu h13, decodeQ1Alu, h2, h7, h10, h12]
  rcases h with ⟨rfl, rfl, rfl⟩ | ⟨rfl, rfl, rfl⟩ | ⟨rfl, rfl⟩ <;> rfl

/-- CA goes by its selector (R143). -/
theorem decode16_encCa (rd : ShortReg) (sel : BitVec 2) (rs2 : ShortReg) :
    decode16 (encCa rd sel rs2) = [Instr.cSub rd rs2, .cXor rd rs2, .cOr rd rs2, .cAnd rd rs2][sel.toNat]? := by
  obtain ⟨h0, h2, h5, h7, h10, h12, h13⟩ := encCa_fields rd sel rs2
  rw [decode16_quadrant1 h0, decodeQ1_alu h13, decodeQ1Alu, h2, h5, h7, h10, h12]
  have hsel : ∀ b : BitVec 2, b = 0 ∨ b = 1 ∨ b = 2 ∨ b = 3 := by decide
  rcases hsel sel with rfl | rfl | rfl | rfl <;> rfl

/-- CJ goes by funct3 (R143). -/
theorem decode16_encCj {off : BitVec 11} (h : f3 = 0b001#3 ∧ i = .cJal off ∨ f3 = 0b101#3 ∧ i = .cJ off) :
    decode16 (encCj f3 off) = some i := by
  obtain ⟨h0, h2, h3, h6, h7, h8, h9, h11, h12, h13⟩ := encCj_fields f3 off
  rw [decode16_quadrant1 h0, decodeQ1, h13, h2, h3, h6, h7, h8, h9, h11, h12, encCj_join]
  rcases h with ⟨rfl, rfl⟩ | ⟨rfl, rfl⟩ <;> rfl

/-- C.BEQZ and C.BNEZ go by funct3 (R143). -/
theorem decode16_encCb {rs1 : ShortReg} {off : BitVec 8}
    (h : f3 = 0b110#3 ∧ i = .cBeqz rs1 off ∨ f3 = 0b111#3 ∧ i = .cBnez rs1 off) :
    decode16 (encCb f3 rs1 off) = some i := by
  obtain ⟨h0, h2, h3, h5, h7, h10, h12, h13⟩ := encCb_fields f3 rs1 off
  rw [decode16_quadrant1 h0, decodeQ1, h13, h2, h3, h5, h7, h10, h12, encCb_join]
  rcases h with ⟨rfl, rfl⟩ | ⟨rfl, rfl⟩ <;> rfl

theorem decode16_encCi_slli (rd : Reg) (shamt : BitVec 5) :
    decode16 (encCi 0b000#3 (0b0#1 ++ shamt) rd 0b10#2) = some (.cSlli rd shamt) := by
  obtain ⟨h0, h2, h7, h12, h13⟩ := encCi_fields 0b000#3 (0b0#1 ++ shamt) rd 0b10#2
  rw [BitVec.extractLsb'_append_eq_right] at h2
  rw [BitVec.extractLsb'_append_eq_left] at h12
  rw [decode16_quadrant2 h0, decodeQ2, h13, h2, h7, h12]
  rfl

theorem decodeQ2_move (h : c.extractLsb' 13 3 = 4) : decodeQ2 c = decodeQ2Move c := by
  rw [decodeQ2, h]
  rfl

/-- CR goes by bit 12 and by which of its two fields are zero (R143). -/
theorem decode16_encCr (b12 : BitVec 1) (r rs2 : Reg) :
    decode16 (encCr b12 r rs2) =
      if b12 = 0 then if rs2 = 0 then guardWf (.cJr r) else some (.cMv r rs2)
      else if rs2 = 0 then if r = 0 then some .cEbreak else some (.cJalr r)
      else some (.cAdd r rs2) := by
  obtain ⟨h0, h2, h7, h12, h13⟩ := encCr_fields b12 r rs2
  rw [decode16_quadrant2 h0, decodeQ2_move h13, decodeQ2Move, h2, h7, h12]

theorem decode16_encLwsp {rd : Reg} (hrd : rd ≠ 0) (uimm : BitVec 6) :
    decode16 (encLwsp rd uimm) = some (.cLwsp rd uimm) := by
  obtain ⟨h0, h2, h4, h7, h12, h13⟩ := encLwsp_fields rd uimm
  rw [decode16_quadrant2 h0, decodeQ2, h13, h2, h4, h7, h12, encLwsp_join]
  exact guardWf_of_wf (bne_iff_ne.2 hrd)

theorem decode16_encSwsp (rs2 : Reg) (uimm : BitVec 6) : decode16 (encSwsp rs2 uimm) = some (.cSwsp rs2 uimm) := by
  obtain ⟨h0, h2, h7, h9, h13⟩ := encSwsp_fields rs2 uimm
  rw [decode16_quadrant2 h0, decodeQ2, h13, h2, h7, h9, encSwsp_join]
  rfl

end Routes

end Sys2Proof
end

section
/-!
PROOFS. Compressed instructions: the immediates of their fields as numbers (R142), what a 16-bit encoding does whose instruction is a
shared operation (R401), and the results of C.ADDI4SPN to C.SWSP (R404 to R429). That a short field names `x[8 + r']` (R141) holds
by the definition of `shortReg`.
-/

namespace Sys2Proof.Machine

/-! ## Immediates as numbers -/

/-- `k` zero bits below make a signed number `2^k` times as large. -/
theorem signExtend_append_zero {n : Nat} (x : BitVec n) (k w : Nat) :
    (x ++ 0#k).signExtend w = BitVec.ofInt w (2 ^ k) * x.signExtend w := by
  rw [BitVec.signExtend, BitVec.toInt_append_zero, BitVec.ofInt_mul, BitVec.signExtend]

/-- `k` zero bits below make an unsigned number `2^k` times as large. -/
theorem setWidth_append_zero {n : Nat} (x : BitVec n) (k w : Nat) :
    (x ++ 0#k).setWidth w = BitVec.ofNat w (2 ^ k) * x.setWidth w := by
  have hnat : (x ++ 0#k).toNat = 2 ^ k * x.toNat := by
    rw [BitVec.toNat_append, BitVec.toNat_ofNat, Nat.zero_mod, Nat.or_zero, Nat.shiftLeft_eq, Nat.mul_comm]
  rw [← BitVec.ofNat_toNat, hnat, BitVec.ofNat_mul, BitVec.ofNat_toNat]

theorem immClui_eq (imm : BitVec 6) : immClui imm = 4096 * imm.signExtend 32 := signExtend_append_zero imm 12 32

theorem immAddi16sp_eq (imm : BitVec 6) : immAddi16sp imm = 16 * imm.signExtend 32 := signExtend_append_zero imm 4 32

theorem uimmAddi4spn_eq (u : BitVec 8) : uimmAddi4spn u = 4 * u.setWidth 32 := setWidth_append_zero u 2 32

theorem uimmCls_eq (u : BitVec 5) : uimmCls u = 4 * u.setWidth 32 := setWidth_append_zero u 2 32

theorem uimmSp_eq (u : BitVec 6) : uimmSp u = 4 * u.setWidth 32 := setWidth_append_zero u 2 32

theorem offCj_eq (off : BitVec 11) : offCj off = 2 * off.signExtend 32 := signExtend_append_zero off 1 32

theorem offCb_eq (off : BitVec 8) : offCb off = 2 * off.signExtend 32 := signExtend_append_zero off 1 32

/-! ## The rules of a 16-bit encoding -/

section Rules

variable {c : BitVec 16} {i : Instr} {s : State} (hdecode : decode16 c = some i)
include hdecode

/-- A 16-bit encoding whose instruction commits `u` runs, and computes every `v` that equals `u` (R400, R401). -/
theorem runs_half_of_commitRd {rd : Reg} {u v : Word} (hexec : exec i s = commitRd ilen16 rd u s) (hvalue : u = v) :
    Runs (.half c) i s (Computes 2#32 rd v s) :=
  hvalue ▸ ⟨decodeCode_half_of_some hdecode, _, hexec, computes_commitRd ilen16 rd u s⟩

/-- A 16-bit encoding whose instruction sets `pc` alone to `u` runs, and moves to every `target` that equals `u`. -/
theorem runs_half_of_pc {u target : Word} (hexec : exec i s = .next { s with pc := u }) (htarget : u = target) :
    Runs (.half c) i s (Moves target s) :=
  htarget ▸ ⟨decodeCode_half_of_some hdecode, _, hexec, moves_pc u s⟩

/-- A 16-bit encoding whose instruction is a branch on `p` runs, and moves `pc` by the offset or past the instruction. -/
theorem runs_half_of_branchOp {taken : Bool} {u off : Word} {p : Prop} [Decidable p]
    (hexec : exec i s = branchOp ilen16 taken u s) (htaken : taken = true ↔ p) (hoff : u = off) :
    Runs (.half c) i s (Moves (if p then s.pc + off else s.pc + 2#32) s) := by
  refine runs_half_of_pc hdecode (hexec.trans (branchOp_next ..)) ?_
  simp only [htaken, hoff, ilen16]

/-- A 16-bit encoding whose instruction is a jump to `u` runs, and jumps to every `target` that equals `u` (R400). -/
theorem runs_half_of_jumpLink {rd : Reg} {u target : Word} (hexec : exec i s = jumpLink ilen16 rd u s)
    (htarget : u = target) : Runs (.half c) i s (Jumps rd (s.pc + 2#32) target s) :=
  htarget ▸ ⟨decodeCode_half_of_some hdecode, _, hexec, jumps_writeReg_pc rd (s.pc + ilen16) u s⟩

/-- A 16-bit encoding whose instruction loads the word at `base + u` decodes to it and meets R301 with every offset that equals `u`. -/
theorem decodes_half_loadRule_of_loadOp {rd : Reg} {base u off : Word}
    (hexec : exec i s = loadOp ilen16 .word id rd (base + u) s) (hoff : u = off) :
    decodeCode (.half c) = .ok i ∧ LoadRule i 2#32 .word (fun v => v) rd (base + off) s :=
  hoff ▸ ⟨decodeCode_half_of_some hdecode, loadRule_of_loadOp i ilen16 .word _ id rd (base + u) s hexec rfl⟩

/-- A 16-bit encoding whose instruction stores `v` at `base + u` decodes to it and meets R302 with every offset that equals `u`. -/
theorem decodes_half_storeRule_of_storeOp {base u off v : Word} (hwf : s.ram.wf = true)
    (hexec : exec i s = storeOp ilen16 .word (base + u) v s) (hoff : u = off) :
    decodeCode (.half c) = .ok i ∧ StoreRule i 2#32 .word (base + off) v s :=
  hoff ▸ ⟨decodeCode_half_of_some hdecode, storeRule_of_storeOp i ilen16 .word (base + u) v s hwf hexec⟩

end Rules

/-! ## The results -/

/-- Settles O51: each encoding is that of its format, and the value its instruction commits is that of its rule. -/
theorem compressedImmediateResults : Obligations.CompressedImmediateResults := by
  intro s rd d i5 i4_0 u5_4 u9_6 u2 u3 j9 j4 j6 j5 j8_7 x a imm u
  refine ⟨fun hu => ?addi4spn, ?addi, ?li, fun hrd himm => ?lui, fun hj => ?addi16sp, ?srli, ?srai, ?andi⟩
  case addi4spn =>
    rw [← encAddi4spn_append]
    exact runs_half_of_commitRd (decode16_encAddi4spn hu d) (if_neg hu) (congrArg (s.readReg sp + ·) (uimmAddi4spn_eq u))
  case addi =>
    rw [← encCi_append]
    exact runs_half_of_commitRd (decode16_encCi (.inl ⟨rfl, rfl⟩)) rfl rfl
  case li =>
    rw [← encCi_append]
    exact runs_half_of_commitRd (decode16_encCi (.inr (.inl ⟨rfl, rfl⟩))) rfl rfl
  case lui =>
    rw [← encCi_append]
    exact runs_half_of_commitRd (decode16_encCi (.inr (.inr ⟨rfl, rfl, hrd, himm⟩))) (if_neg himm) (immClui_eq _)
  case addi16sp =>
    rw [← encAddi16sp_append]
    exact runs_half_of_commitRd (decode16_encAddi16sp hj) (if_neg hj) (congrArg (s.readReg sp + ·) (immAddi16sp_eq _))
  case srli => exact runs_half_of_commitRd (decode16_encCbAlu (.inl ⟨rfl, rfl, rfl⟩)) rfl rfl
  case srai => exact runs_half_of_commitRd (decode16_encCbAlu (.inr (.inl ⟨rfl, rfl, rfl⟩))) rfl rfl
  case andi => exact runs_half_of_commitRd (decode16_encCbAlu (.inr (.inr ⟨rfl, rfl⟩))) rfl rfl

/-- Settles O52: each encoding is a CA, a CI or a CR, and the value its instruction commits is that of its rule. -/
theorem compressedRegisterResults : Obligations.CompressedRegisterResults := by
  intro s rd rs2 sh d e x a b
  refine ⟨?sub, ?xor, ?or, ?and, ?slli, fun hrs2 => ?mv, fun hrs2 => ?add⟩
  case sub | xor | or | and => exact runs_half_of_commitRd (decode16_encCa ..) rfl rfl
  case slli =>
    rw [← encCi_append]
    exact runs_half_of_commitRd (decode16_encCi_slli rd sh) rfl rfl
  case mv | add => exact runs_half_of_commitRd ((decode16_encCr ..).trans (if_neg hrs2)) rfl rfl

/-- Settles O53: each encoding is a CJ, a CB or a CR; a branch tests its register against 0, and a link is written after the target
is read. -/
theorem compressedControlResults : Obligations.CompressedControlResults := by
  intro s rs1 d b11 b4 b10 b6 b7 b5 b8 b9_8 b4_3 b7_6 b2_1 b3_1 x j b offj offb target
  have htarget : clearBit0 (s.readReg rs1) = target := clearBit0_eq_ofNat_sub _
  have hoffj : s.pc + offCj j = s.pc + offj := congrArg (s.pc + ·) (offCj_eq j)
  refine ⟨?jal, ?j, ?beqz, ?bnez, fun hrs1 => ?jr, fun hrs1 => ?jalr⟩
  case jal =>
    rw [← encCj_append]
    exact runs_half_of_jumpLink (decode16_encCj (.inl ⟨rfl, rfl⟩)) rfl hoffj
  case j =>
    rw [← encCj_append]
    exact runs_half_of_pc (decode16_encCj (.inr ⟨rfl, rfl⟩)) rfl hoffj
  case beqz =>
    rw [← encCb_append]
    exact runs_half_of_branchOp (decode16_encCb (.inl ⟨rfl, rfl⟩)) rfl beq_iff_eq (offCb_eq b)
  case bnez =>
    rw [← encCb_append]
    exact runs_half_of_branchOp (decode16_encCb (.inr ⟨rfl, rfl⟩)) rfl bne_iff_ne (offCb_eq b)
  case jr =>
    have hdecode : decode16 (encCr 0 rs1 0) = some (.cJr rs1) :=
      (decode16_encCr ..).trans (guardWf_of_wf (bne_iff_ne.2 hrs1))
    exact runs_half_of_pc hdecode (if_neg hrs1) htarget
  case jalr => exact runs_half_of_jumpLink ((decode16_encCr ..).trans (if_neg hrs1)) rfl htarget

/-- Settles O54: each encoding scatters its offset, and its instruction is a load or a store of a word at that offset. -/
theorem compressedMemoryResults : Obligations.CompressedMemoryResults := by
  intro s rd rs2 d e u5_3 u2 u6 u5 u4_2 u7_6 v5_2 hwf x off offl offs
  refine ⟨?lw, ?sw, fun hrd => ?lwsp, ?swsp⟩
  case lw =>
    rw [← encCls_append]
    exact decodes_half_loadRule_of_loadOp (decode16_encCls (.inl ⟨rfl, rfl⟩)) rfl (uimmCls_eq _)
  case sw =>
    rw [← encCls_append]
    exact decodes_half_storeRule_of_storeOp (decode16_encCls (.inr ⟨rfl, rfl⟩)) hwf rfl (uimmCls_eq _)
  case lwsp =>
    rw [← encLwsp_append]
    exact decodes_half_loadRule_of_loadOp (decode16_encLwsp hrd _) (if_neg hrd) (uimmSp_eq _)
  case swsp =>
    rw [← encSwsp_append]
    exact decodes_half_storeRule_of_storeOp (decode16_encSwsp rs2 _) hwf rfl (uimmSp_eq _)

end Sys2Proof.Machine
end

section
/-!
PROOFS. Decoding what was encoded: the routes from an encoding to its instruction for SYSTEM, MISC-MEM and Zcmp (R133, R144), and with
those of the other formats the round trip of every instruction.
-/

namespace Sys2Proof

/-! ## From an encoding to its instruction: SYSTEM, MISC-MEM, Zcmp -/

/-- SYSTEM goes by funct3 (R133, R350). -/
theorem decode32_encI_system (csr : CsrAddr) (rs1 : Reg) (f3 : BitVec 3) (rd : Reg) :
    decode32 (encI csr rs1 f3 rd 0b1110011#7) = decodeSystem (encI csr rs1 f3 rd 0b1110011#7) f3 rd rs1 csr := by
  obtain ⟨hop, hrd, hf3, hrs1, hcsr⟩ := encI_fields csr rs1 f3 rd 0b1110011#7
  rw [decode32_system hop, hrd, hf3, hrs1, hcsr]

theorem decode32_encFence (fm pred succ : BitVec 4) (rs1 rd : Reg) :
    decode32 (encFence fm pred succ rs1 rd) = some (.fence fm pred succ rs1 rd) := by
  obtain ⟨hop, hrd, hf3, hrs1, hsucc, hpred, hfm⟩ := encFence_fields fm pred succ rs1 rd
  rw [decode32_miscMem hop, hf3, hrd, hrs1, decodeMiscMem, hsucc, hpred, hfm]

theorem decode32_encI_fenceI (imm : BitVec 12) (rs1 rd : Reg) :
    decode32 (encI imm rs1 0b001#3 rd 0b0001111#7) = some (.fenceI imm rs1 rd) := by
  obtain ⟨hop, hrd, hf3, hrs1, himm⟩ := encI_fields imm rs1 0b001#3 rd 0b0001111#7
  rw [decode32_miscMem hop, hf3, hrd, hrs1, decodeMiscMem, himm]

/-- PUSH, POP, POPRETZ and POPRET go by their selector, and need a list they allow (R144, R451). -/
theorem decode16_encCmpp {sel : BitVec 5} {rlist : BitVec 4} {spimm : BitVec 2} {i : Instr} (hwf : i.wf = true)
    (h : sel = 0b11000#5 ∧ i = .cmPush rlist spimm ∨ sel = 0b11010#5 ∧ i = .cmPop rlist spimm
      ∨ sel = 0b11100#5 ∧ i = .cmPopretz rlist spimm ∨ sel = 0b11110#5 ∧ i = .cmPopret rlist spimm) :
    decode16 (encCmpp sel rlist spimm) = some i := by
  obtain ⟨h0, h2, h4, h8, h13⟩ := encCmpp_fields sel rlist spimm
  rw [decode16_quadrant2 h0, decodeQ2_zcmp h13, decodeZcmp, h2, h4, h8]
  rcases h with ⟨rfl, rfl⟩ | ⟨rfl, rfl⟩ | ⟨rfl, rfl⟩ | ⟨rfl, rfl⟩ <;> exact guardWf_of_wf hwf

/-- MVSA01 and MVA01S go by their 2-bit selector: bits 12:10 are `011`, which no selector of a PUSH or POP begins with
(R144, R461). -/
theorem decode16_encCmmv (sel : BitVec 2) (r1s r2s : ShortReg) : decode16 (encCmmv sel r1s r2s) =
    if sel = 0b01#2 then guardWf (.cmMvsa01 r1s r2s) else if sel = 0b11#2 then some (.cmMva01s r1s r2s) else none := by
  obtain ⟨h0, h2, h5, h7, h8, h10, h13⟩ := encCmmv_fields sel r1s r2s
  rw [decode16_quadrant2 h0, decodeQ2_zcmp h13, decodeZcmp, h2, h5, h7, h8, h10]
  have values : ∀ b : BitVec 2, b = 0 ∨ b = 1 ∨ b = 2 ∨ b = 3 := by decide
  have noPushPop : ∀ b : BitVec 2, 0b011#3 ++ b ≠ 0b11000#5 ∧ 0b011#3 ++ b ≠ 0b11010#5 ∧ 0b011#3 ++ b ≠ 0b11100#5
      ∧ 0b011#3 ++ b ≠ 0b11110#5 := by decide
  obtain ⟨hpush, hpop, hpopretz, hpopret⟩ := noPushPop (r1s.extractLsb' 1 2)
  split
  case h_5 => rcases values sel with rfl | rfl | rfl | rfl <;> rfl
  all_goals contradiction

/-! ## Decoding what was encoded -/

/-- Settles O2: each encoding has the format whose route leads back to its instruction. -/
theorem decodeInvertsEncode : Obligations.DecodeInvertsEncode := by
  intro i hwf
  cases i
  case add | sub | sll | slt | sltu | xor | srl | sra | or | and | mul | mulh | mulhsu | mulhu | div | divu | rem | remu
      | andn | orn | xnor | sh1add | sh2add | sh3add | max | maxu | min | minu | rol | ror | bclr | bext | binv | bset
      | clmul | clmulh | clmulr | pack | packh => exact decodeCode_word_of_some (decode32_encR_op ..)
  case addi | slti | sltiu | xori | ori | andi => exact decodeCode_word_of_some (decode32_encI_opImm (fun _ => rfl) _)
  case slli | bclri | binvi | bseti | clz | ctz | cpop | sextB | sextH | zip =>
    exact decodeCode_word_of_some (decode32_encR_opImm1 ..)
  case srli | srai | rori | bexti | unzip | brev8 | orcB | rev8 =>
    exact decodeCode_word_of_some (decode32_encR_opImm5 ..)
  case lui => exact decodeCode_word_of_some (decode32_encU_lui ..)
  case auipc => exact decodeCode_word_of_some (decode32_encU_auipc ..)
  case beq | bne | blt | bge | bltu | bgeu => exact decodeCode_word_of_some (decode32_encB_branch ..)
  case jal => exact decodeCode_word_of_some (decode32_encJ_jal ..)
  case jalr => exact decodeCode_word_of_some (decode32_encI_jalr ..)
  case lb | lh | lw | lbu | lhu => exact decodeCode_word_of_some (decode32_encI_load ..)
  case sb | sh | sw => exact decodeCode_word_of_some (decode32_encS_store ..)
  case lrW | scW | amoswapW | amoaddW | amoxorW | amoandW | amoorW | amominW | amomaxW | amominuW | amomaxuW =>
    exact decodeCode_word_of_some (decode32_encAmo ..)
  case csrrw | csrrs | csrrc | csrrwi | csrrsi | csrrci => exact decodeCode_word_of_some (decode32_encI_system ..)
  case ecall | ebreak | mret | illegal16 | cEbreak => rfl
  case fence => exact decodeCode_word_of_some (decode32_encFence ..)
  case fenceI => exact decodeCode_word_of_some (decode32_encI_fenceI ..)
  case h3Bextm => exact decodeCode_word_of_some (decode32_encBextm_h3Bextm ..)
  case h3Bextmi => exact decodeCode_word_of_some (decode32_encBextm_h3Bextmi ..)
  case cAddi4spn rd uimm => exact decodeCode_half_of_some (decode16_encAddi4spn (bne_iff_ne.1 hwf) rd)
  case cLw => exact decodeCode_half_of_some (decode16_encCls (.inl ⟨rfl, rfl⟩))
  case cSw => exact decodeCode_half_of_some (decode16_encCls (.inr ⟨rfl, rfl⟩))
  case cAddi => exact decodeCode_half_of_some (decode16_encCi (.inl ⟨rfl, rfl⟩))
  case cLi => exact decodeCode_half_of_some (decode16_encCi (.inr (.inl ⟨rfl, rfl⟩)))
  case cLui =>
    obtain ⟨hrd, himm⟩ := Bool.and_eq_true_iff.1 hwf
    exact decodeCode_half_of_some (decode16_encCi (.inr (.inr ⟨rfl, rfl, bne_iff_ne.1 hrd, bne_iff_ne.1 himm⟩)))
  case cAddi16sp => exact decodeCode_half_of_some (decode16_encAddi16sp (bne_iff_ne.1 hwf))
  case cSrli => exact decodeCode_half_of_some (decode16_encCbAlu (.inl ⟨rfl, rfl, rfl⟩))
  case cSrai => exact decodeCode_half_of_some (decode16_encCbAlu (.inr (.inl ⟨rfl, rfl, rfl⟩)))
  case cAndi rd imm =>
    exact decodeCode_half_of_some (decode16_encCbAlu (.inr (.inr ⟨rfl, congrArg (Instr.cAndi rd) (encCi_join imm).symm⟩)))
  case cSub | cXor | cOr | cAnd => exact decodeCode_half_of_some (decode16_encCa ..)
  case cJal => exact decodeCode_half_of_some (decode16_encCj (.inl ⟨rfl, rfl⟩))
  case cJ => exact decodeCode_half_of_some (decode16_encCj (.inr ⟨rfl, rfl⟩))
  case cBeqz => exact decodeCode_half_of_some (decode16_encCb (.inl ⟨rfl, rfl⟩))
  case cBnez => exact decodeCode_half_of_some (decode16_encCb (.inr ⟨rfl, rfl⟩))
  case cSlli => exact decodeCode_half_of_some (decode16_encCi_slli ..)
  case cLwsp => exact decodeCode_half_of_some (decode16_encLwsp (bne_iff_ne.1 hwf) _)
  case cJr => exact decodeCode_half_of_some ((decode16_encCr ..).trans (guardWf_of_wf hwf))
  case cJalr => exact decodeCode_half_of_some ((decode16_encCr ..).trans (if_neg (bne_iff_ne.1 hwf)))
  case cMv | cAdd => exact decodeCode_half_of_some ((decode16_encCr ..).trans (if_neg (bne_iff_ne.1 hwf)))
  case cSwsp => exact decodeCode_half_of_some (decode16_encSwsp ..)
  case cmPush => exact decodeCode_half_of_some (decode16_encCmpp hwf (.inl ⟨rfl, rfl⟩))
  case cmPop => exact decodeCode_half_of_some (decode16_encCmpp hwf (.inr (.inl ⟨rfl, rfl⟩)))
  case cmPopretz => exact decodeCode_half_of_some (decode16_encCmpp hwf (.inr (.inr (.inl ⟨rfl, rfl⟩))))
  case cmPopret => exact decodeCode_half_of_some (decode16_encCmpp hwf (.inr (.inr (.inr ⟨rfl, rfl⟩))))
  case cmMvsa01 => exact decodeCode_half_of_some ((decode16_encCmmv ..).trans (guardWf_of_wf hwf))
  case cmMva01s => exact decodeCode_half_of_some (decode16_encCmmv ..)

end Sys2Proof
end

section
/-!
PROOFS. Every code that decodes is the code of the well-formed instruction it decodes to: each format put together again from the fields
the decoder takes (R121 to R144), and each decoder's answer encoded again. With the other round trip, the bytes of a code decode to its
instruction (R81, R82, R120).
-/

namespace Sys2Proof

/-! ## Each 32-bit format from its fields -/

section Word

variable {w : BitVec 32} {op : BitVec 7} {f3 : BitVec 3}

theorem encR_of_fields (hop : w.extractLsb' 0 7 = op) : encR (w.extractLsb' 25 7) (w.extractLsb' 20 5)
    (w.extractLsb' 15 5) (w.extractLsb' 12 3) (w.extractLsb' 7 5) op = w := by
  subst hop
  simp (disch := rfl) only [encR, BitVec.extractLsb'_append_extractLsb'_eq_extractLsb']
  exact BitVec.extractLsb'_eq_self

theorem encI_of_fields (hop : w.extractLsb' 0 7 = op) : encI (w.extractLsb' 20 12) (w.extractLsb' 15 5)
    (w.extractLsb' 12 3) (w.extractLsb' 7 5) op = w := by
  subst hop
  simp (disch := rfl) only [encI, BitVec.extractLsb'_append_extractLsb'_eq_extractLsb']
  exact BitVec.extractLsb'_eq_self

theorem encS_of_fields (hop : w.extractLsb' 0 7 = op) : encS (w.extractLsb' 25 7 ++ w.extractLsb' 7 5)
    (w.extractLsb' 20 5) (w.extractLsb' 15 5) (w.extractLsb' 12 3) op = w := by
  subst hop
  simp (disch := rfl) only [encS_append, BitVec.extractLsb'_append_extractLsb'_eq_extractLsb']
  exact BitVec.extractLsb'_eq_self

theorem encB_of_fields (hop : w.extractLsb' 0 7 = op) :
    encB (w.extractLsb' 31 1 ++ w.extractLsb' 7 1 ++ w.extractLsb' 25 6 ++ w.extractLsb' 8 4) (w.extractLsb' 20 5)
      (w.extractLsb' 15 5) (w.extractLsb' 12 3) op = w := by
  subst hop
  simp (disch := rfl) only [encB_append, BitVec.extractLsb'_append_extractLsb'_eq_extractLsb']
  exact BitVec.extractLsb'_eq_self

theorem encU_of_fields (hop : w.extractLsb' 0 7 = op) : encU (w.extractLsb' 12 20) (w.extractLsb' 7 5) op = w := by
  subst hop
  simp (disch := rfl) only [encU, BitVec.extractLsb'_append_extractLsb'_eq_extractLsb']
  exact BitVec.extractLsb'_eq_self

theorem encJ_of_fields (hop : w.extractLsb' 0 7 = op) :
    encJ (w.extractLsb' 31 1 ++ w.extractLsb' 12 8 ++ w.extractLsb' 20 1 ++ w.extractLsb' 21 10) (w.extractLsb' 7 5) op
      = w := by
  subst hop
  simp (disch := rfl) only [encJ_append, BitVec.extractLsb'_append_extractLsb'_eq_extractLsb']
  exact BitVec.extractLsb'_eq_self

theorem encAmo_of_fields (hop : w.extractLsb' 0 7 = 0b0101111#7) (hf : w.extractLsb' 12 3 = 0b010#3) :
    encAmo (w.extractLsb' 27 5) (w.extractLsb' 26 1) (w.extractLsb' 25 1) (w.extractLsb' 20 5) (w.extractLsb' 15 5)
      (w.extractLsb' 7 5) = w := by
  simp (disch := rfl) only [encAmo, ← hop, ← hf, BitVec.extractLsb'_append_extractLsb'_eq_extractLsb']
  exact BitVec.extractLsb'_eq_self

theorem encBextm_of_fields (hop : w.extractLsb' 0 7 = 0b0001011#7) (hf : w.extractLsb' 12 3 = f3)
    (h29 : w.extractLsb' 29 3 = 0b000#3) (h25 : w.extractLsb' 25 1 = 0b0#1) :
    encBextm (w.extractLsb' 26 3) (w.extractLsb' 20 5) (w.extractLsb' 15 5) f3 (w.extractLsb' 7 5) = w := by
  subst hf
  simp (disch := rfl) only [encBextm, ← hop, ← h29, ← h25, BitVec.extractLsb'_append_extractLsb'_eq_extractLsb']
  exact BitVec.extractLsb'_eq_self

theorem encFence_of_fields (hop : w.extractLsb' 0 7 = 0b0001111#7) (hf : w.extractLsb' 12 3 = 0b000#3) :
    encFence (w.extractLsb' 28 4) (w.extractLsb' 24 4) (w.extractLsb' 20 4) (w.extractLsb' 15 5) (w.extractLsb' 7 5)
      = w := by
  simp (disch := rfl) only [encFence, ← hop, ← hf, BitVec.extractLsb'_append_extractLsb'_eq_extractLsb']
  exact BitVec.extractLsb'_eq_self

end Word

/-! ## Each 16-bit format from its fields -/

section Half

variable {c : BitVec 16} {f3 : BitVec 3} {q : BitVec 2}

theorem encAddi4spn_of_fields (h0 : c.extractLsb' 0 2 = 0b00#2) (hf : c.extractLsb' 13 3 = 0b000#3) :
    encAddi4spn (c.extractLsb' 7 4 ++ c.extractLsb' 11 2 ++ c.extractLsb' 5 1 ++ c.extractLsb' 6 1) (c.extractLsb' 2 3)
      = c := by
  simp (disch := rfl) only [encAddi4spn_append, ← h0, ← hf, BitVec.extractLsb'_append_extractLsb'_eq_extractLsb']
  exact BitVec.extractLsb'_eq_self

theorem encCls_of_fields (h0 : c.extractLsb' 0 2 = 0b00#2) (hf : c.extractLsb' 13 3 = f3) :
    encCls f3 (c.extractLsb' 5 1 ++ c.extractLsb' 10 3 ++ c.extractLsb' 6 1) (c.extractLsb' 7 3) (c.extractLsb' 2 3)
      = c := by
  simp (disch := rfl) only [encCls_append, ← h0, ← hf, BitVec.extractLsb'_append_extractLsb'_eq_extractLsb']
  exact BitVec.extractLsb'_eq_self

theorem encCi_of_fields (h0 : c.extractLsb' 0 2 = q) (hf : c.extractLsb' 13 3 = f3) :
    encCi f3 (c.extractLsb' 12 1 ++ c.extractLsb' 2 5) (c.extractLsb' 7 5) q = c := by
  simp (disch := rfl) only [encCi_append, ← h0, ← hf, BitVec.extractLsb'_append_extractLsb'_eq_extractLsb']
  exact BitVec.extractLsb'_eq_self

theorem encAddi16sp_of_fields (h0 : c.extractLsb' 0 2 = 0b01#2) (hf : c.extractLsb' 13 3 = 0b011#3)
    (hrd : c.extractLsb' 7 5 = 0b00010#5) :
    encAddi16sp (c.extractLsb' 12 1 ++ c.extractLsb' 3 2 ++ c.extractLsb' 5 1 ++ c.extractLsb' 2 1 ++ c.extractLsb' 6 1)
      = c := by
  simp (disch := rfl) only [encAddi16sp_append, ← h0, ← hf, ← hrd, BitVec.extractLsb'_append_extractLsb'_eq_extractLsb']
  exact BitVec.extractLsb'_eq_self

theorem encCj_of_fields (h0 : c.extractLsb' 0 2 = 0b01#2) (hf : c.extractLsb' 13 3 = f3) :
    encCj f3 (c.extractLsb' 12 1 ++ c.extractLsb' 8 1 ++ c.extractLsb' 9 2 ++ c.extractLsb' 6 1 ++ c.extractLsb' 7 1
      ++ c.extractLsb' 2 1 ++ c.extractLsb' 11 1 ++ c.extractLsb' 3 3) = c := by
  simp (disch := rfl) only [encCj_append, ← h0, ← hf, BitVec.extractLsb'_append_extractLsb'_eq_extractLsb']
  exact BitVec.extractLsb'_eq_self

theorem encCb_of_fields (h0 : c.extractLsb' 0 2 = 0b01#2) (hf : c.extractLsb' 13 3 = f3) :
    encCb f3 (c.extractLsb' 7 3) (c.extractLsb' 12 1 ++ c.extractLsb' 5 2 ++ c.extractLsb' 2 1 ++ c.extractLsb' 10 2
      ++ c.extractLsb' 3 2) = c := by
  simp (disch := rfl) only [encCb_append, ← h0, ← hf, BitVec.extractLsb'_append_extractLsb'_eq_extractLsb']
  exact BitVec.extractLsb'_eq_self

theorem encCbAlu_of_fields {b12 : BitVec 1} {sel : BitVec 2} (h0 : c.extractLsb' 0 2 = 0b01#2)
    (hf : c.extractLsb' 13 3 = 0b100#3) (hb : c.extractLsb' 12 1 = b12) (hsel : c.extractLsb' 10 2 = sel) :
    encCbAlu b12 sel (c.extractLsb' 7 3) (c.extractLsb' 2 5) = c := by
  simp (disch := rfl) only [encCbAlu, ← h0, ← hf, ← hb, ← hsel, BitVec.extractLsb'_append_extractLsb'_eq_extractLsb']
  exact BitVec.extractLsb'_eq_self

theorem encCa_of_fields {sel : BitVec 2} (h0 : c.extractLsb' 0 2 = 0b01#2) (hf : c.extractLsb' 13 3 = 0b100#3)
    (hb : c.extractLsb' 12 1 = 0b0#1) (h10 : c.extractLsb' 10 2 = 0b11#2) (hsel : c.extractLsb' 5 2 = sel) :
    encCa (c.extractLsb' 7 3) sel (c.extractLsb' 2 3) = c := by
  simp (disch := rfl) only [encCa, ← h0, ← hf, ← hb, ← h10, ← hsel, BitVec.extractLsb'_append_extractLsb'_eq_extractLsb']
  exact BitVec.extractLsb'_eq_self

theorem encCr_of_fields {b12 : BitVec 1} {r rs2 : Reg} (h0 : c.extractLsb' 0 2 = 0b10#2)
    (hf : c.extractLsb' 13 3 = 0b100#3) (hb : c.extractLsb' 12 1 = b12) (hr : c.extractLsb' 7 5 = r)
    (hrs2 : c.extractLsb' 2 5 = rs2) : encCr b12 r rs2 = c := by
  simp (disch := rfl) only [encCr, ← h0, ← hf, ← hb, ← hr, ← hrs2, BitVec.extractLsb'_append_extractLsb'_eq_extractLsb']
  exact BitVec.extractLsb'_eq_self

theorem encLwsp_of_fields (h0 : c.extractLsb' 0 2 = 0b10#2) (hf : c.extractLsb' 13 3 = 0b010#3) :
    encLwsp (c.extractLsb' 7 5) (c.extractLsb' 2 2 ++ c.extractLsb' 12 1 ++ c.extractLsb' 4 3) = c := by
  simp (disch := rfl) only [encLwsp_append, ← h0, ← hf, BitVec.extractLsb'_append_extractLsb'_eq_extractLsb']
  exact BitVec.extractLsb'_eq_self

theorem encSwsp_of_fields (h0 : c.extractLsb' 0 2 = 0b10#2) (hf : c.extractLsb' 13 3 = 0b110#3) :
    encSwsp (c.extractLsb' 2 5) (c.extractLsb' 7 2 ++ c.extractLsb' 9 4) = c := by
  simp (disch := rfl) only [encSwsp_append, ← h0, ← hf, BitVec.extractLsb'_append_extractLsb'_eq_extractLsb']
  exact BitVec.extractLsb'_eq_self

theorem encCmpp_of_fields {sel : BitVec 5} (h0 : c.extractLsb' 0 2 = 0b10#2) (hf : c.extractLsb' 13 3 = 0b101#3)
    (hsel : c.extractLsb' 8 5 = sel) : encCmpp sel (c.extractLsb' 4 4) (c.extractLsb' 2 2) = c := by
  simp (disch := rfl) only [encCmpp, ← h0, ← hf, ← hsel, BitVec.extractLsb'_append_extractLsb'_eq_extractLsb']
  exact BitVec.extractLsb'_eq_self

theorem encCmmv_of_fields {sel : BitVec 2} (h0 : c.extractLsb' 0 2 = 0b10#2) (hf : c.extractLsb' 13 3 = 0b101#3)
    (h10 : c.extractLsb' 10 3 = 0b011#3) (hsel : c.extractLsb' 5 2 = sel) :
    encCmmv sel (c.extractLsb' 7 3) (c.extractLsb' 2 3) = c := by
  simp (disch := rfl) only [encCmmv, ← h0, ← hf, ← h10, ← hsel, BitVec.extractLsb'_append_extractLsb'_eq_extractLsb']
  exact BitVec.extractLsb'_eq_self

end Half

/-! ## What a decoder answers, encoded again -/

/-- `i` is a well-formed instruction and `c` is its code. -/
def HasCode (i : Instr) (c : Code) : Prop := i.wf = true ∧ encode i = c

theorem HasCode.word {i : Instr} {u w : BitVec 32} (h : HasCode i (.word u)) (he : u = w) : HasCode i (.word w) := he ▸ h

/-- A reserved operand value gives no instruction, and the others pass (R138). -/
theorem guardWf_eq_some {i j : Instr} : guardWf i = some j ↔ i.wf = true ∧ i = j := by
  unfold guardWf
  split <;> simp_all

theorem HasCode.of_guardWf {i j : Instr} {c d : BitVec 16} (h : guardWf j = some i) (hc : encode j = .half d) (hd : d = c) :
    HasCode i (.half c) := by
  obtain ⟨hwf, rfl⟩ := guardWf_eq_some.1 h
  exact ⟨hwf, hd ▸ hc⟩

theorem HasCode.of_some {i j : Instr} {c d : BitVec 16} (h : some j = some i) (hwf : j.wf = true)
    (hc : encode j = .half d) (hd : d = c) : HasCode i (.half c) := by
  cases h
  exact ⟨hwf, hd ▸ hc⟩

section Fields

variable {i : Instr} {rd rs1 rs2 : Reg} {f3 : BitVec 3} {f7 : BitVec 7} {sel : BitVec 5}

theorem hasCode_of_decodeOp (h : decodeOp f7 f3 rd rs1 rs2 = some i) :
    HasCode i (.word (encR f7 rs2 rs1 f3 rd 0b0110011#7)) := by
  unfold decodeOp at h
  split at h
  case h_40 => cases h
  all_goals
    cases h
    exact ⟨rfl, rfl⟩

theorem hasCode_of_decodeOpImm1 (h : decodeOpImm1 f7 sel rd rs1 = some i) :
    HasCode i (.word (encR f7 sel rs1 0b001#3 rd 0b0010011#7)) := by
  unfold decodeOpImm1 at h
  split at h
  case h_11 => cases h
  all_goals
    cases h
    exact ⟨rfl, rfl⟩

theorem hasCode_of_decodeOpImm5 (h : decodeOpImm5 f7 sel rd rs1 = some i) :
    HasCode i (.word (encR f7 sel rs1 0b101#3 rd 0b0010011#7)) := by
  unfold decodeOpImm5 at h
  split at h
  case h_9 => cases h
  all_goals
    cases h
    exact ⟨rfl, rfl⟩

theorem hasCode_of_decodeLoad {imm : BitVec 12} (h : decodeLoad f3 rd rs1 imm = some i) :
    HasCode i (.word (encI imm rs1 f3 rd 0b0000011#7)) := by
  unfold decodeLoad at h
  split at h
  case h_6 => cases h
  all_goals
    cases h
    exact ⟨rfl, rfl⟩

theorem hasCode_of_decodeStore {imm : BitVec 12} (h : decodeStore f3 rs1 rs2 imm = some i) :
    HasCode i (.word (encS imm rs2 rs1 f3 0b0100011#7)) := by
  unfold decodeStore at h
  split at h
  case h_4 => cases h
  all_goals
    cases h
    exact ⟨rfl, rfl⟩

theorem hasCode_of_decodeBranch {off : BitVec 12} (h : decodeBranch f3 rs1 rs2 off = some i) :
    HasCode i (.word (encB off rs2 rs1 f3 0b1100011#7)) := by
  unfold decodeBranch at h
  split at h
  case h_7 => cases h
  all_goals
    cases h
    exact ⟨rfl, rfl⟩

/-- LR.W's rs2 field is zero (R324). -/
theorem hasCode_of_decodeAmo {f5 : BitVec 5} {aq rl : BitVec 1} (h : decodeAmo f5 rd rs1 rs2 aq rl = some i) :
    HasCode i (.word (encAmo f5 aq rl rs2 rs1 rd)) := by
  unfold decodeAmo at h
  split at h
  case h_1 =>
    split at h
    case isTrue hrs2 =>
      cases h
      exact ⟨rfl, hrs2 ▸ rfl⟩
    case isFalse => cases h
  case h_12 => cases h
  all_goals
    cases h
    exact ⟨rfl, rfl⟩

end Fields

section Word

variable {w : BitVec 32} {i : Instr}

theorem hasCode_of_decodeOpImm (hop : w.extractLsb' 0 7 = 0b0010011#7)
    (h : decodeOpImm w (w.extractLsb' 12 3) (w.extractLsb' 7 5) (w.extractLsb' 15 5) = some i) : HasCode i (.word w) := by
  have hI := encI_of_fields hop
  have hR := encR_of_fields hop
  unfold decodeOpImm at h
  generalize w.extractLsb' 12 3 = f3 at h hI hR
  split at h
  case h_2 => exact (hasCode_of_decodeOpImm1 h).word hR
  case h_6 => exact (hasCode_of_decodeOpImm5 h).word hR
  case h_9 => cases h
  all_goals
    cases h
    exact ⟨rfl, congrArg Code.word hI⟩

theorem hasCode_of_decodeSystem0 (h : decodeSystem0 w = some i) : HasCode i (.word w) := by
  unfold decodeSystem0 at h
  split at h
  case h_4 => cases h
  all_goals
    cases h
    exact ⟨rfl, rfl⟩

theorem hasCode_of_decodeSystem (hop : w.extractLsb' 0 7 = 0b1110011#7) (h : decodeSystem w (w.extractLsb' 12 3)
    (w.extractLsb' 7 5) (w.extractLsb' 15 5) (w.extractLsb' 20 12) = some i) : HasCode i (.word w) := by
  have hI := encI_of_fields hop
  unfold decodeSystem at h
  generalize w.extractLsb' 12 3 = f3 at h hI
  split at h
  case h_1 => exact hasCode_of_decodeSystem0 h
  case h_8 => cases h
  all_goals
    cases h
    exact ⟨rfl, congrArg Code.word hI⟩

theorem hasCode_of_decodeMiscMem (hop : w.extractLsb' 0 7 = 0b0001111#7)
    (h : decodeMiscMem w (w.extractLsb' 12 3) (w.extractLsb' 7 5) (w.extractLsb' 15 5) = some i) :
    HasCode i (.word w) := by
  unfold decodeMiscMem at h
  split at h
  case h_1 hf =>
    cases h
    exact ⟨rfl, congrArg Code.word (encFence_of_fields hop hf)⟩
  case h_2 hf =>
    cases h
    exact ⟨rfl, congrArg Code.word (hf ▸ encI_of_fields hop)⟩
  case h_3 => cases h

theorem hasCode_of_decodeCustom0 (hop : w.extractLsb' 0 7 = 0b0001011#7) (h : decodeCustom0 w (w.extractLsb' 12 3)
    (w.extractLsb' 7 5) (w.extractLsb' 15 5) (w.extractLsb' 20 5) = some i) : HasCode i (.word w) := by
  unfold decodeCustom0 at h
  split at h
  case isFalse => cases h
  case isTrue hzero =>
    obtain ⟨h29, h25⟩ := hzero
    split at h
    case h_3 => cases h
    all_goals
      next hf =>
        cases h
        exact ⟨rfl, congrArg Code.word (encBextm_of_fields hop hf h29 h25)⟩

theorem opcode_of_decode32 (h : decode32 w = some i) : w.extractLsb' 0 7 ∈ majorOpcodes := by
  by_contra hop
  rw [decode32_unlisted_opcode hop] at h
  cases h

/-- A 32-bit code that decodes is the code of its instruction: each opcode's decoder takes every bit of its format. -/
theorem hasCode_of_decode32 (h : decode32 w = some i) : HasCode i (.word w) := by
  have hop := opcode_of_decode32 h
  simp only [majorOpcodes, List.mem_cons, List.not_mem_nil, or_false] at hop
  rcases hop with hop | hop | hop | hop | hop | hop | hop | hop | hop | hop | hop | hop | hop
  · exact (hasCode_of_decodeLoad ((decode32_load hop).symm.trans h)).word (encI_of_fields hop)
  · exact hasCode_of_decodeCustom0 hop ((decode32_custom0 hop).symm.trans h)
  · exact hasCode_of_decodeMiscMem hop ((decode32_miscMem hop).symm.trans h)
  · exact hasCode_of_decodeOpImm hop ((decode32_opImm hop).symm.trans h)
  · rw [← encU_of_fields hop, decode32_encU_auipc] at h
    cases h
    exact ⟨rfl, congrArg Code.word (encU_of_fields hop)⟩
  · exact (hasCode_of_decodeStore ((decode32_store hop).symm.trans h)).word (encS_of_fields hop)
  · rw [decode32_amo hop] at h
    split at h
    case isTrue hf => exact (hasCode_of_decodeAmo h).word (encAmo_of_fields hop hf)
    case isFalse => cases h
  · exact (hasCode_of_decodeOp ((decode32_op hop).symm.trans h)).word (encR_of_fields hop)
  · rw [← encU_of_fields hop, decode32_encU_lui] at h
    cases h
    exact ⟨rfl, congrArg Code.word (encU_of_fields hop)⟩
  · exact (hasCode_of_decodeBranch ((decode32_branch hop).symm.trans h)).word (encB_of_fields hop)
  · rw [decode32_jalr hop] at h
    split at h
    case isTrue hf =>
      cases h
      exact ⟨rfl, congrArg Code.word (hf ▸ encI_of_fields hop)⟩
    case isFalse => cases h
  · rw [← encJ_of_fields hop, decode32_encJ_jal] at h
    cases h
    exact ⟨rfl, congrArg Code.word (encJ_of_fields hop)⟩
  · exact hasCode_of_decodeSystem hop ((decode32_system hop).symm.trans h)

end Word

section Half

variable {c : BitVec 16} {i : Instr}

theorem eq_three_of_ne {b : BitVec 2} (h0 : b ≠ 0b00#2) (h1 : b ≠ 0b01#2) (h2 : b ≠ 0b10#2) : b = 0b11#2 := by
  revert b
  decide

theorem hasCode_of_decodeQ0 (h0 : c.extractLsb' 0 2 = 0b00#2) (h : decodeQ0 c = some i) : HasCode i (.half c) := by
  unfold decodeQ0 at h
  split at h
  case h_1 hf =>
    split at h
    case isTrue hc => exact .of_some h rfl rfl hc.symm
    case isFalse => exact .of_guardWf h rfl (encAddi4spn_of_fields h0 hf)
  case h_2 hf => exact .of_some h rfl rfl (encCls_of_fields h0 hf)
  case h_3 hf => exact .of_some h rfl rfl (encCls_of_fields h0 hf)
  case h_4 => cases h

theorem hasCode_of_decodeQ1Alu (h0 : c.extractLsb' 0 2 = 0b01#2) (hf : c.extractLsb' 13 3 = 0b100#3)
    (h : decodeQ1Alu c = some i) : HasCode i (.half c) := by
  unfold decodeQ1Alu at h
  split at h
  case h_1 hsel =>
    split at h
    case isTrue hb => exact .of_some h rfl rfl (encCbAlu_of_fields h0 hf hb hsel)
    case isFalse => cases h
  case h_2 hsel =>
    split at h
    case isTrue hb => exact .of_some h rfl rfl (encCbAlu_of_fields h0 hf hb hsel)
    case isFalse => cases h
  case h_3 hsel =>
    refine .of_some h rfl rfl ?_
    rw [BitVec.extractLsb'_append_eq_left, BitVec.extractLsb'_append_eq_right]
    exact encCbAlu_of_fields h0 hf rfl hsel
  case h_4 h00 h01 h10 =>
    have hca := eq_three_of_ne h00 h01 h10
    split at h
    case isFalse => cases h
    case isTrue hb =>
      split at h
      case h_4 h00 h01 h10 => exact .of_some h rfl rfl (encCa_of_fields h0 hf hb hca (eq_three_of_ne h00 h01 h10))
      all_goals
        next hsel => exact .of_some h rfl rfl (encCa_of_fields h0 hf hb hca hsel)

theorem hasCode_of_decodeQ1 (h0 : c.extractLsb' 0 2 = 0b01#2) (h : decodeQ1 c = some i) : HasCode i (.half c) := by
  unfold decodeQ1 at h
  dsimp only at h
  split at h
  case h_1 hf => exact .of_some h rfl rfl (encCi_of_fields h0 hf)
  case h_2 hf => exact .of_some h rfl rfl (encCj_of_fields h0 hf)
  case h_3 hf => exact .of_some h rfl rfl (encCi_of_fields h0 hf)
  case h_4 hf =>
    split at h
    case isTrue hrd => exact .of_guardWf h rfl (encAddi16sp_of_fields h0 hf hrd)
    case isFalse => exact .of_guardWf h rfl (encCi_of_fields h0 hf)
  case h_5 hf => exact hasCode_of_decodeQ1Alu h0 hf h
  case h_6 hf => exact .of_some h rfl rfl (encCj_of_fields h0 hf)
  case h_7 hf => exact .of_some h rfl rfl (encCb_of_fields h0 hf)
  case h_8 hf0 hf1 hf2 hf3 hf4 hf5 hf6 =>
    have last : ∀ b : BitVec 3, b ∉ [0b000#3, 0b001#3, 0b010#3, 0b011#3, 0b100#3, 0b101#3, 0b110#3] → b = 0b111#3 := by
      decide
    have hf : c.extractLsb' 13 3 = 0b111#3 := last _ (by
      simp only [List.mem_cons, List.not_mem_nil, or_false, not_or]
      exact ⟨hf0, hf1, hf2, hf3, hf4, hf5, hf6⟩)
    exact .of_some h rfl rfl (encCb_of_fields h0 hf)

theorem hasCode_of_decodeQ2Move (h0 : c.extractLsb' 0 2 = 0b10#2) (hf : c.extractLsb' 13 3 = 0b100#3)
    (h : decodeQ2Move c = some i) : HasCode i (.half c) := by
  have bit : ∀ b : BitVec 1, b ≠ 0 → b = 1 := by decide
  unfold decodeQ2Move at h
  dsimp only at h
  split at h
  case isTrue hb =>
    split at h
    case isTrue hrs2 => exact .of_guardWf h rfl (encCr_of_fields h0 hf hb rfl hrs2)
    case isFalse hrs2 => exact .of_some h (bne_iff_ne.2 hrs2) rfl (encCr_of_fields h0 hf hb rfl rfl)
  case isFalse hb =>
    split at h
    case isTrue hrs2 =>
      split at h
      case isTrue hr => exact .of_some h rfl rfl (encCr_of_fields h0 hf (bit _ hb) hr hrs2)
      case isFalse hr => exact .of_some h (bne_iff_ne.2 hr) rfl (encCr_of_fields h0 hf (bit _ hb) rfl hrs2)
    case isFalse hrs2 => exact .of_some h (bne_iff_ne.2 hrs2) rfl (encCr_of_fields h0 hf (bit _ hb) rfl rfl)

theorem hasCode_of_decodeZcmp (h0 : c.extractLsb' 0 2 = 0b10#2) (hf : c.extractLsb' 13 3 = 0b101#3)
    (h : decodeZcmp c = some i) : HasCode i (.half c) := by
  unfold decodeZcmp at h
  split at h
  case h_5 =>
    split at h
    case isFalse => cases h
    case isTrue h10 =>
      split at h
      case h_1 hsel => exact .of_guardWf h rfl (encCmmv_of_fields h0 hf h10 hsel)
      case h_2 hsel => exact .of_some h rfl rfl (encCmmv_of_fields h0 hf h10 hsel)
      case h_3 => cases h
  all_goals
    next hsel => exact .of_guardWf h rfl (encCmpp_of_fields h0 hf hsel)

theorem hasCode_of_decodeQ2 (h0 : c.extractLsb' 0 2 = 0b10#2) (h : decodeQ2 c = some i) : HasCode i (.half c) := by
  unfold decodeQ2 at h
  split at h
  case h_1 hf =>
    split at h
    case isTrue hb =>
      have hb : c.extractLsb' 12 1 = 0b0#1 := hb
      exact .of_some h rfl rfl (hb ▸ encCi_of_fields h0 hf)
    case isFalse => cases h
  case h_2 hf => exact .of_guardWf h rfl (encLwsp_of_fields h0 hf)
  case h_3 hf => exact hasCode_of_decodeQ2Move h0 hf h
  case h_4 hf => exact hasCode_of_decodeZcmp h0 hf h
  case h_5 hf => exact .of_some h rfl rfl (encSwsp_of_fields h0 hf)
  case h_6 => cases h

theorem hasCode_of_decode16 (h : decode16 c = some i) : HasCode i (.half c) := by
  unfold decode16 at h
  split at h
  case h_1 h0 => exact hasCode_of_decodeQ0 h0 h
  case h_2 h0 => exact hasCode_of_decodeQ1 h0 h
  case h_3 h0 => exact hasCode_of_decodeQ2 h0 h
  case h_4 => cases h

end Half

/-! ## The round trip, and the bytes of a code -/

theorem decodeCode_half_eq_ok {c : BitVec 16} {i : Instr} : decodeCode (.half c) = .ok i ↔ decode16 c = some i := by
  simp only [decodeCode]
  split <;> simp_all

theorem decodeCode_word_eq_ok {w : BitVec 32} {i : Instr} : decodeCode (.word w) = .ok i ↔ decode32 w = some i := by
  simp only [decodeCode]
  split <;> simp_all

/-- Settles O3: a code is decoded by its length, its quadrant or opcode, and the fields of its format, which together are all its
bits. -/
theorem encodeInvertsDecode : Obligations.EncodeInvertsDecode := by
  intro c i h
  cases c with
  | half c => exact hasCode_of_decode16 (decodeCode_half_eq_ok.1 h)
  | word w => exact hasCode_of_decode32 (decodeCode_word_eq_ok.1 h)

/-- A 16-bit code that decodes is no low half of a 32-bit one (R120). -/
theorem isLowHalf_of_decode16 {c : BitVec 16} {i : Instr} (h : decode16 c = some i) : isLowHalf c = false := by
  refine beq_eq_false_iff_ne.2 fun h3 => ?_
  rw [decode16, h3] at h
  cases h

/-- The low half of a 32-bit code that decodes says so: every major opcode ends in `11` (R120, R130). -/
theorem isLowHalf_of_decode32 {w : BitVec 32} {i : Instr} (h : decode32 w = some i) :
    isLowHalf (w.extractLsb' 0 16) = true := by
  have ends : ∀ op ∈ majorOpcodes, op.extractLsb' 0 2 = 0b11#2 := by decide
  have hop := ends _ (opcode_of_decode32 h)
  rw [extractLsb'_extractLsb'_of_le w 0 (by decide)] at hop
  refine beq_iff_eq.2 ?_
  rw [extractLsb'_extractLsb'_of_le w 0 (by decide)]
  exact hop

/-- Settles O4: the bytes of a code put together again are the code, and the length rule tells the two lengths apart. -/
theorem bytesOfCodeDecode : Obligations.BytesOfCodeDecode := by
  intro i rest hwf
  have hi := decodeInvertsEncode i hwf
  cases hc : encode i with
  | half c =>
    rw [hc] at hi
    have hjoin : c.extractLsb' 8 8 ++ c.extractLsb' 0 8 = c :=
      (BitVec.extractLsb'_append_extractLsb'_eq_extractLsb' rfl).trans BitVec.extractLsb'_eq_self
    show decode (c.extractLsb' 0 8 :: c.extractLsb' 8 8 :: rest) = _
    simp only [decode, hjoin, isLowHalf_of_decode16 (decodeCode_half_eq_ok.1 hi), hi]
    rfl
  | word w =>
    rw [hc] at hi
    have hlo : w.extractLsb' 8 8 ++ w.extractLsb' 0 8 = w.extractLsb' 0 16 :=
      BitVec.extractLsb'_append_extractLsb'_eq_extractLsb' rfl
    have hjoin : (w.extractLsb' 24 8 ++ w.extractLsb' 16 8 : BitVec 16) ++ w.extractLsb' 0 16 = w := by
      simp (disch := rfl) only [BitVec.extractLsb'_append_extractLsb'_eq_extractLsb']
      exact BitVec.extractLsb'_eq_self
    show decode (w.extractLsb' 0 8 :: w.extractLsb' 8 8 :: w.extractLsb' 16 8 :: w.extractLsb' 24 8 :: rest) = _
    simp only [decode, hlo, isLowHalf_of_decode32 (decodeCode_word_eq_ok.1 hi), if_true, hjoin, hi]

end Sys2Proof
end

section
/-!
PROOFS. Rules over all instructions and steps: what an instruction that answers a next state can have done (from `exec_shape`), what a
step that answers one can have done, and from both the invariant (O15), the outcomes of a step, the counters, and the rules on RAM,
privilege, CSRs, the reservation and traps.
-/

namespace Sys2Proof.Machine

/-! ## What an instruction that answers a next state can have done -/

/-- The state MRET returns to, when MPP names a mode (R495). -/
def mretReturn (p : Priv) (s : State) : State := { s with priv := p, mstatus := mretStatus s.mstatus, pc := s.mepc }

/-- An instruction that answers a next state ran, took one exception, or is an MRET in M-mode with MPP the code of a mode. -/
theorem exec_next_cases {i : Instr} {s t : State} (h : exec i s = .next t) :
    Ran i s t ∨ (∃ c u, Faulted i s c u ∧ t = trapEnter c.code u)
      ∨ (i = .mret ∧ s.priv = .M ∧ ∃ p, privOfCode (mppOf s.mstatus) = some p ∧ t = mretReturn p s) := by
  have hs := exec_shape i s
  generalize exec i s = r at h hs
  cases hs with
  | ran hran =>
    cases h
    exact .inl hran
  | trapped hfaulted =>
    cases h
    exact .inr (.inl ⟨_, _, hfaulted, rfl⟩)
  | halted => cases h
  | mret hi hp =>
    refine .inr (.inr ⟨hi, hp, ?_⟩)
    unfold trapMret at h
    split at h
    · next p hmpp =>
      cases h
      exact ⟨p, hmpp, rfl⟩
    · cases h

section Exec

variable {i : Instr} {s t : State} (h : exec i s = .next t)
include h

/-- No instruction changes a counter or the inhibit bits; `csr_step` does (R59). -/
theorem exec_next_counters : t.mcycle = s.mcycle ∧ t.mcycleh = s.mcycleh ∧ t.minstret = s.minstret
    ∧ t.minstreth = s.minstreth ∧ t.mcountinhibit = s.mcountinhibit := by
  rcases exec_next_cases h with hran | ⟨c, u, hfaulted, rfl⟩ | ⟨-, -, p, -, rfl⟩
  · obtain ⟨_, _, _, _, _, _, rfl⟩ := hran.eq
    exact ⟨rfl, rfl, rfl, rfl, rfl⟩
  · obtain ⟨_, _, _, _, rfl⟩ := hfaulted.eq
    exact ⟨rfl, rfl, rfl, rfl, rfl⟩
  · exact ⟨rfl, rfl, rfl, rfl, rfl⟩

/-- Only a CSR instruction in M-mode stages a write, and to its target (R51, R352 to R357). -/
theorem exec_next_pending : t.pending = s.pending
    ∨ s.priv = .M ∧ ∃ a v, csrTarget i = some a ∧ t.pending = some (a, v) := by
  rcases exec_next_cases h with hran | ⟨c, u, hfaulted, rfl⟩ | ⟨-, -, p, -, rfl⟩
  · exact hran.pending
  · obtain ⟨_, _, _, _, rfl⟩ := hfaulted.eq
    exact .inl rfl
  · exact .inl rfl

end Exec

/-! ## What a step can do -/

theorem onlyMemory_fetch (s : State) : OnlyMemory s (fetch s).2 := by
  obtain ⟨mem, hu, hasks⟩ := fetch_eq s
  refine ⟨⟨s.ram, mem, hu⟩, hasks, .of_eq ?_⟩
  rw [hu]

theorem step_of_decode_error {s : State} {c : Code} {e : DecodeError} (hf : (fetch s).1 = some c)
    (hd : decodeCode c = .error e) : step s = .next (csrStep (trapEnter Cause.instrIllegal.code (fetch s).2)) := by
  simp only [step, hf, hd, raise_next, endStep]

theorem step_of_decode_ok {s : State} {c : Code} {i : Instr} (hf : (fetch s).1 = some c) (hd : decodeCode c = .ok i) :
    step s = endStep (exec i (fetch s).2) := by
  simp only [step, hf, hd]

/-- A step is the trap of a failed fetch or of an unmatched code, or the decoded instruction; then comes `csr_step` (R551). -/
theorem step_cases (s : State) :
    (∃ c : Cause, step s = .next (csrStep (trapEnter c.code (fetch s).2)))
    ∨ ∃ c i, (fetch s).1 = some c ∧ decodeCode c = .ok i ∧ step s = endStep (exec i (fetch s).2) := by
  cases hf : (fetch s).1 with
  | none => exact .inl ⟨_, step_of_fetch_none hf⟩
  | some c =>
    cases hd : decodeCode c with
    | error e => exact .inl ⟨_, step_of_decode_error hf hd⟩
    | ok i => exact .inr ⟨c, i, rfl, hd, step_of_decode_ok hf hd⟩

theorem endStep_eq_next {r : Result} {t : State} (h : endStep r = .next t) : ∃ u, r = .next u ∧ t = csrStep u := by
  cases r with
  | next u =>
    cases h
    exact ⟨u, rfl, rfl⟩
  | fault => cases h
  | refused => cases h

/-- A step that answers a next state ends with `csr_step`, after a trap from the fetched state or an instruction that answers one. -/
theorem step_next_cases {s t : State} (h : step s = .next t) : ∃ u, t = csrStep u
    ∧ ((∃ c : Cause, u = trapEnter c.code (fetch s).2)
      ∨ ∃ c i, (fetch s).1 = some c ∧ decodeCode c = .ok i ∧ exec i (fetch s).2 = .next u) := by
  rcases step_cases s with ⟨c, hs⟩ | ⟨c, i, hf, hd, hs⟩
  · rw [hs] at h
    cases h
    exact ⟨_, rfl, .inl ⟨c, rfl⟩⟩
  · rw [hs] at h
    obtain ⟨u, hu, ht⟩ := endStep_eq_next h
    exact ⟨u, ht, .inr ⟨c, i, hf, hd, hu⟩⟩

/-! ## The invariant -/

/-- What `csr_step` leaves in a writable CSR: its next value, or what was staged under its mask (R59). -/
theorem csrStep_csrValue_cases (s : State) {r : Csr} {m : Word} (hm : r.writeMask = some m) :
    (csrStep s).csrValue r = s.nextCsrValue r ∨ ∃ v, (csrStep s).csrValue r = v &&& m := by
  cases hp : s.pendingAt r.addr with
  | false => exact .inl (csrStep_csrValue hp)
  | true =>
    obtain ⟨v, hv⟩ := (pendingAt_iff s r.addr).1 hp
    exact .inr ⟨v, (csrStep_written hm hv).2⟩

/-- `csr_step` gives the invariant back to a state that lacks it in the pending slot alone: the masks of `mepc`, `mtvec` and
`mcause` clear the bits the invariant speaks of. -/
theorem inv_csrStep {s : State} (h : State.Inv { s with pending := none }) : (csrStep s).Inv := by
  have hmepc := csrStep_csrValue_cases s (r := .mepc) rfl
  have hmtvec := csrStep_csrValue_cases s (r := .mtvec) rfl
  have hmcause := csrStep_csrValue_cases s (r := .mcause) rfl
  simp only [State.csrValue, State.nextCsrValue] at hmepc hmtvec hmcause
  refine ⟨?cfg, ?ramForm, ?ramWindow, ?zero, ?pc, ?mepc, ?mtvec, ?mcause, csrStep_pending s⟩
  case cfg => exact csrStep_cfg s ▸ h.cfg
  case ramForm => exact csrStep_ram s ▸ h.ramForm
  case ramWindow =>
    rw [csrStep_ram, csrStep_cfg]
    exact h.ramWindow
  case zero => simpa using h.zero
  case pc => exact csrStep_pc s ▸ h.pc
  case mepc =>
    rcases hmepc with hv | ⟨v, hv⟩ <;> rw [hv]
    · exact h.mepc
    · simp
  case mtvec =>
    rcases hmtvec with hv | ⟨v, hv⟩ <;> rw [hv]
    · exact h.mtvec
    · simp
  case mcause =>
    rcases hmcause with hv | ⟨v, hv⟩ <;> rw [hv]
    · exact h.mcause
    · rw [BitVec.and_assoc]
      exact BitVec.and_zero

theorem State.Inv.of_onlyMemory {s u : State} (h : s.Inv) (ho : OnlyMemory s u) : u.Inv := by
  obtain ⟨hform, hwindow⟩ := ho.form h.cfg h.ramForm h.ramWindow
  obtain ⟨_, _, rfl⟩ := ho.eq
  exact ⟨h.cfg, hform, hwindow, h.zero, h.pc, h.mepc, h.mtvec, h.mcause, h.pending⟩

/-- Trap entry keeps the invariant: the base of `mtvec` is even, `mepc` takes an even `pc`, and every code is below 16. -/
theorem State.Inv.trapEnter {s : State} (h : s.Inv) (c : Cause) : (trapEnter c.code s).Inv := by
  have hcode : c.code &&& 0x7FFFFFF0#32 = 0#32 := by cases c <;> decide
  have hpc : (trapTarget s.mtvec c.code).getLsbD 0 = false := trapTarget_code s.mtvec c ▸ even_clearBit0 _
  exact ⟨h.cfg, h.ramForm, h.ramWindow, h.zero, hpc, h.pc, h.mtvec, hcode, h.pending⟩

theorem State.Inv.clearPending {s : State} (h : s.Inv) : State.Inv { s with pending := none } :=
  ⟨h.cfg, h.ramForm, h.ramWindow, h.zero, h.pc, h.mepc, h.mtvec, h.mcause, rfl⟩

/-- An instruction keeps the invariant but for the pending slot. -/
theorem State.Inv.exec {i : Instr} {s t : State} (h : s.Inv) (hexec : exec i s = .next t) :
    State.Inv { t with pending := none } := by
  rcases exec_next_cases hexec with hran | ⟨c, u, hfaulted, rfl⟩ | ⟨-, -, p, -, rfl⟩
  · have hzero := hran.zero.trans h.zero
    have hpc := hran.pc h.pc
    obtain ⟨hform, hwindow⟩ := hran.form h.cfg h.ramForm h.ramWindow
    obtain ⟨_, _, _, _, _, _, rfl⟩ := hran.eq
    exact ⟨h.cfg, hform, hwindow, hzero, hpc, h.mepc, h.mtvec, h.mcause, rfl⟩
  · have hzero := hfaulted.zero.trans h.zero
    obtain ⟨hform, hwindow⟩ := hfaulted.form h.cfg h.ramForm h.ramWindow
    have hu : u.Inv := by
      obtain ⟨_, _, _, _, rfl⟩ := hfaulted.eq
      exact ⟨h.cfg, hform, hwindow, hzero, h.pc, h.mepc, h.mtvec, h.mcause, h.pending⟩
    exact (hu.trapEnter c).clearPending
  · exact ⟨h.cfg, h.ramForm, h.ramWindow, h.zero, h.mepc, h.mepc, h.mtvec, h.mcause, rfl⟩

/-- Settles O15: a fetch, a trap and an instruction keep all but the pending slot, and `csr_step` empties it. -/
theorem stepKeepsInvariant : Obligations.StepKeepsInvariant := by
  intro s t hinv hstep
  have hu := hinv.of_onlyMemory (onlyMemory_fetch s)
  obtain ⟨u, rfl, ⟨c, rfl⟩ | ⟨c, i, -, -, hexec⟩⟩ := step_next_cases hstep
  · exact inv_csrStep (hu.trapEnter c).clearPending
  · exact inv_csrStep (hu.exec hexec)

/-! ## The outcomes of a step -/

/-- The one code of MRET. -/
theorem code_of_decode_mret {c : Code} (h : decodeCode c = .ok .mret) : c = .word 0x30200073#32 :=
  (encodeInvertsDecode c .mret h).2.symm

theorem privOfCode_eq_none {c : BitVec 2} (h : privOfCode c = none) : c = 1 ∨ c = 2 := by
  revert c
  decide

theorem privOfCode_eq_some {c : BitVec 2} {p : Priv} (h : privOfCode c = some p) : c = p.code := by
  revert c
  cases p <;> decide

/-- Settles O10: the four shapes of an instruction, from the state the fetch leaves. -/
theorem stepIsTotal : Obligations.StepIsTotal := by
  intro s
  rcases step_cases s with ⟨c, hs⟩ | ⟨c, i, hf, hd, hs⟩
  · exact .inl ⟨_, hs⟩
  · have hfetch := onlyMemory_fetch s
    have hshape := exec_shape i (fetch s).2
    generalize exec i (fetch s).2 = r at hs hshape
    cases hshape with
    | ran => exact .inl ⟨_, hs⟩
    | trapped => exact .inl ⟨_, hs⟩
    | halted _ _ hhalt => exact .inr (.inl ⟨_, _, hs, hhalt.after hfetch.asks⟩)
    | mret hi hp =>
      subst hi
      unfold trapMret at hs
      split at hs
      · exact .inl ⟨_, hs⟩
      · next hmpp =>
        obtain ⟨_, _, hu⟩ := hfetch.eq
        rw [hu] at hp hmpp
        exact .inr (.inr ⟨hs, hp, hf.trans (congrArg some (code_of_decode_mret hd)), privOfCode_eq_none hmpp⟩)

/-- Settles O11: a halt ends a store, which by then has changed memory alone. -/
theorem hostHaltCommitsNothing : Obligations.HostHaltCommitsNothing := by
  intro s f code h
  rcases step_cases s with ⟨c, hs⟩ | ⟨c, i, -, -, hs⟩
  · rw [hs] at h
    cases h
  · have hshape := exec_shape i (fetch s).2
    generalize exec i (fetch s).2 = r at hs hshape
    rw [hs] at h
    cases hshape with
    | ran => cases h
    | trapped => cases h
    | halted ho =>
      cases h
      obtain ⟨hregs, hsystem, hpc⟩ := ((onlyMemory_fetch s).trans ho).keeps
      exact ⟨hregs, hpc, hsystem⟩
    | mret =>
      unfold trapMret at h
      split at h <;> cases h

/-! ## The counters -/

/-- The two halves of a counter that the step's write does not target are the next count (R59). -/
theorem nextCount_append (inhibit : Bool) (hi lo : Word) :
    ((nextCount inhibit hi lo).extractLsb' 32 32 ++ (nextCount inhibit hi lo).extractLsb' 0 32 : BitVec 64)
      = (hi ++ lo : BitVec 64) + if inhibit then 0 else 1 := by
  have hjoin : ((nextCount inhibit hi lo).extractLsb' 32 32 ++ (nextCount inhibit hi lo).extractLsb' 0 32 : BitVec 64)
      = nextCount inhibit hi lo :=
    (BitVec.extractLsb'_append_extractLsb'_eq_extractLsb' rfl).trans BitVec.extractLsb'_eq_self
  rw [hjoin]
  cases inhibit
  · rfl
  · exact (BitVec.add_zero _).symm

/-- Before `csr_step` the counters are as before the step, and a write is pending only where the step runs, in M-mode, a CSR
instruction with that target. -/
theorem step_next_counters {s t : State} (hp : s.pending = none) (h : step s = .next t) : ∃ u, t = csrStep u
    ∧ (u.mcycle = s.mcycle ∧ u.mcycleh = s.mcycleh ∧ u.minstret = s.minstret ∧ u.minstreth = s.minstreth
      ∧ u.mcountinhibit = s.mcountinhibit)
    ∧ ∀ a, u.pendingAt a = true →
      s.priv = .M ∧ ∃ c i, (fetch s).1 = some c ∧ decodeCode c = .ok i ∧ csrTarget i = some a := by
  obtain ⟨mem, hfetch, -⟩ := fetch_eq s
  obtain ⟨u, rfl, ⟨c, rfl⟩ | ⟨c, i, hf, hd, hexec⟩⟩ := step_next_cases h <;> refine ⟨_, rfl, ?_, fun a ha => ?_⟩
  · rw [hfetch]
    exact ⟨rfl, rfl, rfl, rfl, rfl⟩
  · rw [hfetch] at ha
    simp [State.pendingAt, hp] at ha
  · have hcounters := exec_next_counters hexec
    rw [hfetch] at hcounters
    exact hcounters
  · obtain ⟨v, hv⟩ := (pendingAt_iff u a).1 ha
    rcases exec_next_pending hexec with hkept | ⟨hpriv, b, w, htarget, hstaged⟩
    · rw [hfetch, hv] at hkept
      simp [hp] at hkept
    · rw [hfetch] at hpriv
      rw [hv] at hstaged
      cases hstaged
      exact ⟨hpriv, c, i, hf, hd, htarget⟩

/-- Settles O12: no instruction changes a counter, and `csr_step` gives each untargeted half its half of the next count. -/
theorem countersAdvanceEveryStep : Obligations.CountersAdvanceEveryStep := by
  intro s t hp h writes
  obtain ⟨u, rfl, ⟨hcycle, hcycleh, hinstret, hinstreth, hinhibit⟩, htarget⟩ := step_next_counters hp h
  have untargeted {lo hi : CsrAddr} (hw : ¬ writes lo hi) : u.pendingAt lo = false ∧ u.pendingAt hi = false := by
    refine ⟨Bool.eq_false_iff.2 fun ha => hw ?_, Bool.eq_false_iff.2 fun ha => hw ?_⟩ <;>
      obtain ⟨hpriv, c, i, hf, hd, ht⟩ := htarget _ ha
    · exact ⟨hpriv, c, i, hf, hd, .inl ht⟩
    · exact ⟨hpriv, c, i, hf, hd, .inr ht⟩
  constructor <;> intro hw <;> obtain ⟨hlo, hhi⟩ := untargeted hw
  · have hlow := csrStep_csrValue (r := .mcycle) hlo
    have hhigh := csrStep_csrValue (r := .mcycleh) hhi
    simp only [State.csrValue, State.nextCsrValue, hcycle, hcycleh, hinhibit] at hlow hhigh
    rw [hlow, hhigh, nextCount_append]
  · have hlow := csrStep_csrValue (r := .minstret) hlo
    have hhigh := csrStep_csrValue (r := .minstreth) hhi
    simp only [State.csrValue, State.nextCsrValue, hinstret, hinstreth, hinhibit] at hlow hhigh
    rw [hlow, hhigh, nextCount_append]

/-! ## RAM, privilege, CSRs, the reservation, traps -/

theorem ne_cmPush_of_not_isStoreInstr {i : Instr} (h : isStoreInstr i = false) (rlist : BitVec 4) (spimm : BitVec 2) :
    i ≠ .cmPush rlist spimm := by
  rintro rfl
  cases h

/-- Settles O18: the three ways to a next state each leave RAM alone but for a store. -/
theorem onlyStoresWriteRam : Obligations.OnlyStoresWriteRam := by
  intro i s t hi h a
  rcases exec_next_cases h with hran | ⟨c, u, hfaulted, rfl⟩ | ⟨-, -, p, -, rfl⟩
  · rw [hran.ram hi]
  · rw [trapEnter_ram, hfaulted.ram (ne_cmPush_of_not_isStoreInstr hi)]
  · rfl

/-- After a step that ends with a trap from `u`, with no CSR write pending, `csr_step` has left the trap's effects. -/
theorem csrStep_trapEnter {u : State} (hp : u.pending = none) (c : Cause) :
    let t := csrStep (trapEnter c.code u)
    t.mepc = u.pc ∧ t.pc = u.mtvec &&& 0xFFFFFFFE#32 ∧ t.mstatus.extractLsb' 11 2 = u.priv.code ∧ t.mcause = c.code := by
  have hnone : ∀ a, (trapEnter c.code u).pendingAt a = false := fun a => by simp [State.pendingAt, hp]
  refine ⟨csrStep_csrValue (r := .mepc) (hnone _), ?_, ?_, csrStep_csrValue (r := .mcause) (hnone _)⟩
  · rw [csrStep_pc, trapEnter_pc, trapTarget_code, clearBit0]
  · have hstatus : (csrStep (trapEnter c.code u)).mstatus = trapStatus u.mstatus u.priv :=
      csrStep_csrValue (r := .mstatus) (hnone _)
    rw [hstatus, trapStatus_mpp]

/-- Settles O19: of the ways a step ends, a trap alone enters M-mode from U-mode, and MRET alone goes the other way. -/
theorem privilegeChangesByTrapOrMret : Obligations.PrivilegeChangesByTrapOrMret := by
  intro s t hp h
  obtain ⟨mem, hfetch, -⟩ := fetch_eq s
  obtain ⟨u, rfl, hu⟩ := step_next_cases h
  rw [csrStep_priv]
  rw [hfetch] at hu
  constructor
  case left =>
    intro hU hM
    have trap (c : Cause) {v : State} (hv : v.pending = none ∧ v.pc = s.pc ∧ v.mtvec = s.mtvec ∧ v.priv = s.priv) :
        let t := csrStep (trapEnter c.code v)
        t.mepc = s.pc ∧ t.pc = s.mtvec &&& 0xFFFFFFFE#32 ∧ t.mstatus.extractLsb' 11 2 = 0
          ∧ ∃ c : Cause, t.mcause = c.code := by
      obtain ⟨hpending, hpc, hmtvec, hpriv⟩ := hv
      obtain ⟨hepc, htarget, hmpp, hcause⟩ := csrStep_trapEnter hpending c
      rw [hpc] at hepc
      rw [hmtvec] at htarget
      rw [hpriv, hU] at hmpp
      exact ⟨hepc, htarget, hmpp, c, hcause⟩
    rcases hu with ⟨c, rfl⟩ | ⟨c, i, -, -, hexec⟩
    · exact trap c ⟨hp, rfl, rfl, rfl⟩
    · rcases exec_next_cases hexec with hran | ⟨c, v, hfaulted, rfl⟩ | ⟨-, hpriv, -⟩
      · obtain ⟨_, _, _, _, _, _, rfl⟩ := hran.eq
        exact absurd (hU.symm.trans hM) (by decide)
      · obtain ⟨_, _, _, _, rfl⟩ := hfaulted.eq
        exact trap c ⟨hp, rfl, rfl, rfl⟩
      · exact absurd (hU.symm.trans hpriv) (by decide)
  case right =>
    intro hM hU
    rcases hu with ⟨c, rfl⟩ | ⟨c, i, hf, hd, hexec⟩
    · cases hU
    · rcases exec_next_cases hexec with hran | ⟨c, v, -, rfl⟩ | ⟨rfl, -, p, hmpp, rfl⟩
      · obtain ⟨_, _, _, _, _, _, rfl⟩ := hran.eq
        exact absurd (hM.symm.trans hU) (by decide)
      · cases hU
      · cases hU
        exact ⟨hf.trans (congrArg some (code_of_decode_mret hd)), privOfCode_eq_some hmpp, csrStep_pc _⟩

/-- Settles O20: an instruction that stays in U-mode ran, and its write would have needed M-mode. -/
theorem userModeCannotChangeCsrs : Obligations.UserModeCannotChangeCsrs := by
  intro i s t hU h htU
  rcases exec_next_cases h with hran | ⟨c, u, -, rfl⟩ | ⟨-, hM, -⟩
  · have hpending := hran.pending.resolve_right fun ⟨hM, _⟩ => absurd (hU.symm.trans hM) (by decide)
    obtain ⟨_, _, _, _, _, _, rfl⟩ := hran.eq
    exact ⟨fun c => by cases c <;> rfl, hpending⟩
  · cases htU
  · exact absurd (hU.symm.trans hM) (by decide)

/-- Settles O21: an instruction that ran says which it is; a trap and an MRET leave the flag. -/
theorem onlyLrAndScChangeReservation : Obligations.OnlyLrAndScChangeReservation := by
  intro i s t h
  rcases exec_next_cases h with hran | ⟨c, u, hfaulted, rfl⟩ | ⟨-, -, p, -, rfl⟩
  · exact hran.reserved
  · obtain ⟨_, _, _, _, rfl⟩ := hfaulted.eq
    exact .inl rfl
  · exact .inl rfl

/-- Settles O22: an instruction that ran, and MRET, leave the trap CSRs; one that faulted did what its fault allows and then
entered the trap. -/
theorem trapsArePrecise : Obligations.TrapsArePrecise := by
  intro i s t h
  rcases exec_next_cases h with hran | ⟨c, u, hfaulted, rfl⟩ | ⟨rfl, -, p, -, rfl⟩
  · obtain ⟨_, _, _, _, _, _, rfl⟩ := hran.eq
    exact .inl ⟨rfl, rfl, fun _ => ⟨rfl, rfl⟩⟩
  · obtain ⟨halign, hfault⟩ := hfaulted.cause
    have hregs (hi : isPopInstr i = false) : KeepsRegs s (trapEnter c.code u) :=
      readReg_congr (hfaulted.regs hi).1
    have hram (hi : ∀ rlist spimm, i ≠ .cmPush rlist spimm) : KeepsRam s (trapEnter c.code u) :=
      fun a => by rw [trapEnter_ram, hfaulted.ram hi]
    have trap := trapped_trapEnter c u
    obtain ⟨_, _, _, _, rfl⟩ := hfaulted.eq
    refine .inr ⟨c, halign, hfault, rfl, rfl, rfl, trap.pc, trapStatus_mpp _ _, rfl, rfl, rfl, ?_, hregs, hram⟩
    intro r h1 h2 h3
    exact (trap.csrs r h1 h2 h3).trans (by cases r <;> rfl)
  · exact .inl ⟨rfl, rfl, fun hne => absurd rfl hne⟩

end Sys2Proof.Machine
end

section
/-!
PROOFS. The fetch (R93): what it delivers from the answers to its two reads, in order; the steps it starts (R551), from RAM and
from MEM; and the instruction placed for it (log entry 6).
-/

namespace Sys2Proof.Machine

/-! ## The fetch from the answers to its two reads -/

/-- The length rule on the word a read of a halfword gives (R120). -/
theorem isLowHalf_extract_iff (l : Word) : isLowHalf (l.extractLsb' 0 16) = true ↔ l.extractLsb' 0 2 = 3#2 := by
  rw [isLowHalf, beq_iff_eq, extractLsb'_extractLsb'_of_le l 0 (by decide)]

section Reads

variable {s u w : State} {lo hi : Option Word} (hlo : s.memRead .half s.pc = (lo, u))
  (hhi : u.memRead .half (s.pc + 2#32) = (hi, w))
include hlo hhi

theorem fetch_of_low_missing (h : lo = none) : fetch s = (none, w) := by
  subst h
  simp only [fetch, hlo, hhi]

theorem fetch_of_high_missing {l : Word} (h : lo = some l) (hl : l.extractLsb' 0 2 = 3#2) (hn : hi = none) :
    fetch s = (none, w) := by
  subst h hn
  simp only [fetch, hlo, hhi, (isLowHalf_extract_iff l).2 hl, if_true]

theorem fetch_word {l h : Word} (hsome : lo = some l) (hl : l.extractLsb' 0 2 = 3#2) (hh : hi = some h) :
    fetch s = (some (.word (h.extractLsb' 0 16 ++ l.extractLsb' 0 16)), w) := by
  subst hsome hh
  simp only [fetch, hlo, hhi, (isLowHalf_extract_iff l).2 hl, if_true]

theorem fetch_half {l : Word} (hsome : lo = some l) (hl : l.extractLsb' 0 2 ≠ 3#2) :
    fetch s = (some (.half (l.extractLsb' 0 16)), w) := by
  subst hsome
  simp only [fetch, hlo, hhi, mt (isLowHalf_extract_iff l).1 hl, if_false, Bool.false_eq_true]

/-- When both halfwords are read, the fetch delivers the code they hold (R82, R93). -/
theorem fetch_ofHalves {l h : Word} (hl : lo = some l) (hh : hi = some h) :
    fetch s = (some (Code.ofHalves (l.extractLsb' 0 16) (h.extractLsb' 0 16)), w) := by
  subst hl hh
  simp only [fetch, hlo, hhi, Code.ofHalves]
  split <;> rfl

end Reads

/-! ## The traps of a fetch and of an unmatched code -/

/-- A trap entered after accesses to memory is a trap of the state before them, memory being as the accesses left it. -/
theorem trapEnter_of_onlyMemory {s u : State} (h : OnlyMemory s u) (hram : u.ram = s.ram) (c : Cause) :
    Trapped c s (trapEnter c.code u) ∧ KeepsRam s (trapEnter c.code u) ∧ (trapEnter c.code u).mem = u.mem
      ∧ (trapEnter c.code u).freeCount = s.freeCount := by
  have htrap := trapped_trapEnter c u
  have hkeeps : KeepsRam s (trapEnter c.code u) := fun a => by rw [trapEnter_ram, hram]
  obtain ⟨_, _, rfl⟩ := h.eq
  refine ⟨⟨fun _ => rfl, rfl, rfl, rfl, rfl, htrap.pc, htrap.mstatus, ?_, rfl, rfl⟩, hkeeps, rfl, rfl⟩
  intro r h1 h2 h3
  exact (htrap.csrs r h1 h2 h3).trans (by cases r <;> rfl)

theorem fetch_ram (s : State) : (fetch s).2.ram = s.ram := by
  obtain ⟨_, hu, -⟩ := fetch_eq s
  rw [hu]

/-- Settles O7: the fetch by the answers to its reads; where it fails, the step is the trap from the state they leave. -/
theorem fetchReadsTwoHalfwords : Obligations.FetchReadsTwoHalfwords := by
  intro s u w lo hi hlo hhi
  have fault (h : fetch s = (none, w)) :
      ∃ t, step s = .next (csrStep t) ∧ Trapped .instrFault s t ∧ KeepsRam s t ∧ t.mem = w.mem := by
    obtain ⟨htrap, hram, hmem, -⟩ := trapEnter_of_onlyMemory (onlyMemory_fetch s) (fetch_ram s) .instrFault
    refine ⟨_, step_of_fetch_none (congrArg Prod.fst h), htrap, hram, hmem.trans ?_⟩
    rw [h]
  exact ⟨fun h => fault (fetch_of_low_missing hlo hhi h), fun l h hl hn => fault (fetch_of_high_missing hlo hhi h hl hn),
    fun l h hs hl hh => fetch_word hlo hhi hs hl hh, fun l hs hl => fetch_half hlo hhi hs hl⟩

/-- Settles O8: the step is the trap from the state the fetch leaves. -/
theorem unmatchedCodeTraps : Obligations.UnmatchedCodeTraps := by
  intro s u c e hf hd
  have hstep := step_of_decode_error (congrArg Prod.fst hf) hd
  have htrap := trapEnter_of_onlyMemory (onlyMemory_fetch s) (fetch_ram s) .instrIllegal
  rw [hf] at hstep htrap
  exact ⟨_, hstep, htrap⟩

/-! ## The step in the bytes of RAM -/

/-- Two bytes are decoded where they are no low half of a 32-bit code (R120). -/
theorem decode_two {b0 b1 : Byte} {i : Instr} (h : decode [b0, b1] = .ok (i, [])) :
    isLowHalf (b1 ++ b0) = false ∧ decodeCode (.half (b1 ++ b0)) = .ok i := by
  simp only [decode] at h
  split at h
  · cases h
  · next hl =>
    refine ⟨Bool.eq_false_iff.2 hl, ?_⟩
    split at h
    · next hi =>
      cases h
      exact hi
    · cases h

/-- Four bytes are decoded as the code that their two halfwords hold (R82, R120). -/
theorem decode_four {b0 b1 b2 b3 : Byte} {i : Instr} {rest : List Byte} (h : decode [b0, b1, b2, b3] = .ok (i, rest)) :
    decodeCode (Code.ofHalves (b1 ++ b0) (b3 ++ b2)) = .ok i := by
  simp only [decode] at h
  rw [Code.ofHalves]
  split at h <;> split at h
  · next hl _ _ hi =>
    cases h
    rw [if_pos hl, hi]
  · cases h
  · next hl _ _ hi =>
    cases h
    rw [if_neg hl, hi]
  · cases h

/-- The halfword of a read in RAM is its two bytes, least significant first (R81). -/
theorem extractLsb'_ramRead_half (m : Memory) (a : Nat) :
    (ramRead m .half a).extractLsb' 0 16 = m.read (a + 1) ++ m.read a := by
  rw [ramRead, BitVec.extractLsb'_setWidth_of_le (by decide), BitVec.extractLsb'_eq_self]

/-- Settles O6: a step at a code that decodes is `step_of_decode_ok`; the codes of the two clauses on RAM are those of the bytes. -/
theorem stepRunsDecodedInstruction : Obligations.StepRunsDecodedInstruction := by
  unfold Obligations.StepRunsDecodedInstruction
  intro finish
  have finish_eq (r : Result) : endStep r = finish r := by cases r <;> rfl
  have run (s u : State) (c : Code) (i : Instr) (hf : fetch s = (some c, u)) (hd : decodeCode c = .ok i) :
      step s = finish (exec i u) := by
    rw [step_of_decode_ok (congrArg Prod.fst hf) hd, hf, finish_eq]
  refine ⟨run, fun s i rest hpc hpc2 hd => ?four, fun s i hpc hpc2 hd => ?two⟩
  case four =>
    refine run s s _ i (fetch_ofHalves (s.memRead_inside .half hpc) (s.memRead_inside .half hpc2) rfl rfl) ?_
    rw [extractLsb'_ramRead_half, extractLsb'_ramRead_half]
    exact decode_four hd
  case two =>
    obtain ⟨hl, hi⟩ := decode_two hd
    have hlow := extractLsb'_ramRead_half s.ram s.pc.toNat
    refine run s _ _ i (fetch_half (s.memRead_inside .half hpc) rfl rfl ?_) (hlow ▸ hi)
    intro h3
    rw [← isLowHalf_extract_iff, hlow, hl] at h3
    cases h3

/-! ## The instruction placed for the next fetch -/

/-- What a read of a halfword finds: in the window the bytes of RAM, outside it the answer that MEM lists under the history so far. -/
structure HoldsHalf (s : State) (a : Word) (h : Half) : Prop where
  ram : s.inRam a = true → ramRead s.ram .half a.toNat = h.setWidth 32
  mem : s.inRam a = false → s.mem.reads.lookup (.read .half a :: s.mem.calls) = some (some (h.setWidth 32))

theorem cut_half_setWidth (h : Half) : Width.half.cut (h.setWidth 32) = h.setWidth 32 := by
  rw [Width.cut, BitVec.extractLsb'_setWidth_of_le (by decide), BitVec.extractLsb'_eq_self]

theorem extractLsb'_setWidth_half (h : Half) : (h.setWidth 32).extractLsb' 0 16 = h := by
  rw [BitVec.extractLsb'_setWidth_of_le (by decide), BitVec.extractLsb'_eq_self]

theorem HoldsHalf.memRead {s : State} {a : Word} {h : Half} (hs : HoldsHalf s a h) :
    (s.memRead .half a).1 = some (h.setWidth 32) := by
  cases hin : s.inRam a with
  | true => rw [State.memRead_inside .half hin, hs.ram hin]
  | false =>
    rw [State.memRead_outside .half hin, MemPort.read, MemPort.readAnswer_listed (hs.mem hin), Option.map_some,
      cut_half_setWidth]

/-- A halfword placed under the history so far is what a read of it finds. -/
theorem holdsHalf_placeHalf {s : State} (hwf : s.ram.wf = true) (a : Word) (h : Half) :
    HoldsHalf (placeHalf s s.mem.calls a h) a h := by
  unfold placeHalf
  split
  case isTrue hin =>
    refine ⟨fun _ => ?_, fun hout => absurd hin (Bool.eq_false_iff.1 hout)⟩
    rw [ramRead_ramWrite _ _ _ _ hwf, cut_half_setWidth]
  case isFalse hin => exact ⟨fun h => absurd h hin, fun _ => List.lookup_cons_self⟩

/-- A halfword placed elsewhere, in RAM or under another history, does not change what a read finds. -/
theorem HoldsHalf.placeHalf {s : State} {a b : Word} {h : Half} (hs : HoldsHalf s a h) (g : Half) (before : List MemCall)
    (hab : a.toNat + 2 ≤ b.toNat ∨ b.toNat + 2 ≤ a.toNat) : HoldsHalf (placeHalf s before b g) a h := by
  have hne : MemCall.read .half a :: s.mem.calls ≠ .read .half b :: before := by
    intro heq
    cases heq
    omega
  unfold Machine.placeHalf
  split
  case isTrue =>
    refine ⟨fun hin => ?_, hs.mem⟩
    rw [ramRead_ramWrite_ne _ _ _ _ _ _ hab, hs.ram hin]
  case isFalse =>
    refine ⟨hs.ram, fun hout => ?_⟩
    rw [List.lookup_cons, beq_eq_false_iff_ne.2 hne]
    exact hs.mem hout

/-- The two halfwords of a fetch do not overlap, also where `pc + 2` wraps. -/
theorem fetch_halves_disjoint (pc : Word) :
    (pc + 2#32).toNat + 2 ≤ pc.toNat ∨ pc.toNat + 2 ≤ (pc + 2#32).toNat := by
  have := pc.isLt
  rw [BitVec.toNat_add]
  simp
  omega

/-- The fetch delivers the halfwords that its reads find, the second of them after the read of the first. -/
theorem fetch_of_holdsHalf {s : State} {lo hi : Half} (hlo : HoldsHalf s s.pc lo)
    (hhi : HoldsHalf (s.memRead .half s.pc).2 (s.pc + 2#32) hi) : (fetch s).1 = some (Code.ofHalves lo hi) := by
  rw [fetch_ofHalves rfl rfl hlo.memRead hhi.memRead, extractLsb'_setWidth_half, extractLsb'_setWidth_half]

theorem placeHalf_calls (s : State) (before : List MemCall) (a : Word) (h : Half) :
    (placeHalf s before a h).mem.calls = s.mem.calls := by
  unfold placeHalf
  split <;> rfl

theorem placeHalf_inRam (s : State) (before : List MemCall) (a : Word) (h : Half) (b : Word) :
    (placeHalf s before a h).inRam b = s.inRam b := by
  unfold placeHalf
  split <;> rfl

theorem placeHalf_pc (s : State) (before : List MemCall) (a : Word) (h : Half) : (placeHalf s before a h).pc = s.pc := by
  unfold placeHalf
  split <;> rfl

theorem placeHalf_wf {s : State} (hwf : s.ram.wf = true) (before : List MemCall) (a : Word) (h : Half) :
    (placeHalf s before a h).ram.wf = true := by
  unfold placeHalf
  split
  · exact ramWrite_wf s.ram .half a.toNat (h.setWidth 32) hwf
  · exact hwf

/-- To place a halfword does not depend on the calls MEM has recorded. -/
theorem placeHalf_setCalls (s : State) (before calls : List MemCall) (a : Word) (h : Half) :
    placeHalf { s with mem.calls := calls } before a h = { placeHalf s before a h with mem.calls := calls } := by
  have hin : State.inRam { s with mem.calls := calls } a = s.inRam a := rfl
  simp only [placeHalf, hin]
  split <;> rfl

/-- A read changes no more than the calls MEM has recorded. -/
theorem memRead_snd (s : State) (n : Width) (a : Word) :
    (s.memRead n a).2 = { s with mem.calls := if s.inRam a then s.mem.calls else .read n a :: s.mem.calls } := by
  rw [State.memRead]
  split <;> rfl

/-- The low halfword is placed under the history so far, the high one under the history that the read of the low one leaves. -/
theorem fetch_placeCode {s : State} (hwf : s.ram.wf = true) (h : Half × Half) :
    (fetch (placeCode s h)).1 = some (Code.ofHalves h.1 h.2) := by
  have hpc : (placeCode s h).pc = s.pc := (placeHalf_pc ..).trans (placeHalf_pc ..)
  have hcalls : (placeCode s h).mem.calls = s.mem.calls := (placeHalf_calls ..).trans (placeHalf_calls ..)
  have hin : (placeCode s h).inRam s.pc = s.inRam s.pc := (placeHalf_inRam ..).trans (placeHalf_inRam ..)
  have hlow (asked : List MemCall) :
      HoldsHalf (placeHalf (placeHalf s asked (s.pc + 2#32) h.2) s.mem.calls s.pc h.1) s.pc h.1 := by
    rw [← placeHalf_calls s asked (s.pc + 2#32) h.2]
    exact holdsHalf_placeHalf (placeHalf_wf hwf ..) s.pc h.1
  have hhigh (asked : List MemCall) :
      HoldsHalf { placeHalf (placeHalf s asked (s.pc + 2#32) h.2) s.mem.calls s.pc h.1 with mem.calls := asked }
        (s.pc + 2#32) h.2 := by
    rw [← placeHalf_setCalls, ← placeHalf_setCalls]
    exact (holdsHalf_placeHalf (s := { s with mem.calls := asked }) hwf _ h.2).placeHalf _ _ (fetch_halves_disjoint s.pc)
  refine fetch_of_holdsHalf (hpc ▸ hlow _) ?_
  rw [hpc, memRead_snd, hcalls, hin]
  exact hhigh _

/-- The halves of a 16-bit code are the code and 0 (R82). -/
theorem tableHalves_half (c : Half) : tableHalves 16 c.toNat = (c, 0#16) := by
  have hlt := c.isLt
  rw [tableHalves, Nat.mod_eq_of_lt hlt]
  refine Prod.ext ?_ ?_ <;> apply BitVec.eq_of_toNat_eq <;> simp <;> omega

theorem tableHalves_word (w : Word) : tableHalves 32 w.toNat = (w.extractLsb' 0 16, w.extractLsb' 16 16) := by
  rw [tableHalves, Nat.mod_eq_of_lt w.isLt, BitVec.ofNat_toNat, BitVec.setWidth_eq]

theorem placeHalf_eq (s : State) (before : List MemCall) (a : Word) (h : Half) :
    ∃ ram mem, placeHalf s before a h = { s with ram, mem } := by
  unfold placeHalf
  split <;> exact ⟨_, _, rfl⟩

/-- To place an instruction changes nothing but memory. -/
theorem placeCode_keeps (s : State) (h : Half × Half) :
    KeepsRegs s (placeCode s h) ∧ KeepsSystem s (placeCode s h) ∧ (placeCode s h).pc = s.pc := by
  simp only [placeCode]
  generalize (if s.inRam s.pc then s.mem.calls else .read .half s.pc :: s.mem.calls) = asked
  obtain ⟨ram, mem, h1⟩ := placeHalf_eq s asked (s.pc + 2#32) h.2
  rw [h1]
  obtain ⟨_, _, h2⟩ := placeHalf_eq { s with ram, mem } s.mem.calls s.pc h.1
  rw [h2]
  exact ⟨fun _ => rfl, ⟨⟨rfl, fun r => by cases r <;> rfl, rfl, rfl, rfl⟩, rfl⟩, rfl⟩

theorem ofHalves_of_low {lo hi : Half} (h : isLowHalf lo = true) : Code.ofHalves lo hi = .word (hi ++ lo) := if_pos h

theorem ofHalves_of_not_low {lo hi : Half} (h : isLowHalf lo = false) : Code.ofHalves lo hi = .half lo :=
  if_neg (Bool.eq_false_iff.1 h)

/-- Settles O9: the halves placed are those of the code, and its length rule gives the code back from them. -/
theorem placedInstructionIsFetched : Obligations.PlacedInstructionIsFetched := by
  unfold Obligations.PlacedInstructionIsFetched
  intro s i hinv hwf
  have hdecode := decodeInvertsEncode i hwf
  have placed (nbits w : Nat) (c : Code) (hc : Code.ofHalves (tableHalves nbits w).1 (tableHalves nbits w).2 = c) :
      (fetch (s.withFetchWord nbits w)).1 = some c ∧ KeepsRegs s (s.withFetchWord nbits w)
        ∧ KeepsSystem s (s.withFetchWord nbits w) ∧ (s.withFetchWord nbits w).pc = s.pc :=
    ⟨hc ▸ fetch_placeCode hinv.ramForm (tableHalves nbits w), placeCode_keeps s _⟩
  cases hi : encode i with
  | half c =>
    rw [hi, decodeCode_half_eq_ok] at hdecode
    refine placed 16 c.toNat (.half c) ?_
    rw [tableHalves_half]
    exact ofHalves_of_not_low (isLowHalf_of_decode16 hdecode)
  | word w =>
    rw [hi, decodeCode_word_eq_ok] at hdecode
    refine placed 32 w.toNat (.word w) ?_
    rw [tableHalves_word, ofHalves_of_low (isLowHalf_of_decode32 hdecode)]
    exact congrArg Code.word ((BitVec.extractLsb'_append_extractLsb'_eq_extractLsb' rfl).trans BitVec.extractLsb'_eq_self)

end Sys2Proof.Machine
end

section
/-!
PROOFS. The CSRs: the spec's two tables as the model's CSR file (R41), `csr_read` and `csr_write` by them (R50, R51), and the six CSR
instructions case by case (R351 to R361), with what the end of the step makes of their write (R59, R362).
-/

namespace Sys2Proof.Machine

/-! ## The tables -/

theorem csrTable_lookup_addr (s : State) (r : Csr) : (csrTable s).lookup r.addr = some (s.csrValue r) := by
  cases r <;> rfl

/-- Each address listed in a table of CSRs is one of the nineteen. -/
theorem lookup_eq_none_of_keys {l : List (CsrAddr × Word)} {a : CsrAddr} (hl : l.map Prod.fst ⊆ Csr.all.map Csr.addr)
    (ha : csrAt a = none) : l.lookup a = none := by
  refine List.lookup_eq_none_iff.2 fun p hp => ?_
  obtain ⟨r, -, hr⟩ := List.mem_map.1 (hl (List.mem_map_of_mem hp))
  refine bne_iff_ne.2 fun h => ?_
  rw [h, ← hr, csrAt_of_addr] at ha
  cases ha

/-- The spec's table of CSRs is the model's CSR file (R41). -/
theorem csrTable_lookup (s : State) (a : CsrAddr) : (csrTable s).lookup a = (csrAt a).map s.csrValue := by
  cases ha : csrAt a with
  | none => exact lookup_eq_none_of_keys (List.Subset.refl _) ha
  | some r =>
    rw [← csrAt_addr ha]
    exact csrTable_lookup_addr s r

/-- An address is writable as the spec's table of writable CSRs says (R51). -/
theorem writableTable_lookup_eq (a : CsrAddr) : writableTable.lookup a = (csrAt a).bind Csr.writeMask := by
  cases ha : csrAt a with
  | none => exact lookup_eq_none_of_keys (by decide) ha
  | some r =>
    rw [← csrAt_addr ha]
    exact writableTable_lookup r

/-- The gate compares address bits 9:8 with the mode (R50). -/
theorem csrGate_iff (a : CsrAddr) (p : Priv) : csrGate a p = true ↔ ¬ p.code.toNat < a.toNat / 256 % 4 := by
  rw [csrGate, decide_eq_true_iff, BitVec.extractLsb'_toNat, Nat.shiftRight_eq_div_pow, not_lt]

/-! ## `csr_read` and `csr_write` -/

/-- Settles O28: the gate and the table are the model's. -/
theorem csrReadGateAndTable : Obligations.CsrReadGateAndTable := by
  intro s a
  refine ⟨?_, (csrTable_lookup s a).symm⟩
  rw [State.csrRead, csrTable_lookup]
  by_cases hg : csrGate a s.priv = true
  · rw [if_pos hg, if_neg ((csrGate_iff a s.priv).1 hg)]
  · rw [if_neg hg, if_pos (not_not.1 (mt (csrGate_iff a s.priv).2 hg))]

theorem csrWrite_passes_iff (a : CsrAddr) (p : Priv) : (csrGate a p && csrWritable a) = true
    ↔ ¬ (p.code.toNat < a.toNat / 256 % 4 ∨ (writableTable.lookup a).isNone = true) := by
  rw [Bool.and_eq_true, csrGate_iff, csrWritable, writableTable_lookup_eq, not_or, Option.isNone_iff_eq_none,
    Option.isSome_iff_ne_none]

theorem csrRead_of_gate {s : State} {a : CsrAddr} (hg : csrGate a s.priv = true) :
    s.csrRead a = (csrTable s).lookup a := by
  rw [State.csrRead, if_pos hg, csrTable_lookup]

theorem csrTable_lookup_of_writable {a : CsrAddr} (hw : csrWritable a = true) (s : State) :
    ∃ old, (csrTable s).lookup a = some old := by
  rw [csrTable_lookup]
  cases ha : csrAt a with
  | none => simp [csrWritable, ha] at hw
  | some r => exact ⟨_, rfl⟩

/-- Settles O29: where the gate and the table let the write pass, the old value it uses is that of the table. -/
theorem csrWriteStagesOrFails : Obligations.CsrWriteStagesOrFails := by
  intro s a data op
  have hiff := csrWrite_passes_iff a s.priv
  unfold State.csrWrite
  by_cases hpass : (csrGate a s.priv && csrWritable a) = true
  case pos =>
    rw [if_pos hpass, if_neg (hiff.1 hpass)]
    obtain ⟨hg, hw⟩ := Bool.and_eq_true_iff.1 hpass
    obtain ⟨old, hold⟩ := csrTable_lookup_of_writable hw s
    rw [csrRead_of_gate hg, hold]
    cases op <;> rfl
  case neg => rw [if_neg hpass, if_pos (not_not.1 (mt hiff.2 hpass))]

/-- A read fails in U-mode and off the table (R50). -/
theorem csrRead_fails {s : State} {a : CsrAddr} (h : s.priv = .U ∨ ((csrTable s).lookup a).isNone = true) :
    s.csrRead a = none := by
  rcases h with hu | hnone
  · exact State.csrRead_user hu
  · rw [(csrReadGateAndTable s a).1, Option.isNone_iff_eq_none.1 hnone, ite_self]

/-- A write fails in U-mode and off the table of writable CSRs (R51). -/
theorem csrWrite_fails {s : State} {a : CsrAddr} (h : s.priv = .U ∨ (writableTable.lookup a).isNone = true) (data : Word)
    (op : CsrOp) : s.csrWrite a data op = none := by
  rcases h with hu | hnone
  · exact State.csrWrite_user hu
  · rw [csrWriteStagesOrFails, if_pos (.inr hnone)]

/-! ## The six instructions, by their tests (R351) -/

section Forms

variable {s : State} {op : CsrOp} {imm : Bool} {rd : Reg} {a : CsrAddr} {src : Word} {field : BitVec 5}

theorem csrInstr_of_write_fails (hw : op = .write ∨ field ≠ 0) (h : s.csrWrite a src op = none) :
    csrInstr op imm rd a src field s = raise .instrIllegal s := by
  have hdo : (!(op != .write && field == 0)) = true := by simpa using hw
  simp only [csrInstr, hdo, if_true, h, ite_self]

theorem csrInstr_of_read_fails (hop : op ≠ .write) (h : s.csrRead a = none)
    (hpolicy : imm = false ∨ s.cfg.csrImmReadFail = .illegal) :
    csrInstr op imm rd a src field s = raise .instrIllegal s := by
  have hloud : (!(imm && s.cfg.csrImmReadFail == .silent)) = true := by rcases hpolicy with rfl | hp <;> simp [*]
  simp [csrInstr, hop, h, hloud]

theorem csrInstr_of_silent_read (hop : op ≠ .write) (h : s.csrRead a = none) (hpolicy : s.cfg.csrImmReadFail = .silent) :
    csrInstr op true rd a src 0 s = .next (s.advance ilen32) := by
  simp [csrInstr, hop, h, hpolicy]

theorem csrInstr_of_pure_read (hop : op ≠ .write) {old : Word} (h : s.csrRead a = some old) :
    csrInstr op imm rd a src 0 s = commitRd ilen32 rd old s := by
  simp [csrInstr, hop, h]

end Forms

/-- Settles O32: the form of each instruction says which of its accesses fails, and so which of the cases above it is. -/
theorem csrAccessFailuresTrap : Obligations.CsrAccessFailuresTrap := by
  intro s rd rs1 uimm csr
  refine ⟨fun hfail => ?writes, fun hfail => ?reads⟩
  case writes =>
    have traps {i : Instr} {op : CsrOp} {imm : Bool} {src : Word} {field : BitVec 5}
        (hexec : exec i s = csrInstr op imm rd csr src field s) (hw : op = .write ∨ field ≠ 0) : Traps i s .instrIllegal :=
      traps_of_raise i s _ (hexec.trans (csrInstr_of_write_fails hw (csrWrite_fails hfail src op)))
    exact ⟨traps rfl (.inl rfl), traps rfl (.inl rfl), fun h => ⟨traps rfl (.inr h), traps rfl (.inr h)⟩,
      fun h => ⟨traps rfl (.inr h), traps rfl (.inr h)⟩⟩
  case reads =>
    have hread := csrRead_fails hfail
    have traps {i : Instr} {op : CsrOp} {imm : Bool} {src : Word} {field : BitVec 5}
        (hexec : exec i s = csrInstr op imm rd csr src field s) (hop : op ≠ .write)
        (hpolicy : imm = false ∨ s.cfg.csrImmReadFail = .illegal) : Traps i s .instrIllegal :=
      traps_of_raise i s _ (hexec.trans (csrInstr_of_read_fails hop hread hpolicy))
    have passes {i : Instr} {op : CsrOp} (hexec : exec i s = csrInstr op true rd csr (uimm5 0) 0 s) (hop : op ≠ .write)
        (hpolicy : s.cfg.csrImmReadFail = .silent) :
        ∃ t, exec i s = .next t ∧ Moves (s.pc + 4#32) s t :=
      ⟨_, hexec.trans (csrInstr_of_silent_read hop hread hpolicy), moves_pc (s.pc + 4#32) s⟩
    have hset : CsrOp.set ≠ .write := nofun
    have hclear : CsrOp.clear ≠ .write := nofun
    exact ⟨traps rfl hset (.inl rfl), traps rfl hclear (.inl rfl),
      fun h => ⟨traps rfl hset (.inr h), traps rfl hclear (.inr h)⟩, fun h => ⟨passes rfl hset h, passes rfl hclear h⟩⟩

/-! ## What a completed CSR instruction leaves -/

/-- The state after a CSR instruction that stages `staged` and gives `v` to `x[rd]` (R351). -/
theorem csrDone_writeReg (s : State) (rd : Reg) (v : Word) (staged : Option (CsrAddr × Word)) :
    CsrDone rd (some v) staged s
      (({ s with pending := if staged.isSome then staged else s.pending }.writeReg rd v).advance ilen32) := by
  have hregs := readReg_writeReg { s with pending := if staged.isSome then staged else s.pending } rd (v := v)
  obtain ⟨x, hx, -⟩ := writeReg_eq { s with pending := if staged.isSome then staged else s.pending } rd v
  rw [hx] at hregs ⊢
  exact ⟨hregs, rfl, rfl, rfl, fun r => by cases r <;> rfl, rfl, rfl, rfl, ⟨fun _ => rfl, rfl⟩⟩

/-- What is written to register 0 is discarded (R22), as if nothing had been read. -/
theorem CsrDone.of_discarded {rd : Reg} {v : Word} {staged : Option (CsrAddr × Word)} {s t : State}
    (h : CsrDone rd (some v) staged s t) : CsrDone rd (if rd = 0 then none else some v) staged s t := by
  by_cases hrd : rd = 0
  case neg => rwa [if_neg hrd]
  case pos =>
    rw [if_pos hrd]
    exact { h with regs := fun r => (h.regs r).trans (if_neg fun hr => hr.2 (hr.1.trans hrd)) }

theorem decodeCode_system {csr : CsrAddr} {rs1 : Reg} {f3 : BitVec 3} {rd : Reg} {i : Instr}
    (h : decodeSystem (encI csr rs1 f3 rd 0b1110011#7) f3 rd rs1 csr = some i) :
    decodeCode (.word (csr ++ rs1 ++ f3 ++ rd ++ 0b1110011#7)) = .ok i :=
  decodeCode_word_of_some ((decode32_encI_system csr rs1 f3 rd).trans h)

theorem csrTable_lookup_eq_some {s : State} {a : CsrAddr} {v : Word} (h : (csrTable s).lookup a = some v) :
    ∃ r : Csr, r.addr = a ∧ s.csrValue r = v := by
  rw [csrTable_lookup] at h
  obtain ⟨r, hr, hv⟩ := Option.map_eq_some_iff.1 h
  exact ⟨r, csrAt_addr hr, hv⟩

/-- Settles O31: a form that writes is `csrInstr_machine`, one that does not is `csrInstr_of_pure_read`. -/
theorem csrInstructionsReadAndStage : Obligations.CsrInstructionsReadAndStage := by
  intro s rd rs1 uimm csr old hpriv hold a u writable
  obtain ⟨r, rfl, rfl⟩ := csrTable_lookup_eq_some hold
  have writes {i : Instr} (op : CsrOp) {imm : Bool} (src : Word) {field : BitVec 5} {f3 : BitVec 3}
      (hexec : exec i s = csrInstr op imm rd r.addr src field s) (hw : op = .write ∨ field ≠ 0)
      (hdecode : decodeSystem (encI r.addr field f3 rd 0b1110011#7) f3 rd field r.addr = some i) (h : writable) :
      Runs (.word (r.addr ++ field ++ f3 ++ rd ++ 0b1110011#7)) i s
        (CsrDone rd (some (s.csrValue r)) (some (r.addr, op.apply (s.csrValue r) src)) s) := by
    obtain ⟨m, hm⟩ := Option.isSome_iff_exists.1 h
    rw [writableTable_lookup] at hm
    exact ⟨decodeCode_system hdecode, _, hexec.trans (csrInstr_machine hpriv hm hw imm rd src), csrDone_writeReg ..⟩
  have reads {i : Instr} {op : CsrOp} {imm : Bool} {src : Word} {field : BitVec 5} {f3 : BitVec 3}
      (hexec : exec i s = csrInstr op imm rd r.addr src field s) (hop : op ≠ .write)
      (hdecode : decodeSystem (encI r.addr field f3 rd 0b1110011#7) f3 rd field r.addr = some i) (h : field = 0) :
      Runs (.word (r.addr ++ field ++ f3 ++ rd ++ 0b1110011#7)) i s (CsrDone rd (some (s.csrValue r)) none s) := by
    subst h
    exact ⟨decodeCode_system hdecode, _, hexec.trans (csrInstr_of_pure_read hop (State.csrRead_machine hpriv r)),
      csrDone_writeReg ..⟩
  have hset : CsrOp.set ≠ .write := nofun
  have hclear : CsrOp.clear ≠ .write := nofun
  exact ⟨fun h => (writes .write a rfl (.inl rfl) rfl h).imp fun _ => .of_discarded,
    fun hf => writes .set a rfl (.inr hf) rfl, reads rfl hset rfl,
    fun hf => writes .clear a rfl (.inr hf) rfl, reads rfl hclear rfl,
    fun h => (writes .write u rfl (.inl rfl) rfl h).imp fun _ => .of_discarded,
    fun hf => writes .set u rfl (.inr hf) rfl, reads rfl hset rfl,
    fun hf => writes .clear u rfl (.inr hf) rfl, reads rfl hclear rfl⟩

/-! ## The write at the end of its step -/

/-- What a CSR takes by the counters' increment depends on the CSRs alone. -/
theorem nextCsrValue_congr {s t : State} (h : ∀ r, t.csrValue r = s.csrValue r) (r : Csr) :
    t.nextCsrValue r = s.nextCsrValue r := by
  have hinhibit : t.mcountinhibit = s.mcountinhibit := by
    have hcut := congrArg (BitVec.setWidth 3) (h .mcountinhibit)
    rwa [State.csrValue, State.csrValue, BitVec.setWidth_setWidth_of_le _ (by decide),
      BitVec.setWidth_setWidth_of_le _ (by decide), BitVec.setWidth_eq, BitVec.setWidth_eq] at hcut
  have hcycle : t.mcycle = s.mcycle := h .mcycle
  have hcycleh : t.mcycleh = s.mcycleh := h .mcycleh
  have hinstret : t.minstret = s.minstret := h .minstret
  have hinstreth : t.minstreth = s.minstreth := h .minstreth
  cases r
  case mcycle | mcycleh | minstret | minstreth =>
    simp only [State.nextCsrValue, hinhibit, hcycle, hcycleh, hinstret, hinstreth]
  all_goals simp only [State.nextCsrValue, h]

/-- A CSR that the pending write does not target, after the step. -/
theorem csrStep_of_other_pending {s : State} {r q : Csr} {v : Word} (hp : s.pending = some (r.addr, v))
    (hne : r.addr ≠ q.addr) : (csrStep s).csrValue q = s.nextCsrValue q := by
  refine csrStep_csrValue ?_
  rw [State.pendingAt, hp]
  exact beq_eq_false_iff_ne.2 hne

/-- A form of CSR instruction that writes stages the new value (R352 to R357). -/
theorem exec_of_csrTarget {s : State} {i : Instr} {rd rs1 : Reg} {uimm : BitVec 5} {r : Csr} {m v : Word}
    (hpriv : s.priv = .M) (hm : r.writeMask = some m)
    (hforms : (i = .csrrw rd rs1 r.addr ∧ v = s.readReg rs1)
      ∨ (i = .csrrs rd rs1 r.addr ∧ rs1 ≠ 0 ∧ v = s.csrValue r ||| s.readReg rs1)
      ∨ (i = .csrrc rd rs1 r.addr ∧ rs1 ≠ 0 ∧ v = s.csrValue r &&& ~~~(s.readReg rs1))
      ∨ (i = .csrrwi rd uimm r.addr ∧ v = uimm.setWidth 32)
      ∨ (i = .csrrsi rd uimm r.addr ∧ uimm ≠ 0 ∧ v = s.csrValue r ||| uimm.setWidth 32)
      ∨ (i = .csrrci rd uimm r.addr ∧ uimm ≠ 0 ∧ v = s.csrValue r &&& ~~~(uimm.setWidth 32))) :
    ∃ t, exec i s = .next t ∧ CsrDone rd (some (s.csrValue r)) (some (r.addr, v)) s t := by
  have done {i : Instr} (op : CsrOp) {imm : Bool} (src : Word) {field : BitVec 5}
      (hexec : exec i s = csrInstr op imm rd r.addr src field s) (hw : op = .write ∨ field ≠ 0) :
      ∃ t, exec i s = .next t ∧ CsrDone rd (some (s.csrValue r)) (some (r.addr, op.apply (s.csrValue r) src)) s t :=
    ⟨_, hexec.trans (csrInstr_machine hpriv hm hw imm rd src), csrDone_writeReg ..⟩
  rcases hforms with ⟨rfl, rfl⟩ | ⟨rfl, h, rfl⟩ | ⟨rfl, h, rfl⟩ | ⟨rfl, rfl⟩ | ⟨rfl, h, rfl⟩ | ⟨rfl, h, rfl⟩
  · exact done .write _ rfl (.inl rfl)
  · exact done .set (s.readReg rs1) rfl (.inr h)
  · exact done .clear (s.readReg rs1) rfl (.inr h)
  · exact done .write _ rfl (.inl rfl)
  · exact done .set (uimm.setWidth 32) rfl (.inr h)
  · exact done .clear (uimm.setWidth 32) rfl (.inr h)

/-- Settles O33: the step ends with `csr_step` of the state in which the write is staged, and that leaves the target as
`csrStep_written` says, the other half of its counter as `csrStep_of_other_pending` says. -/
theorem csrWriteVisibleAfterItsStep : Obligations.CsrWriteVisibleAfterItsStep := by
  intro s u c i rd rs1 uimm r m v hpend hpriv hf hd hm hforms
  rw [writableTable_lookup] at hm
  obtain ⟨hregs, hsys, hpc⟩ := (onlyMemory_fetch s).keeps
  rw [hf] at hregs hsys hpc
  rw [← hregs rs1, ← hsys.csrs r] at hforms
  obtain ⟨t, hexec, hdone⟩ := exec_of_csrTarget (hsys.priv.trans hpriv) hm hforms
  have hstep : step s = .next (csrStep t) := by
    rw [step_of_decode_ok (congrArg Prod.fst hf) hd, hf, hexec]
    rfl
  have htarget := (csrStep_written hm hdone.pending).2
  have hother (q : Csr) (hne : r.addr ≠ q.addr) : (csrStep t).csrValue q = s.nextCsrValue q :=
    (csrStep_of_other_pending hdone.pending hne).trans
      (nextCsrValue_congr (fun c => (hdone.csrs c).trans (hsys.csrs c)) q)
  refine ⟨_, hstep, htarget, fun q => ?_, ?_, ?_, ?_, ?_, ?_⟩
  · rw [csrStep_readReg, hdone.regs q, hregs q, hsys.csrs r]
  · rw [csrStep_pc, hdone.pc, hpc]
  · rintro rfl
    exact (hother .mcycleh (by decide)).trans (nextCount_hi ..)
  · rintro rfl
    exact (hother .mcycle (by decide)).trans (nextCount_lo ..)
  · rintro rfl
    exact (hother .minstreth (by decide)).trans (nextCount_hi ..)
  · rintro rfl
    exact (hother .minstret (by decide)).trans (nextCount_lo ..)

end Sys2Proof.Machine
end

section
/-!
PROOFS. The law of division (R210), the fences under either policy (R375, R376), trap entry and the trap's target (R481, R490, R491),
the refusal of MRET (R496), the invariant at reset (R540), and the spec's own words (95_test_vectors.md).
-/

namespace Sys2Proof.Machine

/-! ## Division -/

/-- Quotient times divisor plus what the quotient leaves is the dividend, as words. -/
theorem ofInt_mul_add_sub (a b : Word) (q : Int) :
    BitVec.ofInt 32 q * b + BitVec.ofInt 32 (a.toInt - b.toInt * q) = a := by
  calc BitVec.ofInt 32 q * b + BitVec.ofInt 32 (a.toInt - b.toInt * q)
    _ = BitVec.ofInt 32 q * BitVec.ofInt 32 b.toInt + BitVec.ofInt 32 (a.toInt - b.toInt * q) := by rw [BitVec.ofInt_toInt]
    _ = BitVec.ofInt 32 (q * b.toInt + (a.toInt - b.toInt * q)) := by rw [BitVec.ofInt_add, BitVec.ofInt_mul]
    _ = BitVec.ofInt 32 a.toInt := congrArg _ (by ring)
    _ = a := BitVec.ofInt_toInt

/-- The overflow pair's quotient, which is the dividend, times -1 is the dividend modulo 2^32 (R206, R208). -/
theorem divSigned_mul_add_remSigned (a b : Word) (hb : b ≠ 0) : divSigned a b * b + remSigned a b = a := by
  have hb0 : b.toInt ≠ 0 := fun h => hb (BitVec.eq_of_toInt_eq h)
  rw [divSigned, remSigned, if_neg hb0, if_neg hb0]
  by_cases hover : a.toInt = -(2 ^ 31) ∧ b.toInt = -1
  case pos =>
    rw [if_pos hover, if_pos hover]
    obtain rfl : a = 0x80000000#32 := BitVec.eq_of_toInt_eq hover.1
    obtain rfl : b = 0xFFFFFFFF#32 := BitVec.eq_of_toInt_eq hover.2
    decide
  case neg =>
    rw [if_neg hover, if_neg hover]
    exact ofInt_mul_add_sub a b _

theorem divUnsigned_mul_add_remUnsigned (a b : Word) (hb : b ≠ 0) : divUnsigned a b * b + remUnsigned a b = a := by
  have hb0 : b.toNat ≠ 0 := fun h => hb (BitVec.eq_of_toNat_eq h)
  rw [divUnsigned, remUnsigned, if_neg hb0, if_neg hb0]
  calc BitVec.ofNat 32 (a.toNat / b.toNat) * b + BitVec.ofNat 32 (a.toNat % b.toNat)
    _ = BitVec.ofNat 32 (a.toNat / b.toNat) * BitVec.ofNat 32 b.toNat + BitVec.ofNat 32 (a.toNat % b.toNat) := by
      rw [BitVec.ofNat_toNat, BitVec.setWidth_eq]
    _ = BitVec.ofNat 32 (a.toNat / b.toNat * b.toNat + a.toNat % b.toNat) := by rw [BitVec.ofNat_add, BitVec.ofNat_mul]
    _ = BitVec.ofNat 32 a.toNat := by rw [Nat.div_add_mod']
    _ = a := by rw [BitVec.ofNat_toNat, BitVec.setWidth_eq]

/-- Settles O38: the four instructions commit the words of the two laws above. -/
theorem divisionLaw : Obligations.DivisionLaw := by
  intro s q r qu ru rd rs1 rs2 hrd hb hq hr hqu hru
  rw [readReg_of_commitRd hrd hq, readReg_of_commitRd hrd hr, readReg_of_commitRd hrd hqu, readReg_of_commitRd hrd hru]
  exact ⟨divSigned_mul_add_remSigned _ _ hb, divUnsigned_mul_add_remUnsigned _ _ hb⟩

/-! ## The fences -/

theorem miscMemOp_of_nop {s : State} (h : s.cfg.miscMem = .nop) : miscMemOp s = .next (s.advance ilen32) := by
  rw [miscMemOp, h]

theorem miscMemOp_of_illegal {s : State} (h : s.cfg.miscMem = .illegal) : miscMemOp s = raise .instrIllegal s := by
  rw [miscMemOp, h]

/-- Settles O46: both instructions are `miscMemOp`, whatever their fields. -/
theorem fencesPassOrTrap : Obligations.FencesPassOrTrap := by
  intro s fm pred succ rs1 rd imm
  refine ⟨fun h => ⟨?_, ?_⟩, fun h => ⟨?_, ?_⟩⟩
  · exact ⟨decodeCode_word_of_some (decode32_encFence ..), _, miscMemOp_of_nop h, moves_pc _ s⟩
  · exact ⟨decodeCode_word_of_some (decode32_encI_fenceI ..), _, miscMemOp_of_nop h, moves_pc _ s⟩
  · exact traps_of_raise _ _ _ (miscMemOp_of_illegal h)
  · exact traps_of_raise _ _ _ (miscMemOp_of_illegal h)

/-! ## Traps -/

/-- Settles O23: what `trapped_trapEnter` says, and the table of codes. -/
theorem trapEntryEffect : Obligations.TrapEntryEffect :=
  ⟨fun c s => ⟨_, rfl, trapped_trapEnter c s, ⟨fun _ => rfl, rfl⟩, rfl⟩, by decide⟩

theorem getLsbD_zero_iff (v : Word) : v.getLsbD 0 = true ↔ v.toNat % 2 = 1 := by
  rw [BitVec.getLsbD, Nat.testBit_zero, decide_eq_true_iff]

theorem clearBit0_toNat (v : Word) : (clearBit0 v).toNat = v.toNat - v.toNat % 2 := by
  have := v.isLt
  rw [clearBit0_eq_ofNat_sub, BitVec.toNat_ofNat, Nat.mod_eq_of_lt (by omega)]

theorem getLsbD_top_iff (v : Word) : v.getLsbD 31 = true ↔ 2 ^ 31 ≤ v.toNat := by
  rw [← BitVec.msb_eq_getLsbD_last]
  exact BitVec.msb_eq_true_iff_two_mul_ge.trans (by omega)

theorem clearTop_toNat (v : Word) : (v &&& 0x7FFFFFFF#32).toNat = v.toNat % 2 ^ 31 := by
  rw [BitVec.toNat_and]
  exact Nat.and_two_pow_sub_one_eq_mod v.toNat 31

/-- Settles O24: bit 0 of `mtvec` and bit 31 of the cause, as numbers, decide between the two forms of the target. -/
theorem trapTargetDirectOrVectored : Obligations.TrapTargetDirectOrVectored := by
  intro mtvec cause base
  refine ⟨fun hvec hint => ?vectored, fun hdirect => ?direct⟩
  case vectored =>
    have hcause := cause.isLt
    rw [trapTarget, (getLsbD_zero_iff mtvec).2 hvec, (getLsbD_top_iff cause).2 hint, Bool.and_self, if_pos rfl,
      BitVec.toNat_add, BitVec.toNat_mul, clearTop_toNat, clearBit0_toNat]
    change (base + 4 * (cause.toNat % 2 ^ 31) % 2 ^ 32) % 2 ^ 32 = _
    omega
  case direct =>
    have hneither : ¬ (mtvec.getLsbD 0 && cause.getLsbD 31) = true := by
      rw [Bool.and_eq_true, getLsbD_zero_iff, getLsbD_top_iff]
      omega
    rw [trapTarget, if_neg hneither, clearBit0_toNat]

/-! ## MRET with a reserved MPP -/

/-- Settles O26: in M-mode MPP is the code of a mode, to which `exec_mret_machine` returns, or one of the two other codes. -/
theorem mretRefusedExactlyOnReservedMpp : Obligations.MretRefusedExactlyOnReservedMpp := by
  intro s
  refine ⟨fun ⟨hpriv, hmpp⟩ => ?refused, fun h => ?answered⟩
  case refused =>
    have hnone : privOfCode (mppOf s.mstatus) = none := by
      rw [mppOf]
      rcases hmpp with h | h <;> rw [h] <;> rfl
    show execMret s = _
    rw [execMret, hpriv]
    show trapMret s = _
    rw [trapMret, hnone]
  case answered =>
    cases hpriv : s.priv with
    | U => exact ⟨_, exec_mret_user hpriv⟩
    | M =>
      rcases h with hu | h0 | h3
      · exact absurd (hpriv.symm.trans hu) (by decide)
      · exact ⟨_, exec_mret_machine (p := .U) hpriv h0⟩
      · exact ⟨_, exec_mret_machine (p := .M) hpriv h3⟩

/-! ## Reset -/

/-- The state right after reset meets the invariant, whatever parameters it takes. -/
theorem resetWith_inv (cfg : Config) (hc : cfg.wf = true) (ram : Memory) (hr : ram.wf = true)
    (hw : ram.within cfg.ramBase.toNat cfg.ramSize = true) (reads : List (List MemCall × Option Word))
    (writes : List (List MemCall × WriteReply)) (rest : MemRest) :
    (State.resetWith cfg hc ram hr hw reads writes rest).Inv where
  cfg := hc
  ramForm := hr
  ramWindow := hw
  zero := rfl
  pc := by
    have hcfg := hc
    simp only [Config.wf, Bool.and_eq_true, Bool.not_eq_true'] at hcfg
    obtain ⟨⟨⟨heven, -⟩, -⟩, -⟩ := hcfg
    exact heven
  mepc := BitVec.getLsbD_zero
  mtvec := BitVec.getLsbD_zero
  mcause := BitVec.zero_and
  pending := rfl

/-- Settles O14: reset with any parameters that meet their constraints does. -/
theorem resetMeetsInvariant : Obligations.ResetMeetsInvariant := resetWith_inv ..

/-! ## The words of the spec's vectors -/

/-- Settles O1: each word is evaluated. -/
theorem specWordsDecode : Obligations.SpecWordsDecode := by
  unfold Obligations.SpecWordsDecode
  decide

end Sys2Proof.Machine
end

section
/-!
PROOFS. Paired moves (R461, R462) and PUSH (R455, R456): the tables of R451 to R453, the stores of a PUSH one by one, and the bytes
they leave in RAM.
-/

namespace Sys2Proof.Machine

/-! ## Paired moves -/

/-- The register a selector names, as R453 computes it. -/
theorem sReg_eq (raw : ShortReg) : BitVec.ofNat 5 (raw.toNat + 8 + 8 * if raw.toNat < 2 then 0 else 1) = sReg raw := by
  revert raw
  decide

theorem sReg_ne_zero (raw : ShortReg) : sReg raw ≠ 0#5 := by
  revert raw
  decide

theorem sReg_injective {r1 r2 : ShortReg} (h : r1 ≠ r2) : sReg r1 ≠ sReg r2 := by
  revert r1 r2
  decide

/-- The effect of a paired move: two registers take their words, and `pc` passes the instruction (R461, R462). -/
structure MovesPair (q1 q2 : Reg) (v1 v2 : Word) (s t : State) : Prop where
  regs : ∀ r, t.readReg r = if r = q1 then v1 else if r = q2 then v2 else s.readReg r
  pc : t.pc = s.pc + 2#32
  system : KeepsSystem s t
  memory : KeepsMemory s t

theorem movesPair_writeReg (s : State) {q1 q2 : Reg} (h1 : q1 ≠ 0#5) (h2 : q2 ≠ 0#5) (hne : q1 ≠ q2) (v1 v2 : Word) :
    MovesPair q1 q2 v1 v2 s (((s.writeReg q1 v1).writeReg q2 v2).advance ilen16) where
  regs r := by
    rw [advance_readReg, readReg_writeReg, readReg_writeReg]
    by_cases hr1 : r = q1
    · rw [if_pos hr1, if_neg fun h => hne (hr1.symm.trans h.1), if_pos ⟨hr1, hr1 ▸ h1⟩]
    · rw [if_neg hr1, if_neg (c := r = q1 ∧ _) fun h => hr1 h.1]
      by_cases hr2 : r = q2
      · rw [if_pos hr2, if_pos ⟨hr2, hr2 ▸ h2⟩]
      · rw [if_neg hr2, if_neg fun h => hr2 h.1]
  pc := by simp [ilen16]
  system := by
    obtain ⟨x, hx, -⟩ := writeReg_eq s q1 v1
    rw [hx]
    obtain ⟨x', hx', -⟩ := writeReg_eq { s with x } q2 v2
    rw [hx']
    exact ⟨⟨rfl, fun r => by cases r <;> rfl, rfl, rfl, rfl⟩, rfl⟩
  memory := ⟨fun _ => by simp, by simp⟩

theorem exec_cmMvsa01 (s : State) {r1 r2 : ShortReg} (h : r1 ≠ r2) : ∃ t, exec (.cmMvsa01 r1 r2) s = .next t
    ∧ MovesPair (sReg r1) (sReg r2) (s.readReg a0) (s.readReg a1) s t :=
  ⟨_, if_neg h, movesPair_writeReg s (sReg_ne_zero r1) (sReg_ne_zero r2) (sReg_injective h) _ _⟩

theorem exec_cmMva01s (s : State) (r1 r2 : ShortReg) : ∃ t, exec (.cmMva01s r1 r2) s = .next t
    ∧ MovesPair a0 a1 (s.readReg (sReg r1)) (s.readReg (sReg r2)) s t :=
  ⟨_, rfl, movesPair_writeReg s (by decide) (by decide) (by decide) _ _⟩

/-- Settles O59: the encodings go by their selector, and each instruction is a `MovesPair`. -/
theorem pairedMoveResults : Obligations.PairedMoveResults := by
  intro s r1 r2 m
  have hm (raw : ShortReg) : m raw = sReg raw := sReg_eq raw
  rw [hm r1, hm r2]
  refine ⟨fun hne => ?mvsa01, ?mva01s⟩
  case mvsa01 =>
    obtain ⟨t, hexec, hregs, hpc, hsys, hmem⟩ := exec_cmMvsa01 s hne
    exact ⟨decodeCode_half_of_some ((decode16_encCmmv 0b01#2 r1 r2).trans (guardWf_of_wf (bne_iff_ne.2 hne))),
      t, hexec, hregs, hpc, hsys, hmem⟩
  case mva01s =>
    obtain ⟨t, hexec, hregs, hpc, hsys, hmem⟩ := exec_cmMva01s s r1 r2
    exact ⟨decodeCode_half_of_some (decode16_encCmmv 0b11#2 r1 r2), t, hexec, hregs, hpc, hsys, hmem⟩

/-! ## The tables of PUSH and POP -/

theorem zcmpRegs_eq (rlist : BitVec 4) : zcmpRegs rlist = listedRegs rlist := by
  revert rlist
  decide

theorem stackAdj_eq {rlist : BitVec 4} (h4 : 4 ≤ rlist.toNat) (spimm : BitVec 2) :
    stackAdj rlist spimm = BitVec.ofNat 32 (stackAdjustment rlist spimm) := by
  revert rlist spimm
  decide

theorem stackAdjustment_mod_four (rlist : BitVec 4) (spimm : BitVec 2) : stackAdjustment rlist spimm % 4 = 0 := by
  revert rlist spimm
  decide

theorem length_listedRegs_le (rlist : BitVec 4) : (listedRegs rlist).length ≤ 13 := by
  revert rlist
  decide

theorem drop_eq_getD_cons {l : List Reg} {m : Nat} (h : m < l.length) : l.drop m = l.getD m 0#5 :: l.drop (m + 1) := by
  rw [List.getD_eq_getElem _ _ h, List.drop_eq_getElem_cons h]

/-- The address of word number `k` below `top` (R455, R457). -/
def stackSlot (top : Word) (k : Nat) : Word := top - BitVec.ofNat 32 (4 * (k + 1))

theorem stackSlot_zero (top : Word) : stackSlot top 0 = top - 4#32 := rfl

theorem stackSlot_succ (top : Word) (k : Nat) : stackSlot top (k + 1) = stackSlot top k - 4#32 := by
  rw [stackSlot, stackSlot, Nat.mul_add_one 4 (k + 1), BitVec.ofNat_add]
  bv_omega

theorem aligned_stackSlot {top : Word} (h : Width.word.aligned top = true) (k : Nat) :
    Width.word.aligned (stackSlot top k) = true := by
  induction k with
  | zero => exact aligned_sub_four h
  | succ k ih =>
    rw [stackSlot_succ]
    exact aligned_sub_four ih

/-! ## The stores of a PUSH, one by one -/

theorem exec_cmPush_aligned {s : State} {rlist : BitVec 4} (h4 : 4 ≤ rlist.toNat) (spimm : BitVec 2)
    (ha : (s.readReg sp).toNat % 4 = 0) : exec (.cmPush rlist spimm) s =
      afterWrite (pushLoop (listedRegs rlist) (stackSlot (s.readReg sp) 0) s) fun t =>
        commitRd ilen16 sp (s.readReg sp - BitVec.ofNat 32 (stackAdjustment rlist spimm)) t := by
  rw [← zcmpRegs_eq, ← stackAdj_eq h4]
  exact (if_neg (Nat.not_lt.2 h4)).trans (if_pos ((Width.word_aligned_iff _).2 ha))

theorem exec_cmPush_misaligned {s : State} {rlist : BitVec 4} (h4 : 4 ≤ rlist.toNat) (spimm : BitVec 2)
    (ha : (s.readReg sp).toNat % 4 ≠ 0) : exec (.cmPush rlist spimm) s = raise .storeAlign s :=
  (if_neg (Nat.not_lt.2 h4)).trans (if_neg (mt (Width.word_aligned_iff _).1 ha))

section Loop

variable {r : Reg} {rs : List Reg} {a : Word} {s w : State}

theorem pushLoop_cons_of_ok (h : s.memWrite .word a (s.readReg r) = .ok w) :
    pushLoop (r :: rs) a s = pushLoop rs (a - 4#32) w := by
  rw [pushLoop, h]

theorem pushLoop_cons_of_fail (h : s.memWrite .word a (s.readReg r) = .fail w) : pushLoop (r :: rs) a s = .fail w := by
  rw [pushLoop, h]

theorem pushLoop_cons_of_halt {code : Int} (h : s.memWrite .word a (s.readReg r) = .halt code w) :
    pushLoop (r :: rs) a s = .halt code w := by
  rw [pushLoop, h]

end Loop

section Pushes

variable {rlist : BitVec 4} {u : Nat → State} {m : Nat} (ha : ((u 0).readReg sp).toNat % 4 = 0) (h : PushesOk rlist u m)
include ha h

theorem pushesOk_onlyMemory : OnlyMemory (u 0) (u m) := by
  induction m with
  | zero => exact .refl _
  | succ m ih =>
    exact (ih fun k hk => h k (Nat.lt_succ_of_lt hk)).trans
      (onlyMemory_memWrite_ok (aligned_stackSlot ((Width.word_aligned_iff _).2 ha) m) (h m (Nat.lt_succ_self m)))

/-- After `m` stores that succeed, PUSH goes on with the rest of its list at the next lower address. -/
theorem pushLoop_of_pushesOk (hm : m ≤ (listedRegs rlist).length) :
    pushLoop (listedRegs rlist) (stackSlot ((u 0).readReg sp) 0) (u 0) =
      pushLoop ((listedRegs rlist).drop m) (stackSlot ((u 0).readReg sp) m) (u m) := by
  induction m with
  | zero => rfl
  | succ m ih =>
    have hbefore : PushesOk rlist u m := fun k hk => h k (Nat.lt_succ_of_lt hk)
    have hstore := h m (Nat.lt_succ_self m)
    rw [← (pushesOk_onlyMemory ha hbefore).readReg ((listedRegs rlist).getD m 0#5)] at hstore
    rw [ih hbefore (Nat.le_of_succ_le hm), drop_eq_getD_cons hm, stackSlot_succ]
    exact pushLoop_cons_of_ok hstore

theorem pushLoop_of_all (hm : m = (listedRegs rlist).length) :
    pushLoop (listedRegs rlist) (stackSlot ((u 0).readReg sp) 0) (u 0) = .ok (u m) := by
  rw [pushLoop_of_pushesOk ha h hm.le, List.drop_eq_nil_of_le hm.ge, pushLoop]

variable {w : State} (hm : m < (listedRegs rlist).length)
include hm

theorem pushLoop_of_fail (hfail : (u m).memWrite .word (stackSlot ((u 0).readReg sp) m)
    ((u 0).readReg ((listedRegs rlist).getD m 0#5)) = .fail w) :
    pushLoop (listedRegs rlist) (stackSlot ((u 0).readReg sp) 0) (u 0) = .fail w := by
  rw [← (pushesOk_onlyMemory ha h).readReg ((listedRegs rlist).getD m 0#5)] at hfail
  rw [pushLoop_of_pushesOk ha h hm.le, drop_eq_getD_cons hm, pushLoop_cons_of_fail hfail]

theorem pushLoop_of_halt {code : Int} (hhalt : (u m).memWrite .word (stackSlot ((u 0).readReg sp) m)
    ((u 0).readReg ((listedRegs rlist).getD m 0#5)) = .halt code w) :
    pushLoop (listedRegs rlist) (stackSlot ((u 0).readReg sp) 0) (u 0) = .halt code w := by
  rw [← (pushesOk_onlyMemory ha h).readReg ((listedRegs rlist).getD m 0#5)] at hhalt
  rw [pushLoop_of_pushesOk ha h hm.le, drop_eq_getD_cons hm, pushLoop_cons_of_halt hhalt]

end Pushes

theorem KeepsSystem.trans {s u t : State} (h : KeepsSystem s u) (h' : KeepsSystem u t) : KeepsSystem s t :=
  ⟨⟨h'.priv.trans h.priv, fun r => (h'.csrs r).trans (h.csrs r), h'.pending.trans h.pending, h'.cfg.trans h.cfg,
    h'.freeCount.trans h.freeCount⟩, h'.reserved.trans h.reserved⟩

/-- The state a PUSH leaves, `u` being the state after its last store. -/
theorem pushed_of_onlyMemory {s u : State} (h : OnlyMemory s u) (v : Word) :
    let t := (u.writeReg sp v).advance ilen16
    WritesReg sp v s t ∧ t.pc = s.pc + 2#32 ∧ KeepsSystem s t ∧ t.ram = u.ram ∧ t.mem = u.mem := by
  obtain ⟨hkeeps, hsys, hpc⟩ := h.keeps
  have hcommit := computes_commitRd ilen16 sp v u
  exact ⟨fun r => (hcommit.regs r).trans (by rw [hkeeps r]), hcommit.pc.trans (by rw [hpc, ilen16]),
    hsys.trans hcommit.toKeepsSystem, by simp, by simp⟩

/-- Settles O55: the stores go as `pushLoop_of_pushesOk` says, up to the end of the list or the first that does not succeed. -/
theorem pushStoresAndAdjusts : Obligations.PushStoresAndAdjusts := by
  intro s rlist spimm h4 i n
  refine ⟨?code, fun ha u hu h => ?all, fun ha u m w hu hm h hfail => ?fail, fun ha u m code w hu hm h hhalt => ?halt,
    fun ha => traps_of_raise _ _ _ (exec_cmPush_misaligned h4 spimm ha)⟩
  case code =>
    have hsel : (0b10111000#8 : BitVec 8) = 0b101#3 ++ 0b11000#5 := by decide
    rw [hsel]
    exact decodeCode_half_of_some (decode16_encCmpp (decide_eq_true h4) (.inl ⟨rfl, rfl⟩))
  case all =>
    subst hu
    have hexec := exec_cmPush_aligned h4 spimm ha
    rw [pushLoop_of_all ha h rfl] at hexec
    exact ⟨_, hexec, pushed_of_onlyMemory (pushesOk_onlyMemory ha h) _⟩
  case fail =>
    subst hu
    have hexec := exec_cmPush_aligned h4 spimm ha
    rw [pushLoop_of_fail ha h hm hfail] at hexec
    exact trapsAfter_of_raise _ _ _ _ hexec
      ((pushesOk_onlyMemory ha h).trans (onlyMemory_memWrite_fail hfail).1)
  case halt =>
    subst hu
    have hexec := exec_cmPush_aligned h4 spimm ha
    rw [pushLoop_of_halt ha h hm hhalt] at hexec
    exact hexec

/-! ## A PUSH in RAM -/

/-- RAM after the first `m` stores of a PUSH whose elements lie in the window. -/
def pushedRam (s : State) (l : List Reg) : Nat → Memory
  | 0 => s.ram
  | m + 1 => ramWrite (pushedRam s l m) .word (stackSlot (s.readReg sp) m).toNat (s.readReg (l.getD m 0#5))

theorem pushedRam_wf {s : State} (hwf : s.ram.wf = true) (l : List Reg) (m : Nat) : (pushedRam s l m).wf = true := by
  induction m with
  | zero => exact hwf
  | succ m ih => exact ramWrite_wf _ _ _ _ ih

/-- The words of a PUSH do not overlap, also where the addresses wrap. -/
theorem stackSlot_disjoint (top : Word) {j k : Nat} (hj : j < 13) (hk : k < 13) (hne : j ≠ k) :
    (stackSlot top j).toNat + 4 ≤ (stackSlot top k).toNat ∨ (stackSlot top k).toNat + 4 ≤ (stackSlot top j).toNat := by
  have := top.isLt
  rw [stackSlot, stackSlot, BitVec.toNat_sub, BitVec.toNat_sub, BitVec.toNat_ofNat, BitVec.toNat_ofNat]
  omega

/-- Each word of a PUSH stands where it was stored, whatever was stored after it. -/
theorem ramRead_pushedRam {s : State} (hwf : s.ram.wf = true) (l : List Reg) {m k : Nat}
    (hm : m ≤ 13) (hk : k < m) :
    ramRead (pushedRam s l m) .word (stackSlot (s.readReg sp) k).toNat = s.readReg (l.getD k 0#5) := by
  induction m with
  | zero => cases hk
  | succ m ih =>
    rw [pushedRam]
    rcases Nat.lt_succ_iff_lt_or_eq.1 hk with hlt | rfl
    · rw [ramRead_ramWrite_ne _ _ _ _ _ _ (stackSlot_disjoint _ (by omega) (by omega) hlt.ne), ih (by omega) hlt]
    · exact ramRead_ramWrite _ _ _ _ (pushedRam_wf hwf l k)

theorem pushedRam_read_outside {s : State} (l : List Reg) {m a : Nat}
    (h : ∀ k < m, a < (stackSlot (s.readReg sp) k).toNat ∨ (stackSlot (s.readReg sp) k).toNat + 4 ≤ a) :
    (pushedRam s l m).read a = s.ram.read a := by
  induction m with
  | zero => rfl
  | succ m ih =>
    rw [pushedRam, ramWrite_read_ne _ _ _ _ _ (h m (Nat.lt_succ_self m))]
    exact ih fun k hk => h k (Nat.lt_succ_of_lt hk)

/-- In RAM every store of a PUSH succeeds (R85). -/
theorem pushesOk_pushedRam {s : State} {rlist : BitVec 4} {m : Nat}
    (hin : ∀ k < m, s.inRam (stackSlot (s.readReg sp) k) = true) :
    PushesOk rlist (fun k => { s with ram := pushedRam s (listedRegs rlist) k }) m :=
  fun k hk => State.memWrite_inside .word _ (hin k hk)

/-- The state a PUSH leaves whose elements lie in the window. -/
theorem exec_cmPush_in_ram {s : State} {rlist : BitVec 4} (h4 : 4 ≤ rlist.toNat) (spimm : BitVec 2)
    (ha : (s.readReg sp).toNat % 4 = 0)
    (hin : ∀ k < (listedRegs rlist).length, s.inRam (stackSlot (s.readReg sp) k) = true) :
    ∃ t, exec (.cmPush rlist spimm) s = .next t
      ∧ WritesReg sp (s.readReg sp - BitVec.ofNat 32 (stackAdjustment rlist spimm)) s t ∧ t.pc = s.pc + 2#32
      ∧ KeepsSystem s t ∧ t.ram = pushedRam s (listedRegs rlist) (listedRegs rlist).length ∧ t.mem = s.mem :=
  (pushStoresAndAdjusts s rlist spimm h4).2.1 ha _ rfl (pushesOk_pushedRam hin)

/-- Settles O56: the bytes are those of `pushedRam`. -/
theorem pushFrameInRam : Obligations.PushFrameInRam := by
  intro s rlist spimm h4 hwf ha n addr hin
  obtain ⟨t, hexec, -, -, -, hram, hmem⟩ := exec_cmPush_in_ram h4 spimm ha hin
  refine ⟨t, hexec, hmem, fun k hk => ?_, fun a hout => ?_⟩
  · rw [hram]
    exact ramRead_pushedRam hwf _ (length_listedRegs_le rlist) hk
  · rw [hram]
    exact pushedRam_read_outside _ hout

end Sys2Proof.Machine
end

section
/-!
PROOFS. POP, POPRET and POPRETZ (R457 to R460): the loads one by one, the registers they write, what a fault leaves; and the duality of
PUSH and POP and of the paired moves (R463).
-/

namespace Sys2Proof.Machine

/-! ## Registers written from a list -/

section Lists

variable {ps : List (Reg × Word)} {s : State} {r : Reg} {v : Word}

theorem readReg_writeRegs_of_not_mem (h : r ∉ ps.map Prod.fst) : (writeRegs ps s).readReg r = s.readReg r := by
  induction ps generalizing s with
  | nil => rfl
  | cons p ps ih =>
    rw [List.map_cons, List.mem_cons, not_or] at h
    obtain ⟨hp, hps⟩ := h
    exact (ih hps).trans (readReg_writeReg_ne s p.1 r p.2 hp)

theorem readReg_writeRegs_of_mem (hnodup : (ps.map Prod.fst).Nodup) (h0 : r ≠ 0#5) (h : (r, v) ∈ ps) :
    (writeRegs ps s).readReg r = v := by
  induction ps generalizing s with
  | nil => cases h
  | cons p ps ih =>
    obtain ⟨hp, hps⟩ := List.nodup_cons.1 hnodup
    rcases List.mem_cons.1 h with rfl | hmem
    · exact (readReg_writeRegs_of_not_mem hp).trans (readReg_writeReg_self s r v h0)
    · exact ih hps hmem

theorem popFaultRegs_cons (p : Reg × Word) (ps : List (Reg × Word)) (k : Nat) (s : State) :
    popFaultRegs (p :: ps) k s = popFaultRegs ps k (s.writeReg p.1 p.2) ∨ popFaultRegs (p :: ps) k s = popFaultRegs ps k s := by
  rw [popFaultRegs]
  split
  · exact .inl rfl
  · exact .inr rfl

theorem readReg_popFaultRegs_of_not_mem (k : Nat) (h : r ∉ ps.map Prod.fst) :
    (popFaultRegs ps k s).readReg r = s.readReg r := by
  induction ps generalizing s with
  | nil => rfl
  | cons p ps ih =>
    rw [List.map_cons, List.mem_cons, not_or] at h
    obtain ⟨hp, hps⟩ := h
    rcases popFaultRegs_cons p ps k s with hw | hw <;> rw [hw, ih hps]
    exact readReg_writeReg_ne s p.1 r p.2 hp

/-- A register loaded before the failing word holds its old or its loaded value, whichever the free value says (R460). -/
theorem readReg_popFaultRegs_of_mem (k : Nat) (hnodup : (ps.map Prod.fst).Nodup) (h : (r, v) ∈ ps) :
    (popFaultRegs ps k s).readReg r = s.readReg r ∨ (popFaultRegs ps k s).readReg r = v := by
  induction ps generalizing s with
  | nil => cases h
  | cons p ps ih =>
    obtain ⟨hp, hps⟩ := List.nodup_cons.1 hnodup
    rcases List.mem_cons.1 h with rfl | hmem
    · rcases popFaultRegs_cons (r, v) ps k s with hw | hw <;> rw [hw, readReg_popFaultRegs_of_not_mem k hp]
      · by_cases h0 : r = 0#5
        · exact .inl (by rw [h0, writeReg_zero])
        · exact .inr (readReg_writeReg_self s r v h0)
      · exact .inl rfl
    · have hne : r ≠ p.1 := fun heq => hp (heq ▸ List.mem_map_of_mem (f := Prod.fst) hmem)
      rcases popFaultRegs_cons p ps k s with hw | hw <;> rw [hw]
      · rw [← readReg_writeReg_ne s p.1 r p.2 hne]
        exact ih hps hmem
      · exact ih hps hmem

end Lists

/-! ## The listed registers -/

theorem nodup_listedRegs (rlist : BitVec 4) : (listedRegs rlist).Nodup := by
  revert rlist
  decide

/-- No list holds register 0, `sp` or `a0` (R451). -/
theorem not_mem_listedRegs (rlist : BitVec 4) : 0#5 ∉ listedRegs rlist ∧ sp ∉ listedRegs rlist ∧ a0 ∉ listedRegs rlist := by
  revert rlist
  decide

/-- The return address is listed last, so it is loaded last (R451, R457). -/
theorem listedRegs_last {rlist : BitVec 4} (h4 : 4 ≤ rlist.toNat) : 0 < (listedRegs rlist).length
    ∧ (listedRegs rlist).getD ((listedRegs rlist).length - 1) 0#5 = ra := by
  revert rlist
  decide

theorem getD_mem_listedRegs {rlist : BitVec 4} {k : Nat} (hk : k < (listedRegs rlist).length) :
    (listedRegs rlist).getD k 0#5 ∈ listedRegs rlist := by
  rw [List.getD_eq_getElem _ _ hk]
  exact List.getElem_mem hk

/-! ## The loads of a POP, one by one -/

/-- The first `m` registers of a list, each with the word loaded for it. -/
def loadedRegs (l : List Reg) (v : Nat → Word) (m : Nat) : List (Reg × Word) := (List.range m).map fun k => (l.getD k 0#5, v k)

theorem loadedRegs_succ (l : List Reg) (v : Nat → Word) (m : Nat) :
    loadedRegs l v (m + 1) = loadedRegs l v m ++ [(l.getD m 0#5, v m)] := by
  rw [loadedRegs, List.range_succ, List.map_append]
  rfl

theorem mem_loadedRegs (l : List Reg) (v : Nat → Word) {m k : Nat} (hk : k < m) :
    (l.getD k 0#5, v k) ∈ loadedRegs l v m := List.mem_map_of_mem (List.mem_range.2 hk)

theorem loadedRegs_keys {l : List Reg} (v : Nat → Word) {m : Nat} (hm : m ≤ l.length) :
    (loadedRegs l v m).map Prod.fst = l.take m := by
  induction m with
  | zero => rfl
  | succ m ih =>
    rw [loadedRegs_succ, List.map_append, ih (Nat.le_of_succ_le hm), List.take_succ_eq_append_getElem hm, List.map_singleton,
      List.getD_eq_getElem _ _ hm]

theorem popLoop_cons_of_some {r : Reg} {rs : List Reg} {a : Word} {s w : State} {v : Word}
    (h : s.memRead .word a = (some v, w)) :
    popLoop (r :: rs) a s = ((r, v) :: (popLoop rs (a - 4#32) w).1, (popLoop rs (a - 4#32) w).2) := by
  simp only [popLoop, h]

theorem popLoop_cons_of_none {r : Reg} {rs : List Reg} {a : Word} {s w : State}
    (h : s.memRead .word a = (none, w)) : popLoop (r :: rs) a s = ([], false, w) := by
  simp only [popLoop, h]

section Pops

variable {rlist : BitVec 4} {top : Word} {u : Nat → State} {v : Nat → Word} {m : Nat} (h : PopsOk top u v m)
include h

theorem popsOk_eq : ∃ mem, u m = { u 0 with mem := mem } := by
  induction m with
  | zero => exact ⟨_, rfl⟩
  | succ m ih =>
    obtain ⟨mem, hbefore⟩ := ih fun k hk => h k (Nat.lt_succ_of_lt hk)
    obtain ⟨mem', hread⟩ := memRead_eq (u m) .word (stackSlot top m)
    have hnext : ((u m).memRead .word (stackSlot top m)).2 = u (m + 1) := congrArg Prod.snd (h m (Nat.lt_succ_self m))
    exact ⟨mem', by rw [← hnext, hread, hbefore]⟩

/-- After `m` loads that succeed, POP goes on with the rest of its list at the next lower address. -/
theorem popLoop_of_popsOk (hm : m ≤ (listedRegs rlist).length) :
    popLoop (listedRegs rlist) (stackSlot top 0) (u 0) =
      (loadedRegs (listedRegs rlist) v m ++ (popLoop ((listedRegs rlist).drop m) (stackSlot top m) (u m)).1,
        (popLoop ((listedRegs rlist).drop m) (stackSlot top m) (u m)).2) := by
  induction m with
  | zero => rfl
  | succ m ih =>
    have hbefore : PopsOk top u v m := fun k hk => h k (Nat.lt_succ_of_lt hk)
    have hload : (u m).memRead .word (stackSlot top m) = (some (v m), u (m + 1)) := h m (Nat.lt_succ_self m)
    rw [ih hbefore (Nat.le_of_succ_le hm), drop_eq_getD_cons hm, stackSlot_succ, popLoop_cons_of_some hload,
      loadedRegs_succ, List.append_assoc]
    rfl

theorem popLoop_of_all (hm : m = (listedRegs rlist).length) :
    popLoop (listedRegs rlist) (stackSlot top 0) (u 0) = (loadedRegs (listedRegs rlist) v m, true, u m) := by
  rw [popLoop_of_popsOk h hm.le, List.drop_eq_nil_of_le hm.ge, popLoop, List.append_nil]

theorem popLoop_of_missing (hm : m < (listedRegs rlist).length) {w : State}
    (hmissing : (u m).memRead .word (stackSlot top m) = (none, w)) :
    popLoop (listedRegs rlist) (stackSlot top 0) (u 0) = (loadedRegs (listedRegs rlist) v m, false, w) := by
  rw [popLoop_of_popsOk h hm.le, drop_eq_getD_cons hm, popLoop_cons_of_none hmissing, List.append_nil]

end Pops

/-! ## What POP, POPRET and POPRETZ share -/

theorem exec_cmPop (rlist : BitVec 4) (spimm : BitVec 2) (s : State) :
    exec (.cmPop rlist spimm) s = popOp rlist spimm (fun t => .next (t.advance ilen16)) s := rfl

theorem exec_cmPopret (rlist : BitVec 4) (spimm : BitVec 2) (s : State) : exec (.cmPopret rlist spimm) s =
    popOp rlist spimm (fun t => .next { t with pc := clearBit0 (t.readReg ra) }) s := rfl

theorem exec_cmPopretz (rlist : BitVec 4) (spimm : BitVec 2) (s : State) : exec (.cmPopretz rlist spimm) s =
    popOp rlist spimm (fun t => .next { t.writeReg a0 0#32 with pc := clearBit0 (t.readReg ra) }) s := rfl

theorem popOp_misaligned {s : State} {rlist : BitVec 4} (h4 : 4 ≤ rlist.toNat) (spimm : BitVec 2) (next : State → Result)
    (ha : (s.readReg sp).toNat % 4 ≠ 0) : popOp rlist spimm next s = raise .loadAlign s := by
  rw [popOp, if_neg (Nat.not_lt.2 h4), if_neg (mt (Width.word_aligned_iff _).1 ha)]

section Aligned

variable {rlist : BitVec 4} {spimm : BitVec 2} {u : Nat → State} {v : Nat → Word} {m : Nat} (h4 : 4 ≤ rlist.toNat)
  (ha : ((u 0).readReg sp).toNat % 4 = 0)
  (h : PopsOk ((u 0).readReg sp + BitVec.ofNat 32 (stackAdjustment rlist spimm)) u v m)
include h4 ha h

theorem popOp_of_all (hm : m = (listedRegs rlist).length) (next : State → Result) : popOp rlist spimm next (u 0) =
    next ((writeRegs (loadedRegs (listedRegs rlist) v m) (u m)).writeReg sp
      ((u 0).readReg sp + BitVec.ofNat 32 (stackAdjustment rlist spimm))) := by
  simp only [popOp, if_neg (Nat.not_lt.2 h4), if_pos ((Width.word_aligned_iff _).2 ha), zcmpRegs_eq, stackAdj_eq h4,
    ← stackSlot_zero, popLoop_of_all h hm, if_true]

theorem popOp_of_missing (hm : m < (listedRegs rlist).length) {w : State} (hmissing : (u m).memRead .word
    (stackSlot ((u 0).readReg sp + BitVec.ofNat 32 (stackAdjustment rlist spimm)) m) = (none, w)) (next : State → Result) :
    popOp rlist spimm next (u 0) = raise .loadFault { popFaultRegs (loadedRegs (listedRegs rlist) v m) (u 0).freeCount w with
      freeCount := (u 0).freeCount + 1 } := by
  simp only [popOp, if_neg (Nat.not_lt.2 h4), if_pos ((Width.word_aligned_iff _).2 ha), zcmpRegs_eq, stackAdj_eq h4,
    ← stackSlot_zero, popLoop_of_missing h hm hmissing, if_false, Bool.false_eq_true]

end Aligned

/-- What POP has written before it returns, `u` being the state after its last load. -/
theorem popped_writeRegs {s u : State} {mem : MemPort} (hu : u = { s with mem := mem }) (rlist : BitVec 4) (top : Word)
    (v : Nat → Word) :
    Popped rlist top v s ((writeRegs (loadedRegs (listedRegs rlist) v (listedRegs rlist).length) u).writeReg sp top) := by
  have hkeys := (loadedRegs_keys v (Nat.le_refl (listedRegs rlist).length)).trans List.take_length
  obtain ⟨h0, hsp, -⟩ := not_mem_listedRegs rlist
  refine ⟨readReg_writeReg_self _ sp top (by decide), fun k hk => ?_, fun r hr hout => ?_⟩
  · have hmem := getD_mem_listedRegs hk
    rw [readReg_writeReg_ne _ _ _ _ (ne_of_mem_of_not_mem hmem hsp)]
    refine readReg_writeRegs_of_mem ?_ (ne_of_mem_of_not_mem hmem h0) (mem_loadedRegs _ v hk)
    rw [hkeys]
    exact nodup_listedRegs rlist
  · rw [readReg_writeReg_ne _ _ _ _ hr, readReg_writeRegs_of_not_mem (by rwa [hkeys]), hu]
    rfl

/-- POP, POPRET and POPRETZ whose loads succeed go on from one state, in which the registers and `sp` are written (R457). -/
theorem popOp_completes {s : State} {rlist : BitVec 4} {spimm : BitVec 2} {u : Nat → State} {v : Nat → Word}
    (h4 : 4 ≤ rlist.toNat) (ha : (s.readReg sp).toNat % 4 = 0) (hu : u 0 = s)
    (h : PopsOk (s.readReg sp + BitVec.ofNat 32 (stackAdjustment rlist spimm)) u v (listedRegs rlist).length) :
    ∃ t, (∀ next, popOp rlist spimm next s = next t)
      ∧ Popped rlist (s.readReg sp + BitVec.ofNat 32 (stackAdjustment rlist spimm)) v s t
      ∧ t.pc = s.pc ∧ KeepsSystem s t ∧ KeepsRam s t ∧ t.mem = (u (listedRegs rlist).length).mem := by
  subst hu
  obtain ⟨mem, hmem⟩ := popsOk_eq h
  refine ⟨_, popOp_of_all h4 ha h rfl, popped_writeRegs hmem rlist _ v, ?_⟩
  obtain ⟨x, hx, -⟩ := writeRegs_eq (loadedRegs (listedRegs rlist) v (listedRegs rlist).length) (u (listedRegs rlist).length)
  rw [hx, hmem]
  obtain ⟨x', hx', -⟩ := writeReg_eq { u 0 with x := x, mem := mem } sp
    ((u 0).readReg sp + BitVec.ofNat 32 (stackAdjustment rlist spimm))
  rw [hx']
  exact ⟨rfl, ⟨⟨rfl, fun r => by cases r <;> rfl, rfl, rfl, rfl⟩, rfl⟩, fun _ => rfl, rfl⟩

theorem decodeCode_cmpp {sel : BitVec 5} {sel8 : BitVec 8} {rlist : BitVec 4} {spimm : BitVec 2} {i : Instr}
    (h8 : sel8 = 0b101#3 ++ sel) (h : decode16 (encCmpp sel rlist spimm) = some i) :
    decodeCode (.half (sel8 ++ rlist ++ spimm ++ 0b10#2)) = .ok i := by
  subst h8
  exact decodeCode_half_of_some h

/-- Settles O57: the three instructions differ in what they do to the state of `popOp_completes`; ra is its last word. -/
theorem popLoadsAndReturns : Obligations.PopLoadsAndReturns := by
  intro s rlist spimm u v h4 top n lastWord ha hu h
  obtain ⟨t, hpop, ⟨hsp, hlisted, hothers⟩, hpc, hsys, hram, hmem⟩ := popOp_completes h4 ha hu h
  obtain ⟨hpos, hlast⟩ := listedRegs_last h4
  have htarget : clearBit0 (t.readReg ra) = BitVec.ofNat 32 (lastWord - lastWord % 2) := by
    rw [← hlast, hlisted _ (Nat.sub_lt hpos Nat.one_pos), clearBit0_eq_ofNat_sub]
  have hwf := decide_eq_true h4
  refine ⟨⟨?_, _, (exec_cmPop ..).trans (hpop _), ?pop⟩, ⟨?_, _, (exec_cmPopret ..).trans (hpop _), ?popret⟩,
    ⟨?_, _, (exec_cmPopretz ..).trans (hpop _), ?popretz⟩⟩
  · exact decodeCode_cmpp (by decide) (decode16_encCmpp hwf (.inr (.inl ⟨rfl, rfl⟩)))
  case pop =>
    exact ⟨⟨hsp, hlisted, hothers⟩, congrArg (· + ilen16) hpc, hsys.trans (moves_pc _ t).toKeepsSystem, hram, hmem⟩
  · exact decodeCode_cmpp (by decide) (decode16_encCmpp hwf (.inr (.inr (.inr ⟨rfl, rfl⟩))))
  case popret => exact ⟨⟨hsp, hlisted, hothers⟩, htarget, hsys.trans (moves_pc _ t).toKeepsSystem, hram, hmem⟩
  · exact decodeCode_cmpp (by decide) (decode16_encCmpp hwf (.inr (.inr (.inl ⟨rfl, rfl⟩))))
  case popretz =>
    have hj := jumps_writeReg_pc a0 0#32 (clearBit0 (t.readReg ra)) t
    have hkept {r : Reg} (hr : r ≠ a0) : State.readReg { t.writeReg a0 0#32 with pc := clearBit0 (t.readReg ra) } r = t.readReg r :=
      (hj.regs r).trans (if_neg fun h => hr h.1)
    obtain ⟨-, -, ha0⟩ := not_mem_listedRegs rlist
    exact ⟨hj.regs a0, fun r hr hrsp hout => (hkept hr).trans (hothers r hrsp hout), (hkept (by decide)).trans hsp,
      fun k hk => (hkept (ne_of_mem_of_not_mem (getD_mem_listedRegs hk) ha0)).trans (hlisted k hk), hj.pc.trans htarget,
      hsys.trans hj.toKeepsSystem, fun a => (hj.memory.ram a).trans (hram a), hj.memory.mem.trans hmem⟩

/-- The three are `popOp`, each with its own return. -/
theorem exec_pop_eq_popOp {i : Instr} {rlist : BitVec 4} {spimm : BitVec 2}
    (hi : i ∈ [Instr.cmPop rlist spimm, .cmPopret rlist spimm, .cmPopretz rlist spimm]) (s : State) :
    ∃ next, exec i s = popOp rlist spimm next s := by
  simp only [List.mem_cons, List.not_mem_nil, or_false] at hi
  rcases hi with rfl | rfl | rfl
  · exact ⟨_, exec_cmPop ..⟩
  · exact ⟨_, exec_cmPopret ..⟩
  · exact ⟨_, exec_cmPopretz ..⟩

/-- What a read leaves is the state before it but for what MEM has been asked. -/
theorem eq_of_memRead {s₀ s w : State} {mem : MemPort} {n : Width} {a : Word} {r : Option Word}
    (hs : s = { s₀ with mem := mem }) (h : s.memRead n a = (r, w)) : w = { s₀ with mem := w.mem } := by
  obtain ⟨mem', hread⟩ := memRead_eq s n a
  have hw : w = { s with mem := mem' } := (congrArg Prod.snd h).symm.trans hread
  rw [hw, hs]

/-- A POP whose load number `m` fails: one trap, and the registers loaded before it are as `popFaultRegs` leaves them (R460). -/
theorem popOp_faults {s : State} {rlist : BitVec 4} {spimm : BitVec 2} {u : Nat → State} {v : Nat → Word} {m : Nat} {w : State}
    (h4 : 4 ≤ rlist.toNat) (ha : (s.readReg sp).toNat % 4 = 0) (hu : u 0 = s) (hm : m < (listedRegs rlist).length)
    (h : PopsOk (s.readReg sp + BitVec.ofNat 32 (stackAdjustment rlist spimm)) u v m)
    (hmissing : (u m).memRead .word (stackSlot (s.readReg sp + BitVec.ofNat 32 (stackAdjustment rlist spimm)) m) = (none, w))
    (next : State → Result) :
    ∃ x, popOp rlist spimm next s = raise .loadFault { s with x := x, mem := w.mem, freeCount := s.freeCount + 1 }
      ∧ ∀ r, State.readReg { s with x := x, mem := w.mem, freeCount := s.freeCount + 1 } r
        = (popFaultRegs (loadedRegs (listedRegs rlist) v m) s.freeCount { s with mem := w.mem }).readReg r := by
  subst hu
  obtain ⟨mem, hmem⟩ := popsOk_eq h
  have hw := eq_of_memRead hmem hmissing
  have hexec := popOp_of_missing h4 ha h hm hmissing next
  rw [hw] at hexec
  obtain ⟨x, hx, -⟩ := popFaultRegs_eq (loadedRegs (listedRegs rlist) v m) (u 0).freeCount { u 0 with mem := w.mem }
  rw [hx] at hexec ⊢
  exact ⟨x, hexec, fun _ => rfl⟩

/-- Settles O58: a misaligned `sp` and a missing word each end `popOp` with their trap; the registers are those of `popFaultRegs`. -/
theorem popFaults : Obligations.PopFaults := by
  intro s rlist spimm h4 i hi top
  obtain ⟨next, hexec⟩ := exec_pop_eq_popOp hi s
  refine ⟨fun ha => traps_of_raise _ _ _ (hexec.trans (popOp_misaligned h4 spimm next ha)), ?_⟩
  intro ha u v m w hu hm h hmissing
  obtain ⟨x, hfault, hregs⟩ := popOp_faults h4 ha hu hm h hmissing next
  have htrap := trapped_trapEnter .loadFault { s with x := x, mem := w.mem, freeCount := s.freeCount + 1 }
  have hkeys := loadedRegs_keys v hm.le
  refine ⟨_, hexec.trans hfault, rfl, rfl, rfl, htrap.mstatus, htrap.pc, rfl, rfl, fun r h1 h2 h3 => ?csrs, fun _ => rfl, rfl,
    fun r hr => ?kept, fun k hk => ?loaded⟩
  case csrs => exact (htrap.csrs r h1 h2 h3).trans (by cases r <;> rfl)
  case kept => exact (htrap.regs r).trans ((hregs r).trans (readReg_popFaultRegs_of_not_mem _ (by rwa [hkeys])))
  case loaded =>
    rw [htrap.regs, hregs]
    refine readReg_popFaultRegs_of_mem _ ?_ (mem_loadedRegs _ v hk)
    rw [hkeys]
    exact (nodup_listedRegs rlist).take

/-! ## Duality -/

/-- A POP finds in RAM what a PUSH with the same list and adjustment has stored there (R463). -/
theorem popsOk_pushedRam {s t : State} {rlist : BitVec 4} (hwf : s.ram.wf = true) (hcfg : t.cfg = s.cfg)
    (hram : t.ram = pushedRam s (listedRegs rlist) (listedRegs rlist).length)
    (hin : ∀ k < (listedRegs rlist).length, s.inRam (stackSlot (s.readReg sp) k) = true) :
    PopsOk (s.readReg sp) (fun _ => t) (fun k => s.readReg ((listedRegs rlist).getD k 0#5)) (listedRegs rlist).length := by
  intro k hk
  have hint : t.inRam (stackSlot (s.readReg sp) k) = true := by
    rw [State.inRam, hcfg]
    exact hin k hk
  have hread := ramRead_pushedRam hwf (listedRegs rlist) (length_listedRegs_le rlist) hk
  rw [← hram] at hread
  show t.memRead .word (stackSlot (s.readReg sp) k) = (some (s.readReg ((listedRegs rlist).getD k 0#5)), t)
  rw [State.memRead_inside .word hint, hread]

/-- Settles O60: the POP's words are those of `popsOk_pushedRam`; the second paired move reads the registers the first wrote. -/
theorem pushPopDuality : Obligations.PushPopDuality := by
  refine ⟨?pushPop, ?moves⟩
  case pushPop =>
    intro s t t' rlist spimm h4 hwf hin ha hpush hram hcfg hsp
    obtain ⟨t₀, hpush₀, hregs, -, hsys, hram₀, -⟩ := exec_cmPush_in_ram h4 spimm ha hin
    cases hpush₀.symm.trans hpush
    have hsp' : t'.readReg sp = s.readReg sp - BitVec.ofNat 32 (stackAdjustment rlist spimm) := hsp.trans (hregs sp)
    have htop : t'.readReg sp + BitVec.ofNat 32 (stackAdjustment rlist spimm) = s.readReg sp := by
      rw [hsp', BitVec.sub_add_cancel]
    have ha' : (t'.readReg sp).toNat % 4 = 0 := by
      have hadj := stackAdjustment_mod_four rlist spimm
      rw [hsp', BitVec.toNat_sub, BitVec.toNat_ofNat]
      omega
    have hpops := popsOk_pushedRam hwf (hcfg.trans hsys.cfg) (hram.trans hram₀) hin
    rw [← htop] at hpops
    obtain ⟨w, hpop, ⟨hwsp, hlisted, hothers⟩, -⟩ := popOp_completes h4 ha' rfl hpops
    refine ⟨_, (exec_cmPop ..).trans (hpop _), hwsp.trans htop, fun r hr => ?_, hothers⟩
    obtain ⟨k, hk, rfl⟩ := List.getElem_of_mem hr
    have hread : w.readReg ((listedRegs rlist).getD k 0#5) = s.readReg ((listedRegs rlist).getD k 0#5) := hlisted k hk
    rw [List.getD_eq_getElem _ _ hk] at hread
    exact hread
  case moves =>
    intro s t r1 r2 hne hexec
    obtain ⟨t₀, hexec₀, hfirst⟩ := exec_cmMvsa01 s hne
    cases hexec₀.symm.trans hexec
    obtain ⟨u, hsecond, hpair⟩ := exec_cmMva01s t r1 r2
    refine ⟨u, hsecond, ?_, ?_⟩
    · exact (hpair.regs a0).trans (hfirst.regs (sReg r1)) |>.trans (if_pos rfl)
    · rw [show (11#5 : Reg) = a1 from rfl, hpair.regs a1, if_neg (by decide), if_pos rfl, hfirst.regs (sReg r2),
        if_neg (sReg_injective hne).symm, if_pos rfl]

end Sys2Proof.Machine
end
